-- ==== Sys2Proof/Word.lean ====
section
/-! DEFINITION. The word and byte types of the AAC SRB (00_scope.md R8: every register and memory word is 32 bits). -/

namespace Sys2Proof

/-- A register or memory word (R8). -/
abbrev Word := BitVec 32

/-- One byte lane of a word, as a host bus bridge presents it (R63). -/
abbrev Byte := BitVec 8

end Sys2Proof
end

