-- ==== Sys2Proof/Machine/Bits.lean ====
section
/-! DEFINITION. Bit fields of a word (00_scope.md R8), and a word as its four byte lanes, little-endian (20_memory.md R63). -/

namespace Sys2Proof

/-- `v[hi:lo]`, read as an unsigned integer (R8). -/
def bits (hi lo : Nat) (v : Word) : Nat := v.toNat / 2 ^ lo % 2 ^ (hi + 1 - lo)

/-- `v[b]` (R8). -/
def bit (b : Nat) (v : Word) : Bool := bits b b v == 1

/-- The word with bit `b` set when `x` holds and every other bit 0. -/
def bitWord (b : Nat) (x : Bool) : Word := if x then BitVec.ofNat 32 (2 ^ b) else 0#32

/-- Byte lane `k` of a word: lane 0 is bits [7:0], at the lowest address (R63). -/
def byteLane (w : Word) (k : Nat) : Byte := BitVec.ofNat 8 (w.toNat / 2 ^ (8 * k))

/-- The word whose byte lanes are `b0` (lowest address) to `b3` (R63). -/
def wordOfLanes (b0 b1 b2 b3 : Byte) : Word :=
  BitVec.ofNat 32 (b0.toNat + 2 ^ 8 * b1.toNat + 2 ^ 16 * b2.toNat + 2 ^ 24 * b3.toNat)

end Sys2Proof
end

