-- ==== Sys2Proof/Syntax.lean ====
section
/-! DEFINITION. The command set of the AAC SRB: one constructor per row of spec/opcode_table.json (30_encoding.md R82). -/

namespace Sys2Proof

/-- A command (R82). Channel operands are the numbers a 4-bit CA or CB field can hold; `Instr.WellFormed` says so. -/
inductive Instr where
  /-- NOP, format N (R190). -/
  | nop
  /-- IQ chC, format C (R105): inverse quantization of slot `c`. -/
  | iq (c : Nat)
  /-- MS chA, chB, format P (R123): M/S stereo decoding of the pair `(a, b)`, `a` the left slot. -/
  | ms (a b : Nat)
  /-- IS chA, chB, format P (R127): intensity stereo decoding of the pair `(a, b)`. -/
  | is (a b : Nat)
  /-- TNS chC, format C (R148): inverse temporal-noise-shaping filters of slot `c`. -/
  | tns (c : Nat)
  /-- FB chC, format C (R170): filterbank synthesis of slot `c`. -/
  | fb (c : Nat)
  /-- FEND, format N (R191): end of frame. -/
  | fend
  /-- SRST, format N (R192): soft reset. -/
  | srst
  deriving DecidableEq, Repr

/-- The channel slots a command names, in the order CA, CB (R81). -/
def Instr.channels : Instr → List Nat
  | .nop => []
  | .iq c => [c]
  | .ms a b => [a, b]
  | .is a b => [a, b]
  | .tns c => [c]
  | .fb c => [c]
  | .fend => []
  | .srst => []

end Sys2Proof
end

