-- ==== Sys2Proof/WellFormed.lean ====
section
/-! DEFINITION. Which commands have an encoding: every channel operand fits its 4-bit field (30_encoding.md R81, R86). -/

namespace Sys2Proof

/-- A channel operand is a 4-bit field and so names a slot 0..15 (R86). Whether the slot exists (`< NCH`) is checked when
the command executes, not here. -/
def channelFits (c : Nat) : Bool := c < 16

/-- Every operand fits its field (R81). -/
def Instr.wf (i : Instr) : Bool := i.channels.all channelFits

/-- `Instr.wf` as a proposition. -/
abbrev Instr.WellFormed (i : Instr) : Prop := i.wf = true

end Sys2Proof
end

