-- ==== Sys2Proof/Decode.lean ====
section
/-! DEFINITION. The command decoder and encoder (30_encoding.md R80 to R86). Decoding is total on 32-bit words and rejects an
illegal word by name (R84); the encoder is written from the same formats. -/

namespace Sys2Proof

/-- Why a word is illegal (R84): its OP is none of the eight codes of R82, or a field its format requires to be 0 is not. -/
inductive DecodeError where
  /-- OP is not defined. -/
  | undefinedOp (op : Nat)
  /-- A must-be-zero field of OP's format is not 0. -/
  | nonzeroReserved (op : Nat)
  deriving DecidableEq, Repr

/-- OP, bits [31:24] (R80). -/
def opField (w : Word) : Nat := bits 31 24 w

/-- CA, bits [23:20] (R80). -/
def caField (w : Word) : Nat := bits 23 20 w

/-- CB, bits [19:16] (R80). -/
def cbField (w : Word) : Nat := bits 19 16 w

/-- RSV, bits [15:0] (R80). -/
def rsvField (w : Word) : Nat := bits 15 0 w

/-- Format N (R81): CA, CB and RSV must be 0. -/
def decodeN (i : Instr) (w : Word) : Except DecodeError Instr :=
  if caField w = 0 ∧ cbField w = 0 ∧ rsvField w = 0 then .ok i else .error (.nonzeroReserved (opField w))

/-- Format C (R81): CB and RSV must be 0; the channel is CA. -/
def decodeC (f : Nat → Instr) (w : Word) : Except DecodeError Instr :=
  if cbField w = 0 ∧ rsvField w = 0 then .ok (f (caField w)) else .error (.nonzeroReserved (opField w))

/-- Format P (R81): RSV must be 0; the pair is (CA, CB). -/
def decodeP (f : Nat → Nat → Instr) (w : Word) : Except DecodeError Instr :=
  if rsvField w = 0 then .ok (f (caField w) (cbField w)) else .error (.nonzeroReserved (opField w))

/-- The decoder: the opcode map of R82, everything else illegal (R84). -/
def decode (w : Word) : Except DecodeError Instr :=
  match opField w with
  | 0x00 => decodeN .nop w
  | 0x01 => decodeC .iq w
  | 0x02 => decodeP .ms w
  | 0x03 => decodeP .is w
  | 0x04 => decodeC .tns w
  | 0x05 => decodeC .fb w
  | 0x10 => decodeN .fend w
  | 0x11 => decodeN .srst w
  | op => .error (.undefinedOp op)

/-- The word `OP : CA : CB : 0` (R80); an operand is cut to its 4-bit field. -/
def commandWord (op a b : Nat) : Word := BitVec.ofNat 32 (op * 2 ^ 24 + a % 16 * 2 ^ 20 + b % 16 * 2 ^ 16)

/-- The encoder, from the same opcode map and formats (R81, R82, R87). -/
def encode : Instr → Word
  | .nop => commandWord 0x00 0 0
  | .iq c => commandWord 0x01 c 0
  | .ms a b => commandWord 0x02 a b
  | .is a b => commandWord 0x03 a b
  | .tns c => commandWord 0x04 c 0
  | .fb c => commandWord 0x05 c 0
  | .fend => commandWord 0x10 0 0
  | .srst => commandWord 0x11 0 0

/-- A row of R82's match and mask list: `w` is an instance when `w &&& mask = pattern`. -/
structure OpcodeRow where
  mnemonic : String
  pattern : Word
  mask : Word
  deriving DecidableEq, Repr

/-- R82's match and mask list. -/
def opcodeTable : List OpcodeRow :=
  [⟨"NOP", 0x00000000#32, 0xFFFFFFFF#32⟩, ⟨"IQ", 0x01000000#32, 0xFF0FFFFF#32⟩, ⟨"MS", 0x02000000#32, 0xFF00FFFF#32⟩,
   ⟨"IS", 0x03000000#32, 0xFF00FFFF#32⟩, ⟨"TNS", 0x04000000#32, 0xFF0FFFFF#32⟩, ⟨"FB", 0x05000000#32, 0xFF0FFFFF#32⟩,
   ⟨"FEND", 0x10000000#32, 0xFFFFFFFF#32⟩, ⟨"SRST", 0x11000000#32, 0xFFFFFFFF#32⟩]

/-- The row a word is an instance of. -/
def OpcodeRow.hits (r : OpcodeRow) (w : Word) : Bool := w &&& r.mask == r.pattern

/-- The mnemonic of a command, as the opcode table spells it. -/
def Instr.mnemonic : Instr → String
  | .nop => "NOP"
  | .iq _ => "IQ"
  | .ms _ _ => "MS"
  | .is _ _ => "IS"
  | .tns _ => "TNS"
  | .fb _ => "FB"
  | .fend => "FEND"
  | .srst => "SRST"

/-- The command word that holds the low `nbits` bits of `w`, numbered as the opcode table numbers them; a command is one
32-bit word and the block never addresses a byte of it (R63, R80). -/
def tableWord (nbits w : Nat) : Word := BitVec.ofNat 32 (w % 2 ^ nbits)

/-- What the decoder reads from an opcode-table word. -/
def decodeTableWord (nbits w : Nat) : Option Instr :=
  match decode (tableWord nbits w) with
  | .ok i => some i
  | .error _ => none

end Sys2Proof
end

