-- ==== Sys2Proof/Machine/Binary32.lean ====
section
/-! DEFINITION. Binary32 words and the default ROUND (00_scope.md R8, R12, R13). A real is held as a fixed-point integer: `v` at
precision `p` stands for `v / 2^p`. With `p >= 149` every finite binary32 value is an exact such integer. -/

namespace Sys2Proof.Machine

/-- The exponent field of a binary32 word. -/
def expField (w : Word) : Nat := bits 30 23 w

/-- The fraction field of a binary32 word. -/
def fracField (w : Word) : Nat := bits 22 0 w

/-- The significand of a finite binary32 word, hidden bit included. -/
def significand (w : Word) : Nat := if expField w = 0 then fracField w else 2 ^ 23 + fracField w

/-- The magnitude of a finite word as a multiple of 2^-149, the unit of the subnormals. -/
def unitsOf (w : Word) : Nat := significand w * 2 ^ (max (expField w) 1 - 1)

/-- `f32(w)` as a multiple of 2^-149 (R13): both zeros read as 0, subnormals exactly, an infinity or a NaN as none. -/
def f32Units (w : Word) : Option Int :=
  if expField w = 255 then none else some (if bit 31 w then -(unitsOf w : Int) else (unitsOf w : Int))

/-- `a / 2^k` rounded to the nearest integer, ties to the even one. -/
def roundShift (a k : Nat) : Nat :=
  let q := a / 2 ^ k
  let r := a % 2 ^ k
  if 2 * r < 2 ^ k then q else if 2 ^ k < 2 * r then q + 1 else q + q % 2

/-- The bits [30:0] of the binary32 magnitude nearest to `a / 2^p`, ties to even (R12), for `p >= 149`; 0x7F800000 or more
when the rounding overflows. With `u` the exponent of the last place kept, a carry out of the significand moves the exponent
field by itself. -/
def roundMag (p a : Nat) : Nat :=
  let u := max (Nat.log2 a - 23) (p - 149)
  (u - (p - 149)) * 2 ^ 23 + roundShift a u

/-- The first magnitude that is not finite. -/
def infMag : Nat := 0x7F800000

/-- The word with sign `neg` and magnitude bits `m`. -/
def signedWord (neg : Bool) (m : Nat) : Word := BitVec.ofNat 32 ((if neg then 2 ^ 31 else 0) + m)

/-- What is known of the default ROUND of a real. -/
inductive Rounded where
  /-- It is this word. -/
  | word (w : Word)
  /-- It is a zero of a real other than 0, whose sign R12 does not give (log 8). -/
  | smallZero
  /-- It overflows: any value (R12). -/
  | overflow
  /-- The enclosure does not tell. -/
  | undecided
  deriving DecidableEq, Repr

/-- The default ROUND of a real known to lie between `lo / 2^p` and `hi / 2^p` (R12). Rounding is monotone, so when both ends
round to one word every real between them does. -/
def roundBetween (p : Nat) (lo hi : Int) : Rounded :=
  if lo = 0 ∧ hi = 0 then .word 0x00000000#32
  else if 0 < lo ∨ hi < 0 then
    if infMag ≤ roundMag p lo.natAbs ∧ infMag ≤ roundMag p hi.natAbs then .overflow
    else if roundMag p lo.natAbs = roundMag p hi.natAbs then
      if roundMag p lo.natAbs = 0 then .smallZero else .word (signedWord (lo < 0) (roundMag p lo.natAbs))
    else .undecided
  else .undecided

end Sys2Proof.Machine
end

