-- ==== Sys2Proof/Machine/Arith.lean ====
section
/-! DEFINITION. The operations the formulas of 43_tns.md and 44_filterbank.md are made of (00_scope.md R10, R11). A formula is
written once, over any representation of real numbers: enclosures (Machine/Enclosure.lean) or exact cyclotomic numbers
(Machine/Exact.lean). -/

namespace Sys2Proof.Machine

/-- A representation `R` of real numbers with the operations the formulas use. -/
structure Arith (R : Type) where
  zero : R
  /-- The real `v * 2^-149`: every finite binary32 value is one (R13). -/
  ofUnits : Int → R
  add : R → R → R
  sub : R → R → R
  mul : R → R → R
  /-- Product with the fraction `n / d`, `d > 0`. -/
  scale : Nat → Nat → R → R
  /-- `cos(pi * n / d)`, `d > 0`. -/
  cosPi : Nat → Nat → R
  /-- Whether the value is plainly zero. -/
  isZero : R → Bool

/-- `sin(pi * n / d)`: `cos(pi * n / d + 3 pi / 2)`. -/
def Arith.sinPi {R : Type} (o : Arith R) (n d : Nat) : R := o.cosPi (2 * n + 3 * d) (2 * d)

/-- Sum of a list. -/
def Arith.sum {R : Type} (o : Arith R) : List R → R
  | [] => o.zero
  | x :: xs => o.add x (o.sum xs)

end Sys2Proof.Machine
end

