-- ==== Sys2Proof/Machine/Enclosure.lean ====
section
/-! DEFINITION. Enclosures of exact reals (00_scope.md R10, R11): every real the formulas of 41 to 44 name is held between two
fixed-point integers, so that ROUND can be computed on it. At precision `p` the enclosure `(lo, hi)` holds every real between
`lo / 2^p` and `hi / 2^p`. -/

namespace Sys2Proof.Machine

/-- An enclosure, at a precision its user fixes. -/
structure Encl where
  lo : Int
  hi : Int
  deriving DecidableEq, Repr

/-- Quotient of integers rounded down, for a positive divisor. -/
def floorDiv (a : Int) (d : Nat) : Int := a / (d : Int)

/-- Quotient of integers rounded up, for a positive divisor. -/
def ceilDiv (a : Int) (d : Nat) : Int := -(-a / (d : Int))

/-- The exact value `v / 2^p`. -/
def Encl.exact (v : Int) : Encl := ⟨v, v⟩

/-- The integer `n` at precision `p`. -/
def Encl.ofInt (p : Nat) (n : Int) : Encl := Encl.exact (n * 2 ^ p)

def Encl.add (x y : Encl) : Encl := ⟨x.lo + y.lo, x.hi + y.hi⟩

def Encl.neg (x : Encl) : Encl := ⟨-x.hi, -x.lo⟩

def Encl.sub (x y : Encl) : Encl := x.add y.neg

/-- Product at precision `p`. -/
def Encl.mul (p : Nat) (x y : Encl) : Encl :=
  let a := x.lo * y.lo
  let b := x.lo * y.hi
  let c := x.hi * y.lo
  let d := x.hi * y.hi
  ⟨floorDiv (min (min a b) (min c d)) (2 ^ p), ceilDiv (max (max a b) (max c d)) (2 ^ p)⟩

/-- Product with the fraction `n / d`. -/
def Encl.scale (n d : Nat) (x : Encl) : Encl := ⟨floorDiv (x.lo * n) d, ceilDiv (x.hi * n) d⟩

/-- Quotient at precision `p` of a nonnegative by a positive enclosure. -/
def Encl.divPos (p : Nat) (x y : Encl) : Encl :=
  ⟨floorDiv (x.lo * 2 ^ p) y.hi.toNat, ceilDiv (x.hi * 2 ^ p) y.lo.toNat⟩

/-! ## Roots -/

/-- The bits from `n - 1` down of the greatest `r` with `r ^ k <= x`, on top of the bits already in `r`. -/
def rootBits (k x : Nat) : Nat → Nat → Nat
  | 0, r => r
  | n + 1, r => if (r + 2 ^ n) ^ k ≤ x then rootBits k x n (r + 2 ^ n) else rootBits k x n r

/-- The greatest `r` with `r ^ k <= x`, for `k >= 1`. -/
def rootFloor (k x : Nat) : Nat := rootBits k x (Nat.log2 x / k + 1) 0

/-- The `k`-th root of `x`, exact when it is an integer. -/
def rootEncl (k x : Nat) : Encl :=
  let r := rootFloor k x
  if r ^ k = x then Encl.exact r else ⟨r, r + 1⟩

/-- Square root at precision `p` of a nonnegative enclosure. -/
def Encl.sqrt (p : Nat) (x : Encl) : Encl :=
  ⟨rootFloor 2 (x.lo * 2 ^ p).toNat, (rootFloor 2 (x.hi * 2 ^ p).toNat : Int) + 1⟩

/-! ## pi, sine and cosine -/

/-- `n` more terms of the series `sum over j of (-1)^j / ((2j + 1) x^(2j + 1))` from term `j`, `power` enclosing
`1 / x^(2j + 1)`; what is left out is at most the first term left out. -/
def arctanTerms (x : Nat) : Nat → Nat → Encl → Encl → Encl
  | 0, j, power, acc =>
    let next := power.scale 1 (2 * j + 1)
    ⟨acc.lo - next.hi, acc.hi + next.hi⟩
  | n + 1, j, power, acc =>
    let term := power.scale 1 (2 * j + 1)
    arctanTerms x n (j + 1) (power.scale 1 (x * x)) (if j % 2 = 0 then acc.add term else acc.sub term)

/-- `arctan(1 / x)` at precision `p`, for `x >= 2`. -/
def arctanInv (p x : Nat) : Encl := arctanTerms x (p / 2 + 2) 0 ((Encl.ofInt p 1).scale 1 x) (Encl.exact 0)

/-- `pi` at precision `p`, by Machin's formula `pi = 16 arctan(1/5) - 4 arctan(1/239)`. -/
def piEncl (p : Nat) : Encl := ((arctanInv p 5).scale 16 1).sub ((arctanInv p 239).scale 4 1)

/-- `n` more terms of the series `sum over j of (-1)^j t^j / (2j)!` from term `j`, `term` enclosing `t^j / (2j)!`; what is
left out is at most the first term left out. -/
def cosTerms (p : Nat) (t : Encl) : Nat → Nat → Encl → Encl → Encl
  | 0, _, term, acc => ⟨acc.lo - term.hi, acc.hi + term.hi⟩
  | n + 1, j, term, acc =>
    cosTerms p t n (j + 1) ((term.mul p t).scale 1 ((2 * j + 1) * (2 * j + 2)))
      (if j % 2 = 0 then acc.add term else acc.sub term)

/-- `cos x` at precision `p` from an enclosure of `x^2`. -/
def cosOfSquare (p : Nat) (t : Encl) : Encl := cosTerms p t (p / 8 + 8) 0 (Encl.ofInt p 1) (Encl.exact 0)

/-- `cos(pi * n / d)` for `0 <= n <= d`, `0 < d`: an angle past the right angle is reflected. -/
def cosPiUpper (p : Nat) (pi : Encl) (n d : Nat) : Encl :=
  if 2 * n ≤ d then
    let x := pi.scale n d
    cosOfSquare p (x.mul p x)
  else
    let x := pi.scale (d - n) d
    (cosOfSquare p (x.mul p x)).neg

/-- `cos(pi * n / d)` for any `n` and `0 < d`, `pi` enclosing pi at precision `p`. -/
def cosPi (p : Nat) (pi : Encl) (n d : Nat) : Encl :=
  let r := n % (2 * d)
  if r ≤ d then cosPiUpper p pi r d else cosPiUpper p pi (2 * d - r) d

/-! ## The Bessel function of the KBD window -/

/-- `n` more terms of the series `sum over j of u^j / (j!)^2` from term `j`, `term` enclosing `u^j / (j!)^2`; once
`2u <= (j + 1)^2` what is left out is at most twice the first term left out. -/
def besselTerms (p : Nat) (u : Encl) : Nat → Nat → Encl → Encl → Encl
  | 0, _, term, acc => ⟨acc.lo, acc.hi + 2 * term.hi⟩
  | n + 1, j, term, acc =>
    besselTerms p u n (j + 1) ((term.mul p u).scale 1 ((j + 1) * (j + 1))) (acc.add term)

/-- `I0(x)` at precision `p >= 64` from an enclosure of `u = (x / 2)^2 <= 90` (R162). -/
def besselI0 (p : Nat) (u : Encl) : Encl := besselTerms p u (p / 4 + 20) 0 (Encl.ofInt p 1) (Encl.exact 0)

/-! ## The arithmetic -/

/-- Enclosure arithmetic at precision `p >= 149`. -/
def enclArith (p : Nat) : Arith Encl :=
  let pi := piEncl p
  { zero := Encl.exact 0
    ofUnits := fun v => Encl.exact (v * 2 ^ (p - 149))
    add := Encl.add
    sub := Encl.sub
    mul := Encl.mul p
    scale := Encl.scale
    cosPi := cosPi p pi
    isZero := fun x => x == Encl.exact 0 }

end Sys2Proof.Machine
end

