-- ==== Sys2Proof/Config.lean ====
section
/-! DEFINITION. What one implementation of the AAC SRB fixes (00_scope.md R7), and the free values the spec leaves open. The
free values are opaque: nothing can be proved about what they are. -/

namespace Sys2Proof

/-- SF_OFFSET (R7). -/
def Config.sfOffset : Int := 100

/-- Q_MAX, the largest quantized magnitude (R7, R103). -/
def Config.qMax : Nat := 8191

/-- SF_MIN and SF_MAX, the range of a spectral band's scalefactor (R7, R103). -/
def Config.sfMin : Int := 0
def Config.sfMax : Int := 255

/-- IS_MIN and IS_MAX, the range of an intensity position (R7, R126). -/
def Config.isMin : Int := -255
def Config.isMax : Int := 255

/-- SFB_CAP, band slots per group (R7). -/
def Config.sfbCap : Nat := 64

/-- TNS_ORDER_CAP_LONG and TNS_ORDER_CAP_SHORT (R7). -/
def Config.tnsOrderCapLong : Nat := 20
def Config.tnsOrderCapShort : Nat := 7

/-- The ID register (R22). -/
def Config.idValue : Word := 0x494D4443#32

/-- The VERSION register (R22). -/
def Config.versionValue : Word := 0x00000001#32

/-- How the block turns the exact real of a spectral or time-domain element into a binary32 word: the open parameter
ROUND/NUM of R7 and R12. -/
inductive Numerics where
  /-- The default ROUND: nearest binary32 value, ties to even, an exact zero as +0.0 (R12). -/
  | nearestEven
  /-- Some implementation's own NUM: any function of the command's input words and the element's index (R12). -/
  | implementation (id : Nat)
  deriving DecidableEq, Repr

/-- The open parameters of R7 and R60, the same for the whole life of one block. -/
structure Params where
  /-- NCH, the number of channel slots, 1..15 (R7, R28). -/
  nch : Nat
  /-- BASE, the platform's base address, a multiple of 0x10000 (R60). -/
  base : Nat
  /-- ROUND/NUM (R12). -/
  num : Numerics
  deriving DecidableEq, Repr

/-- The parameter ranges R7 and R60 allow. -/
def Params.valid (p : Params) : Bool := 1 ≤ p.nch && p.nch ≤ 15 && p.base % 0x10000 == 0

/-- NCH = 8 and the default ROUND (R7); BASE 0 is a DESIGN CHOICE (log 4). -/
def Params.default : Params := { nch := 8, base := 0, num := .nearestEven }

/-- A draw for element `elem` of a command under the default ROUND: an overflowing result, or one that reads a non-finite input
(R12, R13; log 7). `draw` is State's counter. -/
opaque Config.freeElement (draw elem : Nat) : Word

/-- Whether under the default ROUND a result that is not an exact zero but rounds to zero is stored as -0.0: R12 is silent. A
function of the command, its input words and the element's index, as S3 of 95_test_vectors.md has every command (DESIGN CHOICE,
log 8). -/
opaque Config.freeZeroSign (i : Instr) (inputs : List (Nat × Word)) (elem : Nat) : Bool

/-- A draw for the word a host read returns (R51, R66). -/
opaque Config.freeRead (draw : Nat) : Word

/-- Whether a latched command completes before the host's next access: the open point of R67 and R247 (log 2). -/
opaque Config.sequencerFirst (draw : Nat) : Bool

/-- NUM of implementation `id`: element `elem` of command `i` on its input words, each with its byte offset from BASE (R12;
log 5), whether its exact result is finite or any value under R12 and R13. -/
opaque Config.num (id : Nat) (i : Instr) (inputs : List (Nat × Word)) (elem : Nat) : Word

end Sys2Proof
end

