-- ==== Sys2Proof/Machine/State.lean ====
section
/-! DEFINITION. The state of the AAC SRB (10_state.md): its global registers, the memory that holds every channel slot's
items, the latched command, and the host's queue. Plain data throughout. -/

namespace Sys2Proof.Machine

/-- The error codes of R202. -/
inductive ErrCode where
  /-- 0x00: no error recorded. -/
  | none
  | illegalCmd
  | badChannel
  | config
  | badWindow
  | badSfb
  | badBandType
  | qRange
  | badPair
  | badMs
  | badTns
  | fatal
  | unsupported
  | badSf
  deriving DecidableEq, Repr

/-- CFG's fields (R23). -/
structure Cfg where
  /-- Bit 0: frame length 960 instead of 1024. -/
  fl960 : Bool
  /-- Bit 8: interrupt enable for STATUS.DONE. -/
  ieDone : Bool
  /-- Bit 9: interrupt enable for STATUS.ERR. -/
  ieErr : Bool
  deriving DecidableEq, Repr

/-- STATUS's fields (R24). Its reserved bits hold nothing: they read 0 (R21). -/
structure Status where
  /-- Bit 0: a command is in flight. -/
  busy : Bool
  /-- Bit 1: a command has completed. -/
  done : Bool
  /-- Bit 2: an error is recorded. -/
  err : Bool
  /-- Bit 3: the stream has begun (first successful FB). -/
  started : Bool
  /-- Bit 4: a configuration error happened. -/
  fatal : Bool
  /-- Bit 5: a host write was dropped. -/
  ovr : Bool
  /-- Bit 6: an illegal window transition was computed. -/
  wt : Bool
  /-- Bits 15:8: the recorded error. -/
  errcode : ErrCode
  deriving DecidableEq, Repr

/-- ERRINFO's fields (R27). -/
structure ErrInfo where
  /-- Bits 3:0. -/
  ch : BitVec 4
  /-- Bits 31:16. -/
  detail : BitVec 16
  deriving DecidableEq, Repr

/-- The per-slot items of R30. -/
inductive Item where
  | qspec
  | spec
  | ovl
  | pcm
  | icsInfo
  | groupLen
  | chstate
  | msCtrl
  | tnsCtrl
  | swbOffset
  | bandType
  | sf
  | msUsed
  | tnsWin
  | tnsFilt
  | tnsCoef
  deriving DecidableEq, Repr

/-- The global registers of R21. -/
inductive GlobalReg where
  | id
  | version
  | cfg
  | status
  | cmd
  | framecnt
  | errinfo
  | nchreg
  deriving DecidableEq, Repr

/-- A host-addressable location: a global register, or element `i` of an item of slot `c` (R60). -/
inductive Loc where
  | reg (r : GlobalReg)
  | item (c : Nat) (it : Item) (i : Nat)
  deriving DecidableEq, Repr

/-- What the outside world can do to the block: the host's accesses (R62), its polling loop (R87), and the platform's
power-on reset input (R231). `size` is in bytes. -/
inductive HostOp where
  | read (addr size : Nat)
  | write (addr size : Nat) (v : Word)
  /-- R87's `wait`: read STATUS until BUSY reads 0. -/
  | wait
  | powerOn
  deriving DecidableEq, Repr

/-- Memory: (byte offset from BASE, byte) pairs in one canonical form, offsets strictly rising and no entry equal to what
an unlisted offset reads as (`Mem.unlisted`). -/
abbrev Mem := List Host.Cell

/-- The whole machine. -/
structure State where
  /-- The open parameters of this block (R7, R60); NCHREG shows `params.nch` (R28). No step changes them. -/
  params : Params
  /-- CFG (R23). -/
  cfg : Cfg
  /-- STATUS (R24); `status.busy` is the sequencer's BUSY (R48). -/
  status : Status
  /-- FRAMECNT (R26). -/
  framecnt : Word
  /-- ERRINFO (R27). -/
  errinfo : ErrInfo
  /-- LATCH, the word of the last accepted CMD write (R48). -/
  latch : Word
  /-- Every item of every channel slot (R30). -/
  mem : Mem
  /-- The model's own: what the host has still to issue, first to come first (log 1). -/
  pending : List HostOp
  /-- The model's own: the words the host's reads have returned, newest first (log 1). -/
  reads : List Word
  /-- The model's own: how many draws have been made, so that each one is fresh (log 12). -/
  draws : Nat
  deriving DecidableEq, Repr

/-- Why a host access gets a bus error (R60 to R62). -/
inductive BusError where
  /-- The access is not 4 bytes wide (R62). -/
  | badSize
  /-- `addr mod 4 != 0` (R62). -/
  | misaligned
  /-- The offset is unmapped inside the block's span (R60, R61). -/
  | unmapped
  /-- The address is outside the block's span (R60, A9). -/
  | outside
  deriving DecidableEq, Repr

/-- The two faults the spec asks a model to record. -/
inductive Fault where
  /-- Raised by `hostRead` and `hostWrite`: a host access that completes with a bus error (R61, R62). Safe: no state
  changes and the run proves nothing past it. -/
  | busError (why : BusError) (addr : Nat)
  /-- Raised by a command's meaning: command `i` reads the never-written word at byte offset `addr` (R51, A6). Safe: the
  spec asks for a fault naming the command and no value is picked. -/
  | unwrittenRead (i : Instr) (addr : Nat)
  deriving DecidableEq, Repr

/-- Why an instruction has no meaning. -/
inductive Refusal where
  /-- Raised only by a rejected arm of `exec`: the instruction is not modelled yet. Safe. No arm is rejected. -/
  | notModelled (mnemonic : String)
  deriving DecidableEq, Repr

/-- CFG after reset (R230). -/
def Cfg.reset : Cfg := { fl960 := false, ieDone := false, ieErr := false }

/-- STATUS after power-on reset (R230). -/
def Status.reset : Status :=
  { busy := false, done := false, err := false, started := false, fatal := false, ovr := false, wt := false,
    errcode := .none }

/-- ERRINFO after reset (R230). -/
def ErrInfo.reset : ErrInfo := { ch := 0#4, detail := 0#16 }

/-- The machine right after power-on reset (R230), with the default parameters. Memory lists nothing: OVL and CHSTATE
read 0 and every other item holds no value (R51). LATCH 0 is a DESIGN CHOICE (log 11), as are the model's own fields
(log 1, log 12) and BASE (log 4). -/
def State.reset : State :=
  { params := Params.default
    cfg := Cfg.reset
    status := Status.reset
    framecnt := 0#32
    errinfo := ErrInfo.reset
    latch := 0#32
    mem := []
    pending := []
    reads := []
    draws := 0 }

end Sys2Proof.Machine
end

