-- ==== Sys2Proof/Machine/AddressMap.lean ====
section
/-! DEFINITION. The block's address map (10_state.md R21, R30; 20_memory.md R60): where each register and slot item lies, how
many elements it has, which bits it stores, and which offset names what. -/

namespace Sys2Proof.Machine

/-- Slot offset of an item (R30). -/
def Item.offset : Item → Nat
  | .qspec => 0x0000
  | .spec => 0x1000
  | .ovl => 0x2000
  | .pcm => 0x3000
  | .icsInfo => 0x4000
  | .groupLen => 0x4004
  | .chstate => 0x4008
  | .msCtrl => 0x400C
  | .tnsCtrl => 0x4010
  | .swbOffset => 0x4100
  | .bandType => 0x4200
  | .sf => 0x4A00
  | .msUsed => 0x5200
  | .tnsWin => 0x5300
  | .tnsFilt => 0x5400
  | .tnsCoef => 0x6000

/-- Number of 32-bit elements of an item (R30). -/
def Item.count : Item → Nat
  | .qspec => 1024
  | .spec => 1024
  | .ovl => 1024
  | .pcm => 1024
  | .icsInfo => 1
  | .groupLen => 1
  | .chstate => 1
  | .msCtrl => 1
  | .tnsCtrl => 1
  | .swbOffset => 64
  | .bandType => 512
  | .sf => 512
  | .msUsed => 16
  | .tnsWin => 8
  | .tnsFilt => 32
  | .tnsCoef => 1024

/-- The bits of an element that are stored: all of an array's word, only the named fields of a register item, whose other
bits read 0 (R30, R35 to R39, R43 to R45). -/
def Item.mask : Item → Word
  | .qspec => 0xFFFFFFFF#32
  | .spec => 0xFFFFFFFF#32
  | .ovl => 0xFFFFFFFF#32
  | .pcm => 0xFFFFFFFF#32
  | .icsInfo => 0x0F3F3F13#32
  | .groupLen => 0xFFFFFFFF#32
  | .chstate => 0x00000013#32
  | .msCtrl => 0x00000003#32
  | .tnsCtrl => 0x003F1F01#32
  | .swbOffset => 0xFFFFFFFF#32
  | .bandType => 0xFFFFFFFF#32
  | .sf => 0xFFFFFFFF#32
  | .msUsed => 0xFFFFFFFF#32
  | .tnsWin => 0x00000013#32
  | .tnsFilt => 0x00031F3F#32
  | .tnsCoef => 0xFFFFFFFF#32

/-- Whether the host can write the item (R30). -/
def Item.hostWritable : Item → Bool
  | .ovl => false
  | .pcm => false
  | .chstate => false
  | .qspec => true
  | .spec => true
  | .icsInfo => true
  | .groupLen => true
  | .msCtrl => true
  | .tnsCtrl => true
  | .swbOffset => true
  | .bandType => true
  | .sf => true
  | .msUsed => true
  | .tnsWin => true
  | .tnsFilt => true
  | .tnsCoef => true

/-- Whether R230 gives the item a reset value (zero): OVL and CHSTATE, the ChannelState of R31. -/
def Item.isChannelState : Item → Bool
  | .ovl => true
  | .chstate => true
  | .qspec => false
  | .spec => false
  | .pcm => false
  | .icsInfo => false
  | .groupLen => false
  | .msCtrl => false
  | .tnsCtrl => false
  | .swbOffset => false
  | .bandType => false
  | .sf => false
  | .msUsed => false
  | .tnsWin => false
  | .tnsFilt => false
  | .tnsCoef => false

/-- Every item of R30, in its order. -/
def Item.all : List Item :=
  [.qspec, .spec, .ovl, .pcm, .icsInfo, .groupLen, .chstate, .msCtrl, .tnsCtrl, .swbOffset, .bandType, .sf, .msUsed,
   .tnsWin, .tnsFilt, .tnsCoef]

/-- Byte offset from BASE of a global register (R21). -/
def GlobalReg.offset : GlobalReg → Nat
  | .id => 0x000
  | .version => 0x004
  | .cfg => 0x008
  | .status => 0x00C
  | .cmd => 0x010
  | .framecnt => 0x014
  | .errinfo => 0x018
  | .nchreg => 0x01C

/-- Every global register of R21, in its order. -/
def GlobalReg.all : List GlobalReg := [.id, .version, .cfg, .status, .cmd, .framecnt, .errinfo, .nchreg]

/-- Byte offset from BASE of slot `c` (R60). -/
def slotBase (c : Nat) : Nat := 0x10000 * (c + 1)

/-- Byte offset from BASE of `CH[c].NAME[i]` (R30, R60). -/
def itemAddr (c : Nat) (it : Item) (i : Nat) : Nat := slotBase c + it.offset + 4 * i

/-- Byte offset from BASE of a location. -/
def Loc.addr : Loc → Nat
  | .reg r => r.offset
  | .item c it i => itemAddr c it i

/-- The item that covers slot offset `o`, if one does (R30, R60). -/
def itemAt (o : Nat) : Option Item := Item.all.find? fun it => it.offset ≤ o && o < it.offset + 4 * it.count

/-- The location at a 4-aligned byte offset from BASE (R60); `none` where the offset is unmapped. Slots are not limited
here: the block's span is checked by `locate`. -/
def locOfOffset (off : Nat) : Option Loc :=
  if off < 0x10000 then (GlobalReg.all.find? fun r => r.offset == off).map .reg
  else (itemAt (off % 0x10000)).map fun it => .item (off / 0x10000 - 1) it ((off % 0x10000 - it.offset) / 4)

/-- The location a host access of `size` bytes at `addr` names, or the bus error it gets (R60 to R62, A8, A9). -/
def locate (p : Params) (addr size : Nat) : Except BusError Loc :=
  if size ≠ 4 then .error .badSize
  else if addr % 4 ≠ 0 then .error .misaligned
  else if addr < p.base ∨ p.base + 0x10000 * (p.nch + 1) ≤ addr then .error .outside
  else match locOfOffset (addr - p.base) with
    | none => .error .unmapped
    | some l => .ok l

/-- Whether a byte offset lies in a ChannelState item of some slot: OVL at slot offsets 0x2000 .. 0x2FFF or CHSTATE at 0x4008
.. 0x400B (R30). -/
def inChannelState (a : Nat) : Bool :=
  0x10000 ≤ a
    && ((0x2000 ≤ a % 0x10000 && a % 0x10000 < 0x3000) || (0x4008 ≤ a % 0x10000 && a % 0x10000 < 0x400C))

/-- What an unlisted byte of memory reads as: 0 in OVL and CHSTATE, which R230 resets to 0; no value anywhere else, since
those items hold none until they are written (R51). -/
def Mem.unlisted (a : Nat) : Option Byte := if inChannelState a then some 0#8 else none

end Sys2Proof.Machine
end

