-- ==== Sys2Proof/Machine/Ops.lean ====
section
/-! DEFINITION. The shared operations: memory by bytes and words (20_memory.md R62, R63), reading and storing slot items,
recording an error and returning from one (60_exceptions.md R202, R209), completion (R200), reset (R230), and the shape every
command shares (R203). -/

namespace Sys2Proof.Machine

/-! ## Memory -/

/-- The byte at offset `a`; `none` where it holds no value (R51). -/
def Mem.byte? (m : Mem) (a : Nat) : Option Byte :=
  match m.find? fun c => c.1 == a with
  | some c => some c.2
  | none => Mem.unlisted a

/-- The word at offset `a`, lowest byte first (R63); `none` where it holds no value. -/
def Mem.word? (m : Mem) (a : Nat) : Option Word :=
  match m.byte? a, m.byte? (a + 1), m.byte? (a + 2), m.byte? (a + 3) with
  | some b0, some b1, some b2, some b3 => some (wordOfLanes b0 b1 b2 b3)
  | _, _, _, _ => none

/-- The cells of the words `ws` laid out from offset `a` (R63). -/
def Mem.cells : Nat → List Word → Mem
  | _, [] => []
  | a, w :: ws =>
    (a, byteLane w 0) :: (a + 1, byteLane w 1) :: (a + 2, byteLane w 2) :: (a + 3, byteLane w 3) :: Mem.cells (a + 4) ws

/-- Store the words `ws` from offset `a`, keeping the canonical form: a byte equal to what an unlisted offset reads as is
not listed. -/
def Mem.store (m : Mem) (a : Nat) (ws : List Word) : Mem :=
  m.filter (fun c => c.1 < a)
    ++ (Mem.cells a ws).filter (fun c => decide (Mem.unlisted c.1 ≠ some c.2))
    ++ m.filter (fun c => a + 4 * ws.length ≤ c.1)

/-- The `2 ^ d` words from offset `a`, halving the memory on the way (a fast form of `Mem.word?` on each offset). -/
def Mem.gather : Nat → Mem → Nat → List (Option Word)
  | 0, m, a => [m.word? a]
  | d + 1, m, a =>
    Mem.gather d (m.filter fun c => c.1 < a + 4 * 2 ^ d) a
      ++ Mem.gather d (m.filter fun c => a + 4 * 2 ^ d ≤ c.1) (a + 4 * 2 ^ d)

/-- Offsets strictly rising. -/
def Mem.sorted : Mem → Bool
  | [] => true
  | [_] => true
  | c :: d :: m => decide (c.1 < d.1) && Mem.sorted (d :: m)

/-- No entry equal to what an unlisted offset reads as. -/
def Mem.minimal (m : Mem) : Bool := m.all fun c => decide (Mem.unlisted c.1 ≠ some c.2)

/-- The canonical form of memory. -/
def Mem.wf (m : Mem) : Bool := m.sorted && m.minimal

/-! ## Slot items -/

/-- The word `CH[c].NAME[i]`; `none` when it was never written (R51). -/
def State.item? (s : State) (c : Nat) (it : Item) (i : Nat) : Option Word := s.mem.word? (itemAddr c it i)

/-- Elements 0 .. n-1 of an item, `n` at most 1024. -/
def State.array (s : State) (c : Nat) (it : Item) (n : Nat) : List (Option Word) :=
  (s.mem.gather 10 (itemAddr c it 0)).take n

/-- `CH[c].NAME[i ..] <- ws`, the stored bits being the item's (R30). -/
def State.setItems (c : Nat) (it : Item) (i : Nat) (ws : List Word) (s : State) : State :=
  { s with mem := s.mem.store (itemAddr c it i) (ws.map (· &&& it.mask)) }

/-- Why a command ends without performing its writes. -/
inductive Stop where
  /-- `raise E(ch, detail)` (R201). -/
  | raise (e : ErrCode) (ch detail : Nat)
  /-- The command's defining formula reads the never-written word at this offset (R51). -/
  | unwritten (addr : Nat)
  deriving DecidableEq, Repr

/-- Read `CH[c].NAME[i]` for a command (R51). -/
def State.readItem (c : Nat) (it : Item) (i : Nat) (s : State) : Except Stop Word :=
  match s.item? c it i with
  | some w => .ok w
  | none => .error (.unwritten (itemAddr c it i))

/-- `f` on every element in order, ending at the first that stops: the loops of the pseudocode (R10). -/
def checkAll {α β : Type} (f : α → Except Stop β) : List α → Except Stop (List β)
  | [] => .ok []
  | x :: xs =>
    match f x with
    | .error e => .error e
    | .ok y =>
      match checkAll f xs with
      | .error e => .error e
      | .ok ys => .ok (y :: ys)

/-- `f` on every element in order, each on what the one before left, ending at the first that stops. -/
def applyAll {α σ : Type} (f : α → σ → Except Stop σ) : List α → σ → Except Stop σ
  | [], s => .ok s
  | x :: xs, s =>
    match f x s with
    | .error e => .error e
    | .ok s' => applyAll f xs s'

/-! ## Errors -/

/-- Record error `e` with `ch` and `detail` (R202): the first error after ERR was cleared is kept. -/
def recordError (e : ErrCode) (ch detail : Nat) (s : State) : State :=
  if s.status.err then s
  else
    { s with
      status := { s.status with err := true, errcode := e }
      errinfo := { ch := BitVec.ofNat 4 ch, detail := BitVec.ofNat 16 detail } }

/-- The return from an error (R209, R24, R27): clear ERR, ERRCODE and ERRINFO. -/
def clearError (s : State) : State :=
  { s with status := { s.status with err := false, errcode := .none }, errinfo := ErrInfo.reset }

/-- Completion of the latched command (R200): DONE <- 1, BUSY <- 0. `draws` moves on so that no later draw repeats one of
this command's (log 12). -/
def complete (s : State) : State :=
  { s with status := { s.status with done := true, busy := false }, draws := s.draws + 1 }

/-! ## Reset -/

/-- The reset of R230 as SRST applies it: ChannelState back to 0, every item R230 marks "power-on: unspecified" kept. -/
def softReset (s : State) : State :=
  { s with
    cfg := Cfg.reset
    status := Status.reset
    framecnt := 0#32
    errinfo := ErrInfo.reset
    latch := 0#32
    mem := s.mem.filter fun c => !inChannelState c.1 }

/-- Power-on reset (R230, R231): the block as `State.reset` has it, with this block's parameters; the host's queue and what
it has read are not the block's (log 17). -/
def powerOnReset (s : State) : State :=
  { State.reset with params := s.params, pending := s.pending, reads := s.reads, draws := s.draws }

/-! ## Commands -/

/-- The outcome of one step. -/
abbrev Result := Host.Outcome State Fault Refusal

/-- The shape every command shares, after its word has decoded (R203, R200): FATAL unless exempt, then BAD_CHANNEL on the
offending operand, then the command's own checks and writes, then completion. A body that stops has written nothing. -/
def runCommand (i : Instr) (fatalExempt : Bool) (badChannel : Option Nat) (body : Except Stop State) (s : State) : Result :=
  if s.status.fatal && !fatalExempt then .next (complete (recordError .fatal 0 0 s))
  else match badChannel with
    | some x => .next (complete (recordError .badChannel x 0 s))
    | none => match body with
      | .ok s' => .next (complete s')
      | .error (.raise e ch detail) => .next (complete (recordError e ch detail s))
      | .error (.unwritten a) => .fault (.unwrittenRead i a)

end Sys2Proof.Machine
end

