-- ==== Sys2Proof/Machine/Flags.lean ====
section
/-! DEFINITION. STATUS, CFG and ERRINFO as words, the writes that change their fields, and the interrupt line (10_state.md R21
to R29, 60_exceptions.md R202, R204, R206). -/

namespace Sys2Proof.Machine

/-- The code of an error (R202's table). -/
def ErrCode.code : ErrCode → Nat
  | .none => 0x00
  | .illegalCmd => 0x01
  | .badChannel => 0x02
  | .config => 0x03
  | .badWindow => 0x04
  | .badSfb => 0x05
  | .badBandType => 0x06
  | .qRange => 0x07
  | .badPair => 0x08
  | .badMs => 0x09
  | .badTns => 0x0A
  | .fatal => 0x0B
  | .unsupported => 0x0C
  | .badSf => 0x0D

/-- CFG as the host reads it (R23); reserved bits read 0 (R21). -/
def Cfg.toWord (c : Cfg) : Word := bitWord 0 c.fl960 ||| bitWord 8 c.ieDone ||| bitWord 9 c.ieErr

/-- STATUS as the host reads it (R24); reserved bits read 0 (R21). -/
def Status.toWord (t : Status) : Word :=
  bitWord 0 t.busy ||| bitWord 1 t.done ||| bitWord 2 t.err ||| bitWord 3 t.started ||| bitWord 4 t.fatal
    ||| bitWord 5 t.ovr ||| bitWord 6 t.wt ||| BitVec.ofNat 32 (t.errcode.code * 2 ^ 8)

/-- ERRINFO as the host reads it (R27): {DETAIL, 12'b0, CH}. -/
def ErrInfo.toWord (e : ErrInfo) : Word := BitVec.ofNat 32 (e.detail.toNat * 2 ^ 16 + e.ch.toNat)

/-- NCHREG (R28). -/
def State.nchreg (s : State) : Word := BitVec.ofNat 32 s.params.nch

/-- `L`, the frame length CFG.FL960 chooses (R7, R47). -/
def State.frameLen (s : State) : Nat := if s.cfg.fl960 then 960 else 1024

/-- The interrupt line (R206). -/
def State.irq (s : State) : Bool := (s.status.done && s.cfg.ieDone) || (s.status.err && s.cfg.ieErr)

/-- A host write of `v` to CFG (R23, R204): the enables always take their bits; FL960 takes its bit while STARTED = 0, and a
write that would change it while STARTED = 1 records CONFIG and sets FATAL instead. -/
def writeCfg (v : Word) (s : State) : State :=
  if s.status.started && bit 0 v != s.cfg.fl960 then
    let s := recordError .config 0 0 { s with cfg := { s.cfg with ieDone := bit 8 v, ieErr := bit 9 v } }
    { s with status := { s.status with fatal := true } }
  else { s with cfg := { fl960 := bit 0 v, ieDone := bit 8 v, ieErr := bit 9 v } }

/-- A host write of `v` to STATUS (R24): write 1 to clear DONE, ERR (with ERRCODE and ERRINFO), OVR and WT. -/
def writeStatus (v : Word) (s : State) : State :=
  let s := if bit 1 v then { s with status := { s.status with done := false } } else s
  let s := if bit 2 v then clearError s else s
  let s := if bit 5 v then { s with status := { s.status with ovr := false } } else s
  if bit 6 v then { s with status := { s.status with wt := false } } else s

end Sys2Proof.Machine
end

