-- ==== Sys2Proof/Machine/Operands.lean ====
section
/-! DEFINITION. What a command reads as its operands: the channel operands of its word (30_encoding.md R81, R86) and the side
information of its slot, with the derived values and predicates of 10_state.md section 4 (R47, R53 to R56). -/

namespace Sys2Proof.Machine

/-! ## Channel operands -/

/-- BAD_CHANNEL's operand for format C (R203). -/
def badChannelC (c : Nat) (s : State) : Option Nat := if s.params.nch ≤ c then some c else none

/-- BAD_CHANNEL's operand for format P (R203). -/
def badChannelP (a b : Nat) (s : State) : Option Nat :=
  if s.params.nch ≤ a then some a else if s.params.nch ≤ b then some b else if a = b then some a else none

/-! ## Side information -/

/-- ICS_INFO's fields (R35). -/
structure Ics where
  seq : Nat
  shape : Nat
  maxSfb : Nat
  numSwb : Nat
  ngroups : Nat
  deriving DecidableEq, Repr

/-- Reads ICS_INFO's fields (R35). -/
def icsOfWord (w : Word) : Ics :=
  { seq := bits 1 0 w, shape := bits 4 4 w, maxSfb := bits 13 8 w, numSwb := bits 21 16 w, ngroups := bits 27 24 w }

/-- Slot `c`'s ICS_INFO. -/
def readIcs (c : Nat) (s : State) : Except Stop Ics := do
  let w ← s.readItem c .icsInfo 0
  return icsOfWord w

/-- EIGHT_SHORT (R15). -/
def Ics.isShort (x : Ics) : Bool := x.seq == 2

/-- `glen[g]` (R36). -/
def groupLenField (g : Nat) (w : Word) : Nat := bits (4 * g + 3) (4 * g) w

/-- The windows of a frame (R47): `W` bins each, `NW` of them, and the lengths of the `G` groups. -/
structure Windows where
  len : Nat
  count : Nat
  glen : List Nat
  deriving DecidableEq, Repr

/-- `G` (R47). -/
def Windows.groups (x : Windows) : Nat := x.glen.length

/-- `group_of(w)` on the group lengths (R47): the group whose run of windows holds `w`. -/
def groupOf : List Nat → Nat → Nat
  | [], _ => 0
  | l :: ls, w => if w < l then 0 else groupOf ls (w - l) + 1

/-- `window_ok` for EIGHT_SHORT, on `G` and the group lengths (R53). -/
def groupingOk (ngroups : Nat) (glen : List Nat) : Bool :=
  1 ≤ ngroups && ngroups ≤ 8 && glen.all (1 ≤ ·) && glen.sum == 8

/-- The group lengths of slot `c` (R47). GROUP_LEN is read only if some field of it is (R36; log 10). R47 defines `glen[g]` for
`g` in 0..7 only: with NGROUPS 9 to 15 the eight existing fields are read and no more, so that `pair_ok` compares these eight
and such a slot raises BAD_WINDOW rather than BAD_PAIR when they agree (DESIGN CHOICE, log 24). -/
def readGroupLens (c ngroups : Nat) (s : State) : Except Stop (List Nat) :=
  if ngroups = 0 then .ok []
  else do
    let w ← s.readItem c .groupLen 0
    return (List.range (min ngroups 8)).map fun g => groupLenField g w

/-- The derived windows of slot `c`, or BAD_WINDOW when `window_ok(c)` is false (R47, R53). -/
def readWindows (c : Nat) (ics : Ics) (s : State) : Except Stop Windows :=
  if ics.isShort then do
    let glen ← readGroupLens c ics.ngroups s
    if groupingOk ics.ngroups glen then return { len := s.frameLen / 8, count := 8, glen := glen }
    else .error (.raise .badWindow c 0)
  else .ok { len := s.frameLen, count := 1, glen := [1] }

/-- `sfb_ok` on a band table `swb[0 .. num_swb]` (R54). -/
def sfbOk (maxSfb numSwb winLen : Nat) (swb : List Nat) : Bool :=
  maxSfb ≤ numSwb && swb.getD 0 0 == 0
    && (List.range numSwb).all (fun i => swb.getD i 0 < swb.getD (i + 1) 0)
    && swb.getD numSwb 0 ≤ winLen

/-- Elements 0 .. NUM_SWB of slot `c`'s band table, read as unsigned (R40). -/
def readSwb (c numSwb : Nat) (s : State) : Except Stop (List Nat) :=
  checkAll (fun i => do let w ← s.readItem c .swbOffset i; return w.toNat) (List.range (numSwb + 1))

/-- The band table of slot `c`, or BAD_SFB when `sfb_ok(c)` is false (R54; log 10). -/
def readBands (c : Nat) (ics : Ics) (win : Windows) (s : State) : Except Stop (List Nat) := do
  let swb ← readSwb c ics.numSwb s
  if sfbOk ics.maxSfb ics.numSwb win.len swb then return swb else .error (.raise .badSfb c 0)

/-- `band_of(c, k)`: the band below `max_sfb` that holds bin `k`, or none (R55). -/
def bandOf (swb : List Nat) (maxSfb k : Nat) : Option Nat :=
  (List.range maxSfb).find? fun b => swb.getD b 0 ≤ k && k < swb.getD (b + 1) 0

/-- Every band `(g, sfb)` with `g < G`, `sfb < max_sfb`, in g-major, sfb-minor order (R105). -/
def bandList (groups maxSfb : Nat) : List (Nat × Nat) :=
  (List.range groups).flatMap fun g => (List.range maxSfb).map fun b => (g, b)

/-- `bt[g][sfb]`, read as unsigned (R41). -/
def readBandType (c g sfb : Nat) (s : State) : Except Stop Nat := do
  let w ← s.readItem c .bandType (g * Config.sfbCap + sfb)
  return w.toNat

/-- `sf[g][sfb]`, read by `int32` (R42). -/
def readSf (c g sfb : Nat) (s : State) : Except Stop Int := do
  let w ← s.readItem c .sf (g * Config.sfbCap + sfb)
  return w.toInt

/-- The error detail `g << 8 | sfb` of a band, `w << 8 | f` of a filter (R202). -/
def bandDetail (g sfb : Nat) : Nat := g <<< 8 ||| sfb

/-- A spectral band's type, codebooks 1 to 11 (R101). -/
def isSpectral (t : Nat) : Bool := 1 ≤ t && t ≤ 11

/-- An intensity band's type (R101). -/
def isIntensity (t : Nat) : Bool := t == 14 || t == 15

/-- A reserved or illegal band type (R101). -/
def isIllegalType (t : Nat) : Bool := t == 12 || 15 < t

/-- The noise band type, which the block refuses (R101, R106). -/
def isNoise (t : Nat) : Bool := t == 13

/-- A run of consecutive bins of one band in one window: `first` is the SPEC element `w*W + swb[sfb]` (R32, R33). -/
structure Run where
  g : Nat
  sfb : Nat
  first : Nat
  len : Nat
  deriving DecidableEq, Repr

/-- The runs of every band below `max_sfb`, window by window (the loops of R123 and R127). -/
def bandRuns (win : Windows) (swb : List Nat) (maxSfb : Nat) : List Run :=
  (List.range win.count).flatMap fun w => (List.range maxSfb).map fun b =>
    { g := groupOf win.glen w, sfb := b, first := w * win.len + swb.getD b 0,
      len := swb.getD (b + 1) 0 - swb.getD b 0 }

/-- `len` SPEC words of slot `c` from element `first` (R33). -/
def readSpecRun (c first len : Nat) (s : State) : Except Stop (List Word) :=
  checkAll (fun i => s.readItem c .spec (first + i)) (List.range len)

/-! ## Pairs -/

/-- `pair_ok(a, b)` (R56). The band tables are compared only when the headers agree on their length, and GROUP_LEN only when
both are EIGHT_SHORT with the same number of groups (log 10). -/
def readPairOk (a b : Nat) (ia ib : Ics) (s : State) : Except Stop Bool :=
  if ia.seq = ib.seq ∧ ia.maxSfb = ib.maxSfb ∧ ia.numSwb = ib.numSwb then do
    let ta ← readSwb a ia.numSwb s
    let tb ← readSwb b ib.numSwb s
    if ia.isShort then
      if ia.ngroups = ib.ngroups then do
        let ga ← readGroupLens a ia.ngroups s
        let gb ← readGroupLens b ib.ngroups s
        return ta == tb && ga == gb
      else return false
    else return ta == tb
  else .ok false

/-- `ms_used[g][sfb]`: bit `sfb mod 32` of MS_USED word `2g + sfb / 32` of the left slot (R43). -/
def readMsUsed (a g sfb : Nat) (s : State) : Except Stop Bool := do
  let w ← s.readItem a .msUsed (2 * g + sfb / 32)
  return bit (sfb % 32) w

/-- `ms_used` where the rules read it: only when MMP = 1 (R43). -/
def msUsedIfPerBand (a mmp g sfb : Nat) (s : State) : Except Stop Bool :=
  if mmp = 1 then readMsUsed a g sfb s else .ok false

/-! ## TNS -/

/-- TNS_CTRL's fields (R39). -/
structure TnsCtrl where
  present : Bool
  maxOrder : Nat
  maxBands : Nat
  deriving DecidableEq, Repr

def tnsCtrlOfWord (w : Word) : TnsCtrl := { present := bit 0 w, maxOrder := bits 12 8 w, maxBands := bits 21 16 w }

/-- TNS_WIN's fields (R44). -/
structure TnsWindow where
  nfilt : Nat
  coefRes : Nat
  deriving DecidableEq, Repr

def tnsWindowOfWord (w : Word) : TnsWindow := { nfilt := bits 1 0 w, coefRes := bits 4 4 w }

/-- TNS_FILT's fields (R45). -/
structure TnsFilter where
  length : Nat
  order : Nat
  down : Bool
  compress : Nat
  deriving DecidableEq, Repr

def tnsFilterOfWord (w : Word) : TnsFilter :=
  { length := bits 5 0 w, order := bits 12 8 w, down := bit 16 w, compress := bits 17 17 w }

/-- `coef_res_bits` (R143). -/
def coefResBits (coefRes : Nat) : Nat := 3 + coefRes

/-- `nbits` (R143). -/
def coefWidth (coefRes compress : Nat) : Nat := coefResBits coefRes - compress

/-- Whether `ci` is the sign extension of an `nbits`-bit field (R143). -/
def coefInRange (nbits : Nat) (ci : Int) : Bool := -(2 ^ (nbits - 1) : Int) ≤ ci && ci ≤ 2 ^ (nbits - 1) - 1

/-- `tns_order` (R142). -/
def tnsOrder (ctrl : TnsCtrl) (fl : TnsFilter) : Nat := min fl.order ctrl.maxOrder

/-- The `i`-th coefficient index of filter `f` of window `w` (R46). -/
def readCoef (c w f i : Nat) (s : State) : Except Stop Int := do
  let v ← s.readItem c .tnsCoef ((4 * w + f) * 32 + i)
  return v.toInt

/-- The bands each filter of a window starts above and ends at, from the top down, on their lengths (R146). -/
def bandEdges : Nat → List Nat → List (Nat × Nat)
  | _, [] => []
  | top, l :: ls => (top, top - l) :: bandEdges (top - l) ls

/-- The bin a filter's range is bounded by at band `band` (R146). -/
def filterBin (ctrl : TnsCtrl) (maxSfb : Nat) (swb : List Nat) (band : Nat) : Nat :=
  swb.getD (min (min band ctrl.maxBands) maxSfb) 0

end Sys2Proof.Machine
end

