-- ==== Sys2Proof/Machine/Inputs.lean ====
section
/-! DEFINITION. The input words of each command: what an implementation's NUM may depend on (00_scope.md R12). A command's input
words are the words it reads in the state it runs in, with the fields it does not read taken as 0 (10_state.md R32 to R47; the
"Reads" lines of R105, R123, R127, R148 and R170; log 5). -/

namespace Sys2Proof.Machine

/-- A word a command reads: its byte offset from BASE and its bits. -/
abbrev Input := Nat × Word

/-- The word `CH[c].NAME[i]`, of which the command reads the bits of `mask`. -/
def readInput (c : Nat) (it : Item) (mask : Word) (i : Nat) (s : State) : Except Stop Input := do
  let w ← s.readItem c it i
  return (itemAddr c it i, w &&& mask)

/-- The elements `is` of an item. -/
def readInputs (c : Nat) (it : Item) (is : List Nat) (s : State) : Except Stop (List Input) :=
  checkAll (fun i => readInput c it 0xFFFFFFFF#32 i s) is

/-- ICS_INFO (NGROUPS for EIGHT_SHORT only, R35), the fields of GROUP_LEN that are read (R36), and SWB_OFFSET 0 .. NUM_SWB
(R40). -/
def headerInputs (c : Nat) (ics : Ics) (s : State) : Except Stop (List Input) := do
  let info ← readInput c .icsInfo (if ics.isShort then 0x0F3F3F13#32 else 0x003F3F13#32) 0 s
  let glen ← if ics.isShort ∧ ics.ngroups ≠ 0 then do
      let g ← readInput c .groupLen (BitVec.ofNat 32 (2 ^ (4 * min ics.ngroups 8) - 1)) 0 s
      return [g]
    else .ok []
  let swb ← readInputs c .swbOffset (List.range (ics.numSwb + 1)) s
  return info :: glen ++ swb

/-- Element number of band `(g, sfb)` in BAND_TYPE and SF (R41, R42). -/
def bandIndex (gb : Nat × Nat) : Nat := gb.1 * Config.sfbCap + gb.2

/-- The bands of slot `c` whose type is one of `p`. -/
def bandsOfType (p : Nat → Bool) (c : Nat) (bands : List (Nat × Nat)) (s : State) : Except Stop (List (Nat × Nat)) := do
  let types ← checkAll (fun gb => readBandType c gb.1 gb.2 s) bands
  return (bands.zip types).filterMap fun x => if p x.2 then some x.1 else none

/-- The elements of the bins of the bands `bands` (R32, R33). -/
def binsOfBands (win : Windows) (swb : List Nat) (maxSfb : Nat) (bands : List (Nat × Nat)) : List Nat :=
  ((bandRuns win swb maxSfb).filter fun r => bands.contains (r.g, r.sfb)).flatMap fun r =>
    (List.range r.len).map fun j => r.first + j

/-- The bits of MS_USED of the bands `bands`, read only when MMP = 1 (R43). -/
def msUsedInputs (a mmp : Nat) (bands : List (Nat × Nat)) (s : State) : Except Stop (List Input) :=
  if mmp = 1 then
    checkAll (fun gb => readInput a .msUsed (BitVec.ofNat 32 (2 ^ (gb.2 % 32))) (2 * gb.1 + gb.2 / 32) s) bands
  else .ok []

/-- IQ's input words (R105): SF and QSPEC in spectral bands only. -/
def iqInputs (c : Nat) (s : State) : Except Stop (List Input) := do
  let ics ← readIcs c s
  let win ← readWindows c ics s
  let swb ← readBands c ics win s
  let bands := bandList win.groups ics.maxSfb
  let header ← headerInputs c ics s
  let types ← readInputs c .bandType (bands.map bandIndex) s
  let spectral ← bandsOfType isSpectral c bands s
  let sf ← readInputs c .sf (spectral.map bandIndex) s
  let qspec ← readInputs c .qspec (binsOfBands win swb ics.maxSfb spectral) s
  return header ++ types ++ sf ++ qspec

/-- The input words of the pair checks (R122): both headers and band types, and MMP. -/
def pairInputs (a b : Nat) (ia ib : Ics) (bands : List (Nat × Nat)) (s : State) : Except Stop (List Input) := do
  let ha ← headerInputs a ia s
  let hb ← headerInputs b ib s
  let ta ← readInputs a .bandType (bands.map bandIndex) s
  let tb ← readInputs b .bandType (bands.map bandIndex) s
  let ctrl ← readInput a .msCtrl 0x00000003#32 0 s
  return ha ++ hb ++ ta ++ tb ++ [ctrl]

/-- MS's input words (R123): SPEC of both slots in the bands it decodes. -/
def msInputs (a b : Nat) (s : State) : Except Stop (List Input) := do
  let ia ← readIcs a s
  let ib ← readIcs b s
  let win ← readWindows a ia s
  let swb ← readBands a ia win s
  let bands := bandList win.groups ia.maxSfb
  let ctrl ← s.readItem a .msCtrl 0
  let pair ← pairInputs a b ia ib bands s
  let used ← msUsedInputs a (bits 1 0 ctrl) bands s
  let flags ← checkAll (fun gb => msUsedIfPerBand a (bits 1 0 ctrl) gb.1 gb.2 s) bands
  let coded ← bandsOfType (fun t => !isIntensity t) b bands s
  let active := (bands.zip flags).filterMap fun x =>
    if (bits 1 0 ctrl = 2 ∨ x.2 = true) ∧ coded.contains x.1 then some x.1 else none
  let bins := binsOfBands win swb ia.maxSfb active
  let left ← readInputs a .spec bins s
  let right ← readInputs b .spec bins s
  return pair ++ used ++ left ++ right

/-- IS's input words (R127): SF of the right slot and SPEC of the left one in the intensity bands. -/
def isInputs (a b : Nat) (s : State) : Except Stop (List Input) := do
  let ia ← readIcs a s
  let ib ← readIcs b s
  let win ← readWindows a ia s
  let swb ← readBands a ia win s
  let bands := bandList win.groups ia.maxSfb
  let ctrl ← s.readItem a .msCtrl 0
  let pair ← pairInputs a b ia ib bands s
  let intensity ← bandsOfType isIntensity b bands s
  let sf ← readInputs b .sf (intensity.map bandIndex) s
  let used ← msUsedInputs a (bits 1 0 ctrl) intensity s
  let left ← readInputs a .spec (binsOfBands win swb ia.maxSfb intensity) s
  return pair ++ sf ++ used ++ left

/-- The input words of the filters of window `w` (R148): TNS_WIN, the TNS_FILT elements below NFILT, the used coefficients of
the filters with a nonempty range, and SPEC in the ranges of the filters that run. -/
def tnsWindowInputs (c : Nat) (ctrl : TnsCtrl) (ics : Ics) (win : Windows) (swb : List Nat) (s : State) (w : Nat) :
    Except Stop (List Input) := do
  let head ← readInput c .tnsWin 0xFFFFFFFF#32 w s
  let n := (tnsWindowOfWord head.2).nfilt
  let filts ← readInputs c .tnsFilt ((List.range n).map fun f => 4 * w + f) s
  let fields := filts.map fun x => tnsFilterOfWord x.2
  let ranges := (fields.zip (bandEdges ics.numSwb (fields.map (·.length)))).map fun x =>
    (tnsOrder ctrl x.1, filterBin ctrl ics.maxSfb swb x.2.2, filterBin ctrl ics.maxSfb swb x.2.1)
  let coefs ← readInputs c .tnsCoef (ranges.zipIdx.flatMap fun x =>
    if x.1.2.1 < x.1.2.2 then (List.range x.1.1).map fun i => (4 * w + x.2) * 32 + i else []) s
  let spec ← readInputs c .spec (ranges.flatMap fun x =>
    if x.1 = 0 then [] else (List.range (x.2.2 - x.2.1)).map fun j => w * win.len + x.2.1 + j) s
  return head :: filts ++ coefs ++ spec

/-- TNS's input words (R148); TNS_CTRL alone when PRESENT = 0. -/
def tnsInputs (c : Nat) (s : State) : Except Stop (List Input) := do
  let head ← readInput c .tnsCtrl 0xFFFFFFFF#32 0 s
  let ctrl := tnsCtrlOfWord head.2
  if ctrl.present then do
    let ics ← readIcs c s
    let win ← readWindows c ics s
    let swb ← readBands c ics win s
    let header ← headerInputs c ics s
    let windows ← checkAll (tnsWindowInputs c ctrl ics win swb s) (List.range win.count)
    return head :: header ++ windows.flatten
  else return [head]

/-- FB's input words (R170): WSEQ, WSHAPE, CHSTATE, and elements 0 .. L-1 of SPEC and OVL. -/
def fbInputs (c : Nat) (s : State) : Except Stop (List Input) := do
  let info ← readInput c .icsInfo 0x00000013#32 0 s
  let prev ← readInput c .chstate 0xFFFFFFFF#32 0 s
  let spec ← readInputs c .spec (List.range s.frameLen) s
  let ovl ← readInputs c .ovl (List.range s.frameLen) s
  return info :: prev :: spec ++ ovl

/-- The words a command reads from its slots. -/
def slotInputs (i : Instr) (s : State) : Except Stop (List Input) :=
  match i with
  | .nop => .ok []
  | .iq c => iqInputs c s
  | .ms a b => msInputs a b s
  | .is a b => isInputs a b s
  | .tns c => tnsInputs c s
  | .fb c => fbInputs c s
  | .fend => .ok []
  | .srst => .ok []

/-- The input words of a command: CFG.FL960, and the words it reads from its slots. -/
def inputWords (i : Instr) (s : State) : List Input :=
  (GlobalReg.cfg.offset, bitWord 0 s.cfg.fl960) ::
    match slotInputs i s with
    | .ok xs => xs
    | .error _ => []

end Sys2Proof.Machine
end

