-- ==== Sys2Proof/Machine/Numeric.lean ====
section
/-! DEFINITION. How a command stores a spectral or time-domain element (00_scope.md R11 to R13): the exact real of its defining
formula, and the word ROUND or NUM makes of it. -/

namespace Sys2Proof.Machine

/-- The exact real of an element's defining formula (R11). -/
inductive Elem where
  /-- The formula reads an infinity or a NaN: any value (R13). -/
  | any
  /-- A real that the enclosure `x` holds at precision `p`, and `finer q` at every precision `q`. `isGrid v` says that exact
  arithmetic shows it to be `v / 2^150`: every binary32 value and every tie between two of them is such a number. -/
  | real (p : Nat) (x : Encl) (finer : Nat → Encl) (isGrid : Int → Bool)

/-- The element whose exact real is `v * 2^-149`. -/
def Elem.ofUnits (v : Int) : Elem :=
  .real 149 (Encl.exact v) (fun q => Encl.exact (v * 2 ^ (q - 149))) (fun w => w == 2 * v)

/-- The precision every element but TNS's is first enclosed at: fine enough to hold each binary32 value exactly, with guard bits
for the sums of the filterbank. -/
def prec : Nat := 384

/-- The items a command reads, as its rule's "Reads" line lists them (R105, R123, R127, R148, R170, R190 to R192). -/
def Instr.readItems : Instr → List (Nat × Item)
  | .nop => []
  | .iq c => [(c, .icsInfo), (c, .groupLen), (c, .swbOffset), (c, .bandType), (c, .sf), (c, .qspec)]
  | .ms a b =>
    [(a, .icsInfo), (b, .icsInfo), (a, .groupLen), (b, .groupLen), (a, .swbOffset), (b, .swbOffset), (a, .bandType),
     (b, .bandType), (a, .spec), (b, .spec), (a, .msCtrl), (a, .msUsed)]
  | .is a b =>
    [(a, .icsInfo), (b, .icsInfo), (a, .groupLen), (b, .groupLen), (a, .swbOffset), (b, .swbOffset), (a, .bandType),
     (b, .bandType), (a, .spec), (a, .msCtrl), (a, .msUsed), (b, .sf)]
  | .tns c =>
    [(c, .tnsCtrl), (c, .icsInfo), (c, .groupLen), (c, .swbOffset), (c, .tnsWin), (c, .tnsFilt), (c, .tnsCoef), (c, .spec)]
  | .fb c => [(c, .icsInfo), (c, .chstate), (c, .spec), (c, .ovl)]
  | .fend => []
  | .srst => []

/-! ## The default ROUND -/

/-- ROUND from finer and finer enclosures: at precision `p`, `2p`, ... , `n` times. -/
def refine (finer : Nat → Encl) : Nat → Nat → Rounded
  | 0, _ => .undecided
  | n + 1, p =>
    match roundBetween p (finer p).lo (finer p).hi with
    | .undecided => refine finer n (2 * p)
    | r => r

/-- How often `refine` may double the precision. An algebraic real of TNS or FB that is no `v / 2^150` is farther from all of
them than an enclosure at the last precision is wide: a nonzero algebraic integer has a norm of at least 1 (log 6). -/
def refinements : Nat := 64

/-- The least `v` for which `v / 2^150` is not below the enclosure, for `p >= 150`: the rounding boundary an undecided enclosure
holds, where it is less than 2^-150 wide. -/
def gridPoint (p : Nat) (x : Encl) : Int := ceilDiv x.lo (2 ^ (p - 150))

/-- The default ROUND of an element's real (R12), never undecided. Where the enclosure straddles a rounding boundary, an exact zero
or tie, the real is rounded as that boundary if exact arithmetic says it is the boundary, or if no finer enclosure parts it from the
boundary; else from the finer enclosure that does. A real that is no boundary but nearer to one than the last enclosure is wide is
rounded as the boundary (PRESUMED, log 6: only an element with a KBD window could be such). -/
def roundReal (p : Nat) (x : Encl) (finer : Nat → Encl) (isGrid : Int → Bool) : Rounded :=
  match roundBetween p x.lo x.hi with
  | .undecided =>
    if isGrid (gridPoint p x) then roundBetween 150 (gridPoint p x) (gridPoint p x)
    else match refine finer refinements (2 * p) with
      | .undecided => roundBetween 150 (gridPoint p x) (gridPoint p x)
      | r => r
  | r => r

/-! ## Storing -/

/-- The word stored for element `idx` of command `i` started in state `s` where the default ROUND is `r`: a draw where R12 leaves it
any value (log 7). Where R12 leaves the sign of a zero, the sign is free but a function of the command's input words, no draw, so
that a command run again on the same words stores the same zero (DESIGN CHOICE, log 8: R12 is silent; S3 of 95_test_vectors.md calls
a command a function of the words it reads, and R128 needs it of IS). -/
def roundedWord (s : State) (i : Instr) (idx : Nat) : Rounded → Word
  | .word w => w
  | .smallZero => if Config.freeZeroSign i (inputWords i s) idx then 0x80000000#32 else 0x00000000#32
  | .overflow => Config.freeElement s.draws idx
  | .undecided => Config.freeElement s.draws idx

/-- The word the default ROUND stores (R12, R13). -/
def nearestWord (s : State) (i : Instr) (idx : Nat) : Elem → Word
  | .any => Config.freeElement s.draws idx
  | .real p x finer isGrid => roundedWord s i idx (roundReal p x finer isGrid)

/-- The word stored for element `idx` of command `i` started in state `s` (R11, R12): by the default ROUND, or by an
implementation's NUM, any function of the command's input words and the index. Three DESIGN CHOICES where R12 and D7 let NUM replace
the whole result and another rule speaks of the element (log 5):
- NUM gives any word for an exact zero, for IQ's `q = 0` among them, although R105, R170 and A4 name +0.0 and the two zeros;
- NUM gives an element that overflows or reads an infinity or a NaN too, the same word on the same inputs, although R13, A2 and A3
  call it any value (a draw, which the default ROUND takes);
- NUM's element may depend on every input word of the command, although R105 says that an IQ bin depends only on its own `q` and its
  band's `sf`, R170 that the new OVL does not depend on the old one, and the formulas of R123, R127, R147 and R169 that an element
  depends on the words they read. -/
def storedWord (s : State) (i : Instr) (idx : Nat) (e : Elem) : Word :=
  match s.params.num with
  | .implementation id => Config.num id i (inputWords i s) idx
  | .nearestEven => nearestWord s i idx e

end Sys2Proof.Machine
end

