-- ==== Sys2Proof/Machine/Bus.lean ====
section
/-! DEFINITION. The host's accesses (20_memory.md R60 to R69; 10_state.md R21 to R30, R51), accesses while a command is in
flight among them (R66). -/

namespace Sys2Proof.Machine

/-! ## The in-flight command's write set (R48, R66) -/

/-- Whether the location is element `0 .. L-1` of item `it` of slot `c`. -/
def isFrameOf (c : Nat) (it : Item) (s : State) : Loc → Bool
  | .reg _ => false
  | .item c' it' k => c' == c && it' == it && k < s.frameLen

/-- Whether the location is a ChannelState item of any slot (R31). -/
def isChannelStateLoc : Loc → Bool
  | .reg _ => false
  | .item _ it _ => it.isChannelState

/-- The write set of a command, as its rule lists it, but for STATUS's own fields (R105, R123, R127, R148, R170, R190 to
R192). -/
def inWriteSet (i : Instr) (s : State) (l : Loc) : Bool :=
  match i with
  | .nop => false
  | .iq c => isFrameOf c .spec s l
  | .ms a b => isFrameOf a .spec s l || isFrameOf b .spec s l
  | .is _ b => isFrameOf b .spec s l
  | .tns c => isFrameOf c .spec s l
  | .fb c => isFrameOf c .pcm s l || isFrameOf c .ovl s l || l == .item c .chstate 0
  | .fend => l == .reg .framecnt
  | .srst => l == .reg .cfg || l == .reg .framecnt || l == .reg .errinfo || isChannelStateLoc l

/-- The command in flight, if one is and its word is legal (R48, R84). -/
def State.inFlight (s : State) : Option Instr :=
  if s.status.busy then (match decode s.latch with
    | .ok i => some i
    | .error _ => none)
  else none

/-! ## Reads -/

/-- STATUS as a host read returns it. FB in flight may write STARTED and WT, SRST every field; those fields read as a draw,
but BUSY never does, since the host observes completion by it (R66, R68; log 13). -/
def readStatus (s : State) : Word :=
  let draw := Config.freeRead s.draws
  match s.inFlight with
  | some (.fb _) => { s.status with started := bit 3 draw, wt := bit 6 draw : Status }.toWord
  | some .srst => draw &&& 0x0000FF7E#32 ||| 0x00000001#32
  | _ => s.status.toWord

/-- The bits of a register that are not reserved (R21, R27). -/
def GlobalReg.mask : GlobalReg → Word
  | .id => 0xFFFFFFFF#32
  | .version => 0xFFFFFFFF#32
  | .cfg => 0x00000301#32
  | .status => 0x0000FF7F#32
  | .cmd => 0x00000000#32
  | .framecnt => 0xFFFFFFFF#32
  | .errinfo => 0xFFFF000F#32
  | .nchreg => 0xFFFFFFFF#32

/-- The bits of a location that a read can return as 1: reserved bits read 0 (R21, R30). -/
def Loc.mask : Loc → Word
  | .reg r => r.mask
  | .item _ it _ => it.mask

/-- A draw for a read of a location; its reserved bits still read 0 (R51, R66, A20; log 16). -/
def drawnRead (s : State) (l : Loc) : Word := Config.freeRead s.draws &&& l.mask

/-- The current value of a location as a host read returns it (R21 to R28, R30); a never-written word reads as a draw (R51). -/
def currentValue (s : State) (l : Loc) : Word :=
  match l with
  | .reg .id => Config.idValue
  | .reg .version => Config.versionValue
  | .reg .cfg => s.cfg.toWord
  | .reg .status => readStatus s
  | .reg .cmd => 0x00000000#32
  | .reg .framecnt => s.framecnt
  | .reg .errinfo => s.errinfo.toWord
  | .reg .nchreg => s.nchreg
  | .item c it i =>
    match s.item? c it i with
    | some w => w
    | none => drawnRead s l

/-- What a host read of a location returns (R66): any value in the in-flight command's write set, else the current value. -/
def readLoc (s : State) (l : Loc) : Word :=
  match s.inFlight with
  | some i => if inWriteSet i s l then drawnRead s l else currentValue s l
  | none => currentValue s l

/-! ## Writes -/

/-- A host write of `v` to CMD while BUSY = 0 (R25, R85): LATCH <- v, BUSY <- 1. -/
def issue (v : Word) (s : State) : State := { s with latch := v, status := { s.status with busy := true } }

/-- A host write to a location while BUSY = 0 (R21 to R30): writes to read-only locations are ignored (R29). -/
def storeLoc (l : Loc) (v : Word) (s : State) : State :=
  match l with
  | .reg .id => s
  | .reg .version => s
  | .reg .cfg => writeCfg v s
  | .reg .status => writeStatus v s
  | .reg .cmd => issue v s
  | .reg .framecnt => s
  | .reg .errinfo => s
  | .reg .nchreg => s
  | .item c it i => if it.hostWritable then s.setItems c it i [v] else s

/-- A host write to a location (R66): while BUSY = 1 any write but to STATUS is dropped and sets OVR. -/
def writeLoc (l : Loc) (v : Word) (s : State) : State :=
  if s.status.busy && l != .reg .status then { s with status := { s.status with ovr := true } } else storeLoc l v s

/-! ## Accesses -/

/-- `MemRead(addr, size)` (R62). -/
def hostRead (addr size : Nat) (s : State) : Result :=
  match locate s.params addr size with
  | .error e => .fault (.busError e addr)
  | .ok l => .next { s with reads := readLoc s l :: s.reads }

/-- `MemWrite(addr, size, v)` (R62). -/
def hostWrite (addr size : Nat) (v : Word) (s : State) : Result :=
  match locate s.params addr size with
  | .error e => .fault (.busError e addr)
  | .ok l => .next (writeLoc l v s)

/-- One event from outside. `wait` comes here only once BUSY reads 0 (R87). -/
def hostEvent (op : HostOp) (s : State) : Result :=
  match op with
  | .read addr size => hostRead addr size s
  | .write addr size v => hostWrite addr size v s
  | .wait => .next s
  | .powerOn => .next (powerOnReset s)

/-- The host's turn: its next event, or nothing when it has none (R216: the block is idle between commands). -/
def hostStep (s : State) : Result :=
  match s.pending with
  | [] => .next s
  | op :: rest => hostEvent op { s with pending := rest, draws := s.draws + 1 }

end Sys2Proof.Machine
end

