-- ==== Sys2Proof/Machine/Control.lean ====
section
/-! DEFINITION. The control commands NOP, FEND and SRST (45_control.md R190 to R192). -/

namespace Sys2Proof.Machine

/-- NOP (R190): no effect. -/
def execNop (s : State) : Result := runCommand .nop false none (.ok s) s

/-- FEND (R191): FRAMECNT + 1, modulo 2^32; executes even while FATAL. -/
def execFend (s : State) : Result := runCommand .fend true none (.ok { s with framecnt := s.framecnt + 1#32 }) s

/-- SRST (R192): the reset of R230; executes even while FATAL. -/
def execSrst (s : State) : Result := runCommand .srst true none (.ok (softReset s)) s

end Sys2Proof.Machine
end

