-- ==== Sys2Proof/Machine/Dequant.lean ====
section
/-! DEFINITION. IQ: inverse quantization and scalefactor application (41_inverse_quant.md R100 to R107). -/

namespace Sys2Proof.Machine

/-- `dq(q, sf) = sign(q) |q|^(4/3) 2^((sf - SF_OFFSET)/4)` (R102) at precision `p >= 25`, as the signed 12th root of
`|q|^16 2^(3 (sf - SF_OFFSET))`. Exact whenever that root is an integer multiple of 2^-p, so whenever `dq` is rational (R107). -/
def dqEncl (p : Nat) (q sf : Int) : Encl :=
  let r := rootEncl 12 (q.natAbs ^ 16 * 2 ^ (12 * p + 3 * (sf - Config.sfOffset)).toNat)
  if q < 0 then r.neg else r

/-- The element of `dq(q, sf)`: its enclosure at the first precision always decides (log 22). -/
def dqElem (q sf : Int) : Elem := .real prec (dqEncl prec q sf) (fun p => dqEncl p q sf) (fun _ => false)

/-- The band-type check of R105 on band `(g, sfb)`. -/
def iqTypeCheck (c : Nat) (s : State) (gb : Nat × Nat) : Except Stop Nat := do
  let t ← readBandType c gb.1 gb.2 s
  if isIllegalType t then .error (.raise .badBandType c (bandDetail gb.1 gb.2))
  else if isNoise t then .error (.raise .unsupported c (bandDetail gb.1 gb.2))
  else return t

/-- The scalefactor check of R105 on band `(g, sfb)` of type `t`: the band's scalefactor if it is spectral. -/
def iqSfCheck (c : Nat) (s : State) (gbt : (Nat × Nat) × Nat) : Except Stop (Option Int) :=
  if isSpectral gbt.2 then do
    let sf ← readSf c gbt.1.1 gbt.1.2 s
    if Config.sfMin ≤ sf ∧ sf ≤ Config.sfMax then return some sf
    else .error (.raise .badSf c (bandDetail gbt.1.1 gbt.1.2))
  else .ok none

/-- The scalefactor of the spectral band that holds SPEC element `i`, or none where IQ writes +0.0: outside every band below
`max_sfb`, and in zero and intensity bands (R101, R105). `sfs` is in g-major, sfb-minor order. -/
def iqBinSf (win : Windows) (swb : List Nat) (maxSfb : Nat) (sfs : List (Option Int)) (i : Nat) : Option Int :=
  match bandOf swb maxSfb (i % win.len) with
  | none => none
  | some b => sfs.getD (groupOf win.glen (i / win.len) * maxSfb + b) none

/-- The range check of R105 on element `i`, whose QSPEC word is `q` and whose band's scalefactor is `sf`: the pair to
dequantize, if the band is spectral. -/
def iqRangeCheck (c : Nat) (sf : Option Int) (q : Option Word) (i : Nat) : Except Stop (Option (Int × Int)) :=
  match sf with
  | none => .ok none
  | some sf =>
    match q with
    | none => .error (.unwritten (itemAddr c .qspec i))
    | some w => if Config.qMax < w.toInt.natAbs then .error (.raise .qRange c i) else .ok (some (w.toInt, sf))

/-- The SPEC word IQ stores in element `i` (R101, R105). -/
def iqWord (s : State) (c i : Nat) : Option (Int × Int) → Word
  | none => 0x00000000#32
  | some (q, sf) => storedWord s (.iq c) i (dqElem q sf)

/-- IQ's checks and writes (R105). -/
def iqBody (c : Nat) (s : State) : Except Stop State := do
  let ics ← readIcs c s
  let win ← readWindows c ics s
  let swb ← readBands c ics win s
  let bands := bandList win.groups ics.maxSfb
  let types ← checkAll (iqTypeCheck c s) bands
  let sfs ← checkAll (iqSfCheck c s) (bands.zip types)
  let bins ← checkAll (fun qi => iqRangeCheck c (iqBinSf win swb ics.maxSfb sfs qi.2) qi.1 qi.2)
    (s.array c .qspec s.frameLen).zipIdx
  return s.setItems c .spec 0 (bins.zipIdx.map fun bi => iqWord s c bi.2 bi.1)

/-- IQ (R105). -/
def execIq (c : Nat) (s : State) : Result := runCommand (.iq c) false (badChannelC c s) (iqBody c s) s

end Sys2Proof.Machine
end

