-- ==== Sys2Proof/Machine/Exact.lean ====
section
/-! DEFINITION. Exact arithmetic on the real numbers of TNS and of FB's sine windows: sums of rational multiples of powers of a
root of unity. It decides whether such a real is a given rational, which no enclosure does: ROUND of 00_scope.md R12 asks for it
at an exact zero and at an exact tie. -/

namespace Sys2Proof.Machine

/-- The number `(sum of c * z^k over the terms (k, c)) / den`, `z = e^(2 pi i / M)` for the order `M` its user fixes. -/
structure Cyc where
  den : Nat
  terms : List (Nat × Int)
  deriving DecidableEq, Repr

/-- Terms of equal exponent added up, exponents below `2^d`, the result without zeros: by the exponents' bits. -/
def collect : Nat → List (Nat × Int) → List (Nat × Int)
  | _, [] => []
  | 0, t :: ts => if ((t :: ts).map (·.2)).sum = 0 then [] else [(t.1, ((t :: ts).map (·.2)).sum)]
  | d + 1, t :: ts =>
    collect d ((t :: ts).filter fun u => u.1 / 2 ^ d % 2 == 0) ++ collect d ((t :: ts).filter fun u => u.1 / 2 ^ d % 2 == 1)

/-- Bits of an exponent: every order used is at most `2^13`. -/
def exponentBits : Nat := 13

/-- The terms times `c * z^a`. -/
def timesMonomial (M a : Nat) (c : Int) (ts : List (Nat × Int)) : List (Nat × Int) :=
  ts.map fun t => ((t.1 + a) % M, t.2 * c)

/-- The terms of a product. -/
def mulTerms (M : Nat) (xs ys : List (Nat × Int)) : List (Nat × Int) :=
  collect exponentBits (xs.flatMap fun t => timesMonomial M t.1 t.2 ys)

/-- The primes that divide an order (every order used is made of these). -/
def primesOf (M : Nat) : List Nat := [2, 3, 5, 7, 17].filter fun q => M % q == 0

/-- Whether the sum of the terms is zero. Times `z^(M/q) - 1` for each prime `q` that divides `M`, the terms as a polynomial
vanish at every `M`-th root of unity that is not primitive, so they vanish modulo `z^M - 1` exactly when they are zero at the
primitive ones. -/
def vanishes (M : Nat) (ts : List (Nat × Int)) : Bool :=
  ((primesOf M).foldl (fun ts q => collect exponentBits (timesMonomial M (M / q) 1 ts ++ timesMonomial M 0 (-1) ts))
    (collect exponentBits ts)).isEmpty

def Cyc.zero : Cyc := ⟨1, []⟩

/-- The rational `v / d`. -/
def Cyc.rational (v : Int) (d : Nat) : Cyc := ⟨d, if v = 0 then [] else [(0, v)]⟩

/-- `c` times a number plus `c'` times another. -/
def Cyc.combine (c c' : Int) (x y : Cyc) : Cyc :=
  let d := Nat.lcm x.den y.den
  ⟨d, collect exponentBits (x.terms.map (fun t => (t.1, t.2 * c * (d / x.den : Nat)))
    ++ y.terms.map (fun t => (t.1, t.2 * c' * (d / y.den : Nat))))⟩

def Cyc.mul (M : Nat) (x y : Cyc) : Cyc := ⟨x.den * y.den, mulTerms M x.terms y.terms⟩

/-- Product with the fraction `n / d`. -/
def Cyc.scale (n d : Nat) (x : Cyc) : Cyc := ⟨x.den * d, if n = 0 then [] else x.terms.map fun t => (t.1, t.2 * n)⟩

/-- `cos(pi * n / d) = (z^u + z^-u) / 2` with `u = M n / (2 d)`, for a multiple `M n` of `2 d`. -/
def Cyc.cosPi (M n d : Nat) : Cyc :=
  let u := M * n / (2 * d) % M
  ⟨2, collect exponentBits [(u, 1), ((M - u) % M, 1)]⟩

/-- Exact arithmetic in order `M`; `none` is a real that it does not know. Zero times such a real is zero. -/
def exactArith (M : Nat) : Arith (Option Cyc) :=
  { zero := some Cyc.zero
    ofUnits := fun v => some (Cyc.rational v (2 ^ 149))
    add := fun x y => match x, y with
      | some x, some y => some (x.combine 1 1 y)
      | _, _ => none
    sub := fun x y => match x, y with
      | some x, some y => some (x.combine 1 (-1) y)
      | _, _ => none
    mul := fun x y => match x, y with
      | some x, some y => some (x.mul M y)
      | some x, none => if vanishes M x.terms then some Cyc.zero else none
      | none, some y => if vanishes M y.terms then some Cyc.zero else none
      | none, none => none
    scale := fun n d x => x.map (Cyc.scale n d)
    cosPi := fun n d => some (Cyc.cosPi M n d)
    isZero := fun x => match x with
      | some x => x.terms.isEmpty
      | none => false }

/-- Whether exact arithmetic shows the number to be `v / 2^150`. -/
def equalsGrid (M : Nat) (x : Option Cyc) (v : Int) : Bool :=
  match x with
  | some x => vanishes M (x.combine 1 (-1) (Cyc.rational v (2 ^ 150))).terms
  | none => false

end Sys2Proof.Machine
end

