-- ==== Sys2Proof/Machine/Filterbank.lean ====
section
/-! DEFINITION. FB: IMDCT filterbank with window overlap-add (44_filterbank.md R160 to R173). -/

namespace Sys2Proof.Machine

/-! ## Window tables (R49) -/

/-- `WIN(0, N)[n] = sin(pi/N (n + 1/2))` (R161). -/
def sineWindow {R : Type} (o : Arith R) (N : Nat) : List R := (List.range N).map fun n => o.sinPi (2 * n + 1) (2 * N)

/-- `alpha` of R162. -/
def kbdAlpha (N : Nat) : Nat := if N = 2048 ∨ N = 1920 then 4 else 6

/-- `I0(pi alpha sqrt(1 - ((q - N/4)/(N/4))^2))` (R162), the numerator of `Wk(q)`: with `u` the square of half the argument,
`u = (pi alpha / 2)^2 * 8 q (N - 2q) / N^2`. -/
def kbdKernel (p : Nat) (piSq : Encl) (N q : Nat) : Encl :=
  besselI0 p (piSq.scale (kbdAlpha N ^ 2 * (8 * q * (N - 2 * q))) (4 * N ^ 2))

/-- Running sums of a list of enclosures. -/
def runningSums : List Encl → Encl → List Encl
  | [], _ => []
  | x :: xs, acc => acc.add x :: runningSums xs (acc.add x)

/-- `WIN(1, N)` (R162): square roots of the running sums of `Wk` over their total. The common factor `1 / I0(pi alpha)` of
every `Wk` cancels in each quotient. -/
def kbdWindow (p N : Nat) : List Encl :=
  let pi := piEncl p
  let piSq := pi.mul p pi
  let sums := runningSums ((List.range (N / 2 + 1)).map (kbdKernel p piSq N)) (Encl.exact 0)
  let total := sums.getD (N / 2) (Encl.ofInt p 1)
  let half := (sums.take (N / 2)).map fun x => (x.divPos p total).sqrt p
  half ++ half.reverse

/-- The window tables over a representation of real numbers: the sine windows, and what it has for the KBD ones. -/
def windowTable {R : Type} (o : Arith R) (kbd : Nat → List R) (shape N : Nat) : List R :=
  if shape = 0 then sineWindow o N else kbd N

/-! ## The inverse transform -/

/-- The real `X[k] * cos((2 pi / N) (n + n0) (k + 1/2))` with `n0 = (N/2 + 1)/2` (R163); plainly 0 where `X[k]` is. -/
def imdctTerm {R : Type} (o : Arith R) (N n k : Nat) (x : R) : R :=
  if o.isZero x then o.zero else o.mul x (o.cosPi ((2 * n + N / 2 + 1) * (2 * k + 1)) (2 * N))

/-- `IMDCT_N(X)[n]` (R163). -/
def imdct {R : Type} (o : Arith R) (N : Nat) (xs : List R) (n : Nat) : R :=
  o.scale 2 N (o.sum (xs.zipIdx.map fun xk => imdctTerm o N n xk.2 xk.1))

/-- The values of a list none of which is any value. -/
def allKnown {R : Type} : List (Option R) → Option (List R)
  | [] => some []
  | none :: _ => none
  | some x :: xs => (allKnown xs).map (x :: ·)

/-- `IMDCT_N(X)[n]`: none when a coefficient is not finite (R13). -/
def imdctAt {R : Type} (o : Arith R) (N : Nat) (xs : List (Option R)) (n : Nat) : Option R :=
  (allKnown xs).map fun ys => imdct o N ys n

/-! ## The windowed frame -/

/-- What a frame's windowing reads: the frame length, the spectrum (none for a bin that is not finite, R13), and the window
tables of the previous and the current shape at the long and the short length (R164). -/
structure FrameInput (R : Type) where
  L : Nat
  spec : List (Option R)
  prevLong : List R
  curLong : List R
  prevShort : List R
  curShort : List R

/-- `S` (R7). -/
def FrameInput.S {R : Type} (x : FrameInput R) : Nat := x.L / 8

/-- An IMDCT output times element `n` of a window. -/
def windowed {R : Type} (o : Arith R) (x : Option R) (w : List R) (n : Nat) : Option R := x.map fun v => o.mul v (w.getD n o.zero)

/-- The long transform of the frame at `n` (R165, R166, R168). -/
def FrameInput.longAt {R : Type} (o : Arith R) (x : FrameInput R) (n : Nat) : Option R := imdctAt o (2 * x.L) x.spec n

/-- `z[n]` of ONLY_LONG (R165). -/
def zOnlyLong {R : Type} (o : Arith R) (x : FrameInput R) (n : Nat) : Option R :=
  if n < x.L then windowed o (x.longAt o n) x.prevLong n else windowed o (x.longAt o n) x.curLong n

/-- `z[n]` of LONG_START (R166). -/
def zLongStart {R : Type} (o : Arith R) (x : FrameInput R) (n : Nat) : Option R :=
  let A := 3 * x.L / 2 - x.S / 2
  let B := 3 * x.L / 2 + x.S / 2
  if n < x.L then windowed o (x.longAt o n) x.prevLong n
  else if n < A then x.longAt o n
  else if n < B then windowed o (x.longAt o n) x.curShort (n - A + x.S)
  else some o.zero

/-- Sum of values of which none means any value. -/
def sumKnown {R : Type} (o : Arith R) : List (Option R) → Option R
  | [] => some o.zero
  | none :: _ => none
  | some x :: xs => (sumKnown o xs).map (o.add x)

/-- `z[n]` of EIGHT_SHORT (R167): the left half of the first window has the previous shape. -/
def zEightShort {R : Type} (o : Arith R) (x : FrameInput R) (n : Nat) : Option R :=
  let O := x.L / 2 - x.S / 2
  sumKnown o (((List.range 8).filter fun j => O + j * x.S ≤ n && n < O + j * x.S + 2 * x.S).map fun j =>
    windowed o (imdctAt o (2 * x.S) ((x.spec.drop (j * x.S)).take x.S) (n - O - j * x.S))
      (if j = 0 ∧ n - O - j * x.S < x.S then x.prevShort else x.curShort) (n - O - j * x.S))

/-- `z[n]` of LONG_STOP (R168). -/
def zLongStop {R : Type} (o : Arith R) (x : FrameInput R) (n : Nat) : Option R :=
  let A := x.L / 2 - x.S / 2
  let B := x.L / 2 + x.S / 2
  if n < A then some o.zero
  else if n < B then windowed o (x.longAt o n) x.prevShort (n - A)
  else if n < x.L then x.longAt o n
  else windowed o (x.longAt o n) x.curLong n

/-- The windowed frame `z[n]` of a window sequence (R165 to R168); none where it reads a value that is not finite (R13). -/
def frameAt {R : Type} (o : Arith R) (seq : Nat) (x : FrameInput R) (n : Nat) : Option R :=
  match seq with
  | 0 => zOnlyLong o x n
  | 1 => zLongStart o x n
  | 2 => zEightShort o x n
  | _ => zLongStop o x n

/-- The frame FB transforms, with the window tables its shapes select (R164, R170). -/
def frameInput {R : Type} (o : Arith R) (kbd : Nat → List R) (L : Nat) (spec : List Word) (prevShape shape : Nat) :
    FrameInput R :=
  { L := L
    spec := spec.map fun w => (f32Units w).map o.ofUnits
    prevLong := windowTable o kbd prevShape (2 * L)
    curLong := windowTable o kbd shape (2 * L)
    prevShort := windowTable o kbd prevShape (2 * (L / 8))
    curShort := windowTable o kbd shape (2 * (L / 8)) }

/-- The frame as enclosures at precision `p`. -/
def enclFrame (p L : Nat) (spec : List Word) (prevShape shape : Nat) : FrameInput Encl :=
  frameInput (enclArith p) (kbdWindow p) L spec prevShape shape

/-- The order of the root of unity that the transforms and sine windows of frame length `L` are made of (R161, R163). -/
def frameOrderOfUnity (L : Nat) : Nat := 8 * L

/-- The frame in exact arithmetic, which does not know the KBD windows. -/
def exactFrame (L : Nat) (spec : List Word) (prevShape shape : Nat) : FrameInput (Option Cyc) :=
  frameInput (exactArith (frameOrderOfUnity L)) (fun N => List.replicate N none) L spec prevShape shape

/-! ## The elements -/

/-- `z[n] + f32(OVL[n])` (R169). -/
def pcmReal {R : Type} (o : Arith R) (seq : Nat) (x : FrameInput R) (n : Nat) (ovl : Word) : Option R :=
  match frameAt o seq x n, f32Units ovl with
  | some z, some v => some (o.add z (o.ofUnits v))
  | _, _ => none

/-- `z[L + n]` (R169). -/
def ovlReal {R : Type} (o : Arith R) (seq : Nat) (x : FrameInput R) (n : Nat) : Option R := frameAt o seq x (x.L + n)

/-- A frame of window sequence `seq` to be stored: its enclosures at the first precision and at any other, and its exact
values. -/
structure Frame where
  seq : Nat
  base : FrameInput Encl
  finer : Nat → FrameInput Encl
  exact : FrameInput (Option Cyc)

/-- The frame FB transforms (R170). -/
def frameOf (L seq : Nat) (spec : List Word) (prevShape shape : Nat) : Frame :=
  { seq := seq
    base := enclFrame prec L spec prevShape shape
    finer := fun q => enclFrame q L spec prevShape shape
    exact := exactFrame L spec prevShape shape }

/-- The element of a formula over the frame, `val` being the formula over each representation. -/
def Frame.elem (x : Frame) (val : {R : Type} → Arith R → Nat → FrameInput R → Option R) : Elem :=
  match val (enclArith prec) x.seq x.base with
  | none => .any
  | some v => .real prec v
      (fun q => (val (enclArith q) x.seq (x.finer q)).getD v)
      (equalsGrid (frameOrderOfUnity x.exact.L) (val (exactArith (frameOrderOfUnity x.exact.L)) x.seq x.exact).join)

/-- The element of `PCM[n]` (R169). -/
def Frame.pcmElem (x : Frame) (n : Nat) (ovl : Word) : Elem := x.elem fun o seq f => pcmReal o seq f n ovl

/-- The element of the new `OVL[n]` (R169). -/
def Frame.ovlElem (x : Frame) (n : Nat) : Elem := x.elem fun o seq f => ovlReal o seq f n

/-! ## The command -/

/-- `legal_transition(pseq, seq)` (R171). -/
def legalTransition (pseq seq : Nat) : Bool := (pseq == 0 || pseq == 3) == (seq == 0 || seq == 1)

/-- CHSTATE as a word (R37). -/
def chstateWord (seq shape : Nat) : Word := BitVec.ofNat 32 (seq % 4 + shape % 2 * 2 ^ 4)

/-- `L` words of an item of slot `c` (R33, R31), or the fault of R51. -/
def readFrame (c : Nat) (it : Item) (s : State) : Except Stop (List Word) :=
  checkAll (fun wi => match wi.1 with
    | some w => .ok w
    | none => .error (.unwritten (itemAddr c it wi.2))) (s.array c it s.frameLen).zipIdx

/-- The PCM words of a frame (R169, R170); element `n` has index `n`. -/
def pcmWords (s : State) (c : Nat) (x : Frame) (ovl : List Word) : List Word :=
  ovl.zipIdx.map fun on => storedWord s (.fb c) on.2 (x.pcmElem on.2 on.1)

/-- The new OVL words of a frame (R169, R170); element `n` has index `1024 + n`. -/
def ovlWords (s : State) (c : Nat) (x : Frame) : List Word :=
  (List.range s.frameLen).map fun n => storedWord s (.fb c) (1024 + n) (x.ovlElem n)

/-- FB's writes (R170). -/
def fbBody (c : Nat) (s : State) : Except Stop State := do
  let ics ← readIcs c s
  let prev ← s.readItem c .chstate 0
  let spec ← readFrame c .spec s
  let ovl ← readFrame c .ovl s
  let x := frameOf s.frameLen ics.seq spec (bits 4 4 prev) ics.shape
  let s1 := s.setItems c .pcm 0 (pcmWords s c x ovl)
  let s2 := s1.setItems c .ovl 0 (ovlWords s c x)
  let s3 := s2.setItems c .chstate 0 [chstateWord ics.seq ics.shape]
  return { s3 with status := { s3.status with
    wt := s3.status.wt || !legalTransition (bits 1 0 prev) ics.seq
    started := true } }

/-- FB (R170). -/
def execFb (c : Nat) (s : State) : Result := runCommand (.fb c) false (badChannelC c s) (fbBody c s) s

end Sys2Proof.Machine
end

