-- ==== Sys2Proof/Machine/Stereo.lean ====
section
/-! DEFINITION. MS and IS: M/S and intensity stereo decoding of a channel pair (42_stereo.md R120 to R129). -/

namespace Sys2Proof.Machine

/-- What the pair checks of R122 leave for MS and IS: the pair's common windows, band table and `max_sfb`, MMP, and the right
slot's band types in g-major, sfb-minor order. -/
structure PairInfo where
  win : Windows
  swb : List Nat
  maxSfb : Nat
  mmp : Nat
  rightTypes : List Nat
  deriving DecidableEq, Repr

/-- The band-type checks of R122 on band `(g, sfb)`: the left slot's, then the right slot's, whose type is the result. -/
def pairTypeCheck (a b : Nat) (s : State) (gb : Nat × Nat) : Except Stop Nat := do
  let tl ← readBandType a gb.1 gb.2 s
  let tr ← readBandType b gb.1 gb.2 s
  if isIllegalType tl || isIntensity tl then .error (.raise .badBandType a (bandDetail gb.1 gb.2))
  else if isNoise tl then .error (.raise .unsupported a (bandDetail gb.1 gb.2))
  else if isIllegalType tr then .error (.raise .badBandType b (bandDetail gb.1 gb.2))
  else if isNoise tr then .error (.raise .unsupported b (bandDetail gb.1 gb.2))
  else return tr

/-- The checks common to MS and IS, in R122's order. -/
def pairChecks (a b : Nat) (s : State) : Except Stop PairInfo := do
  let ia ← readIcs a s
  let ib ← readIcs b s
  let ok ← readPairOk a b ia ib s
  if !ok then .error (.raise .badPair a 0)
  else do
    let win ← readWindows a ia s
    let swb ← readBands a ia win s
    let ctrl ← s.readItem a .msCtrl 0
    let mmp := bits 1 0 ctrl
    if mmp = 3 then .error (.raise .badMs a 0)
    else do
      let types ← checkAll (pairTypeCheck a b s) (bandList win.groups ia.maxSfb)
      return { win := win, swb := swb, maxSfb := ia.maxSfb, mmp := mmp, rightTypes := types }

/-- `CH[b].bt[g][sfb]` (R121). -/
def PairInfo.rightType (x : PairInfo) (g sfb : Nat) : Nat := x.rightTypes.getD (g * x.maxSfb + sfb) 0

/-! ## MS -/

/-- `m + s` and `m - s` of a bin (R123): exact sums of binary32 values, or any value when an input is not finite (R13). -/
def msElems (wa wb : Word) : Elem × Elem :=
  match f32Units wa, f32Units wb with
  | some m, some s => (.ofUnits (m + s), .ofUnits (m - s))
  | _, _ => (.any, .any)

/-- MS on one run: both outputs from the inputs read before either is written (R123). Element `i` of slot `a` has index `i`,
of slot `b` index `1024 + i`. `s0` is the state the command started in. -/
def msRun (a b : Nat) (s0 : State) (x : PairInfo) (r : Run) (s : State) : Except Stop State := do
  let used ← msUsedIfPerBand a x.mmp r.g r.sfb s
  if (x.mmp = 2 ∨ (x.mmp = 1 ∧ used = true)) ∧ isIntensity (x.rightType r.g r.sfb) = false then do
    let was ← readSpecRun a r.first r.len s
    let wbs ← readSpecRun b r.first r.len s
    let elems := (List.zipWith msElems was wbs).zipIdx
    let s := s.setItems a .spec r.first (elems.map fun e => storedWord s0 (.ms a b) (r.first + e.2) e.1.1)
    return s.setItems b .spec r.first (elems.map fun e => storedWord s0 (.ms a b) (1024 + r.first + e.2) e.1.2)
  else return s

/-- MS's checks and writes (R123). -/
def msBody (a b : Nat) (s : State) : Except Stop State := do
  let x ← pairChecks a b s
  applyAll (msRun a b s x) (bandRuns x.win x.swb x.maxSfb) s

/-- MS (R123). -/
def execMs (a b : Nat) (s : State) : Result := runCommand (.ms a b) false (badChannelP a b s) (msBody a b s) s

/-! ## IS -/

/-- `is_sign(t) * invert(g, sfb)` is -1 (R121, R125): type 14 without inversion, or type 15 with it. -/
def isNegative (t : Nat) (used : Bool) : Bool := (t == 14) != used

/-- `is_sign * invert * 2^(-pos/4) * v 2^-149` (R125) at precision `p >= 213`, for an intensity position `-255 <= pos <= 255`:
the signed 4th root of `v^4 2^(-596 - pos)`. Exact whenever that root is an integer multiple of 2^-p. -/
def isEncl (p : Nat) (negative : Bool) (pos v : Int) : Encl :=
  let r := rootEncl 4 (v.natAbs ^ 4 * 2 ^ (4 * ((p : Int) - 149) - pos).toNat)
  if decide (v < 0) != negative then r.neg else r

/-- The element of a scaled left bin (R125, R127), any value when the bin is not finite (R13): its enclosure at the first
precision always decides, but for overflow (log 22). -/
def isElem (negative : Bool) (pos : Int) (w : Word) : Elem :=
  match f32Units w with
  | none => .any
  | some v => .real prec (isEncl prec negative pos v) (fun p => isEncl p negative pos v) (fun _ => false)

/-- The intensity-position check of R126 and R127 on band `(g, sfb)`. -/
def isSfCheck (b : Nat) (x : PairInfo) (s : State) (gb : Nat × Nat) : Except Stop (Option Int) :=
  if isIntensity (x.rightType gb.1 gb.2) then do
    let p ← readSf b gb.1 gb.2 s
    if Config.isMin ≤ p ∧ p ≤ Config.isMax then return some p
    else .error (.raise .badSf b (bandDetail gb.1 gb.2))
  else .ok none

/-- IS on one run (R127): the right channel's intensity bins from the left channel's. -/
def isRun (a b : Nat) (s0 : State) (x : PairInfo) (sfs : List (Option Int)) (r : Run) (s : State) : Except Stop State :=
  match sfs.getD (r.g * x.maxSfb + r.sfb) none with
  | none => .ok s
  | some pos => do
    let used ← msUsedIfPerBand a x.mmp r.g r.sfb s
    let was ← readSpecRun a r.first r.len s
    let neg := isNegative (x.rightType r.g r.sfb) used
    return s.setItems b .spec r.first
      (was.zipIdx.map fun e => storedWord s0 (.is a b) (r.first + e.2) (isElem neg pos e.1))

/-- IS's checks and writes (R127). -/
def isBody (a b : Nat) (s : State) : Except Stop State := do
  let x ← pairChecks a b s
  let sfs ← checkAll (isSfCheck b x s) (bandList x.win.groups x.maxSfb)
  applyAll (isRun a b s x sfs) (bandRuns x.win x.swb x.maxSfb) s

/-- IS (R127). -/
def execIs (a b : Nat) (s : State) : Result := runCommand (.is a b) false (badChannelP a b s) (isBody a b s) s

end Sys2Proof.Machine
end

