-- ==== Sys2Proof/Machine/Tns.lean ====
section
/-! DEFINITION. TNS: the temporal-noise-shaping inverse filter cascade (43_tns.md R140 to R149). -/

namespace Sys2Proof.Machine

/-- A filter as it is applied: the SPEC elements `first .. first + len - 1` of window `w`, the coefficient resolution, the
indices of the used coefficients and the direction. -/
structure FilterPass where
  w : Nat
  f : Nat
  first : Nat
  len : Nat
  coefRes : Nat
  coefs : List Int
  down : Bool
  deriving DecidableEq, Repr

/-! ## Coefficients -/

/-- `k = sin(ci / iqfac)` (R144): `ci / iqfac` is `pi ci / (2^b - 1)` for `ci >= 0` and `pi ci / (2^b + 1)` for `ci < 0`;
plainly 0 for `ci = 0`. -/
def reflection {R : Type} (o : Arith R) (coefRes : Nat) (ci : Int) : R :=
  if ci = 0 then o.zero
  else if 0 < ci then o.sinPi ci.natAbs (2 ^ coefResBits coefRes - 1)
  else o.sub o.zero (o.sinPi ci.natAbs (2 ^ coefResBits coefRes + 1))

/-- One pass of the step-up recursion (R145) on `a[1 .. m-1]`: `a[i] + k a[m-i]` for each `i`, then `a[m] = k`. -/
def stepUp {R : Type} (o : Arith R) (a : List R) (k : R) : List R :=
  List.zipWith (fun x y => o.add x (o.mul k y)) a a.reverse ++ [k]

/-- The direct-form coefficients `a[1 .. n]` of `k[0 .. n-1]` (R145); `a[0]` is 1. -/
def directForm {R : Type} (o : Arith R) (k : List R) : List R := k.foldl (stepUp o) []

/-! ## The filter -/

/-- The all-pole recursion of R147 on inputs `x`, `hist` holding the outputs before, latest first (none before the filter
starts). A non-finite input makes its output and every later one any value (R148, A3). -/
def allPole {R : Type} (o : Arith R) (a : List R) : List (Option R) → List R → List (Option R)
  | [], _ => []
  | none :: xs, _ => none :: xs.map fun _ => none
  | some x :: xs, hist =>
    let y := o.sub x (o.sum (List.zipWith o.mul a hist))
    some y :: allPole o a xs (y :: hist)

/-- The outputs of a filter in ascending bin order, from its SPEC words in ascending bin order (R147): a downward filter runs
from the highest bin. -/
def filterOutputs {R : Type} (o : Arith R) (coefRes : Nat) (coefs : List Int) (down : Bool) (words : List Word) :
    List (Option R) :=
  let a := directForm o (coefs.map (reflection o coefRes))
  let xs := words.map fun w => (f32Units w).map o.ofUnits
  if down then (allPole o a xs.reverse []).reverse else allPole o a xs []

/-- The precision a filter over `len` bins is first enclosed at: the enclosures of an order-20 recursion widen by less than 5
bits a bin. -/
def tnsPrec (len : Nat) : Nat := 512 + 5 * len

/-- The order of the root of unity that the coefficients are made of (R144): 4 * 7 * 9 or 4 * 15 * 17. -/
def tnsOrderOfUnity (coefRes : Nat) : Nat := if coefRes = 0 then 252 else 1020

/-- The elements a filter stores, in ascending bin order (R147). -/
def filterElems (coefRes : Nat) (coefs : List Int) (down : Bool) (words : List Word) : List Elem :=
  let p := tnsPrec words.length
  (filterOutputs (enclArith p) coefRes coefs down words).zipIdx.map fun xj =>
    match xj.1 with
    | none => .any
    | some x => .real p x
        (fun q => ((filterOutputs (enclArith q) coefRes coefs down words).getD xj.2 none).getD x)
        (equalsGrid (tnsOrderOfUnity coefRes)
          ((filterOutputs (exactArith (tnsOrderOfUnity coefRes)) coefRes coefs down words).getD xj.2 none).join)

/-! ## Checks -/

/-- The used coefficients of filter `f` of window `w`, each in range, or BAD_TNS (R143, R148). -/
def readCoefs (c w f order nbits : Nat) (s : State) : Except Stop (List Int) :=
  checkAll (fun i => do
    let ci ← readCoef c w f i s
    if coefInRange nbits ci then return ci else .error (.raise .badTns c (bandDetail w f))) (List.range order)

/-- The coefficients a filter over bins `lo .. hi-1` uses, checked (R143, R148). A filter with an empty range is skipped and its
coefficients are not checked: R148's corner cases and V-TNS-6, against its pseudocode's check loop (log 14). -/
def readPassCoefs (c w f order nbits lo hi : Nat) (s : State) : Except Stop (List Int) :=
  if lo < hi then readCoefs c w f order nbits s else .ok []

/-- The checks of R148 on filters `f, f+1, ...` of window `w`, and the passes they make, `top` being the band the next filter
starts from (R146). -/
def windowPasses (c w : Nat) (ctrl : TnsCtrl) (ics : Ics) (win : Windows) (swb : List Nat) (tw : TnsWindow) (s : State) :
    Nat → Nat → Nat → Except Stop (List FilterPass)
  | 0, _, _ => .ok []
  | n + 1, f, top => do
    let v ← s.readItem c .tnsFilt (4 * w + f)
    let fl := tnsFilterOfWord v
    if ics.isShort = true ∧ (15 < fl.length ∨ 7 < fl.order) then .error (.raise .badTns c (bandDetail w f))
    else do
      let bottom := top - fl.length
      let lo := filterBin ctrl ics.maxSfb swb bottom
      let hi := filterBin ctrl ics.maxSfb swb top
      let coefs ← readPassCoefs c w f (tnsOrder ctrl fl) (coefWidth tw.coefRes fl.compress) lo hi s
      let rest ← windowPasses c w ctrl ics win swb tw s n (f + 1) bottom
      return { w := w, f := f, first := w * win.len + lo, len := hi - lo, coefRes := tw.coefRes, coefs := coefs,
               down := fl.down } :: rest

/-- The checks of R148 on window `w`, and its passes. -/
def tnsWindowCheck (c : Nat) (ctrl : TnsCtrl) (ics : Ics) (win : Windows) (swb : List Nat) (s : State) (w : Nat) :
    Except Stop (List FilterPass) := do
  let v ← s.readItem c .tnsWin w
  let tw := tnsWindowOfWord v
  if (if ics.isShort then 1 else 3) < tw.nfilt then .error (.raise .badTns c (bandDetail w 0xFF))
  else windowPasses c w ctrl ics win swb tw s tw.nfilt 0 ics.numSwb

/-! ## The command -/

/-- One filter pass (R147, R148): skipped when its order is 0 or its range is empty. `s0` is the state the command started
in. -/
def tnsPass (c : Nat) (s0 : State) (x : FilterPass) (s : State) : Except Stop State :=
  if x.coefs = [] ∨ x.len = 0 then .ok s
  else do
    let words ← readSpecRun c x.first x.len s
    return s.setItems c .spec x.first
      ((filterElems x.coefRes x.coefs x.down words).zipIdx.map fun e => storedWord s0 (.tns c) (x.first + e.2) e.1)

/-- TNS's checks and writes once TNS data are present (R148). -/
def tnsFilterBody (c : Nat) (ctrl : TnsCtrl) (s : State) : Except Stop State := do
  let ics ← readIcs c s
  let win ← readWindows c ics s
  let swb ← readBands c ics win s
  if (if ics.isShort then Config.tnsOrderCapShort else Config.tnsOrderCapLong) < ctrl.maxOrder then
    .error (.raise .badTns c 0xFFFF)
  else do
    let passes ← checkAll (tnsWindowCheck c ctrl ics win swb s) (List.range win.count)
    applyAll (tnsPass c s) passes.flatten s

/-- TNS's checks and writes (R148): a successful no-op when PRESENT = 0. -/
def tnsBody (c : Nat) (s : State) : Except Stop State := do
  let v ← s.readItem c .tnsCtrl 0
  if (tnsCtrlOfWord v).present then tnsFilterBody c (tnsCtrlOfWord v) s else return s

/-- TNS (R148). -/
def execTns (c : Nat) (s : State) : Result := runCommand (.tns c) false (badChannelC c s) (tnsBody c s) s

end Sys2Proof.Machine
end

