-- ==== Sys2Proof/Machine/Dispatch.lean ====
section
/-! DEFINITION. One arm per command (30_encoding.md R82). -/

namespace Sys2Proof.Machine

def exec (i : Instr) (s : State) : Host.Outcome State Fault Refusal :=
  match i with
  | .nop => Sys2Proof.Machine.execNop s
  | .iq c => Sys2Proof.Machine.execIq c s
  | .ms a b => Sys2Proof.Machine.execMs a b s
  | .is a b => Sys2Proof.Machine.execIs a b s
  | .tns c => Sys2Proof.Machine.execTns c s
  | .fb c => Sys2Proof.Machine.execFb c s
  | .fend => Sys2Proof.Machine.execFend s
  | .srst => Sys2Proof.Machine.execSrst s

end Sys2Proof.Machine
end

