-- ==== Sys2Proof/Machine/Sequencer.lean ====
section
/-! DEFINITION. The sequencer's one step on the latched word (30_encoding.md R84, R85), and whose turn it is (20_memory.md
R67). -/

namespace Sys2Proof.Machine

/-- An illegal word executes as a command that raises ILLEGAL_CMD with DETAIL = OP and completes (R84, R203). -/
def illegalCommand (s : State) : State := complete (recordError .illegalCmd 0 (opField s.latch) s)

/-- The latched word executes: decode, checks, effect and completion in one step (R85, R200). -/
def sequencerStep (s : State) : Result :=
  match decode s.latch with
  | .ok i => exec i s
  | .error _ => .next (illegalCommand s)

/-- Whether a command in flight completes before the host's next access (R67). A host that has no access left, or waits for
BUSY = 0, lets it complete; otherwise the point is open (log 2). -/
def sequencerTurn (s : State) : Bool :=
  match s.pending with
  | [] => true
  | .wait :: _ => true
  | .read _ _ :: _ => Config.sequencerFirst s.draws
  | .write _ _ _ :: _ => Config.sequencerFirst s.draws
  | .powerOn :: _ => Config.sequencerFirst s.draws

end Sys2Proof.Machine
end

