-- ==== Sys2Proof/Machine/Step.lean ====
section
/-! DEFINITION. One step of the block and its host (20_memory.md R67): the completion of the command in flight, or the host's
next access. -/

namespace Sys2Proof.Machine

/-- One step. -/
def step (s : State) : Host.Outcome State Fault Refusal :=
  if s.status.busy && sequencerTurn s then sequencerStep s else hostStep s

/-- The state in which the command word of an opcode-table word has just been written to CMD and the host waits for its
completion (R85, R87), so that the very next step executes it (log 3). -/
def State.withFetchWord (s : State) (nbits w : Nat) : State :=
  { s with
    latch := tableWord nbits w
    status := { s.status with busy := true }
    pending := .wait :: s.pending }

end Sys2Proof.Machine
end

