-- ==== Sys2Proof/Machine/Assembler.lean ====
section
/-! DEFINITION. The assembler's notation as the host accesses it stands for (30_encoding.md R87, R88). -/

namespace Sys2Proof.Machine

/-- The command a mnemonic and its operands name (R87): lower-case mnemonics, operands 0..15. -/
def assemble (mnemonic : String) (operands : List Nat) : Option Instr :=
  let i : Option Instr :=
    match mnemonic, operands with
    | "nop", [] => some .nop
    | "iq", [c] => some (.iq c)
    | "ms", [a, b] => some (.ms a b)
    | "is", [a, b] => some (.is a b)
    | "tns", [c] => some (.tns c)
    | "fb", [c] => some (.fb c)
    | "fend", [] => some .fend
    | "srst", [] => some .srst
    | _, _ => none
  i.filter Instr.wf

/-- `wr ADDR, VALUE` (R87). -/
def Params.wr (p : Params) (off : Nat) (v : Word) : HostOp := .write (p.base + off) 4 v

/-- `rd ADDR` (R87). -/
def Params.rd (p : Params) (off : Nat) : HostOp := .read (p.base + off) 4

/-- A command on its own line (R87): `wr 0x010, <word>` followed by `wait`. -/
def Params.command (p : Params) (i : Instr) : List HostOp := [Params.wr p (GlobalReg.offset .cmd) (encode i), .wait]

/-- `chan chC` (R88). -/
def Params.chan (p : Params) (c : Nat) : List HostOp :=
  [Instr.iq c, .tns c, .fb c].flatMap (Params.command p)

/-- `pair chA, chB` (R88). -/
def Params.pair (p : Params) (a b : Nat) : List HostOp :=
  [Instr.iq a, .iq b, .ms a b, .is a b, .tns a, .tns b, .fb a, .fb b].flatMap (Params.command p)

/-- `ack` (R88): clear DONE. -/
def Params.ack (p : Params) : HostOp := Params.wr p (GlobalReg.offset .status) 0x00000002#32

/-- `clrerr` (R88): clear ERR, ERRCODE, ERRINFO. -/
def Params.clrerr (p : Params) : HostOp := Params.wr p (GlobalReg.offset .status) 0x00000004#32

end Sys2Proof.Machine
end

