-- ==== Sys2Proof/Safety.lean ====
section
/-! DEFINITION. What counts as a good state and a safe run, in the terms the statements use. -/

namespace Sys2Proof.Machine

/-! ## Safe runs -/

/-- `k` steps. -/
def runFor (k : Nat) (s : State) : Result := Host.Core.run core k s

/-- The run of `k` steps from `s` meets no fault (R61, R62, R51). -/
def SafeRun (k : Nat) (s : State) : Prop := ∃ t, runFor k s = .next t

/-- The end of a run (R248): the host has issued its last access and BUSY = 0. -/
def State.ended (s : State) : Bool := s.pending.isEmpty && !s.status.busy

/-! ## The state invariant -/

/-- Every listed byte lies in an item of a slot below NCH (R30, R60). -/
def Mem.inSlots (nch : Nat) (m : Mem) : Bool :=
  m.all fun c => 0x10000 ≤ c.1 && c.1 < 0x10000 * (nch + 1) && (itemAt (c.1 % 0x10000)).isSome

/-- The bits of a byte that its item stores (R30). -/
def byteMask (a : Nat) : Byte :=
  match itemAt (a % 0x10000) with
  | some it => byteLane it.mask (a % 4)
  | none => 0#8

/-- Reserved bits of register items read 0 (R30). -/
def Mem.masked (m : Mem) : Bool := m.all fun c => c.2 &&& byteMask c.1 == c.2

/-- The block stores whole words (R63): where a byte is listed, all four bytes of its word hold a value. -/
def Mem.whole (m : Mem) : Bool := m.all fun c => (m.word? (c.1 - c.1 % 4)).isSome

/-- Memory is canonical, lies in the slots, keeps reserved bits 0 and holds whole words. -/
def Mem.Good (nch : Nat) (m : Mem) : Prop :=
  m.wf = true ∧ m.inSlots nch = true ∧ m.masked = true ∧ m.whole = true

/-- ERRCODE and ERRINFO are written only when ERR is set and cleared only with it (R24, R27, R202). -/
def State.ErrorRecordGood (s : State) : Prop :=
  (s.status.err = false → s.status.errcode = .none ∧ s.errinfo = ErrInfo.reset)
    ∧ (s.status.err = true → s.status.errcode ≠ .none)

/-- FATAL comes only from a CFG write while STARTED = 1, and both are cleared only by reset (R24, R204). -/
def State.FatalGood (s : State) : Prop := s.status.fatal = true → s.status.started = true

/-- The invariant every step keeps. -/
def State.Inv (s : State) : Prop :=
  s.params.valid = true ∧ Mem.Good s.params.nch s.mem ∧ s.ErrorRecordGood ∧ s.FatalGood

/-! ## Memory as the statements see it -/

/-- Byte offset `x` is none of the four bytes of the word at `a`. -/
def OutsideWord (a x : Nat) : Prop := x < a ∨ a + 4 ≤ x

/-- Byte offset `x` is no byte of elements `0 .. n-1` of an item (R30). -/
def OutsideItem (c : Nat) (it : Item) (n x : Nat) : Prop := x < itemAddr c it 0 ∨ itemAddr c it 0 + 4 * n ≤ x

/-- Every byte offset that `outside` admits reads in `m'` as in `m`. -/
def SameBytes (m m' : Mem) (outside : Nat → Prop) : Prop := ∀ x, outside x → m'.byte? x = m.byte? x

/-! ## Legal side information -/

/-- Slot `c`'s header, windows and band table are written and `window_ok` and `sfb_ok` hold (R47, R53, R54). -/
structure SideInfo (c : Nat) (s : State) (ics : Ics) (win : Windows) (swb : List Nat) : Prop where
  header : readIcs c s = .ok ics
  windows : readWindows c ics s = .ok win
  bands : readBands c ics win s = .ok swb

/-- Element `i` of a frame lies in band `(g, sfb)` below `max_sfb` (R32, R47, R55). -/
def BinBand (win : Windows) (swb : List Nat) (maxSfb i g sfb : Nat) : Prop :=
  bandOf swb maxSfb (i % win.len) = some sfb ∧ g = groupOf win.glen (i / win.len)

/-- Element `i` lies in no band below `max_sfb` (R55). -/
def NoBand (win : Windows) (swb : List Nat) (maxSfb i : Nat) : Prop := bandOf swb maxSfb (i % win.len) = none

/-- A band type no command refuses in a lone or right channel: zero, spectral or intensity (R101). -/
def legalType (t : Nat) : Bool := t ≤ 11 || t == 14 || t == 15

/-- What IQ needs to complete: every band type legal, every spectral band's scalefactor in range, and every bin of a spectral
band written and in range (R103, R105). -/
structure IqLegal (c : Nat) (s : State) (ics : Ics) (win : Windows) (swb : List Nat) : Prop where
  side : SideInfo c s ics win swb
  types : ∀ g < win.groups, ∀ sfb < ics.maxSfb, ∃ t, readBandType c g sfb s = .ok t ∧ legalType t = true
  scalefactors : ∀ g < win.groups, ∀ sfb < ics.maxSfb, ∀ t, readBandType c g sfb s = .ok t → isSpectral t = true →
    ∃ sf, readSf c g sfb s = .ok sf ∧ Config.sfMin ≤ sf ∧ sf ≤ Config.sfMax
  bins : ∀ i < s.frameLen, ∀ g sfb t, BinBand win swb ics.maxSfb i g sfb → readBandType c g sfb s = .ok t →
    isSpectral t = true → ∃ w, s.item? c .qspec i = some w ∧ w.toInt.natAbs ≤ Config.qMax

/-- What the pair checks of R122 ask of a pair: `pair_ok`, `window_ok`, `sfb_ok`, MMP not 3, every left band type zero or
spectral, and every right one zero, spectral or intensity. -/
structure PairLegal (a b : Nat) (s : State) (ics : Ics) (win : Windows) (swb : List Nat) (mmp : Nat) : Prop where
  side : SideInfo a s ics win swb
  pair : ∃ ib, readIcs b s = .ok ib ∧ readPairOk a b ics ib s = .ok true
  mask : ∃ w, s.item? a .msCtrl 0 = some w ∧ bits 1 0 w = mmp ∧ mmp ≠ 3
  types : ∀ g < win.groups, ∀ sfb < ics.maxSfb, ∃ tl tr, readBandType a g sfb s = .ok tl ∧ tl ≤ 11 ∧
    readBandType b g sfb s = .ok tr ∧ legalType tr = true

/-- `ms_active(g, sfb)` (R121). -/
def MsActive (a mmp g sfb : Nat) (s : State) : Prop := mmp = 2 ∨ (mmp = 1 ∧ readMsUsed a g sfb s = .ok true)

/-- MS rewrites element `i` of both slots: it lies in an active band that is no intensity band of the right slot (R123). -/
def MsTouches (a b : Nat) (s : State) (ics : Ics) (win : Windows) (swb : List Nat) (mmp i : Nat) : Prop :=
  i < s.frameLen ∧ ∃ g sfb t, BinBand win swb ics.maxSfb i g sfb ∧ MsActive a mmp g sfb s ∧
    readBandType b g sfb s = .ok t ∧ isIntensity t = false

/-- What MS needs to complete (R122, R123): a legal pair, MS_USED written where it is read, and both SPEC words written wherever
MS rewrites them. -/
structure MsLegal (a b : Nat) (s : State) (ics : Ics) (win : Windows) (swb : List Nat) (mmp : Nat) : Prop where
  pair : PairLegal a b s ics win swb mmp
  used : mmp = 1 → ∀ g < win.groups, ∀ sfb < ics.maxSfb, ∃ u, readMsUsed a g sfb s = .ok u
  bins : ∀ i, MsTouches a b s ics win swb mmp i → ∃ wa wb, s.item? a .spec i = some wa ∧ s.item? b .spec i = some wb

/-- IS rewrites element `i` of the right slot, in a band of type `t` with position `pos` whose `ms_used` bit, where it is read,
is `used` (R121, R125, R127). -/
def IsTouches (a b : Nat) (s : State) (ics : Ics) (win : Windows) (swb : List Nat) (mmp i t : Nat) (pos : Int) (used : Bool) :
    Prop :=
  i < s.frameLen ∧ ∃ g sfb, BinBand win swb ics.maxSfb i g sfb ∧ readBandType b g sfb s = .ok t ∧ isIntensity t = true ∧
    readSf b g sfb s = .ok pos ∧ msUsedIfPerBand a mmp g sfb s = .ok used

/-- What IS needs to complete (R122, R126, R127): a legal pair, a position in range and MS_USED written where it is read in every
intensity band, and the left SPEC words of these bands written. -/
structure IsLegal (a b : Nat) (s : State) (ics : Ics) (win : Windows) (swb : List Nat) (mmp : Nat) : Prop where
  pair : PairLegal a b s ics win swb mmp
  bands : ∀ g < win.groups, ∀ sfb < ics.maxSfb, ∀ t, readBandType b g sfb s = .ok t → isIntensity t = true →
    (∃ p, readSf b g sfb s = .ok p ∧ -255 ≤ p ∧ p ≤ 255) ∧ ∃ u, msUsedIfPerBand a mmp g sfb s = .ok u
  bins : ∀ i t p u, IsTouches a b s ics win swb mmp i t p u → ∃ wa, s.item? a .spec i = some wa

/-- The band filter `f` of a window starts from, going down (R146). -/
def tnsTop (numSwb : Nat) (length : Nat → Nat) : Nat → Nat
  | 0 => numSwb
  | f + 1 => tnsTop numSwb length f - length f

/-- The lowest bin of filter `f`'s range and the first bin above it (R146). -/
def tnsLo (ctrl : TnsCtrl) (ics : Ics) (swb : List Nat) (filt : Nat → TnsFilter) (f : Nat) : Nat :=
  filterBin ctrl ics.maxSfb swb (tnsTop ics.numSwb (fun h => (filt h).length) (f + 1))
def tnsHi (ctrl : TnsCtrl) (ics : Ics) (swb : List Nat) (filt : Nat → TnsFilter) (f : Nat) : Nat :=
  filterBin ctrl ics.maxSfb swb (tnsTop ics.numSwb (fun h => (filt h).length) f)

/-- TNS_WIN of window `w` is written, with the fields `tw w` (R44). -/
def TnsWindowIs (c : Nat) (s : State) (tw : Nat → TnsWindow) (w : Nat) : Prop :=
  ∃ v, s.item? c .tnsWin w = some v ∧ tnsWindowOfWord v = tw w

/-- TNS_FILT of filter `f` of window `w` is written, with the fields `filt w f` (R45). -/
def TnsFilterIs (c : Nat) (s : State) (filt : Nat → Nat → TnsFilter) (w f : Nat) : Prop :=
  ∃ v, s.item? c .tnsFilt (4 * w + f) = some v ∧ tnsFilterOfWord v = filt w f

/-- The largest NFILT of a window (R148). -/
def tnsFilterCap (ics : Ics) : Nat := if ics.isShort then 1 else 3

/-- The limits R148 puts on a short window's filter. -/
def TnsLimits (ics : Ics) (fl : TnsFilter) : Prop := ics.isShort = true → fl.length ≤ 15 ∧ fl.order ≤ 7

/-- Coefficient `i` of filter `f` of window `w` is written, has the index `coef w f i` and is in range (R46, R143). -/
def TnsCoefLegal (c : Nat) (s : State) (tw : Nat → TnsWindow) (filt : Nat → Nat → TnsFilter) (coef : Nat → Nat → Nat → Int)
    (w f i : Nat) : Prop :=
  readCoef c w f i s = .ok (coef w f i) ∧
    coefInRange (coefWidth (tw w).coefRes (filt w f).compress) (coef w f i) = true

/-- Filter `f` of window `w` passes every check of R148; the coefficients of a filter with an empty range are not checked
(log 14). -/
structure TnsFilterLegal (c : Nat) (s : State) (ctrl : TnsCtrl) (ics : Ics) (swb : List Nat) (tw : Nat → TnsWindow)
    (filt : Nat → Nat → TnsFilter) (coef : Nat → Nat → Nat → Int) (w f : Nat) : Prop where
  written : TnsFilterIs c s filt w f
  limits : TnsLimits ics (filt w f)
  coefs : tnsLo ctrl ics swb (filt w) f < tnsHi ctrl ics swb (filt w) f →
    ∀ i < tnsOrder ctrl (filt w f), TnsCoefLegal c s tw filt coef w f i

/-- Window `w` passes every check of R148. -/
structure TnsWindowLegal (c : Nat) (s : State) (ctrl : TnsCtrl) (ics : Ics) (swb : List Nat) (tw : Nat → TnsWindow)
    (filt : Nat → Nat → TnsFilter) (coef : Nat → Nat → Nat → Int) (w : Nat) : Prop where
  written : TnsWindowIs c s tw w
  few : (tw w).nfilt ≤ tnsFilterCap ics
  filters : ∀ f < (tw w).nfilt, TnsFilterLegal c s ctrl ics swb tw filt coef w f

/-- TNS data are present, with legal windows and bands (R39, R148). -/
structure TnsPresent (c : Nat) (s : State) (ctrl : TnsCtrl) (ics : Ics) (win : Windows) (swb : List Nat) : Prop where
  control : ∃ v, s.item? c .tnsCtrl 0 = some v ∧ tnsCtrlOfWord v = ctrl ∧ ctrl.present = true
  side : SideInfo c s ics win swb

/-- The largest MAX_ORDER (R7, R148). -/
def tnsOrderCap (ics : Ics) : Nat := if ics.isShort then Config.tnsOrderCapShort else Config.tnsOrderCapLong

/-- Filter `f` of window `w` runs (R148): its order is not 0 and its range is not empty. -/
def TnsRuns (ctrl : TnsCtrl) (ics : Ics) (win : Windows) (swb : List Nat) (tw : Nat → TnsWindow)
    (filt : Nat → Nat → TnsFilter) (w f : Nat) : Prop :=
  w < win.count ∧ f < (tw w).nfilt ∧ tnsOrder ctrl (filt w f) ≠ 0 ∧
    tnsLo ctrl ics swb (filt w) f < tnsHi ctrl ics swb (filt w) f

/-- The SPEC words of filter `f` of window `w`, in ascending bin order (R146, R147). -/
def TnsReads (c : Nat) (s : State) (ctrl : TnsCtrl) (ics : Ics) (win : Windows) (swb : List Nat)
    (filt : Nat → Nat → TnsFilter) (w f : Nat) (words : List Word) : Prop :=
  readSpecRun c (w * win.len + tnsLo ctrl ics swb (filt w) f)
    (tnsHi ctrl ics swb (filt w) f - tnsLo ctrl ics swb (filt w) f) s = .ok words

/-- What TNS needs to complete with TNS data present (R148): MAX_ORDER in range, every window legal, and the SPEC words of every
filter that runs written. -/
structure TnsLegal (c : Nat) (s : State) (ctrl : TnsCtrl) (ics : Ics) (win : Windows) (swb : List Nat) (tw : Nat → TnsWindow)
    (filt : Nat → Nat → TnsFilter) (coef : Nat → Nat → Nat → Int) : Prop where
  present : TnsPresent c s ctrl ics win swb
  order : ctrl.maxOrder ≤ tnsOrderCap ics
  windows : ∀ w < win.count, TnsWindowLegal c s ctrl ics swb tw filt coef w
  bins : ∀ w f, TnsRuns ctrl ics win swb tw filt w f → ∃ words, TnsReads c s ctrl ics win swb filt w f words

/-- A list in the order a filter runs over it (R147): from the highest bin down when DIR = 1. -/
def filterOrder {α : Type} (down : Bool) (xs : List α) : List α := if down then xs.reverse else xs

/-- The formula of `z[n]` reads SPEC element `k` (R165 to R168): the zero parts of LONG_START and LONG_STOP read none, and
EIGHT_SHORT reads the windows that overlap `n`. -/
def FrameReads (L seq n k : Nat) : Prop :=
  match seq with
  | 0 => True
  | 1 => n < 3 * L / 2 + L / 8 / 2
  | 2 => L / 2 - L / 8 / 2 + k / (L / 8) * (L / 8) ≤ n ∧ n < L / 2 - L / 8 / 2 + k / (L / 8) * (L / 8) + 2 * (L / 8)
  | _ => L / 2 - L / 8 / 2 ≤ n

/-! ## What a command may change -/

/-- Byte offset `x` belongs to a location of command `i`'s write set (R48). -/
def WritesByte (i : Instr) (s : State) (x : Nat) : Prop :=
  ∃ l, locOfOffset (x - x % 4) = some l ∧ inWriteSet i s l = true

/-- The registers a successful command leaves as they were: all but the ones its rule writes (R105, R123, R127, R148, R170,
R190 to R192). -/
def KeepsRegisters (i : Instr) (s s' : State) : Prop :=
  s'.params = s.params ∧ s'.pending = s.pending ∧ s'.reads = s.reads ∧ s'.draws = s.draws ∧
    (i ≠ .srst → s'.cfg = s.cfg ∧ s'.errinfo = s.errinfo ∧ s'.latch = s.latch ∧
      (i ≠ .fend → s'.framecnt = s.framecnt) ∧
      ((∀ c, i ≠ .fb c) → s'.status = s.status) ∧
      s'.status = { s.status with started := s'.status.started, wt := s'.status.wt })

/-- Command `i` gets past the checks of R203 and R205: FATAL = 0, its operands below NCH, and not equal in a pair. -/
def Accepted (i : Instr) (s : State) : Prop :=
  s.status.fatal = false ∧
    match i with
    | .nop => True
    | .iq c => c < s.params.nch
    | .ms a b => a < s.params.nch ∧ b < s.params.nch ∧ a ≠ b
    | .is a b => a < s.params.nch ∧ b < s.params.nch ∧ a ≠ b
    | .tns c => c < s.params.nch
    | .fb c => c < s.params.nch
    | .fend => True
    | .srst => True

/-- The byte offset of element `idx` of what command `i` stores: a pair's right slot and FB's OVL have the indices from 1024
on. -/
def resultAddr (i : Instr) (idx : Nat) : Nat :=
  match i with
  | .nop => 0
  | .iq c => itemAddr c .spec idx
  | .ms a b => if idx < 1024 then itemAddr a .spec idx else itemAddr b .spec (idx - 1024)
  | .is _ b => itemAddr b .spec idx
  | .tns c => itemAddr c .spec idx
  | .fb c => if idx < 1024 then itemAddr c .pcm idx else itemAddr c .ovl (idx - 1024)
  | .fend => 0
  | .srst => 0

/-! ## The predicates of 10_state.md section 4 -/

/-- `window_ok` on the group lengths `glen` (R53). -/
def WindowOk (ics : Ics) (glen : Nat → Nat) : Prop :=
  ics.seq ≠ 2 ∨ (1 ≤ ics.ngroups ∧ ics.ngroups ≤ 8 ∧ (∀ g < ics.ngroups, 1 ≤ glen g) ∧
    ((List.range ics.ngroups).map glen).sum = 8)

/-- `sfb_ok` on the band table `swb`, `winLen` being `W` (R54). -/
def SfbOk (ics : Ics) (winLen : Nat) (swb : Nat → Nat) : Prop :=
  ics.maxSfb ≤ ics.numSwb ∧ swb 0 = 0 ∧ (∀ i < ics.numSwb, swb i < swb (i + 1)) ∧ swb ics.numSwb ≤ winLen

/-- `pair_ok` on the two headers, band tables and group lengths (R56). (A field `g >= 8` of GROUP_LEN does not exist and counts as
equal: log 24.) -/
def PairOk (ia ib : Ics) (swbA swbB glenA glenB : Nat → Nat) : Prop :=
  ia.seq = ib.seq ∧ ia.maxSfb = ib.maxSfb ∧ ia.numSwb = ib.numSwb ∧ (∀ i ≤ ia.numSwb, swbA i = swbB i) ∧
    (ia.seq = 2 → ia.ngroups = ib.ngroups ∧ ∀ g < ia.ngroups, glenA g = glenB g)

/-- The elements `0 .. num_swb` of slot `c`'s SWB_OFFSET are written and read as `swb` (R40). -/
def SwbIs (c numSwb : Nat) (s : State) (swb : Nat → Nat) : Prop :=
  ∀ i ≤ numSwb, ∃ w, s.item? c .swbOffset i = some w ∧ w.toNat = swb i

/-- Slot `c`'s GROUP_LEN is written and its fields read as `glen` (R36). -/
def GlenIs (c : Nat) (s : State) (glen : Nat → Nat) : Prop :=
  ∃ w, s.item? c .groupLen 0 = some w ∧ ∀ g, groupLenField g w = glen g

/-- Band `(g', sfb')` comes before `(g, sfb)` in g-major, sfb-minor order (R105, R122). -/
def BandBefore (g' sfb' g sfb : Nat) : Prop := g' < g ∨ (g' = g ∧ sfb' < sfb)

/-- The error of R105 for a band type, if it has one. -/
def typeError (t : Nat) : Option ErrCode :=
  if t = 12 ∨ 15 < t then some .badBandType else if t = 13 then some .unsupported else none

/-- The error of R122 for a pair of band types, and the slot it concerns, if it has one. -/
def pairTypeError (a b tl tr : Nat) : Option (ErrCode × Nat) :=
  if tl = 12 ∨ 15 < tl ∨ tl = 14 ∨ tl = 15 then some (.badBandType, a)
  else if tl = 13 then some (.unsupported, a)
  else if tr = 12 ∨ 15 < tr then some (.badBandType, b)
  else if tr = 13 then some (.unsupported, b)
  else none

/-! ## The words a command reads -/

/-- A single slot's header as IQ and TNS read it: ICS_INFO, GROUP_LEN of a short slot with a group, then the band table of legal
windows (R35, R36, R40; log 10). -/
inductive ReadsHeader (c : Nat) (s : State) : Item → Nat → Prop
  | info : ReadsHeader c s .icsInfo 0
  | groups {ics : Ics} (header : readIcs c s = .ok ics) (short : ics.seq = 2) (some : ics.ngroups ≠ 0) :
      ReadsHeader c s .groupLen 0
  | table {ics : Ics} {win : Windows} {k : Nat} (header : readIcs c s = .ok ics) (windows : readWindows c ics s = .ok win)
      (hk : k ≤ ics.numSwb) : ReadsHeader c s .swbOffset k

/-- What the pair checks of R122 read: both headers; both band tables where these agree on their length, and both GROUP_LEN where
they are short with as many groups (R56; log 10); then the left MS_CTRL; then both types band by band, as long as no band before is
refused. -/
inductive ReadsPair (a b : Nat) (s : State) : Nat → Item → Nat → Prop
  | info {c : Nat} (hc : c = a ∨ c = b) : ReadsPair a b s c .icsInfo 0
  | table {ia ib : Ics} {c k : Nat} (left : readIcs a s = .ok ia) (right : readIcs b s = .ok ib) (seq : ia.seq = ib.seq)
      (maxSfb : ia.maxSfb = ib.maxSfb) (numSwb : ia.numSwb = ib.numSwb) (hk : k ≤ ia.numSwb) (hc : c = a ∨ c = b) :
      ReadsPair a b s c .swbOffset k
  | groups {ia ib : Ics} {c : Nat} (left : readIcs a s = .ok ia) (right : readIcs b s = .ok ib) (seq : ia.seq = ib.seq)
      (maxSfb : ia.maxSfb = ib.maxSfb) (numSwb : ia.numSwb = ib.numSwb) (short : ia.seq = 2) (same : ia.ngroups = ib.ngroups)
      (some : ia.ngroups ≠ 0) (hc : c = a ∨ c = b) : ReadsPair a b s c .groupLen 0
  | mask {ia ib : Ics} {win : Windows} {swb : List Nat} (side : SideInfo a s ia win swb) (right : readIcs b s = .ok ib)
      (pair : readPairOk a b ia ib s = .ok true) : ReadsPair a b s a .msCtrl 0
  | type {ia ib : Ics} {win : Windows} {swb : List Nat} {v : Word} {c g sfb : Nat} (side : SideInfo a s ia win swb)
      (right : readIcs b s = .ok ib) (pair : readPairOk a b ia ib s = .ok true) (mask : s.item? a .msCtrl 0 = some v)
      (legal : bits 1 0 v ≠ 3) (hg : g < win.groups) (hb : sfb < ia.maxSfb)
      (before : ∀ g' sfb', g' < win.groups → sfb' < ia.maxSfb → BandBefore g' sfb' g sfb →
        ∃ tl tr, readBandType a g' sfb' s = .ok tl ∧ readBandType b g' sfb' s = .ok tr ∧ pairTypeError a b tl tr = none)
      (hc : c = a ∨ c = b) : ReadsPair a b s c .bandType (64 * g + sfb)

/-- Every intensity band of slot `b` has a position in range (R126). -/
def PositionsLegal (b : Nat) (s : State) (ics : Ics) (win : Windows) : Prop :=
  ∀ g < win.groups, ∀ sfb < ics.maxSfb, ∀ t, readBandType b g sfb s = .ok t → isIntensity t = true →
    ∃ p, readSf b g sfb s = .ok p ∧ -255 ≤ p ∧ p ≤ 255

/-- Every band type of slot `c` is written and one that IQ accepts (R105). -/
def TypesLegal (c : Nat) (s : State) (ics : Ics) (win : Windows) : Prop :=
  ∀ g < win.groups, ∀ sfb < ics.maxSfb, ∃ t, readBandType c g sfb s = .ok t ∧ typeError t = none

/-- Command `i`, run in state `s`, comes to read element `k` of item `it` of slot `c`: the words and checks before it let it go on
(the pseudocode of R105, R122, R123, R127, R148 and R170; log 10, log 14, log 23). -/
inductive ReadsWord (s : State) : Instr → Nat → Item → Nat → Prop
  | iqHeader {c : Nat} {it : Item} {k : Nat} (header : ReadsHeader c s it k) : ReadsWord s (.iq c) c it k
  | iqType {c : Nat} {ics : Ics} {win : Windows} {swb : List Nat} {g sfb : Nat} (side : SideInfo c s ics win swb)
      (hg : g < win.groups) (hb : sfb < ics.maxSfb)
      (before : ∀ g' sfb', g' < win.groups → sfb' < ics.maxSfb → BandBefore g' sfb' g sfb →
        ∃ t, readBandType c g' sfb' s = .ok t ∧ typeError t = none) : ReadsWord s (.iq c) c .bandType (64 * g + sfb)
  | iqSf {c : Nat} {ics : Ics} {win : Windows} {swb : List Nat} {g sfb t : Nat} (side : SideInfo c s ics win swb)
      (types : TypesLegal c s ics win) (hg : g < win.groups) (hb : sfb < ics.maxSfb) (type : readBandType c g sfb s = .ok t)
      (spectral : isSpectral t = true)
      (before : ∀ g' sfb' t', g' < win.groups → sfb' < ics.maxSfb → BandBefore g' sfb' g sfb →
        readBandType c g' sfb' s = .ok t' → isSpectral t' = true →
        ∃ sf, readSf c g' sfb' s = .ok sf ∧ 0 ≤ sf ∧ sf ≤ 255) : ReadsWord s (.iq c) c .sf (64 * g + sfb)
  | iqBin {c : Nat} {ics : Ics} {win : Windows} {swb : List Nat} {i g sfb t : Nat} (side : SideInfo c s ics win swb)
      (types : TypesLegal c s ics win)
      (scales : ∀ g < win.groups, ∀ sfb < ics.maxSfb, ∀ t, readBandType c g sfb s = .ok t → isSpectral t = true →
        ∃ sf, readSf c g sfb s = .ok sf ∧ 0 ≤ sf ∧ sf ≤ 255)
      (hi : i < s.frameLen) (band : BinBand win swb ics.maxSfb i g sfb) (type : readBandType c g sfb s = .ok t)
      (spectral : isSpectral t = true)
      (before : ∀ j < i, ∀ g' sfb' t', BinBand win swb ics.maxSfb j g' sfb' → readBandType c g' sfb' s = .ok t' →
        isSpectral t' = true → ∃ w, s.item? c .qspec j = some w ∧ w.toInt.natAbs ≤ 8191) :
      ReadsWord s (.iq c) c .qspec i
  | msPair {a b c : Nat} {it : Item} {k : Nat} (pair : ReadsPair a b s c it k) : ReadsWord s (.ms a b) c it k
  | msUsed {a b : Nat} {ics : Ics} {win : Windows} {swb : List Nat} {g sfb : Nat} (legal : PairLegal a b s ics win swb 1)
      (hg : g < win.groups) (hb : sfb < ics.maxSfb) : ReadsWord s (.ms a b) a .msUsed (2 * g + sfb / 32)
  | msBin {a b : Nat} {ics : Ics} {win : Windows} {swb : List Nat} {mmp c i : Nat} (legal : PairLegal a b s ics win swb mmp)
      (touched : MsTouches a b s ics win swb mmp i) (hc : c = a ∨ c = b) : ReadsWord s (.ms a b) c .spec i
  | isPair {a b c : Nat} {it : Item} {k : Nat} (pair : ReadsPair a b s c it k) : ReadsWord s (.is a b) c it k
  | isSf {a b : Nat} {ics : Ics} {win : Windows} {swb : List Nat} {mmp g sfb t : Nat} (legal : PairLegal a b s ics win swb mmp)
      (hg : g < win.groups) (hb : sfb < ics.maxSfb) (type : readBandType b g sfb s = .ok t) (intensity : isIntensity t = true)
      (before : ∀ g' sfb' t', g' < win.groups → sfb' < ics.maxSfb → BandBefore g' sfb' g sfb →
        readBandType b g' sfb' s = .ok t' → isIntensity t' = true →
        ∃ p, readSf b g' sfb' s = .ok p ∧ -255 ≤ p ∧ p ≤ 255) : ReadsWord s (.is a b) b .sf (64 * g + sfb)
  | isUsed {a b : Nat} {ics : Ics} {win : Windows} {swb : List Nat} {g sfb t : Nat} (legal : PairLegal a b s ics win swb 1)
      (positions : PositionsLegal b s ics win) (hg : g < win.groups) (hb : sfb < ics.maxSfb)
      (type : readBandType b g sfb s = .ok t) (intensity : isIntensity t = true) :
      ReadsWord s (.is a b) a .msUsed (2 * g + sfb / 32)
  | isBin {a b : Nat} {ics : Ics} {win : Windows} {swb : List Nat} {mmp i g sfb t : Nat}
      (legal : PairLegal a b s ics win swb mmp) (positions : PositionsLegal b s ics win) (hi : i < s.frameLen)
      (band : BinBand win swb ics.maxSfb i g sfb) (type : readBandType b g sfb s = .ok t) (intensity : isIntensity t = true) :
      ReadsWord s (.is a b) a .spec i
  | tnsControl {c : Nat} : ReadsWord s (.tns c) c .tnsCtrl 0
  | tnsHeader {c : Nat} {it : Item} {k : Nat} {v : Word} (control : s.item? c .tnsCtrl 0 = some v) (present : bit 0 v = true)
      (header : ReadsHeader c s it k) : ReadsWord s (.tns c) c it k
  | tnsWindow {c : Nat} {ctrl : TnsCtrl} {ics : Ics} {win : Windows} {swb : List Nat} {tw : Nat → TnsWindow}
      {filt : Nat → Nat → TnsFilter} {coef : Nat → Nat → Nat → Int} {w : Nat} (present : TnsPresent c s ctrl ics win swb)
      (order : ctrl.maxOrder ≤ tnsOrderCap ics) (hw : w < win.count)
      (before : ∀ w' < w, TnsWindowLegal c s ctrl ics swb tw filt coef w') : ReadsWord s (.tns c) c .tnsWin w
  | tnsFilter {c : Nat} {ctrl : TnsCtrl} {ics : Ics} {win : Windows} {swb : List Nat} {tw : Nat → TnsWindow}
      {filt : Nat → Nat → TnsFilter} {coef : Nat → Nat → Nat → Int} {w f : Nat} (present : TnsPresent c s ctrl ics win swb)
      (order : ctrl.maxOrder ≤ tnsOrderCap ics) (hw : w < win.count)
      (before : ∀ w' < w, TnsWindowLegal c s ctrl ics swb tw filt coef w') (window : TnsWindowIs c s tw w)
      (few : (tw w).nfilt ≤ tnsFilterCap ics) (hf : f < (tw w).nfilt)
      (filters : ∀ f' < f, TnsFilterLegal c s ctrl ics swb tw filt coef w f') : ReadsWord s (.tns c) c .tnsFilt (4 * w + f)
  | tnsCoef {c : Nat} {ctrl : TnsCtrl} {ics : Ics} {win : Windows} {swb : List Nat} {tw : Nat → TnsWindow}
      {filt : Nat → Nat → TnsFilter} {coef : Nat → Nat → Nat → Int} {w f i : Nat} (present : TnsPresent c s ctrl ics win swb)
      (order : ctrl.maxOrder ≤ tnsOrderCap ics) (hw : w < win.count)
      (before : ∀ w' < w, TnsWindowLegal c s ctrl ics swb tw filt coef w') (window : TnsWindowIs c s tw w)
      (few : (tw w).nfilt ≤ tnsFilterCap ics) (hf : f < (tw w).nfilt)
      (filters : ∀ f' < f, TnsFilterLegal c s ctrl ics swb tw filt coef w f') (filter : TnsFilterIs c s filt w f)
      (limits : TnsLimits ics (filt w f)) (range : tnsLo ctrl ics swb (filt w) f < tnsHi ctrl ics swb (filt w) f)
      (hi : i < tnsOrder ctrl (filt w f)) (coefs : ∀ i' < i, TnsCoefLegal c s tw filt coef w f i') :
      ReadsWord s (.tns c) c .tnsCoef ((4 * w + f) * 32 + i)
  | tnsBin {c : Nat} {ctrl : TnsCtrl} {ics : Ics} {win : Windows} {swb : List Nat} {tw : Nat → TnsWindow}
      {filt : Nat → Nat → TnsFilter} {coef : Nat → Nat → Nat → Int} {w f k : Nat} (present : TnsPresent c s ctrl ics win swb)
      (order : ctrl.maxOrder ≤ tnsOrderCap ics) (windows : ∀ w < win.count, TnsWindowLegal c s ctrl ics swb tw filt coef w)
      (runs : TnsRuns ctrl ics win swb tw filt w f) (lo : tnsLo ctrl ics swb (filt w) f ≤ k)
      (hi : k < tnsHi ctrl ics swb (filt w) f) : ReadsWord s (.tns c) c .spec (w * win.len + k)
  | fbHeader {c : Nat} : ReadsWord s (.fb c) c .icsInfo 0
  | fbState {c : Nat} : ReadsWord s (.fb c) c .chstate 0
  | fbBin {c k : Nat} (hk : k < s.frameLen) : ReadsWord s (.fb c) c .spec k
  | fbOverlap {c k : Nat} (hk : k < s.frameLen) : ReadsWord s (.fb c) c .ovl k

/-! ## Whole-machine events -/

/-- The next step executes command `i` (R85). -/
def Executes (s : State) (i : Instr) : Prop := s.status.busy = true ∧ sequencerTurn s = true ∧ decode s.latch = .ok i

/-- The next step is the host's (R67). -/
def HostActs (s : State) : Prop := s.status.busy = false ∨ sequencerTurn s = false

/-- The next step is the platform's power-on reset (R231). -/
def PowersOn (s : State) : Prop := HostActs s ∧ ∃ rest, s.pending = .powerOn :: rest

/-- The next step is a reset, SRST or power-on (R230). -/
def Resets (s : State) : Prop := Executes s .srst ∨ PowersOn s

/-- The next step is a host write to the register `r` (R62). -/
def WritesReg (s : State) (r : GlobalReg) (v : Word) : Prop :=
  HostActs s ∧ ∃ addr size rest, s.pending = .write addr size v :: rest ∧ locate s.params addr size = .ok (.reg r)

/-- An offset of the block's span that no register and no item covers (R60). -/
def Unmapped (off : Nat) : Prop :=
  (0x20 ≤ off ∧ off < 0x10000) ∨
    (0x10000 ≤ off ∧
      ((0x4014 ≤ off % 0x10000 ∧ off % 0x10000 ≤ 0x40FF) ∨ (0x5240 ≤ off % 0x10000 ∧ off % 0x10000 ≤ 0x52FF) ∨
       (0x5320 ≤ off % 0x10000 ∧ off % 0x10000 ≤ 0x53FF) ∨ (0x5480 ≤ off % 0x10000 ∧ off % 0x10000 ≤ 0x5FFF) ∨
       0x7000 ≤ off % 0x10000))

/-- The outcome of a command that raises error `e` with `ch` and `detail` and writes nothing else (R200, R201). -/
def raised (e : ErrCode) (ch detail : Nat) (s : State) : Result := .next (complete (recordError e ch detail s))

end Sys2Proof.Machine
end

