-- ==== Sys2Proof/Machine/Reals.lean ====
section
/-! DEFINITION. The real numbers that words and enclosures stand for, as propositions (00_scope.md R8, R11 to R13). The
statements about numeric results are written with these; no command computes with them. -/

namespace Sys2Proof.Machine

/-- The enclosure `x` at precision `p` holds the real `r`. -/
def Encl.Holds (p : Nat) (x : Encl) (r : ℝ) : Prop := (x.lo : ℝ) ≤ r * 2 ^ p ∧ r * 2 ^ p ≤ (x.hi : ℝ)

/-- The enclosure holds `r` and is at most 2^-200 wide, less than any difference of two binary32 values (log 6). -/
def Encl.Near (p : Nat) (x : Encl) (r : ℝ) : Prop := x.Holds p r ∧ x.hi - x.lo ≤ 2 ^ (p - 200)

/-- `f32(w) = r` for a finite word `w` (R8, R13). -/
def IsF32 (w : Word) (r : ℝ) : Prop := ∃ v : Int, f32Units w = some v ∧ r * 2 ^ 149 = (v : ℝ)

/-- `w` is the binary32 value nearest to `r`, ties to the value with an even significand (R12): no finite word is nearer, and
where another value is as near, `w`'s significand is even. -/
def IsNearestEven (r : ℝ) (w : Word) : Prop :=
  ∃ v : Int, f32Units w = some v ∧
    ∀ (w' : Word) (v' : Int), f32Units w' = some v' →
      |(v : ℝ) - r * 2 ^ 149| ≤ |(v' : ℝ) - r * 2 ^ 149| ∧
        (|(v : ℝ) - r * 2 ^ 149| = |(v' : ℝ) - r * 2 ^ 149| → v' = v ∨ significand w % 2 = 0)

/-- A named property of NUM (R12): the word is finite and within relative error `ε` of the exact real, up to the least
subnormal. -/
def RelativeError (ε : ℝ) (r : ℝ) (w : Word) : Prop := ∃ v, IsF32 w v ∧ |v - r| ≤ ε * |r| + 1 / 2 ^ 149

/-- `dq(q, sf)` (R102), an exact real. -/
def IsDq (q sf : Int) (r : ℝ) : Prop :=
  r = (q.sign : ℝ) * ((q.natAbs : ℝ) ^ ((4 : ℝ) / 3) * (2 : ℝ) ^ (((sf : ℝ) - 100) / 4))

/-- The step-up recursion (R145) over any ring, on `a[1 .. m-1]`. -/
def stepUpOver {R : Type} [CommRing R] (a : List R) (k : R) : List R :=
  List.zipWith (fun x y => x + k * y) a a.reverse ++ [k]

/-- The direct-form coefficients `a[1 .. n]` (R145) over any ring. -/
def directFormOver {R : Type} [CommRing R] (k : List R) : List R := k.foldl stepUpOver []

/-- The all-pole recursion (R147) over any ring, `hist` holding the outputs before, latest first. -/
def allPoleOver {R : Type} [CommRing R] (a : List R) : List R → List R → List R
  | [], _ => []
  | x :: xs, hist =>
    (x - (List.zipWith (· * ·) a hist).sum) :: allPoleOver a xs ((x - (List.zipWith (· * ·) a hist).sum) :: hist)

/-- `is_sign(t) * invert * 2^(-p/4) * x` (R125, R127), `negative` saying that the product of the two signs is -1. -/
def IsIntensity (negative : Bool) (pos : Int) (x r : ℝ) : Prop :=
  r = (if negative then -1 else 1) * (2 : ℝ) ^ (-(pos : ℝ) / 4) * x

/-- `k = sin(ci / iqfac)` for `ci >= 0` and `sin(ci / iqfac_m)` for `ci < 0` (R144). -/
def IsReflection (coefRes : Nat) (ci : Int) (k : ℝ) : Prop :=
  k = Real.sin ((ci : ℝ) /
    (((2 : ℝ) ^ (coefResBits coefRes - 1) + (if 0 ≤ ci then -(1 / 2) else 1 / 2)) / (Real.pi / 2)))

/-- `I0(x) = sum over j of ((x/2)^j / j!)^2` (R162). -/
def IsBesselI0 (x r : ℝ) : Prop := r = ∑' j : ℕ, ((x / 2) ^ j / (j.factorial : ℝ)) ^ 2

/-- `Wk(q)` of the KBD window of length `N` (R162). -/
def IsKbdKernel (N q : Nat) (r : ℝ) : Prop :=
  ∃ num den : ℝ,
    IsBesselI0 (Real.pi * (kbdAlpha N : ℝ) * Real.sqrt (1 - (((q : ℝ) - (N : ℝ) / 4) / ((N : ℝ) / 4)) ^ 2)) num ∧
      IsBesselI0 (Real.pi * (kbdAlpha N : ℝ)) den ∧ r = num / den

/-- `WIN(shape, N)[n]` (R161, R162). -/
def IsWindow (shape N n : Nat) (r : ℝ) : Prop :=
  if shape = 0 then r = Real.sin (Real.pi / (N : ℝ) * ((n : ℝ) + 1 / 2))
  else ∃ W : ℕ → ℝ, (∀ q, q ≤ N / 2 → IsKbdKernel N q (W q)) ∧
    r = Real.sqrt ((∑ q ∈ Finset.range ((if n < N / 2 then n else N - n - 1) + 1), W q)
      / ∑ q ∈ Finset.range (N / 2 + 1), W q)

/-- `IMDCT_N(X)[n]` (R163). -/
def IsImdct (N : Nat) (X : ℕ → ℝ) (n : Nat) (r : ℝ) : Prop :=
  r = 2 / (N : ℝ) * ∑ k ∈ Finset.range (N / 2),
    X k * Real.cos (2 * Real.pi / (N : ℝ) * ((n : ℝ) + ((N : ℝ) / 2 + 1) / 2) * ((k : ℝ) + 1 / 2))

/-- `IMDCT_N(X)[n]` times a window value. -/
def IsWindowedImdct (N : Nat) (X : ℕ → ℝ) (n shape m : Nat) (z : ℝ) : Prop :=
  ∃ x w : ℝ, IsImdct N X n x ∧ IsWindow shape N m w ∧ z = x * w

/-- `z[n]` of ONLY_LONG (R164, R165), `sp` the previous shape. -/
def IsOnlyLong (L sp shape : Nat) (X : ℕ → ℝ) (n : Nat) (z : ℝ) : Prop :=
  IsWindowedImdct (2 * L) X n (if n < L then sp else shape) n z

/-- `z[n]` of LONG_START (R164, R166); the short slope is indexed in a short window. -/
def IsLongStart (L sp shape : Nat) (X : ℕ → ℝ) (n : Nat) (z : ℝ) : Prop :=
  if n < L then IsWindowedImdct (2 * L) X n sp n z
  else if n < 3 * L / 2 - L / 8 / 2 then IsImdct (2 * L) X n z
  else if n < 3 * L / 2 + L / 8 / 2 then
    ∃ x w : ℝ, IsImdct (2 * L) X n x ∧ IsWindow shape (2 * (L / 8)) (n - (3 * L / 2 - L / 8 / 2) + L / 8) w ∧ z = x * w
  else z = 0

/-- The term of window `j` in `z[n]` of EIGHT_SHORT (R164, R167), with `O = L/2 - S/2`. -/
def IsShortTerm (L sp shape : Nat) (X : ℕ → ℝ) (n j : Nat) (t : ℝ) : Prop :=
  let S := L / 8
  let start := L / 2 - S / 2 + j * S
  if start ≤ n ∧ n < start + 2 * S then
    IsWindowedImdct (2 * S) (fun k => X (j * S + k)) (n - start) (if j = 0 ∧ n - start < S then sp else shape) (n - start) t
  else t = 0

/-- `z[n]` of EIGHT_SHORT (R167). -/
def IsEightShort (L sp shape : Nat) (X : ℕ → ℝ) (n : Nat) (z : ℝ) : Prop :=
  ∃ t : ℕ → ℝ, (∀ j < 8, IsShortTerm L sp shape X n j (t j)) ∧ z = ∑ j ∈ Finset.range 8, t j

/-- `z[n]` of LONG_STOP (R164, R168). -/
def IsLongStop (L sp shape : Nat) (X : ℕ → ℝ) (n : Nat) (z : ℝ) : Prop :=
  if n < L / 2 - L / 8 / 2 then z = 0
  else if n < L / 2 + L / 8 / 2 then
    ∃ x w : ℝ, IsImdct (2 * L) X n x ∧ IsWindow sp (2 * (L / 8)) (n - (L / 2 - L / 8 / 2)) w ∧ z = x * w
  else if n < L then IsImdct (2 * L) X n z
  else IsWindowedImdct (2 * L) X n shape n z

/-- The windowed frame `z[n]` of window sequence `seq` (R165 to R168). -/
def IsFrame (seq L sp shape : Nat) (X : ℕ → ℝ) (n : Nat) (z : ℝ) : Prop :=
  match seq with
  | 0 => IsOnlyLong L sp shape X n z
  | 1 => IsLongStart L sp shape X n z
  | 2 => IsEightShort L sp shape X n z
  | _ => IsLongStop L sp shape X n z

/-! ## The results of the commands (R11) -/

/-- `r` is the exact real of the defining formula of element `idx` of what command `i`, run in state `s` on legal data, stores
by ROUND or NUM: the elements whose formulas read finite values only (R11, R13). -/
inductive IsResult (s : State) : Instr → Nat → ℝ → Prop
  /-- IQ in a spectral band (R105). -/
  | iq {c : Nat} {ics : Ics} {win : Windows} {swb : List Nat} {i g sfb t : Nat} {sf : Int} {w : Word} {r : ℝ}
      (legal : IqLegal c s ics win swb) (bin : i < s.frameLen) (band : BinBand win swb ics.maxSfb i g sfb)
      (type : readBandType c g sfb s = .ok t) (spectral : isSpectral t = true) (scale : readSf c g sfb s = .ok sf)
      (quant : s.item? c .qspec i = some w) (real : IsDq w.toInt sf r) : IsResult s (.iq c) i r
  /-- MS in the left slot (R123). -/
  | msLeft {a b : Nat} {ics : Ics} {win : Windows} {swb : List Nat} {mmp i : Nat} {wa wb : Word} {x y : ℝ}
      (legal : MsLegal a b s ics win swb mmp) (touched : MsTouches a b s ics win swb mmp i) (left : s.item? a .spec i = some wa)
      (right : s.item? b .spec i = some wb) (hx : IsF32 wa x) (hy : IsF32 wb y) : IsResult s (.ms a b) i (x + y)
  /-- MS in the right slot (R123). -/
  | msRight {a b : Nat} {ics : Ics} {win : Windows} {swb : List Nat} {mmp i : Nat} {wa wb : Word} {x y : ℝ}
      (legal : MsLegal a b s ics win swb mmp) (touched : MsTouches a b s ics win swb mmp i) (left : s.item? a .spec i = some wa)
      (right : s.item? b .spec i = some wb) (hx : IsF32 wa x) (hy : IsF32 wb y) : IsResult s (.ms a b) (1024 + i) (x - y)
  /-- IS in an intensity band (R127). -/
  | is {a b : Nat} {ics : Ics} {win : Windows} {swb : List Nat} {mmp i t : Nat} {pos : Int} {used : Bool} {w : Word} {x r : ℝ}
      (legal : IsLegal a b s ics win swb mmp) (touched : IsTouches a b s ics win swb mmp i t pos used)
      (left : s.item? a .spec i = some w) (hx : IsF32 w x) (real : IsIntensity (isNegative t used) pos x r) :
      IsResult s (.is a b) i r
  /-- TNS in the range of a filter that runs: output `k` of the filter, the inputs up to it finite (R147, R148). -/
  | tns {c : Nat} {ctrl : TnsCtrl} {ics : Ics} {win : Windows} {swb : List Nat} {tw : Nat → TnsWindow}
      {filt : Nat → Nat → TnsFilter} {coef : Nat → Nat → Nat → Int} {w f k : Nat} {words : List Word} {xs ks : List ℝ}
      (legal : TnsLegal c s ctrl ics win swb tw filt coef) (runs : TnsRuns ctrl ics win swb tw filt w f)
      (reads : TnsReads c s ctrl ics win swb filt w f words) (hk : k < words.length)
      (inputs : List.Forall₂ IsF32 ((filterOrder (filt w f).down words).take (k + 1)) xs)
      (coefs : List.Forall₂ (IsReflection (tw w).coefRes) ((List.range (tnsOrder ctrl (filt w f))).map (coef w f)) ks) :
      IsResult s (.tns c)
        (w * win.len + tnsLo ctrl ics swb (filt w) f + if (filt w f).down then words.length - 1 - k else k)
        ((allPoleOver (directFormOver ks) xs []).getD k 0)
  /-- FB's output `z[n] + OVL[n]` (R169). -/
  | pcm {c : Nat} {ics : Ics} {spec ovl : List Word} {prev : Word} {X : ℕ → ℝ} {n : Nat} {v z : ℝ}
      (header : readIcs c s = .ok ics) (spectrum : readFrame c .spec s = .ok spec) (before : s.item? c .chstate 0 = some prev)
      (overlap : readFrame c .ovl s = .ok ovl) (hn : n < s.frameLen)
      (finite : ∀ k < s.frameLen, FrameReads s.frameLen ics.seq n k → IsF32 (spec.getD k 0#32) (X k))
      (hv : IsF32 (ovl.getD n 0#32) v) (real : IsFrame ics.seq s.frameLen (bits 4 4 prev) ics.shape X n z) :
      IsResult s (.fb c) n (z + v)
  /-- FB's new overlap `z[L + n]` (R169). -/
  | ovl {c : Nat} {ics : Ics} {spec : List Word} {prev : Word} {X : ℕ → ℝ} {n : Nat} {z : ℝ}
      (header : readIcs c s = .ok ics) (spectrum : readFrame c .spec s = .ok spec) (before : s.item? c .chstate 0 = some prev)
      (hn : n < s.frameLen)
      (finite : ∀ k < s.frameLen, FrameReads s.frameLen ics.seq (s.frameLen + n) k → IsF32 (spec.getD k 0#32) (X k))
      (real : IsFrame ics.seq s.frameLen (bits 4 4 prev) ics.shape X (s.frameLen + n) z) : IsResult s (.fb c) (1024 + n) z

end Sys2Proof.Machine
end

