-- ==== Sys2Proof/Certificates/Slice0/Obligations.lean ====
section
/-! DEFINITION. The statements about the AAC SRB, one per obligation of OBLIGATIONS.json. -/

section

open Sys2Proof Sys2Proof.Machine

/-! ## Encoding (30_encoding.md) -/

/-- Decoding and encoding are inverse to each other: a word decodes to a well-formed command exactly when it is that command's
encoding, and everything that decodes is well-formed (R81, R82, R84, R86). -/
def Obligations.DecodeEncodeAgree : Prop :=
  (∀ i : Instr, i.WellFormed → ∀ w : Word, decode w = .ok i ↔ w = encode i) ∧
    ∀ (w : Word) (i : Instr), decode w = .ok i → i.WellFormed

/-- The match and mask list of R82 decides decoding: a legal word is an instance of the row with its command's mnemonic and of
no other, an illegal word of none. -/
def Obligations.OpcodeTableDecides : Prop :=
  ∀ w : Word,
    (∀ i, decode w = .ok i → ∀ r ∈ opcodeTable, r.hits w = true ↔ r.mnemonic = i.mnemonic) ∧
      ((∃ e, decode w = .error e) ↔ ∀ r ∈ opcodeTable, r.hits w = false)

/-- Words written out from R80's fields decode to the commands they stand for, and three illegal ones to none. -/
def Obligations.DecodedWords : Prop :=
  decode 0x00000000#32 = .ok .nop ∧ decode 0x01300000#32 = .ok (.iq 3) ∧ decode 0x02010000#32 = .ok (.ms 0 1) ∧
    decode 0x03540000#32 = .ok (.is 5 4) ∧ decode 0x04F00000#32 = .ok (.tns 15) ∧ decode 0x05700000#32 = .ok (.fb 7) ∧
    decode 0x10000000#32 = .ok .fend ∧ decode 0x11000000#32 = .ok .srst ∧
    decode 0x01010000#32 = .error (.nonzeroReserved 1) ∧ decode 0x02010001#32 = .error (.nonzeroReserved 2) ∧
    decode 0x06000000#32 = .error (.undefinedOp 6)

/-! ## Steps -/

/-- A step runs the decoded command: when it is the sequencer's turn on a latched legal word, `step` is `exec`; so it is right
after `withFetchWord` (R85; whose turn it is: log 2). -/
def Obligations.StepRunsDecoded : Prop :=
  (∀ (s : State) (i : Instr), s.status.busy = true → sequencerTurn s = true → decode s.latch = .ok i →
      step s = exec i s) ∧
    ∀ (s : State) (nbits w : Nat) (i : Instr), decodeTableWord nbits w = some i →
      step (s.withFetchWord nbits w) = exec i (s.withFetchWord nbits w)

/-- R84: a word is illegal exactly when it is an instance of no row of R82; executed, it raises ILLEGAL_CMD with DETAIL = OP,
changes nothing else and completes. -/
def Obligations.IllegalWordRaises : Prop :=
  (∀ w : Word, (∃ e, decode w = .error e) ↔ ∀ r ∈ opcodeTable, r.hits w = false) ∧
    ∀ (s : State) (e : DecodeError), s.status.busy = true → sequencerTurn s = true → decode s.latch = .error e →
      step s = raised .illegalCmd 0 (bits 31 24 s.latch) s

/-- On the host's turn a step is its next event: a read or a write of R62, or the power-on reset of R231. The rest is the model's
choice: the events come from a queue (log 1) that also holds the power-on reset (log 17); each moves the draw counter on (log 12); a
wait, for which R87 has a polling loop, is one event that just ends, and with no event left a step leaves the state as it is (log 19);
a host that waits, or has nothing left, lets a command in flight complete (R67 leaves the point open; log 2). -/
def Obligations.HostTurn : Prop :=
  (∀ s : State, HostActs s → s.pending = [] → step s = .next s) ∧
    (∀ (s : State) (rest : List HostOp), HostActs s →
      (∀ addr size, s.pending = .read addr size :: rest →
        step s = hostRead addr size { s with pending := rest, draws := s.draws + 1 }) ∧
      (∀ addr size v, s.pending = .write addr size v :: rest →
        step s = hostWrite addr size v { s with pending := rest, draws := s.draws + 1 }) ∧
      (s.pending = .wait :: rest → step s = .next { s with pending := rest, draws := s.draws + 1 }) ∧
      (s.pending = .powerOn :: rest →
        step s = .next (powerOnReset { s with pending := rest, draws := s.draws + 1 }))) ∧
    (∀ s : State, s.pending = [] → sequencerTurn s = true) ∧
    ∀ (s : State) (rest : List HostOp), s.pending = .wait :: rest → sequencerTurn s = true

/-- R67, R247: a latched command is eventually completed. While the host's accesses meet no bus error and no power-on reset is among
its events, at most one step per pending event goes by before the sequencer's turn comes, the command still latched and memory
untouched. (The bound is the model's: a host that waits or has nothing left lets the command complete, log 2.) -/
def Obligations.CommandGetsItsTurn : Prop :=
  ∀ s : State, s.status.busy = true →
    (∀ op ∈ s.pending, match op with
      | .read addr size => ∃ l, locate s.params addr size = .ok l
      | .write addr size _ => ∃ l, locate s.params addr size = .ok l
      | .wait => True
      | .powerOn => False) →
    ∃ k t, k ≤ s.pending.length ∧ runFor k s = .next t ∧ t.status.busy = true ∧ sequencerTurn t = true ∧
      t.latch = s.latch ∧ t.mem = s.mem ∧ t.params = s.params ∧ t.cfg = s.cfg

/-- R25: a CMD write latches the word while BUSY = 0 and is dropped while BUSY = 1; a CMD read gives 0. -/
def Obligations.CommandPort : Prop :=
  ∀ (s : State) (v : Word), s.params.valid = true →
    (s.status.busy = false → hostWrite (s.params.base + 0x010) 4 v s =
      .next { s with latch := v, status := { s.status with busy := true } }) ∧
    (s.status.busy = true → hostWrite (s.params.base + 0x010) 4 v s =
      .next { s with status := { s.status with ovr := true } }) ∧
    hostRead (s.params.base + 0x010) 4 s = .next { s with reads := 0x00000000#32 :: s.reads }

/-! ## Whole-machine rules -/

/-- Every step keeps the invariant: legal parameters; memory canonical, inside the slots, reserved bits 0, whole words; an error
record exactly while ERR = 1; FATAL only in a started stream (R30, R60, R63, R24, R27, R202, R204). -/
def Obligations.StepKeepsInv : Prop := ∀ s t : State, s.Inv → step s = .next t → t.Inv

/-- The reset state meets the invariant (R230). -/
def Obligations.ResetInv : Prop := State.reset.Inv

/-- R202: the recording of an error, the code of each error, and that no step changes a record while ERR stays 1. -/
def Obligations.ErrorRecord : Prop :=
  (∀ (e : ErrCode) (ch d : Nat) (s : State), s.status.err = false →
    recordError e ch d s =
      { s with
        status := { s.status with err := true, errcode := e }
        errinfo := { ch := BitVec.ofNat 4 ch, detail := BitVec.ofNat 16 d } }) ∧
  (∀ (e : ErrCode) (ch d : Nat) (s : State), s.status.err = true → recordError e ch d s = s) ∧
  (ErrCode.none.code = 0x00 ∧ ErrCode.illegalCmd.code = 0x01 ∧ ErrCode.badChannel.code = 0x02 ∧
    ErrCode.config.code = 0x03 ∧ ErrCode.badWindow.code = 0x04 ∧ ErrCode.badSfb.code = 0x05 ∧
    ErrCode.badBandType.code = 0x06 ∧ ErrCode.qRange.code = 0x07 ∧ ErrCode.badPair.code = 0x08 ∧
    ErrCode.badMs.code = 0x09 ∧ ErrCode.badTns.code = 0x0A ∧ ErrCode.fatal.code = 0x0B ∧
    ErrCode.unsupported.code = 0x0C ∧ ErrCode.badSf.code = 0x0D) ∧
  ∀ s t : State, step s = .next t → s.status.err = true → t.status.err = true →
    t.status.errcode = s.status.errcode ∧ t.errinfo = s.errinfo

/-- R200, R201: a command that goes on ends in one of two ways. Either it records an error, completes and writes nothing else, or
it completes with only its own write set (its members: BusyAccesses) changed. -/
def Obligations.AllOrNothing : Prop :=
  ∀ (i : Instr) (s t : State), exec i s = .next t →
    (∃ e ch d, e ≠ ErrCode.none ∧ .next t = raised e ch d s) ∨
      ∃ s', t = complete s' ∧ KeepsRegisters i s s' ∧ SameBytes s.mem s'.mem (fun x => ¬WritesByte i s x)

/-- R51: a command goes on, or it faults on a never-written word of an item its rule reads, naming itself (R51) and the word (log 9);
none is refused. It does fault, at exactly that word, on an unwritten ICS_INFO of its slot (of the left one of a pair; of TNS with
PRESENT = 1), on an unwritten TNS_CTRL, on the first unwritten element of FB's spectrum, and on the first unwritten QSPEC element of a
spectral band. (Every other word a command reads: UnwrittenReadFaults.) -/
def Obligations.FaultsOnlyUnwritten : Prop :=
  (∀ (i : Instr) (s : State), (∃ t, exec i s = .next t) ∨
    ∃ c it k, (c, it) ∈ Instr.readItems i ∧ k < it.count ∧ s.item? c it k = none ∧
      exec i s = .fault (.unwrittenRead i (itemAddr c it k))) ∧
  (∀ (i : Instr) (s : State) (c : Nat), Accepted i s → s.item? c .icsInfo 0 = none →
    i = .iq c ∨ i = .fb c ∨ (∃ b, i = .ms c b ∨ i = .is c b) ∨
      (i = .tns c ∧ ∃ v, s.item? c .tnsCtrl 0 = some v ∧ v.getLsbD 0 = true) →
    exec i s = .fault (.unwrittenRead i (itemAddr c .icsInfo 0))) ∧
  (∀ (s : State) (c : Nat), Accepted (.tns c) s → s.item? c .tnsCtrl 0 = none →
    exec (.tns c) s = .fault (.unwrittenRead (.tns c) (itemAddr c .tnsCtrl 0))) ∧
  (∀ (s : State) (c k : Nat), Accepted (.fb c) s → s.item? c .icsInfo 0 ≠ none → k < s.frameLen →
    (∀ j < k, s.item? c .spec j ≠ none) → s.item? c .spec k = none →
    exec (.fb c) s = .fault (.unwrittenRead (.fb c) (itemAddr c .spec k))) ∧
  ∀ (s : State) (c : Nat) (ics : Ics) (win : Windows) (swb : List Nat) (k g sfb t : Nat), Accepted (.iq c) s →
    SideInfo c s ics win swb →
    (∀ g < win.groups, ∀ sfb < ics.maxSfb, ∃ t, readBandType c g sfb s = .ok t ∧ typeError t = none ∧
      (isSpectral t = true → ∃ sf, readSf c g sfb s = .ok sf ∧ 0 ≤ sf ∧ sf ≤ 255)) →
    k < s.frameLen → BinBand win swb ics.maxSfb k g sfb → readBandType c g sfb s = .ok t → isSpectral t = true →
    (∀ j < k, ∀ g' sfb' t', BinBand win swb ics.maxSfb j g' sfb' → readBandType c g' sfb' s = .ok t' → isSpectral t' = true →
      ∃ w, s.item? c .qspec j = some w ∧ w.toInt.natAbs ≤ 8191) →
    s.item? c .qspec k = none → exec (.iq c) s = .fault (.unwrittenRead (.iq c) (itemAddr c .qspec k))

/-- R51, A6: a command that is past R203's and R205's checks faults exactly where it comes to read a never-written word, of any item
its rule reads: it names itself and such a word (log 9). So no command picks a value for one, be it to go on or to raise an error.
(The order of reads within a check: log 10, log 23.) -/
def Obligations.UnwrittenReadFaults : Prop :=
  ∀ (i : Instr) (s : State),
    (Accepted i s → (∃ c it k, ReadsWord s i c it k ∧ s.item? c it k = none) →
      ∃ c it k, ReadsWord s i c it k ∧ s.item? c it k = none ∧ exec i s = .fault (.unwrittenRead i (itemAddr c it k))) ∧
    ∀ x, exec i s = .fault x →
      Accepted i s ∧ ∃ c it k, ReadsWord s i c it k ∧ s.item? c it k = none ∧ x = .unwrittenRead i (itemAddr c it k)

/-- R205: while FATAL = 1 every command but FEND and SRST raises FATAL and writes nothing else, FEND still counts and SRST clears
FATAL; only a reset clears FATAL. -/
def Obligations.FatalBlocks : Prop :=
  (∀ (i : Instr) (s : State), s.status.fatal = true → i ≠ .fend → i ≠ .srst → exec i s = raised .fatal 0 0 s) ∧
    (∀ s : State, ∃ t, exec .fend s = .next t ∧ t.framecnt = s.framecnt + 1#32) ∧
    (∀ s : State, ∃ t, exec .srst s = .next t ∧ t.status.fatal = false) ∧
    ∀ s t : State, step s = .next t → s.status.fatal = true → t.status.fatal = false → Resets s

/-- R86, R203: a slot 0..15 is legal to encode; one at or above NCH raises BAD_CHANNEL when executed, the left operand before the
right one, and so does a pair with equal operands. -/
def Obligations.BadChannelRaised : Prop :=
  (∀ c, c < 16 → ∀ f ∈ [Instr.iq, Instr.tns, Instr.fb], decode (encode (f c)) = .ok (f c)) ∧
  (∀ a b, a < 16 → b < 16 → ∀ f ∈ [Instr.ms, Instr.is], decode (encode (f a b)) = .ok (f a b)) ∧
  (∀ (s : State) (c : Nat), s.status.fatal = false → s.params.nch ≤ c →
    ∀ f ∈ [Instr.iq, Instr.tns, Instr.fb], exec (f c) s = raised .badChannel c 0 s) ∧
  ∀ (s : State) (a b : Nat), s.status.fatal = false → ∀ f ∈ [Instr.ms, Instr.is],
    (s.params.nch ≤ a → exec (f a b) s = raised .badChannel a 0 s) ∧
    (a < s.params.nch → s.params.nch ≤ b → exec (f a b) s = raised .badChannel b 0 s) ∧
    (a < s.params.nch → a = b → exec (f a b) s = raised .badChannel a 0 s)

/-- R31: only FB, on its own slot, and reset write ChannelState; the host cannot. -/
def Obligations.ChannelStateOwner : Prop :=
  ∀ s t : State, step s = .next t → ¬Resets s → ∀ x, inChannelState x = true →
    (∀ c, Executes s (.fb c) → x / 0x10000 ≠ c + 1) → t.mem.byte? x = s.mem.byte? x

/-- R26: FRAMECNT is incremented (modulo 2^32) by FEND only and cleared by reset; nothing else, and no host write, changes it. -/
def Obligations.FrameCounter : Prop :=
  ∀ s t : State, step s = .next t →
    (Executes s .fend → t.framecnt = s.framecnt + 1#32) ∧ (Resets s → t.framecnt = 0#32) ∧
      (¬Executes s .fend → ¬Resets s → t.framecnt = s.framecnt)

/-- R23, R24: STARTED is set only by an FB and cleared only by reset, FATAL is set only by a host write to CFG, and while
STARTED = 1 only a reset changes FL960. -/
def Obligations.StreamLock : Prop :=
  ∀ s t : State, step s = .next t →
    (s.status.started = true → t.status.started = false → Resets s) ∧
    (s.status.started = false → t.status.started = true → ∃ c, Executes s (.fb c)) ∧
    (s.status.fatal = false → t.status.fatal = true → ∃ v, WritesReg s .cfg v) ∧
    (s.status.started = true → t.cfg.fl960 ≠ s.cfg.fl960 → Resets s)

/-! ## Host accesses (10_state.md, 20_memory.md) -/

/-- R22, R28, R29: ID, VERSION and NCHREG read as their constants and no step changes NCH; a host write to a read-only register
changes nothing, and one to STATUS leaves its read-only fields, ERRCODE as long as ERR is not cleared with it (R24). -/
def Obligations.ReadOnlyRegisters : Prop :=
  (∀ s : State, s.params.valid = true →
    hostRead (s.params.base + 0x000) 4 s = .next { s with reads := 0x494D4443#32 :: s.reads } ∧
    hostRead (s.params.base + 0x004) 4 s = .next { s with reads := 0x00000001#32 :: s.reads } ∧
    hostRead (s.params.base + 0x01C) 4 s = .next { s with reads := BitVec.ofNat 32 s.params.nch :: s.reads }) ∧
  (∀ s t : State, step s = .next t → t.params = s.params) ∧
  ∀ (s : State) (v : Word), s.params.valid = true →
    (s.status.busy = false → ∀ off ∈ [0x000, 0x004, 0x014, 0x018, 0x01C],
      hostWrite (s.params.base + off) 4 v s = .next s) ∧
    ∃ t, hostWrite (s.params.base + 0x00C) 4 v s = .next t ∧ t.status.busy = s.status.busy ∧
      t.status.started = s.status.started ∧ t.status.fatal = s.status.fatal ∧
      (bit 2 v = false → t.status.errcode = s.status.errcode)

/-- R24, R26, R27: what a host read of STATUS, FRAMECNT and ERRINFO returns while BUSY = 0, bit by bit; reserved bits read 0. -/
def Obligations.RegisterReads : Prop :=
  ∀ s : State, s.params.valid = true → s.status.busy = false →
    (∃ r, hostRead (s.params.base + 0x00C) 4 s = .next { s with reads := r :: s.reads } ∧ r.getLsbD 0 = false ∧
      r.getLsbD 1 = s.status.done ∧ r.getLsbD 2 = s.status.err ∧ r.getLsbD 3 = s.status.started ∧
      r.getLsbD 4 = s.status.fatal ∧ r.getLsbD 5 = s.status.ovr ∧ r.getLsbD 6 = s.status.wt ∧
      (r.extractLsb' 8 8).toNat = s.status.errcode.code ∧ r &&& 0xFFFF0080#32 = 0#32) ∧
    hostRead (s.params.base + 0x014) 4 s = .next { s with reads := s.framecnt :: s.reads } ∧
    ∃ r, hostRead (s.params.base + 0x018) 4 s = .next { s with reads := r :: s.reads } ∧ r.extractLsb' 0 4 = s.errinfo.ch ∧
      r.extractLsb' 16 16 = s.errinfo.detail ∧ r &&& 0x0000FFF0#32 = 0#32

/-- R23: what a CFG write changes while BUSY = 0, and what CFG reads as. With STARTED = 0 all three fields take their bits; with
STARTED = 1 and bit 0 equal to FL960 the enables do and nothing else changes; where bit 0 differs, FL960 stays and the enables
still take their bits (the error: R204, ConfigError). -/
def Obligations.CfgWrite : Prop :=
  ∀ (s : State) (v : Word), s.params.valid = true → s.status.busy = false →
    (s.status.started = false → hostWrite (s.params.base + 0x008) 4 v s =
      .next { s with cfg := { fl960 := bit 0 v, ieDone := bit 8 v, ieErr := bit 9 v } }) ∧
    (s.status.started = true → bit 0 v = s.cfg.fl960 → hostWrite (s.params.base + 0x008) 4 v s =
      .next { s with cfg := { s.cfg with ieDone := bit 8 v, ieErr := bit 9 v } }) ∧
    (s.status.started = true → bit 0 v ≠ s.cfg.fl960 → ∃ t, hostWrite (s.params.base + 0x008) 4 v s = .next t ∧
      t.cfg = { s.cfg with ieDone := bit 8 v, ieErr := bit 9 v }) ∧
    ∃ r, hostRead (s.params.base + 0x008) 4 s = .next { s with reads := r :: s.reads } ∧ bit 0 r = s.cfg.fl960 ∧
      bit 8 r = s.cfg.ieDone ∧ bit 9 r = s.cfg.ieErr ∧ r &&& 0xFFFFFCFE#32 = 0#32

/-- R204: a CFG write that would change FL960 while STARTED = 1 records CONFIG(0, 0) and sets FATAL, in the step of the write; it
does not set DONE and does not change BUSY. The enables are still written (R23). -/
def Obligations.ConfigError : Prop :=
  ∀ (s : State) (v : Word), s.params.valid = true → s.status.busy = false → s.status.started = true →
    bit 0 v ≠ s.cfg.fl960 →
    ∃ t, hostWrite (s.params.base + 0x008) 4 v s = .next t ∧ t.status.fatal = true ∧ t.status.err = true ∧
      (s.status.err = false → t.status.errcode = .config ∧ t.errinfo = { ch := 0#4, detail := 0#16 }) ∧
      (s.status.err = true → t.status.errcode = s.status.errcode ∧ t.errinfo = s.errinfo) ∧
      t = { s with
        cfg := { s.cfg with ieDone := bit 8 v, ieErr := bit 9 v }
        status := { s.status with err := true, fatal := true, errcode := t.status.errcode }
        errinfo := t.errinfo }

/-- R24, R209: a host write to STATUS, BUSY or not, clears DONE, ERR with ERRCODE and ERRINFO, OVR and WT where its bit is 1, and
changes nothing else. -/
def Obligations.StatusWriteOneToClear : Prop :=
  ∀ (s : State) (v : Word), s.params.valid = true →
    hostWrite (s.params.base + 0x00C) 4 v s = .next { s with
      status := { s.status with
        done := s.status.done && !bit 1 v
        err := s.status.err && !bit 2 v
        ovr := s.status.ovr && !bit 5 v
        wt := s.status.wt && !bit 6 v
        errcode := if bit 2 v then .none else s.status.errcode }
      errinfo := if bit 2 v then { ch := 0#4, detail := 0#16 } else s.errinfo }

/-- R62, R65: an access that is not 4 bytes wide or not on a word boundary gets a bus error; any other read changes nothing in the
block, whose answer is all it leaves. -/
def Obligations.AccessWidth : Prop :=
  (∀ (s : State) (addr size : Nat) (v : Word), size ≠ 4 ∨ addr % 4 ≠ 0 →
    ∃ why, hostRead addr size s = .fault (.busError why addr) ∧ hostWrite addr size v s = .fault (.busError why addr)) ∧
  ∀ (s t : State) (addr size : Nat), hostRead addr size s = .next t → ∃ r, t = { s with reads := r :: s.reads }

/-- R60, R61: an aligned word access inside the block's span gets a bus error exactly at an unmapped offset. -/
def Obligations.UnmappedOffsets : Prop :=
  ∀ (s : State) (off : Nat) (v : Word), s.params.valid = true → off % 4 = 0 → off < 0x10000 * (s.params.nch + 1) →
    (Unmapped off → hostRead (s.params.base + off) 4 s = .fault (.busError .unmapped (s.params.base + off)) ∧
      hostWrite (s.params.base + off) 4 v s = .fault (.busError .unmapped (s.params.base + off))) ∧
    (¬Unmapped off → (∃ t, hostRead (s.params.base + off) 4 s = .next t) ∧
      ∃ t, hostWrite (s.params.base + off) 4 v s = .next t)

/-- R66: while a command is in flight a host write to any location but STATUS only sets OVR; a read of a location in its write set
returns a draw (its reserved bits 0: log 16), and a read of any other its current value. STATUS reads with BUSY 1 (R68); with FB in
flight STARTED and WT are a draw, with SRST every field but BUSY, and with any other word it reads as it is (log 13). The write sets,
STATUS's own fields apart, are those the commands' rules list (R105, R123, R127, R148, R170, R190 to R192). -/
def Obligations.BusyAccesses : Prop :=
  (∀ (s : State) (l : Loc) (L : Nat), L = (if s.cfg.fl960 then 960 else 1024) →
    inWriteSet .nop s l = false ∧
    (∀ c, inWriteSet (.iq c) s l = true ↔ ∃ k < L, l = .item c .spec k) ∧
    (∀ a b, inWriteSet (.ms a b) s l = true ↔ ∃ k < L, l = .item a .spec k ∨ l = .item b .spec k) ∧
    (∀ a b, inWriteSet (.is a b) s l = true ↔ ∃ k < L, l = .item b .spec k) ∧
    (∀ c, inWriteSet (.tns c) s l = true ↔ ∃ k < L, l = .item c .spec k) ∧
    (∀ c, inWriteSet (.fb c) s l = true ↔
      (∃ k < L, l = .item c .pcm k ∨ l = .item c .ovl k) ∨ l = .item c .chstate 0) ∧
    (inWriteSet .fend s l = true ↔ l = .reg .framecnt) ∧
    (inWriteSet .srst s l = true ↔ l = .reg .cfg ∨ l = .reg .framecnt ∨ l = .reg .errinfo ∨
      ∃ c k, l = .item c .ovl k ∨ l = .item c .chstate k)) ∧
  ∀ (s : State) (addr : Nat) (l : Loc), s.status.busy = true → locate s.params addr 4 = .ok l →
    (l ≠ .reg .status → ∀ v, hostWrite addr 4 v s = .next { s with status := { s.status with ovr := true } }) ∧
    (∀ i, decode s.latch = .ok i → inWriteSet i s l = true →
      hostRead addr 4 s = .next { s with reads := (Config.freeRead s.draws &&& l.mask) :: s.reads }) ∧
    (l ≠ .reg .status → (∀ i, decode s.latch = .ok i → inWriteSet i s l = false) →
      hostRead addr 4 s = .next { s with reads := currentValue s l :: s.reads }) ∧
    (l = .reg .status → ∃ r, hostRead addr 4 s = .next { s with reads := r :: s.reads } ∧ r.getLsbD 0 = true ∧
      (∀ c, decode s.latch = .ok (.fb c) → r &&& 0xFFFFFFB7#32 = s.status.toWord &&& 0xFFFFFFB7#32 ∧
        r &&& 0x00000048#32 = Config.freeRead s.draws &&& 0x00000048#32) ∧
      (decode s.latch = .ok .srst → r &&& 0xFFFFFFFE#32 = Config.freeRead s.draws &&& 0x0000FF7E#32) ∧
      ((∀ c, decode s.latch ≠ .ok (.fb c)) → decode s.latch ≠ .ok .srst → r = s.status.toWord))

/-- R30, R51: while BUSY = 0, a write to an element of a host-writable item stores the item's bits there and nothing else, a write
to a read-only item nothing; a read returns the element, or a draw where it was never written (reserved bits 0: log 16). -/
def Obligations.ItemAccess : Prop :=
  ∀ (s : State) (c : Nat) (it : Item) (i : Nat) (v : Word), s.params.valid = true → s.status.busy = false →
    c < s.params.nch → i < it.count →
    (it.hostWritable = true → ∃ m, hostWrite (s.params.base + itemAddr c it i) 4 v s = .next { s with mem := m } ∧
      m.word? (itemAddr c it i) = some (v &&& it.mask) ∧ SameBytes s.mem m (OutsideWord (itemAddr c it i))) ∧
    (it.hostWritable = false → hostWrite (s.params.base + itemAddr c it i) 4 v s = .next s) ∧
    (∀ w, s.item? c it i = some w →
      hostRead (s.params.base + itemAddr c it i) 4 s = .next { s with reads := w :: s.reads }) ∧
    (s.item? c it i = none →
      hostRead (s.params.base + itemAddr c it i) 4 s =
        .next { s with reads := (Config.freeRead s.draws &&& it.mask) :: s.reads })

/-- R30: the offset, size, stored bits and host access of every item; R35, R36, R39, R41 to R46: the place of every field of
ICS_INFO, GROUP_LEN, TNS_CTRL, BAND_TYPE, SF, MS_USED, TNS_WIN, TNS_FILT and TNS_COEF; R141, R143: the checked limits of TNS and the
coefficient ranges. -/
def Obligations.FieldLayout : Prop :=
  ([Item.qspec, .spec, .ovl, .pcm, .icsInfo, .groupLen, .chstate, .msCtrl, .tnsCtrl, .swbOffset, .bandType, .sf, .msUsed,
      .tnsWin, .tnsFilt, .tnsCoef].map fun it => (it.offset, it.count, it.mask, it.hostWritable)) =
    [(0x0000, 1024, 0xFFFFFFFF#32, true), (0x1000, 1024, 0xFFFFFFFF#32, true), (0x2000, 1024, 0xFFFFFFFF#32, false),
     (0x3000, 1024, 0xFFFFFFFF#32, false), (0x4000, 1, 0x0F3F3F13#32, true), (0x4004, 1, 0xFFFFFFFF#32, true),
     (0x4008, 1, 0x00000013#32, false), (0x400C, 1, 0x00000003#32, true), (0x4010, 1, 0x003F1F01#32, true),
     (0x4100, 64, 0xFFFFFFFF#32, true), (0x4200, 512, 0xFFFFFFFF#32, true), (0x4A00, 512, 0xFFFFFFFF#32, true),
     (0x5200, 16, 0xFFFFFFFF#32, true), (0x5300, 8, 0x00000013#32, true), (0x5400, 32, 0x00031F3F#32, true),
     (0x6000, 1024, 0xFFFFFFFF#32, true)] ∧
  (∀ v : Word,
    icsOfWord v = { seq := (v.extractLsb' 0 2).toNat, shape := (v.extractLsb' 4 1).toNat,
                    maxSfb := (v.extractLsb' 8 6).toNat, numSwb := (v.extractLsb' 16 6).toNat,
                    ngroups := (v.extractLsb' 24 4).toNat } ∧
    (∀ g < 8, groupLenField g v = (v.extractLsb' (4 * g) 4).toNat) ∧
    tnsCtrlOfWord v = { present := v.getLsbD 0, maxOrder := (v.extractLsb' 8 5).toNat,
                        maxBands := (v.extractLsb' 16 6).toNat } ∧
    tnsWindowOfWord v = { nfilt := (v.extractLsb' 0 2).toNat, coefRes := (v.extractLsb' 4 1).toNat } ∧
    tnsFilterOfWord v = { length := (v.extractLsb' 0 6).toNat, order := (v.extractLsb' 8 5).toNat, down := v.getLsbD 16,
                          compress := (v.extractLsb' 17 1).toNat }) ∧
  (∀ (s : State) (c : Nat) (v : Word),
    (s.item? c .icsInfo 0 = some v → readIcs c s = .ok (icsOfWord v)) ∧
    (∀ g sfb, s.item? c .bandType (64 * g + sfb) = some v → readBandType c g sfb s = .ok v.toNat) ∧
    (∀ g sfb, s.item? c .sf (64 * g + sfb) = some v → readSf c g sfb s = .ok v.toInt) ∧
    (∀ g h j, h < 2 → j < 32 → s.item? c .msUsed (2 * g + h) = some v →
      readMsUsed c g (32 * h + j) s = .ok (v.getLsbD j)) ∧
    ∀ w f i, s.item? c .tnsCoef (32 * (4 * w + f) + i) = some v → readCoef c w f i s = .ok v.toInt) ∧
  (∀ ics : Ics, tnsOrderCap ics = (if ics.seq = 2 then 7 else 20) ∧ tnsFilterCap ics = (if ics.seq = 2 then 1 else 3) ∧
    ∀ fl, TnsLimits ics fl ↔ (ics.seq = 2 → fl.length ≤ 15 ∧ fl.order ≤ 7)) ∧
  ∀ ci : Int, (coefInRange (coefWidth 0 0) ci = true ↔ -4 ≤ ci ∧ ci ≤ 3) ∧
    (coefInRange (coefWidth 0 1) ci = true ↔ -2 ≤ ci ∧ ci ≤ 1) ∧
    (coefInRange (coefWidth 1 0) ci = true ↔ -8 ≤ ci ∧ ci ≤ 7) ∧
    (coefInRange (coefWidth 1 1) ci = true ↔ -4 ≤ ci ∧ ci ≤ 3)

/-- R230, R231: the state power-on reset leaves (the draw counter and the host's queue are the model's own, log 12, log 17; LATCH 0
is the model's choice, log 11). OVL and CHSTATE read 0 and every other item holds no value. -/
def Obligations.ResetState : Prop :=
  (∀ s : State, PowersOn s → ∃ t, step s = .next t ∧
    t.cfg = { fl960 := false, ieDone := false, ieErr := false } ∧
    t.status = { busy := false, done := false, err := false, started := false, fatal := false, ovr := false, wt := false,
                 errcode := .none } ∧
    t.framecnt = 0#32 ∧ t.errinfo = { ch := 0#4, detail := 0#16 } ∧ t.params = s.params ∧ t.irq = false ∧
    ∀ c it i, i < it.count → t.item? c it i = if it = .ovl ∨ it = .chstate then some 0x00000000#32 else none) ∧
  (State.reset.cfg = { fl960 := false, ieDone := false, ieErr := false } ∧
    State.reset.status = { busy := false, done := false, err := false, started := false, fatal := false, ovr := false,
                           wt := false, errcode := .none } ∧
    State.reset.framecnt = 0#32 ∧ State.reset.errinfo = { ch := 0#4, detail := 0#16 } ∧ State.reset.mem = [])

/-- R206: the interrupt line is DONE with its enable or ERR with its enable. Each of its two sources is cleared only by a host
write of 1 to its own STATUS bit or by a reset, and the line falls only so or by a host write to CFG. -/
def Obligations.InterruptLine : Prop :=
  (∀ s : State, s.irq = ((s.status.done && s.cfg.ieDone) || (s.status.err && s.cfg.ieErr))) ∧
    ∀ s t : State, step s = .next t →
      (s.status.done = true → t.status.done = false → Resets s ∨ ∃ v, WritesReg s .status v ∧ bit 1 v = true) ∧
      (s.status.err = true → t.status.err = false → Resets s ∨ ∃ v, WritesReg s .status v ∧ bit 2 v = true) ∧
      (s.irq = true → t.irq = false → Resets s ∨ ∃ v, WritesReg s .status v ∨ WritesReg s .cfg v)

/-! ## Control commands (45_control.md) -/

/-- R190: NOP completes and changes nothing but DONE and BUSY; while FATAL = 1 it raises FATAL instead. -/
def Obligations.NopCompletes : Prop :=
  (decode 0x00000000#32 = .ok .nop ∧ ∀ w : Word, bits 31 24 w = 0 → w ≠ 0x00000000#32 → ∃ e, decode w = .error e) ∧
  (∀ s : State, s.status.fatal = false →
    exec .nop s = .next { s with status := { s.status with done := true, busy := false }, draws := s.draws + 1 }) ∧
  ∀ s : State, s.status.fatal = true → exec .nop s = raised .fatal 0 0 s

/-- R191: FEND adds 1 to FRAMECNT modulo 2^32, in every state, and changes nothing else but DONE and BUSY. -/
def Obligations.FendCompletes : Prop :=
  decode 0x10000000#32 = .ok .fend ∧
  ∀ s : State, ∃ t, exec .fend s = .next t ∧ t.framecnt.toNat = (s.framecnt.toNat + 1) % 2 ^ 32 ∧
    t = { s with
      framecnt := t.framecnt
      status := { s.status with done := true, busy := false }
      draws := s.draws + 1 }

/-- R192, R230: SRST, in every state, leaves CFG, FRAMECNT and ERRINFO 0, STATUS with DONE alone, ChannelState 0 and every other
byte of memory as it was. (LATCH 0: log 11.) -/
def Obligations.SrstCompletes : Prop :=
  ∀ s : State, ∃ m, exec .srst s = .next
      { s with
        cfg := { fl960 := false, ieDone := false, ieErr := false }
        status := { busy := false, done := true, err := false, started := false, fatal := false, ovr := false, wt := false,
                    errcode := .none }
        framecnt := 0#32
        errinfo := { ch := 0#4, detail := 0#16 }
        latch := 0#32
        mem := m
        draws := s.draws + 1 } ∧
    (∀ c i, i < 1024 → m.word? (itemAddr c .ovl i) = some 0x00000000#32) ∧
    (∀ c, m.word? (itemAddr c .chstate 0) = some 0x00000000#32) ∧
    SameBytes s.mem m (fun x => ∀ c, OutsideItem c .ovl 1024 x ∧ OutsideItem c .chstate 1 x)

/-! ## Side information (10_state.md section 4) -/

/-- R47, R53: what a command takes as the windows of a slot, and that it finds BAD_WINDOW exactly where `window_ok` is false. A
long sequence reads no GROUP_LEN. -/
def Obligations.WindowPredicate : Prop :=
  ∀ (c : Nat) (s : State) (ics : Ics),
    (ics.seq ≠ 2 → readWindows c ics s = .ok { len := s.frameLen, count := 1, glen := [1] }) ∧
    ∀ glen : Nat → Nat, GlenIs c s glen → ics.seq = 2 →
      (WindowOk ics glen → readWindows c ics s =
        .ok { len := s.frameLen / 8, count := 8, glen := (List.range ics.ngroups).map glen }) ∧
      (¬WindowOk ics glen → readWindows c ics s = .error (.raise .badWindow c 0))

/-- R54, R55: what a command takes as the band table of a slot, that it finds BAD_SFB exactly where `sfb_ok` is false, and the band
of each bin. -/
def Obligations.BandTable : Prop :=
  (∀ (c : Nat) (s : State) (ics : Ics) (win : Windows) (swb : Nat → Nat), SwbIs c ics.numSwb s swb →
    (SfbOk ics win.len swb → readBands c ics win s = .ok ((List.range (ics.numSwb + 1)).map swb)) ∧
    (¬SfbOk ics win.len swb → readBands c ics win s = .error (.raise .badSfb c 0))) ∧
  ∀ (ics : Ics) (winLen : Nat) (swb : List Nat) (k : Nat), SfbOk ics winLen (fun i => swb.getD i 0) →
    (∀ sfb, bandOf swb ics.maxSfb k = some sfb ↔
      sfb < ics.maxSfb ∧ swb.getD sfb 0 ≤ k ∧ k < swb.getD (sfb + 1) 0) ∧
    (bandOf swb ics.maxSfb k = none ↔ swb.getD ics.maxSfb 0 ≤ k)

/-- R56: MS and IS find a pair legal exactly where `pair_ok` holds, and raise BAD_PAIR where it does not. GROUP_LEN need be written
in a short slot only. (Group lengths past the eight fields count as equal: log 24.) -/
def Obligations.PairPredicate : Prop :=
  ∀ (a b : Nat) (s : State) (ia ib : Ics) (swbA swbB glenA glenB : Nat → Nat),
    readIcs a s = .ok ia → readIcs b s = .ok ib → SwbIs a ia.numSwb s swbA → SwbIs b ib.numSwb s swbB →
    (ia.seq = 2 → GlenIs a s glenA) → (ib.seq = 2 → GlenIs b s glenB) →
    (PairOk ia ib swbA swbB glenA glenB → readPairOk a b ia ib s = .ok true) ∧
    (¬PairOk ia ib swbA swbB glenA glenB → readPairOk a b ia ib s = .ok false ∧
      (s.status.fatal = false → a < s.params.nch → b < s.params.nch → a ≠ b →
        exec (.ms a b) s = raised .badPair a 0 s ∧ exec (.is a b) s = raised .badPair a 0 s))

/-- R53, R54, R122, R148: `window_ok` false makes IQ, MS, IS and TNS raise BAD_WINDOW on the slot (the left one of a pair), and
`sfb_ok` false, `window_ok` holding, makes them raise BAD_SFB. -/
def Obligations.SideInfoErrorsRaised : Prop :=
  ∀ (s : State) (c : Nat) (ics : Ics), s.status.fatal = false → c < s.params.nch → readIcs c s = .ok ics →
    (∀ glen : Nat → Nat, GlenIs c s glen → ¬WindowOk ics glen →
      exec (.iq c) s = raised .badWindow c 0 s ∧
      (∀ v, s.item? c .tnsCtrl 0 = some v → (tnsCtrlOfWord v).present = true →
        exec (.tns c) s = raised .badWindow c 0 s) ∧
      ∀ (b : Nat) (ib : Ics), b < s.params.nch → c ≠ b → readIcs b s = .ok ib → readPairOk c b ics ib s = .ok true →
        exec (.ms c b) s = raised .badWindow c 0 s ∧ exec (.is c b) s = raised .badWindow c 0 s) ∧
    ∀ (win : Windows) (swb : Nat → Nat), readWindows c ics s = .ok win → SwbIs c ics.numSwb s swb →
      ¬SfbOk ics win.len swb →
      exec (.iq c) s = raised .badSfb c 0 s ∧
      (∀ v, s.item? c .tnsCtrl 0 = some v → (tnsCtrlOfWord v).present = true → exec (.tns c) s = raised .badSfb c 0 s) ∧
      ∀ (b : Nat) (ib : Ics), b < s.params.nch → c ≠ b → readIcs b s = .ok ib → readPairOk c b ics ib s = .ok true →
        exec (.ms c b) s = raised .badSfb c 0 s ∧ exec (.is c b) s = raised .badSfb c 0 s

/-! ## Inverse quantization (41_inverse_quant.md) -/

/-- R101, R105: IQ on legal side information completes. It writes +0.0 outside every band and in zero and intensity bands, ROUND or
NUM of `dq(q, sf)` in spectral bands, and nothing but SPEC 0..L-1 of its slot. -/
def Obligations.IqCompletes : Prop :=
  ∀ (c : Nat) (s : State) (ics : Ics) (win : Windows) (swb : List Nat), s.status.fatal = false → c < s.params.nch →
    IqLegal c s ics win swb →
    ∃ m, exec (.iq c) s = .next (complete { s with mem := m }) ∧
      SameBytes s.mem m (OutsideItem c .spec s.frameLen) ∧
      (∀ i < s.frameLen, NoBand win swb ics.maxSfb i → m.word? (itemAddr c .spec i) = some 0x00000000#32) ∧
      (∀ i < s.frameLen, ∀ g sfb t, BinBand win swb ics.maxSfb i g sfb → readBandType c g sfb s = .ok t →
        isSpectral t = false → m.word? (itemAddr c .spec i) = some 0x00000000#32) ∧
      ∀ i < s.frameLen, ∀ g sfb t sf w, BinBand win swb ics.maxSfb i g sfb → readBandType c g sfb s = .ok t →
        isSpectral t = true → readSf c g sfb s = .ok sf → s.item? c .qspec i = some w →
        m.word? (itemAddr c .spec i) = some (storedWord s (.iq c) i (dqElem w.toInt sf))

/-- R101, R103, R105, R106: the errors IQ raises once its windows and bands are legal: the first illegal band type in g-major order,
then the first spectral band's scalefactor out of range, then the first bin of a spectral band out of range. -/
def Obligations.IqErrors : Prop :=
  ∀ (c : Nat) (s : State) (ics : Ics) (win : Windows) (swb : List Nat), s.status.fatal = false → c < s.params.nch →
    SideInfo c s ics win swb →
    (∀ g sfb t e, g < win.groups → sfb < ics.maxSfb → readBandType c g sfb s = .ok t → typeError t = some e →
      (∀ g' sfb', g' < win.groups → sfb' < ics.maxSfb → BandBefore g' sfb' g sfb →
        ∃ t', readBandType c g' sfb' s = .ok t' ∧ typeError t' = none) →
      exec (.iq c) s = raised e c (g <<< 8 ||| sfb) s) ∧
    ((∀ g < win.groups, ∀ sfb < ics.maxSfb, ∃ t, readBandType c g sfb s = .ok t ∧ typeError t = none) →
      (∀ g sfb t sf, g < win.groups → sfb < ics.maxSfb → readBandType c g sfb s = .ok t → isSpectral t = true →
        readSf c g sfb s = .ok sf → ¬(0 ≤ sf ∧ sf ≤ 255) →
        (∀ g' sfb' t', g' < win.groups → sfb' < ics.maxSfb → BandBefore g' sfb' g sfb →
          readBandType c g' sfb' s = .ok t' → isSpectral t' = true →
          ∃ sf', readSf c g' sfb' s = .ok sf' ∧ 0 ≤ sf' ∧ sf' ≤ 255) →
        exec (.iq c) s = raised .badSf c (g <<< 8 ||| sfb) s) ∧
      ((∀ g < win.groups, ∀ sfb < ics.maxSfb, ∀ t, readBandType c g sfb s = .ok t → isSpectral t = true →
          ∃ sf, readSf c g sfb s = .ok sf ∧ 0 ≤ sf ∧ sf ≤ 255) →
        ∀ i g sfb t w, i < s.frameLen → BinBand win swb ics.maxSfb i g sfb → readBandType c g sfb s = .ok t →
          isSpectral t = true → s.item? c .qspec i = some w → 8191 < w.toInt.natAbs →
          (∀ i' < i, ∀ g' sfb' t', BinBand win swb ics.maxSfb i' g' sfb' → readBandType c g' sfb' s = .ok t' →
            isSpectral t' = true → ∃ w', s.item? c .qspec i' = some w' ∧ w'.toInt.natAbs ≤ 8191) →
          exec (.iq c) s = raised .qRange c i s))

/-- R102, R103, R12: under the property of NUM that it is the default ROUND, the word IQ stores for a legal `q` and `sf` is the
binary32 value nearest to `sign(q) |q|^(4/3) 2^((sf-100)/4)`, ties to even: it never overflows and is never left undecided. -/
def Obligations.IqStoresNearest : Prop :=
  ∀ (s : State) (c i : Nat) (q sf : Int) (r : ℝ), s.params.num = .nearestEven → q.natAbs ≤ 8191 → 0 ≤ sf → sf ≤ 255 →
    IsDq q sf r → IsNearestEven r (storedWord s (.iq c) i (dqElem q sf))

/-- R107: where `|q|` is a perfect cube `m^3` and `sf - 100` a multiple of 4, the default ROUND stores `dq` exactly. -/
def Obligations.PerfectCubesExact : Prop :=
  ∀ (s : State) (c i m : Nat) (q sf k : Int), s.params.num = .nearestEven → q.natAbs = m ^ 3 → q.natAbs ≤ 8191 → 0 ≤ sf →
    sf ≤ 255 → sf - 100 = 4 * k →
    IsF32 (storedWord s (.iq c) i (dqElem q sf)) ((q.sign : ℝ) * (m : ℝ) ^ 4 * (2 : ℝ) ^ k)

/-! ## Stereo (42_stereo.md) -/

/-- R122: once the pair, its windows and its bands are legal, MMP = 3 raises BAD_MS, and otherwise the first band, in g-major order,
whose left or right type is refused raises its error. -/
def Obligations.PairErrors : Prop :=
  ∀ (a b : Nat) (s : State) (ia ib : Ics) (win : Windows) (swb : List Nat) (v : Word), s.status.fatal = false →
    a < s.params.nch → b < s.params.nch → a ≠ b → SideInfo a s ia win swb → readIcs b s = .ok ib →
    readPairOk a b ia ib s = .ok true → s.item? a .msCtrl 0 = some v → ∀ f ∈ [Instr.ms, Instr.is],
    (bits 1 0 v = 3 → exec (f a b) s = raised .badMs a 0 s) ∧
    (bits 1 0 v ≠ 3 → ∀ g sfb tl tr e x, g < win.groups → sfb < ia.maxSfb → readBandType a g sfb s = .ok tl →
      readBandType b g sfb s = .ok tr → pairTypeError a b tl tr = some (e, x) →
      (∀ g' sfb', g' < win.groups → sfb' < ia.maxSfb → BandBefore g' sfb' g sfb →
        ∃ tl' tr', readBandType a g' sfb' s = .ok tl' ∧ readBandType b g' sfb' s = .ok tr' ∧
          pairTypeError a b tl' tr' = none) →
      exec (f a b) s = raised e x (g <<< 8 ||| sfb) s)

/-- R123: MS on a legal pair completes. In every active band that is no intensity band of the right slot it writes ROUND or NUM of
`m + s` left and `m - s` right; every other byte is as it was. -/
def Obligations.MsCompletes : Prop :=
  ∀ (a b : Nat) (s : State) (ics : Ics) (win : Windows) (swb : List Nat) (mmp : Nat), s.status.fatal = false →
    a < s.params.nch → b < s.params.nch → a ≠ b → MsLegal a b s ics win swb mmp →
    ∃ m, exec (.ms a b) s = .next (complete { s with mem := m }) ∧
      (∀ i wa wb, MsTouches a b s ics win swb mmp i → s.item? a .spec i = some wa → s.item? b .spec i = some wb →
        m.word? (itemAddr a .spec i) = some (storedWord s (.ms a b) i (msElems wa wb).1) ∧
        m.word? (itemAddr b .spec i) = some (storedWord s (.ms a b) (1024 + i) (msElems wa wb).2)) ∧
      SameBytes s.mem m fun x => ∀ i, MsTouches a b s ics win swb mmp i →
        OutsideWord (itemAddr a .spec i) x ∧ OutsideWord (itemAddr b .spec i) x

/-- R123, R124, R12: under the default ROUND the words MS stores are the binary32 values nearest to the exact sum and difference,
while these do not overflow, and exact wherever the sum or difference is a binary32 value. -/
def Obligations.MsStoresNearest : Prop :=
  ∀ (s : State) (a b i : Nat) (wa wb : Word) (x y : ℝ), s.params.num = .nearestEven → IsF32 wa x → IsF32 wb y →
    (|x + y| < 2 ^ 128 - 2 ^ 103 → IsNearestEven (x + y) (storedWord s (.ms a b) i (msElems wa wb).1)) ∧
    (|x - y| < 2 ^ 128 - 2 ^ 103 → IsNearestEven (x - y) (storedWord s (.ms a b) i (msElems wa wb).2)) ∧
    ((∃ w, IsF32 w (x + y)) → IsF32 (storedWord s (.ms a b) i (msElems wa wb).1) (x + y)) ∧
    ((∃ w, IsF32 w (x - y)) → IsF32 (storedWord s (.ms a b) i (msElems wa wb).2) (x - y))

/-- R127: IS on a legal pair with legal positions completes. In every intensity band of the right slot it writes ROUND or NUM of the
scaled left bin to the right slot; every other byte is as it was. -/
def Obligations.IsCompletes : Prop :=
  ∀ (a b : Nat) (s : State) (ics : Ics) (win : Windows) (swb : List Nat) (mmp : Nat), s.status.fatal = false →
    a < s.params.nch → b < s.params.nch → a ≠ b → IsLegal a b s ics win swb mmp →
    ∃ m, exec (.is a b) s = .next (complete { s with mem := m }) ∧
      (∀ i t p u wa, IsTouches a b s ics win swb mmp i t p u → s.item? a .spec i = some wa →
        m.word? (itemAddr b .spec i) = some (storedWord s (.is a b) i (isElem (isNegative t u) p wa))) ∧
      SameBytes s.mem m fun x => ∀ i t p u, IsTouches a b s ics win swb mmp i t p u → OutsideWord (itemAddr b .spec i) x

/-- R126: the first intensity band of the right slot, in g-major order, whose position is out of range makes IS raise BAD_SF. -/
def Obligations.IsPositionError : Prop :=
  ∀ (a b : Nat) (s : State) (ics : Ics) (win : Windows) (swb : List Nat) (mmp g sfb t : Nat) (p : Int),
    s.status.fatal = false → a < s.params.nch → b < s.params.nch → a ≠ b → PairLegal a b s ics win swb mmp →
    g < win.groups → sfb < ics.maxSfb → readBandType b g sfb s = .ok t → isIntensity t = true →
    readSf b g sfb s = .ok p → ¬(-255 ≤ p ∧ p ≤ 255) →
    (∀ g' sfb' t', g' < win.groups → sfb' < ics.maxSfb → BandBefore g' sfb' g sfb → readBandType b g' sfb' s = .ok t' →
      isIntensity t' = true → ∃ p', readSf b g' sfb' s = .ok p' ∧ -255 ≤ p' ∧ p' ≤ 255) →
    exec (.is a b) s = raised .badSf b (g <<< 8 ||| sfb) s

/-- R121, R125, R12: under the default ROUND the word IS stores is the binary32 value nearest to the left bin times
`is_sign * invert * 2^(-p/4)`, while this does not overflow; the sign of the scale is -1 for type 14 without inversion and for type
15 with it, and only `ms_used` at MMP = 1 inverts. -/
def Obligations.IsStoresNearest : Prop :=
  (∀ (s : State) (a b i : Nat) (neg : Bool) (p : Int) (w : Word) (x r : ℝ), s.params.num = .nearestEven → -255 ≤ p →
    p ≤ 255 → IsF32 w x → IsIntensity neg p x r → |r| < 2 ^ 128 - 2 ^ 103 →
    IsNearestEven r (storedWord s (.is a b) i (isElem neg p w))) ∧
  (isNegative 15 false = false ∧ isNegative 14 false = true ∧ isNegative 15 true = true ∧ isNegative 14 true = false) ∧
  ∀ (s : State) (a g sfb mmp : Nat), mmp ≠ 1 → msUsedIfPerBand a mmp g sfb s = .ok false

/-! ## Temporal noise shaping (43_tns.md) -/

/-- R142, R146, R148: TNS with PRESENT = 0 completes and changes nothing, whatever else the slot holds, and TNS on legal data
completes. Every filter with a nonzero order and a nonempty range writes the words of its
elements over its bins, from the spectrum as it was (what word an element is stored as: NumProperty, ExactTies; log 6, log 8); every
other byte is as it was. (A filter with an empty range: log 14.) -/
def Obligations.TnsCompletes : Prop :=
  (∀ (c : Nat) (s : State) (v : Word), s.status.fatal = false → c < s.params.nch → s.item? c .tnsCtrl 0 = some v →
    bit 0 v = false → exec (.tns c) s = .next (complete s)) ∧
  ∀ (c : Nat) (s : State) (ctrl : TnsCtrl) (ics : Ics) (win : Windows) (swb : List Nat) (tw : Nat → TnsWindow)
    (filt : Nat → Nat → TnsFilter) (coef : Nat → Nat → Nat → Int), s.status.fatal = false → c < s.params.nch →
    TnsLegal c s ctrl ics win swb tw filt coef →
    ∃ m, exec (.tns c) s = .next (complete { s with mem := m }) ∧
      (∀ w f words, TnsRuns ctrl ics win swb tw filt w f → TnsReads c s ctrl ics win swb filt w f words →
        ∀ j < words.length, m.word? (itemAddr c .spec (w * win.len + tnsLo ctrl ics swb (filt w) f + j)) =
          some (storedWord s (.tns c) (w * win.len + tnsLo ctrl ics swb (filt w) f + j)
            ((filterElems (tw w).coefRes ((List.range (tnsOrder ctrl (filt w f))).map (coef w f)) (filt w f).down
              words).getD j .any))) ∧
      SameBytes s.mem m fun x => ∀ w f k, TnsRuns ctrl ics win swb tw filt w f → tnsLo ctrl ics swb (filt w) f ≤ k →
        k < tnsHi ctrl ics swb (filt w) f → OutsideWord (itemAddr c .spec (w * win.len + k)) x

/-- R143, R148: the errors TNS raises once its windows and bands are legal: MAX_ORDER, then window by window NFILT, then filter by
filter a short window's LENGTH or ORDER, then the first used coefficient out of range. (The coefficients of a filter with an empty
range are not checked: log 14.) -/
def Obligations.TnsErrors : Prop :=
  ∀ (c : Nat) (s : State) (ctrl : TnsCtrl) (ics : Ics) (win : Windows) (swb : List Nat) (tw : Nat → TnsWindow)
    (filt : Nat → Nat → TnsFilter) (coef : Nat → Nat → Nat → Int), s.status.fatal = false → c < s.params.nch →
    TnsPresent c s ctrl ics win swb →
    (tnsOrderCap ics < ctrl.maxOrder → exec (.tns c) s = raised .badTns c 0xFFFF s) ∧
    (ctrl.maxOrder ≤ tnsOrderCap ics → ∀ w < win.count,
      (∀ w' < w, TnsWindowLegal c s ctrl ics swb tw filt coef w') → TnsWindowIs c s tw w →
      (tnsFilterCap ics < (tw w).nfilt → exec (.tns c) s = raised .badTns c (w <<< 8 ||| 0xFF) s) ∧
      ((tw w).nfilt ≤ tnsFilterCap ics → ∀ f < (tw w).nfilt,
        (∀ f' < f, TnsFilterLegal c s ctrl ics swb tw filt coef w f') → TnsFilterIs c s filt w f →
        (¬TnsLimits ics (filt w f) → exec (.tns c) s = raised .badTns c (w <<< 8 ||| f) s) ∧
        (TnsLimits ics (filt w f) → tnsLo ctrl ics swb (filt w) f < tnsHi ctrl ics swb (filt w) f →
          ∀ i < tnsOrder ctrl (filt w f), (∀ i' < i, TnsCoefLegal c s tw filt coef w f i') →
            readCoef c w f i s = .ok (coef w f i) →
            coefInRange (coefWidth (tw w).coefRes (filt w f).compress) (coef w f i) = false →
            exec (.tns c) s = raised .badTns c (w <<< 8 ||| f) s)))

/-- R144: the enclosure TNS uses for a coefficient index holds `sin(ci / iqfac)` or `sin(ci / iqfac_m)`, a real below 1 in
magnitude, at every precision, and is at most 2^-200 wide from 384 bits on (log 6). -/
def Obligations.TnsCoefficient : Prop :=
  ∀ (p coefRes : Nat) (ci : Int) (k : ℝ), coefRes ≤ 1 → coefInRange (coefResBits coefRes) ci = true →
    IsReflection coefRes ci k → |k| < 1 ∧ (reflection (enclArith p) coefRes ci).Holds p k ∧
      (384 ≤ p → (reflection (enclArith p) coefRes ci).Near p k)

/-- R145: the recursion of the direct-form coefficients (`a[0]` is 1 and left out), and that the enclosures TNS computes hold them
(log 6). -/
def Obligations.StepUpRecursion : Prop :=
  (∀ (p : Nat) (xs : List Encl) (ks : List ℝ), List.Forall₂ (fun x k => x.Holds p k) xs ks →
    List.Forall₂ (fun x a => x.Holds p a) (directForm (enclArith p) xs) (directFormOver ks)) ∧
  (directFormOver ([] : List ℝ) = []) ∧
  ∀ (ks : List ℝ) (k : ℝ),
    (directFormOver (ks ++ [k])).length = ks.length + 1 ∧ (directFormOver (ks ++ [k])).getD ks.length 0 = k ∧
    ∀ i, 1 ≤ i → i ≤ ks.length → (directFormOver (ks ++ [k])).getD (i - 1) 0 =
      (directFormOver ks).getD (i - 1) 0 + k * (directFormOver ks).getD (ks.length - i) 0

/-- R147: the filter's recursion, and that in either direction every element up to which the inputs are finite, in the filter's
order, is enclosed at most 2^-200 wide at its precision and every finer one (log 6); from the first input that is not finite on,
every element is any value (R13). -/
def Obligations.AllPoleFilter : Prop :=
  (∀ (coefRes : Nat) (coefs : List Int) (down : Bool) (words : List Word) (k : Nat) (xs ks : List ℝ), coefRes ≤ 1 →
    coefs.length ≤ 20 → (∀ ci ∈ coefs, coefInRange (coefResBits coefRes) ci = true) → k < words.length →
    List.Forall₂ IsF32 ((filterOrder down words).take (k + 1)) xs → List.Forall₂ (IsReflection coefRes) coefs ks →
    ∃ x finer isGrid, (filterOrder down (filterElems coefRes coefs down words)).getD k .any =
        .real (tnsPrec words.length) x finer isGrid ∧
      x.Near (tnsPrec words.length) ((allPoleOver (directFormOver ks) xs []).getD k 0) ∧
      ∀ p, tnsPrec words.length ≤ p → (finer p).Near p ((allPoleOver (directFormOver ks) xs []).getD k 0)) ∧
  (∀ (a xs : List ℝ) (j : Nat), j < xs.length → (allPoleOver a xs []).getD j 0 =
    xs.getD j 0 - ∑ i ∈ Finset.Icc 1 (min a.length j), a.getD (i - 1) 0 * (allPoleOver a xs []).getD (j - i) 0) ∧
  ∀ (coefRes : Nat) (coefs : List Int) (down : Bool) (words : List Word) (k k' : Nat), k ≤ k' → k' < words.length →
    f32Units ((filterOrder down words).getD k 0#32) = none →
    (filterOrder down (filterElems coefRes coefs down words)).getD k' .any = .any

/-! ## Filterbank (44_filterbank.md) -/

/-- R169, R170, R171: FB on a written header and spectrum completes. PCM takes the words of the elements of `z[n] + f32(OVL[n])`, the
new OVL those of `z[L + n]`, with the windowed frame `z` of the header's sequence and shapes (what word an element is stored as:
NumProperty, ExactTies; log 6, log 8); CHSTATE takes the sequence and shape, WT is set on an illegal transition and STARTED is set;
every other byte is as it was. -/
def Obligations.FbCompletes : Prop :=
  ∀ (c : Nat) (s : State) (ics : Ics) (spec : List Word), s.status.fatal = false → c < s.params.nch →
    readIcs c s = .ok ics → readFrame c .spec s = .ok spec →
    ∃ prev ovl m, s.item? c .chstate 0 = some prev ∧ readFrame c .ovl s = .ok ovl ∧
      exec (.fb c) s = .next (complete { s with
        mem := m
        status := { s.status with
          started := true
          wt := s.status.wt || decide (¬((bits 1 0 prev = 0 ∨ bits 1 0 prev = 3) ↔ (ics.seq = 0 ∨ ics.seq = 1))) } }) ∧
      (∀ n < s.frameLen, m.word? (itemAddr c .pcm n) = some (storedWord s (.fb c) n
        ((frameOf s.frameLen ics.seq spec (bits 4 4 prev) ics.shape).pcmElem n (ovl.getD n 0#32)))) ∧
      (∀ n < s.frameLen, m.word? (itemAddr c .ovl n) = some (storedWord s (.fb c) (1024 + n)
        ((frameOf s.frameLen ics.seq spec (bits 4 4 prev) ics.shape).ovlElem n))) ∧
      (∃ w, m.word? (itemAddr c .chstate 0) = some w ∧ bits 1 0 w = ics.seq ∧ bits 4 4 w = ics.shape ∧
        w &&& 0xFFFFFFEC#32 = 0#32) ∧
      SameBytes s.mem m fun x => OutsideItem c .pcm s.frameLen x ∧ OutsideItem c .ovl s.frameLen x ∧
        OutsideItem c .chstate 1 x

/-- R161, R162: the enclosures of the sine and the Kaiser-Bessel-derived window hold the exact window values and are at most 2^-200
wide, at every precision FB uses (log 6). -/
def Obligations.WindowTables : Prop :=
  ∀ (p shape N n : Nat) (r : ℝ), prec ≤ p → shape ≤ 1 → N ∈ [2048, 256, 1920, 240] → n < N → IsWindow shape N n r →
    ((windowTable (enclArith p) (kbdWindow p) shape N).getD n (Encl.exact 0)).Near p r

/-- R163 to R168: the enclosure of the windowed frame, for every window sequence, pair of shapes and frame length, holds the exact
real `z[n]` and is at most 2^-200 wide, at every precision FB uses (log 6), wherever the spectrum values its formula reads are
finite; where one is not, `z[n]` is any value (R13). -/
def Obligations.FrameEnclosed : Prop :=
  ∀ (p L : Nat) (spec : List Word) (seq prevShape shape n : Nat), prec ≤ p → L = 1024 ∨ L = 960 → spec.length = L → seq < 4 →
    prevShape ≤ 1 → shape ≤ 1 → n < 2 * L →
    (∀ (X : ℕ → ℝ) (z : ℝ), (∀ k < L, FrameReads L seq n k → IsF32 (spec.getD k 0#32) (X k)) →
      IsFrame seq L prevShape shape X n z →
      ∃ x, frameAt (enclArith p) seq (enclFrame p L spec prevShape shape) n = some x ∧ x.Near p z) ∧
    ((∃ k < L, FrameReads L seq n k ∧ f32Units (spec.getD k 0#32) = none) →
      frameAt (enclArith p) seq (enclFrame p L spec prevShape shape) n = none)

/-- R170: FB on an all-zero spectrum stores the old overlap as the output, exactly under the default ROUND, and an all-zero new
overlap; with an all-zero overlap the output is all zero. -/
def Obligations.FbSilence : Prop :=
  ∀ (c : Nat) (s : State) (ics : Ics) (spec ovl : List Word), s.params.num = .nearestEven → s.status.fatal = false →
    c < s.params.nch → readIcs c s = .ok ics → readFrame c .spec s = .ok spec → readFrame c .ovl s = .ok ovl →
    (∀ w ∈ spec, f32Units w = some 0) → (∀ w ∈ ovl, f32Units w ≠ none) →
    ∃ t, exec (.fb c) s = .next t ∧ ∀ n < s.frameLen,
      (∃ w, t.item? c .pcm n = some w ∧ f32Units w = f32Units (ovl.getD n 0#32) ∧
        (f32Units w = some 0 → w = 0x00000000#32)) ∧
      t.item? c .ovl n = some 0x00000000#32

/-! ## Numerics (00_scope.md) -/

/-- R11, R12: every stored spectral or time-domain element under a named property of NUM. Whatever property an implementation's NUM
has of a command's exact results and its words, the words the command stores have it: NUM's word is what is stored for every exact
result, a zero one such as IQ's `q = 0` and an overflowing one among them, and it may depend on every input word of the command. That
is the model's choice (log 5), which follows R12 and D7 where R105's and R170's corner cases, R12 and A2 on overflow, and A4 read
otherwise. The default ROUND has two, up to overflow: a
stored word is the binary32 value nearest to a real within 2^-200 of the exact result (log 6), and it lies within relative error
2^-24. -/
def Obligations.NumProperty : Prop :=
  ∀ (i : Instr) (s : State), Accepted i s →
    (∀ (id : Nat) (P : Nat → ℝ → Word → Prop), s.params.num = .implementation id →
      (∀ idx r, IsResult s i idx r → P idx r (Config.num id i (inputWords i s) idx)) →
      ∀ idx r, IsResult s i idx r → ∃ t w, exec i s = .next t ∧ t.mem.word? (resultAddr i idx) = some w ∧ P idx r w) ∧
    ∀ idx r, s.params.num = .nearestEven → IsResult s i idx r → |r| + 1 / 2 ^ 200 < 2 ^ 128 - 2 ^ 103 →
      ∃ t w, exec i s = .next t ∧ t.mem.word? (resultAddr i idx) = some w ∧
        (∃ r', |r' - r| ≤ 1 / 2 ^ 200 ∧ IsNearestEven r' w) ∧ RelativeError (1 / 2 ^ 24) r w

/-- R12: under the default ROUND an exact result that is a multiple of 2^-150, as every binary32 value and every tie between two of
them is, is stored as the binary32 value nearest to it, ties to even, and an exact zero as +0.0, whatever the command and, for FB,
the window shapes. -/
def Obligations.ExactTies : Prop :=
  ∀ (i : Instr) (s : State) (idx : Nat) (r : ℝ), Accepted i s → s.params.num = .nearestEven → IsResult s i idx r →
    (∃ v : Int, r * 2 ^ 150 = (v : ℝ)) → |r| < 2 ^ 128 - 2 ^ 103 →
    ∃ t w, exec i s = .next t ∧ t.mem.word? (resultAddr i idx) = some w ∧ IsNearestEven r w ∧ (r = 0 → w = 0x00000000#32)

/-- R12: a word the default ROUND stores for a real inside an enclosure is the binary32 value nearest to it, ties to even, and an
exact zero is +0.0; a real known exactly is never left open but where its rounding overflows, or, with a free sign (log 8), where one
other than 0 rounds to zero. -/
def Obligations.RoundNearestEven : Prop :=
  ∀ (p : Nat) (lo hi : Int) (r : ℝ), 149 ≤ p → (Encl.mk lo hi).Holds p r →
    (∀ w, roundBetween p lo hi = .word w → IsNearestEven r w ∧ (r = 0 → w = 0x00000000#32)) ∧
    (roundBetween p lo hi = .smallZero → r ≠ 0 ∧ IsNearestEven r 0x00000000#32 ∧ IsNearestEven r 0x80000000#32) ∧
    (roundBetween p lo hi = .overflow → 2 ^ 128 - 2 ^ 103 ≤ |r|) ∧
    (lo = hi → |r| < 2 ^ 128 - 2 ^ 103 → (∃ w, roundBetween p lo hi = .word w) ∨ roundBetween p lo hi = .smallZero)

end
end

