-- ==== Sys2Proof/Laws/Memory.lean ====
section
/-! SUPPORT. The laws of memory: read after store, the fast array read, and that a store keeps memory canonical (20_memory.md
R62, R63; 10_state.md R30, R51). -/

namespace Sys2Proof.Machine

/-! ## Finding a cell -/

theorem find_filter_keep (m : Mem) (p : Host.Cell → Bool) (x : Nat) (h : ∀ c : Host.Cell, c.1 = x → p c = true) :
    (m.filter p).find? (fun c => c.1 == x) = m.find? (fun c => c.1 == x) := by
  induction m with
  | nil => rfl
  | cons c m ih =>
    by_cases hx : c.1 = x
    · simp [h c hx, hx]
    · by_cases hp : p c = true <;> simp [hp, hx, ih]

theorem find_filter_drop (m : Mem) (p : Host.Cell → Bool) (x : Nat) (h : ∀ c : Host.Cell, c.1 = x → p c = false) :
    (m.filter p).find? (fun c => c.1 == x) = none := by
  simp only [List.find?_eq_none, List.mem_filter, beq_iff_eq]
  rintro c ⟨_, hp⟩ rfl
  simp [h c rfl] at hp

theorem cells_mem {a : Nat} {ws : List Word} {c : Host.Cell} (h : c ∈ Mem.cells a ws) :
    a ≤ c.1 ∧ c.1 < a + 4 * ws.length ∧ c.2 = byteLane (ws.getD ((c.1 - a) / 4) 0#32) ((c.1 - a) % 4) := by
  induction ws generalizing a with
  | nil => simp [Mem.cells] at h
  | cons w ws ih =>
    simp only [Mem.cells, List.mem_cons] at h
    rcases h with rfl | rfl | rfl | rfl | h
    · simp
    · refine ⟨by simp, by simp; omega, ?_⟩; simp
    · refine ⟨by simp, by simp; omega, ?_⟩; simp
    · refine ⟨by simp, by simp; omega, ?_⟩; simp
    · obtain ⟨h1, h2, h3⟩ := ih h
      refine ⟨by omega, by simp; omega, ?_⟩
      have e1 : (c.1 - a) / 4 = (c.1 - (a + 4)) / 4 + 1 := by omega
      have e2 : (c.1 - a) % 4 = (c.1 - (a + 4)) % 4 := by omega
      rw [h3, e1, e2]; simp

theorem cells_find {a x : Nat} {ws : List Word} (h1 : a ≤ x) (h2 : x < a + 4 * ws.length) :
    (Mem.cells a ws).find? (fun c => c.1 == x)
      = some (x, byteLane (ws.getD ((x - a) / 4) 0#32) ((x - a) % 4)) := by
  induction ws generalizing a with
  | nil => simp at h2; omega
  | cons w ws ih =>
    simp only [List.length_cons] at h2
    by_cases h : a + 4 ≤ x
    · have e1 : (x - a) / 4 = (x - (a + 4)) / 4 + 1 := by omega
      have e2 : (x - a) % 4 = (x - (a + 4)) % 4 := by omega
      have n0 : a ≠ x := by omega
      have n1 : a + 1 ≠ x := by omega
      have n2 : a + 2 ≠ x := by omega
      have n3 : a + 3 ≠ x := by omega
      simp only [Mem.cells, e1, e2, List.getD_cons_succ]
      simp [n0, n1, n2, n3, ih h (by omega)]
    · obtain rfl | rfl | rfl | rfl : x = a ∨ x = a + 1 ∨ x = a + 2 ∨ x = a + 3 := by omega
      all_goals simp [Mem.cells]

/-! ## Read after store -/

/-- What a byte of memory reads as after a store: the stored lane inside the stored words, as before outside (R63). -/
theorem byte_store (m : Mem) (a : Nat) (ws : List Word) (x : Nat) :
    (m.store a ws).byte? x =
      if a ≤ x ∧ x < a + 4 * ws.length then some (byteLane (ws.getD ((x - a) / 4) 0#32) ((x - a) % 4)) else m.byte? x := by
  unfold Mem.byte? Mem.store
  rw [List.find?_append, List.find?_append]
  by_cases h : a ≤ x ∧ x < a + 4 * ws.length
  · rw [if_pos h]
    obtain ⟨h1, h2⟩ := h
    rw [find_filter_drop m _ x (by rintro c rfl; simp; omega)]
    rw [find_filter_drop m (fun c => decide (a + 4 * ws.length ≤ c.1)) x (by rintro c rfl; simp; omega)]
    by_cases hu : Mem.unlisted x = some (byteLane (ws.getD ((x - a) / 4) 0#32) ((x - a) % 4))
    · have : ((Mem.cells a ws).filter fun c => decide (Mem.unlisted c.1 ≠ some c.2)).find? (fun c => c.1 == x) = none := by
        simp only [List.find?_eq_none, List.mem_filter, beq_iff_eq]
        rintro c ⟨hc, hp⟩ rfl
        obtain ⟨_, _, h3⟩ := cells_mem hc
        rw [h3] at hp
        simp [hu] at hp
      rw [this]; simpa using hu
    · have hf := cells_find h1 h2
      have : ((Mem.cells a ws).filter fun c => decide (Mem.unlisted c.1 ≠ some c.2)).find? (fun c => c.1 == x)
          = some (x, byteLane (ws.getD ((x - a) / 4) 0#32) ((x - a) % 4)) := by
        rw [List.find?_filter]
        rw [List.find?_eq_some_iff_append] at hf ⊢
        obtain ⟨_, as, bs, e, hb⟩ := hf
        refine ⟨by simpa using hu, as, bs, e, ?_⟩
        intro c hc
        have := hb c hc
        simp only [Bool.not_eq_true', beq_eq_false_iff_ne, ne_eq] at this
        simp [this]
      rw [this]; simp
  · rw [if_neg h]
    have hc : ((Mem.cells a ws).filter fun c => decide (Mem.unlisted c.1 ≠ some c.2)).find? (fun c => c.1 == x) = none := by
      simp only [List.find?_eq_none, List.mem_filter, beq_iff_eq]
      rintro c ⟨hc, _⟩ rfl
      obtain ⟨h1, h2, _⟩ := cells_mem hc
      exact h ⟨h1, h2⟩
    rw [hc]
    by_cases hx : x < a
    · rw [find_filter_keep m _ x (by rintro c rfl; simpa using hx)]
      rw [find_filter_drop m (fun c => decide (a + 4 * ws.length ≤ c.1)) x (by rintro c rfl; simp; omega)]
      simp
    · rw [find_filter_drop m _ x (by rintro c rfl; simpa using hx)]
      rw [find_filter_keep m _ x (by rintro c rfl; simp; omega)]
      simp

/-- A byte outside the stored words reads as before. -/
theorem byte_store_outside {m : Mem} {a x : Nat} {ws : List Word} (h : x < a ∨ a + 4 * ws.length ≤ x) :
    (m.store a ws).byte? x = m.byte? x := by
  rw [byte_store, if_neg (by omega)]

theorem wordOfLanes_byteLane (w : Word) :
    wordOfLanes (byteLane w 0) (byteLane w 1) (byteLane w 2) (byteLane w 3) = w := by
  apply BitVec.eq_of_toNat_eq
  have h := w.isLt
  simp only [wordOfLanes, byteLane, BitVec.toNat_ofNat]
  omega

/-- A stored word reads back. -/
theorem word_store_inside {m : Mem} {a i : Nat} {ws : List Word} (h : i < ws.length) :
    (m.store a ws).word? (a + 4 * i) = some (ws.getD i 0#32) := by
  unfold Mem.word?
  rw [byte_store, byte_store, byte_store, byte_store]
  rw [if_pos (by omega), if_pos (by omega), if_pos (by omega), if_pos (by omega)]
  have e0 : (a + 4 * i - a) / 4 = i := by omega
  have e1 : (a + 4 * i + 1 - a) / 4 = i := by omega
  have e2 : (a + 4 * i + 2 - a) / 4 = i := by omega
  have e3 : (a + 4 * i + 3 - a) / 4 = i := by omega
  have f0 : (a + 4 * i - a) % 4 = 0 := by omega
  have f1 : (a + 4 * i + 1 - a) % 4 = 1 := by omega
  have f2 : (a + 4 * i + 2 - a) % 4 = 2 := by omega
  have f3 : (a + 4 * i + 3 - a) % 4 = 3 := by omega
  simp only [e0, e1, e2, e3, f0, f1, f2, f3, wordOfLanes_byteLane]

/-- A word that shares no byte with the stored words reads as before. -/
theorem word_store_outside {m : Mem} {a x : Nat} {ws : List Word} (h : x + 4 ≤ a ∨ a + 4 * ws.length ≤ x) :
    (m.store a ws).word? x = m.word? x := by
  unfold Mem.word?
  rw [byte_store_outside (by omega), byte_store_outside (by omega), byte_store_outside (by omega),
    byte_store_outside (by omega)]

/-! ## The fast array read -/

theorem word_filter {m : Mem} {p : Host.Cell → Bool} {x : Nat}
    (h : ∀ c : Host.Cell, x ≤ c.1 → c.1 < x + 4 → p c = true) : Mem.word? (m.filter p) x = m.word? x := by
  unfold Mem.word? Mem.byte?
  rw [find_filter_keep m p x (by rintro c rfl; exact h c (by omega) (by omega)),
    find_filter_keep m p (x + 1) (by rintro c e; exact h c (by omega) (by omega)),
    find_filter_keep m p (x + 2) (by rintro c e; exact h c (by omega) (by omega)),
    find_filter_keep m p (x + 3) (by rintro c e; exact h c (by omega) (by omega))]

/-- `Mem.gather` is `Mem.word?` on each of its offsets. -/
theorem gather_eq (d : Nat) (m : Mem) (a : Nat) :
    m.gather d a = (List.range (2 ^ d)).map fun i => m.word? (a + 4 * i) := by
  induction d generalizing m a with
  | zero => simp [Mem.gather]
  | succ d ih =>
    simp only [Mem.gather, ih]
    have hr : List.range (2 ^ (d + 1)) = List.range (2 ^ d) ++ (List.range (2 ^ d)).map (2 ^ d + ·) := by
      rw [pow_succ, Nat.mul_two, List.range_add]
    rw [hr, List.map_append, List.map_map]
    congr 1
    · apply List.map_congr_left
      intro i hi
      have hi' := List.mem_range.mp hi
      exact word_filter fun c h1 h2 => by simp only [decide_eq_true_eq]; omega
    · apply List.map_congr_left
      intro i _
      simp only [Function.comp_apply]
      have e : a + 4 * (2 ^ d + i) = a + 4 * 2 ^ d + 4 * i := by omega
      rw [e]
      exact word_filter fun c h1 h2 => by simp only [decide_eq_true_eq]; omega

/-- `State.array` is `State.item?` on each of its elements. -/
theorem array_eq (s : State) (c : Nat) (it : Item) {n : Nat} (h : n ≤ 1024) :
    s.array c it n = (List.range n).map fun i => s.item? c it i := by
  unfold State.array State.item?
  rw [gather_eq, ← List.map_take, List.take_range]
  have : min n (2 ^ 10) = n := by simpa using h
  rw [this]
  apply List.map_congr_left
  intro i _
  simp [itemAddr]

/-! ## The canonical form -/

theorem sorted_iff (m : Mem) : m.sorted = true ↔ m.Pairwise fun c d => c.1 < d.1 := by
  induction m with
  | nil => simp [Mem.sorted]
  | cons c m ih =>
    cases m with
    | nil => simp [Mem.sorted]
    | cons d m =>
      simp only [Mem.sorted, Bool.and_eq_true, decide_eq_true_eq, ih, List.pairwise_cons, List.mem_cons]
      constructor
      · rintro ⟨h1, h2, h3⟩
        refine ⟨?_, h2, h3⟩
        rintro x (rfl | hx)
        · exact h1
        · have := h2 x hx; omega
      · rintro ⟨h1, h2, h3⟩
        exact ⟨h1 d (.inl rfl), h2, h3⟩

theorem cells_pairwise (a : Nat) (ws : List Word) : (Mem.cells a ws).Pairwise fun c d => c.1 < d.1 := by
  induction ws generalizing a with
  | nil => simp [Mem.cells]
  | cons w ws ih =>
    have hb : ∀ c ∈ Mem.cells (a + 4) ws, a + 4 ≤ c.1 := fun c hc => (cells_mem hc).1
    simp only [Mem.cells, List.pairwise_cons, List.mem_cons]
    refine ⟨?_, ?_, ?_, ?_, ih _⟩
    all_goals (intro c hc)
    · rcases hc with rfl | rfl | rfl | hc
      · simp
      · simp
      · simp
      · have := hb c hc; omega
    · rcases hc with rfl | rfl | hc
      · simp
      · simp
      · have := hb c hc; omega
    · rcases hc with rfl | hc
      · simp
      · have := hb c hc; omega
    · have := hb c hc; omega

theorem store_sorted {m : Mem} (h : m.sorted = true) (a : Nat) (ws : List Word) : (m.store a ws).sorted = true := by
  rw [sorted_iff] at *
  unfold Mem.store
  rw [List.pairwise_append, List.pairwise_append]
  refine ⟨⟨h.filter _, (cells_pairwise a ws).filter _, ?_⟩, h.filter _, ?_⟩
  · intro c hc d hd
    have h1 := (List.mem_filter.mp hc).2
    have h2 := (cells_mem (List.mem_filter.mp hd).1).1
    simp only [decide_eq_true_eq] at h1
    omega
  · intro c hc d hd
    have hd2 := (List.mem_filter.mp hd).2
    simp only [decide_eq_true_eq] at hd2
    rcases List.mem_append.mp hc with hc | hc
    · have h1 := (List.mem_filter.mp hc).2
      simp only [decide_eq_true_eq] at h1
      omega
    · have h2 := (cells_mem (List.mem_filter.mp hc).1).2.1
      omega

theorem mem_store {m : Mem} {a : Nat} {ws : List Word} {c : Host.Cell} (h : c ∈ m.store a ws) :
    c ∈ m ∨ (c ∈ Mem.cells a ws ∧ Mem.unlisted c.1 ≠ some c.2) := by
  unfold Mem.store at h
  simp only [List.mem_append, List.mem_filter, decide_eq_true_eq] at h
  rcases h with (h | h) | h
  · exact .inl h.1
  · exact .inr h
  · exact .inl h.1

theorem store_minimal {m : Mem} (h : m.minimal = true) (a : Nat) (ws : List Word) : (m.store a ws).minimal = true := by
  unfold Mem.minimal at *
  rw [List.all_eq_true] at *
  intro c hc
  rcases mem_store hc with hc | ⟨_, hc⟩
  · exact h c hc
  · simpa using hc

/-- A store keeps the canonical form. -/
theorem store_wf {m : Mem} (h : m.wf = true) (a : Nat) (ws : List Word) : (m.store a ws).wf = true := by
  unfold Mem.wf at *
  rw [Bool.and_eq_true] at *
  exact ⟨store_sorted h.1 a ws, store_minimal h.2 a ws⟩

/-- Dropping cells keeps the canonical form. -/
theorem filter_wf {m : Mem} (h : m.wf = true) (p : Host.Cell → Bool) : Mem.wf (m.filter p) = true := by
  unfold Mem.wf at *
  rw [Bool.and_eq_true] at *
  refine ⟨(sorted_iff _).mpr (((sorted_iff _).mp h.1).filter p), ?_⟩
  unfold Mem.minimal at *
  rw [List.all_eq_true] at *
  exact fun c hc => h.2 c (List.mem_filter.mp hc).1

/-- The soft reset's memory reads 0 in every ChannelState item and as before elsewhere (R230, R192). -/
theorem byte_softReset (s : State) (x : Nat) :
    (softReset s).mem.byte? x = if inChannelState x then some 0#8 else s.mem.byte? x := by
  show Mem.byte? (s.mem.filter fun c => !inChannelState c.1) x = _
  unfold Mem.byte?
  by_cases h : inChannelState x = true
  · rw [if_pos h, find_filter_drop _ _ x (by rintro c rfl; simp [h])]
    simp [Mem.unlisted, h]
  · rw [if_neg h, find_filter_keep _ _ x (by rintro c rfl; simpa using h)]

end Sys2Proof.Machine
end

