-- ==== Sys2Proof/Laws/State.lean ====
section
/-! SUPPORT. One lemma per field per shared update, so that no proof unfolds a record update (10_state.md section 2). -/

namespace Sys2Proof.Machine

/-! ## `complete` (R200) -/

@[simp] theorem complete_params (s : State) : (complete s).params = s.params := rfl
@[simp] theorem complete_cfg (s : State) : (complete s).cfg = s.cfg := rfl
@[simp] theorem complete_framecnt (s : State) : (complete s).framecnt = s.framecnt := rfl
@[simp] theorem complete_errinfo (s : State) : (complete s).errinfo = s.errinfo := rfl
@[simp] theorem complete_latch (s : State) : (complete s).latch = s.latch := rfl
@[simp] theorem complete_mem (s : State) : (complete s).mem = s.mem := rfl
@[simp] theorem complete_pending (s : State) : (complete s).pending = s.pending := rfl
@[simp] theorem complete_reads (s : State) : (complete s).reads = s.reads := rfl
@[simp] theorem complete_draws (s : State) : (complete s).draws = s.draws + 1 := rfl
@[simp] theorem complete_busy (s : State) : (complete s).status.busy = false := rfl
@[simp] theorem complete_done (s : State) : (complete s).status.done = true := rfl
@[simp] theorem complete_err (s : State) : (complete s).status.err = s.status.err := rfl
@[simp] theorem complete_started (s : State) : (complete s).status.started = s.status.started := rfl
@[simp] theorem complete_fatal (s : State) : (complete s).status.fatal = s.status.fatal := rfl
@[simp] theorem complete_ovr (s : State) : (complete s).status.ovr = s.status.ovr := rfl
@[simp] theorem complete_wt (s : State) : (complete s).status.wt = s.status.wt := rfl
@[simp] theorem complete_errcode (s : State) : (complete s).status.errcode = s.status.errcode := rfl

/-! ## `recordError` (R202) -/

/-- A recorded error is kept until ERR is cleared. -/
theorem recordError_of_err {s : State} (h : s.status.err = true) (e : ErrCode) (ch d : Nat) : recordError e ch d s = s := by
  simp [recordError, h]

/-- The first error is recorded. -/
theorem recordError_of_noErr {s : State} (h : s.status.err = false) (e : ErrCode) (ch d : Nat) :
    recordError e ch d s =
      { s with
        status := { s.status with err := true, errcode := e }
        errinfo := { ch := BitVec.ofNat 4 ch, detail := BitVec.ofNat 16 d } } := by
  simp [recordError, h]

section
variable (e : ErrCode) (ch d : Nat) (s : State)

@[simp] theorem recordError_params : (recordError e ch d s).params = s.params := by unfold recordError; split <;> rfl
@[simp] theorem recordError_cfg : (recordError e ch d s).cfg = s.cfg := by unfold recordError; split <;> rfl
@[simp] theorem recordError_framecnt : (recordError e ch d s).framecnt = s.framecnt := by
  unfold recordError; split <;> rfl
@[simp] theorem recordError_latch : (recordError e ch d s).latch = s.latch := by unfold recordError; split <;> rfl
@[simp] theorem recordError_mem : (recordError e ch d s).mem = s.mem := by unfold recordError; split <;> rfl
@[simp] theorem recordError_pending : (recordError e ch d s).pending = s.pending := by
  unfold recordError; split <;> rfl
@[simp] theorem recordError_reads : (recordError e ch d s).reads = s.reads := by unfold recordError; split <;> rfl
@[simp] theorem recordError_draws : (recordError e ch d s).draws = s.draws := by unfold recordError; split <;> rfl
@[simp] theorem recordError_busy : (recordError e ch d s).status.busy = s.status.busy := by
  unfold recordError; split <;> rfl
@[simp] theorem recordError_done : (recordError e ch d s).status.done = s.status.done := by
  unfold recordError; split <;> rfl
@[simp] theorem recordError_err : (recordError e ch d s).status.err = true := by
  unfold recordError; split <;> simp_all
@[simp] theorem recordError_started : (recordError e ch d s).status.started = s.status.started := by
  unfold recordError; split <;> rfl
@[simp] theorem recordError_fatal : (recordError e ch d s).status.fatal = s.status.fatal := by
  unfold recordError; split <;> rfl
@[simp] theorem recordError_ovr : (recordError e ch d s).status.ovr = s.status.ovr := by
  unfold recordError; split <;> rfl
@[simp] theorem recordError_wt : (recordError e ch d s).status.wt = s.status.wt := by
  unfold recordError; split <;> rfl

end

/-! ## `clearError` (R209) -/

@[simp] theorem clearError_params (s : State) : (clearError s).params = s.params := rfl
@[simp] theorem clearError_cfg (s : State) : (clearError s).cfg = s.cfg := rfl
@[simp] theorem clearError_framecnt (s : State) : (clearError s).framecnt = s.framecnt := rfl
@[simp] theorem clearError_errinfo (s : State) : (clearError s).errinfo = ErrInfo.reset := rfl
@[simp] theorem clearError_latch (s : State) : (clearError s).latch = s.latch := rfl
@[simp] theorem clearError_mem (s : State) : (clearError s).mem = s.mem := rfl
@[simp] theorem clearError_pending (s : State) : (clearError s).pending = s.pending := rfl
@[simp] theorem clearError_reads (s : State) : (clearError s).reads = s.reads := rfl
@[simp] theorem clearError_draws (s : State) : (clearError s).draws = s.draws := rfl
@[simp] theorem clearError_busy (s : State) : (clearError s).status.busy = s.status.busy := rfl
@[simp] theorem clearError_done (s : State) : (clearError s).status.done = s.status.done := rfl
@[simp] theorem clearError_err (s : State) : (clearError s).status.err = false := rfl
@[simp] theorem clearError_started (s : State) : (clearError s).status.started = s.status.started := rfl
@[simp] theorem clearError_fatal (s : State) : (clearError s).status.fatal = s.status.fatal := rfl
@[simp] theorem clearError_ovr (s : State) : (clearError s).status.ovr = s.status.ovr := rfl
@[simp] theorem clearError_wt (s : State) : (clearError s).status.wt = s.status.wt := rfl
@[simp] theorem clearError_errcode (s : State) : (clearError s).status.errcode = .none := rfl

/-! ## `State.setItems` (R30) -/

section
variable (c : Nat) (it : Item) (i : Nat) (ws : List Word) (s : State)

@[simp] theorem setItems_params : (s.setItems c it i ws).params = s.params := rfl
@[simp] theorem setItems_cfg : (s.setItems c it i ws).cfg = s.cfg := rfl
@[simp] theorem setItems_status : (s.setItems c it i ws).status = s.status := rfl
@[simp] theorem setItems_framecnt : (s.setItems c it i ws).framecnt = s.framecnt := rfl
@[simp] theorem setItems_errinfo : (s.setItems c it i ws).errinfo = s.errinfo := rfl
@[simp] theorem setItems_latch : (s.setItems c it i ws).latch = s.latch := rfl
@[simp] theorem setItems_pending : (s.setItems c it i ws).pending = s.pending := rfl
@[simp] theorem setItems_reads : (s.setItems c it i ws).reads = s.reads := rfl
@[simp] theorem setItems_draws : (s.setItems c it i ws).draws = s.draws := rfl
@[simp] theorem setItems_mem :
    (s.setItems c it i ws).mem = s.mem.store (itemAddr c it i) (ws.map (· &&& it.mask)) := rfl
@[simp] theorem setItems_frameLen : (s.setItems c it i ws).frameLen = s.frameLen := rfl
@[simp] theorem complete_frameLen : (complete s).frameLen = s.frameLen := rfl

/-- Replacing memory twice is replacing it once. -/
theorem setItems_eq : s.setItems c it i ws = { s with mem := s.mem.store (itemAddr c it i) (ws.map (· &&& it.mask)) } := rfl

end

/-! ## `softReset` (R230, R192) -/

@[simp] theorem softReset_params (s : State) : (softReset s).params = s.params := rfl
@[simp] theorem softReset_cfg (s : State) : (softReset s).cfg = Cfg.reset := rfl
@[simp] theorem softReset_status (s : State) : (softReset s).status = Status.reset := rfl
@[simp] theorem softReset_framecnt (s : State) : (softReset s).framecnt = 0#32 := rfl
@[simp] theorem softReset_errinfo (s : State) : (softReset s).errinfo = ErrInfo.reset := rfl
@[simp] theorem softReset_latch (s : State) : (softReset s).latch = 0#32 := rfl
@[simp] theorem softReset_pending (s : State) : (softReset s).pending = s.pending := rfl
@[simp] theorem softReset_reads (s : State) : (softReset s).reads = s.reads := rfl
@[simp] theorem softReset_draws (s : State) : (softReset s).draws = s.draws := rfl

/-! ## `powerOnReset` (R230, R231) -/

@[simp] theorem powerOnReset_params (s : State) : (powerOnReset s).params = s.params := rfl
@[simp] theorem powerOnReset_cfg (s : State) : (powerOnReset s).cfg = Cfg.reset := rfl
@[simp] theorem powerOnReset_status (s : State) : (powerOnReset s).status = Status.reset := rfl
@[simp] theorem powerOnReset_framecnt (s : State) : (powerOnReset s).framecnt = 0#32 := rfl
@[simp] theorem powerOnReset_errinfo (s : State) : (powerOnReset s).errinfo = ErrInfo.reset := rfl
@[simp] theorem powerOnReset_mem (s : State) : (powerOnReset s).mem = [] := rfl
@[simp] theorem powerOnReset_pending (s : State) : (powerOnReset s).pending = s.pending := rfl
@[simp] theorem powerOnReset_reads (s : State) : (powerOnReset s).reads = s.reads := rfl
@[simp] theorem powerOnReset_draws (s : State) : (powerOnReset s).draws = s.draws := rfl

/-! ## `issue` (R25, R85) -/

@[simp] theorem issue_latch (v : Word) (s : State) : (issue v s).latch = v := rfl
@[simp] theorem issue_busy (v : Word) (s : State) : (issue v s).status.busy = true := rfl
@[simp] theorem issue_mem (v : Word) (s : State) : (issue v s).mem = s.mem := rfl
@[simp] theorem issue_params (v : Word) (s : State) : (issue v s).params = s.params := rfl
@[simp] theorem issue_pending (v : Word) (s : State) : (issue v s).pending = s.pending := rfl

end Sys2Proof.Machine
end

