-- ==== Sys2Proof/Laws/Items.lean ====
section
/-! SUPPORT. The slot items in memory: no two overlap, what a stored item reads back as, and that storing one keeps memory good
(10_state.md R30; 20_memory.md R60). -/

namespace Sys2Proof.Machine

/-- No item reaches past slot offset 0x7000 (R60). -/
theorem item_end (it : Item) : it.offset + 4 * it.count ≤ 0x7000 := by cases it <;> decide

/-- Items start on a word boundary (R30). -/
theorem item_aligned (it : Item) : it.offset % 4 = 0 := by cases it <;> decide

/-- Two different items of a slot do not overlap (R30). -/
theorem items_disjoint {it it' : Item} (h : it ≠ it') :
    it.offset + 4 * it.count ≤ it'.offset ∨ it'.offset + 4 * it'.count ≤ it.offset := by
  cases it <;> cases it' <;> first | exact absurd rfl h | decide

/-- Two different elements lie at least a word apart. -/
theorem itemAddr_apart {c c' : Nat} {it it' : Item} {i i' : Nat} (hi : i < it.count) (hi' : i' < it'.count)
    (h : ¬(c = c' ∧ it = it' ∧ i = i')) :
    itemAddr c it i + 4 ≤ itemAddr c' it' i' ∨ itemAddr c' it' i' + 4 ≤ itemAddr c it i := by
  have e := item_end it
  have e' := item_end it'
  unfold itemAddr slotBase
  by_cases hc : c = c'
  · by_cases ht : it = it'
    · subst hc ht
      have : i ≠ i' := fun x => h ⟨rfl, rfl, x⟩
      omega
    · have := items_disjoint ht
      subst hc
      omega
  · omega

/-- Stored elements read back, cut to the bits the item stores (R30). -/
theorem item_setItems_same {s : State} {c : Nat} {it : Item} {i0 i : Nat} {ws : List Word} (h0 : i0 ≤ i)
    (h1 : i < i0 + ws.length) : (s.setItems c it i0 ws).item? c it i = some (ws.getD (i - i0) 0#32 &&& it.mask) := by
  unfold State.item?
  have e : itemAddr c it i = itemAddr c it i0 + 4 * (i - i0) := by unfold itemAddr; omega
  rw [setItems_mem, e, word_store_inside (by simp; omega)]
  simp only [List.getD_eq_getElem?_getD, List.getElem?_map]
  cases h : ws[i - i0]? <;> simp

/-- Any other element reads as before. -/
theorem item_setItems_other {s : State} {c c' : Nat} {it it' : Item} {i0 i : Nat} {ws : List Word}
    (hw : i0 + ws.length ≤ it.count) (hi : i < it'.count) (h : ¬(c = c' ∧ it = it' ∧ i0 ≤ i ∧ i < i0 + ws.length)) :
    (s.setItems c it i0 ws).item? c' it' i = s.item? c' it' i := by
  unfold State.item?
  rw [setItems_mem]
  by_cases hl : ws.length = 0
  · have hn : ws = [] := List.length_eq_zero_iff.mp hl
    subst hn
    unfold Mem.word?
    simp only [List.map_nil, byte_store, List.length_nil]
    rw [if_neg (by omega), if_neg (by omega), if_neg (by omega), if_neg (by omega)]
  apply word_store_outside
  rw [List.length_map]
  by_cases hs : c = c' ∧ it = it'
  · obtain ⟨rfl, rfl⟩ := hs
    unfold itemAddr
    by_cases h1 : i < i0
    · omega
    · have : ¬ i < i0 + ws.length := fun x => h ⟨rfl, rfl, by omega, x⟩
      omega
  · have a0 := itemAddr_apart (c := c) (c' := c') (it := it) (it' := it') (i := i0) (i' := i) (by omega) hi
      (fun x => hs ⟨x.1, x.2.1⟩)
    have a1 := itemAddr_apart (c := c) (c' := c') (it := it) (it' := it') (i := i0 + ws.length - 1) (i' := i) (by omega) hi
      (fun x => hs ⟨x.1, x.2.1⟩)
    have e := item_end it
    have e' := item_end it'
    have d : it ≠ it' → it.offset + 4 * it.count ≤ it'.offset ∨ it'.offset + 4 * it'.count ≤ it.offset := items_disjoint
    have d' : c = c' → it ≠ it' := fun hc ht => hs ⟨hc, ht⟩
    unfold itemAddr slotBase at *
    by_cases hc : c = c'
    · have := d (d' hc); subst hc; omega
    · omega

/-! ## The item an offset lies in -/

/-- Searching R30's table for the item that covers a slot offset finds it. -/
theorem itemAt_offset (it : Item) {k : Nat} (h : k < 4 * it.count) : itemAt (it.offset + k) = some it := by
  have key : ∀ it', (it'.offset ≤ it.offset + k ∧ it.offset + k < it'.offset + 4 * it'.count) → it' = it := by
    intro it' h'
    by_contra hne
    have := items_disjoint hne
    omega
  unfold itemAt
  have hmem : it ∈ Item.all := by cases it <;> decide
  generalize Item.all = l at hmem
  induction l with
  | nil => simp at hmem
  | cons it' l ih =>
    rw [List.find?_cons]
    by_cases hh : it'.offset ≤ it.offset + k ∧ it.offset + k < it'.offset + 4 * it'.count
    · have := key it' hh
      subst this
      simp [h]
    · have hf : (decide (it'.offset ≤ it.offset + k) && decide (it.offset + k < it'.offset + 4 * it'.count)) = false := by
        rw [Bool.and_eq_false_iff]
        simp only [decide_eq_false_iff_not]
        by_cases h1 : it'.offset ≤ it.offset + k
        · exact .inr fun h2 => hh ⟨h1, h2⟩
        · exact .inl h1
      rw [hf]
      refine ih ?_
      rcases List.mem_cons.mp hmem with rfl | hm
      · exact absurd ⟨by omega, by omega⟩ hh
      · exact hm

/-- The item a byte of an item's element lies in. -/
theorem itemAt_itemAddr (c : Nat) (it : Item) {k : Nat} (h : k < 4 * it.count) :
    itemAt ((itemAddr c it 0 + k) % 0x10000) = some it := by
  have e := item_end it
  have : (itemAddr c it 0 + k) % 0x10000 = it.offset + k := by unfold itemAddr slotBase; omega
  rw [this, itemAt_offset it h]

/-- A byte of an item is a ChannelState byte exactly when the item is one (R31). -/
theorem inChannelState_itemAddr (c : Nat) (it : Item) {k : Nat} (h : k < 4 * it.count) :
    inChannelState (itemAddr c it 0 + k) = it.isChannelState := by
  have e := item_end it
  have e1 : (itemAddr c it 0 + k) % 0x10000 = it.offset + k := by unfold itemAddr slotBase; omega
  have e2 : 0x10000 ≤ itemAddr c it 0 + k := by unfold itemAddr slotBase; omega
  rw [Bool.eq_iff_iff]
  unfold inChannelState
  rw [e1]
  simp only [Bool.and_eq_true, Bool.or_eq_true, decide_eq_true_eq]
  cases it <;> simp only [Item.offset, Item.count, Item.isChannelState, iff_true, Bool.false_eq_true, iff_false] at h ⊢ <;>
    omega

/-! ## Storing items keeps memory good -/

/-- Every cell a store adds holds the lane of one of its words. -/
theorem cells_lane {a : Nat} {ws : List Word} {c : Host.Cell} (h : c ∈ Mem.cells a ws) :
    ∃ w ∈ ws, c.2 = byteLane w ((c.1 - a) % 4) := by
  obtain ⟨h1, h2, h3⟩ := cells_mem h
  have hl : (c.1 - a) / 4 < ws.length := by omega
  refine ⟨ws.getD ((c.1 - a) / 4) 0#32, ?_, h3⟩
  rw [List.getD_eq_getElem?_getD, List.getElem?_eq_getElem hl]
  exact List.getElem_mem hl

/-- A lane of a masked word is that lane masked. -/
theorem byteLane_and (w m : Word) (k : Nat) : byteLane (w &&& m) k = byteLane w k &&& byteLane m k := by
  have : ∀ v : Word, byteLane v k = (v >>> (8 * k)).setWidth 8 := by
    intro v
    apply BitVec.eq_of_toNat_eq
    simp [byteLane, Nat.shiftRight_eq_div_pow]
  rw [this, this, this, BitVec.ushiftRight_and_distrib, BitVec.setWidth_and]

theorem setItems_inSlots {s : State} {nch c : Nat} {it : Item} {i : Nat} {ws : List Word}
    (h : s.mem.inSlots nch = true) (hc : c < nch) (hw : i + ws.length ≤ it.count) :
    (s.setItems c it i ws).mem.inSlots nch = true := by
  unfold Mem.inSlots at *
  rw [List.all_eq_true] at *
  intro x hx
  rw [setItems_mem] at hx
  rcases mem_store hx with hx | ⟨hx, _⟩
  · exact h x hx
  · obtain ⟨h1, h2, _⟩ := cells_mem hx
    rw [List.length_map] at h2
    have hk : x.1 = itemAddr c it 0 + (x.1 - itemAddr c it 0) := by unfold itemAddr at *; omega
    have hlt : x.1 - itemAddr c it 0 < 4 * it.count := by unfold itemAddr at *; omega
    have hi := itemAt_itemAddr c it hlt
    rw [← hk] at hi
    have e := item_end it
    have l1 : 0x10000 ≤ x.1 := by unfold itemAddr slotBase at h1; omega
    have l2 : x.1 < 0x10000 * (nch + 1) := by
      unfold itemAddr slotBase at h2
      have : 0x10000 * (c + 1) ≤ 0x10000 * nch := by omega
      omega
    simp [l1, l2, hi]

theorem setItems_masked {s : State} {c : Nat} {it : Item} {i : Nat} {ws : List Word}
    (h : s.mem.masked = true) (hw : i + ws.length ≤ it.count) : (s.setItems c it i ws).mem.masked = true := by
  unfold Mem.masked at *
  rw [List.all_eq_true] at *
  intro x hx
  rw [setItems_mem] at hx
  rcases mem_store hx with hx | ⟨hx, _⟩
  · exact h x hx
  · obtain ⟨h1, h2, _⟩ := cells_mem hx
    rw [List.length_map] at h2
    obtain ⟨v, hv, h3⟩ := cells_lane hx
    obtain ⟨w, _, rfl⟩ := List.mem_map.mp hv
    have hk : x.1 = itemAddr c it 0 + (x.1 - itemAddr c it 0) := by unfold itemAddr at *; omega
    have hlt : x.1 - itemAddr c it 0 < 4 * it.count := by unfold itemAddr at *; omega
    have hi := itemAt_itemAddr c it hlt
    rw [← hk] at hi
    have ha := item_aligned it
    have hm : (x.1 - itemAddr c it i) % 4 = x.1 % 4 := by unfold itemAddr slotBase at *; omega
    rw [h3, hm]
    unfold byteMask
    rw [hi]
    simp only [byteLane_and, BitVec.and_assoc, BitVec.and_self, beq_self_eq_true]

theorem setItems_whole {s : State} {c : Nat} {it : Item} {i : Nat} {ws : List Word}
    (h : s.mem.whole = true) : (s.setItems c it i ws).mem.whole = true := by
  unfold Mem.whole at *
  rw [List.all_eq_true] at *
  intro x hx
  rw [setItems_mem] at hx ⊢
  have ha := item_aligned it
  have haddr : itemAddr c it i % 4 = 0 := by unfold itemAddr slotBase; omega
  generalize hl : ws.map (· &&& it.mask) = vs at *
  rcases mem_store hx with hx | ⟨hx, _⟩
  · by_cases hin : itemAddr c it i ≤ x.1 ∧ x.1 < itemAddr c it i + 4 * vs.length
    · have e : x.1 - x.1 % 4 = itemAddr c it i + 4 * ((x.1 - itemAddr c it i) / 4) := by omega
      rw [e, word_store_inside (by omega)]
      rfl
    · rw [word_store_outside (by omega)]
      exact h x hx
  · obtain ⟨h1, h2, _⟩ := cells_mem hx
    have e : x.1 - x.1 % 4 = itemAddr c it i + 4 * ((x.1 - itemAddr c it i) / 4) := by omega
    rw [e, word_store_inside (by omega)]
    rfl

/-- Storing elements of an item of an existing slot keeps memory good. -/
theorem setItems_good {s : State} {nch c : Nat} {it : Item} {i : Nat} {ws : List Word} (h : Mem.Good nch s.mem)
    (hc : c < nch) (hw : i + ws.length ≤ it.count) : Mem.Good nch (s.setItems c it i ws).mem :=
  ⟨store_wf h.1 _ _, setItems_inSlots h.2.1 hc hw, setItems_masked h.2.2.1 hw, setItems_whole h.2.2.2⟩

end Sys2Proof.Machine
end

