-- ==== Sys2Proof/Laws/Loops.lean ====
section
/-! SUPPORT. What the shared shapes can do: the loops of the pseudocode (00_scope.md R10), a read by a command (10_state.md R51),
and the shape every command shares (60_exceptions.md R200, R203). -/

namespace Sys2Proof.Machine

/-! ## Sequencing -/

theorem except_bind_ok {ε α β : Type} {x : Except ε α} {f : α → Except ε β} {b : β} :
    (x >>= f) = .ok b ↔ ∃ a, x = .ok a ∧ f a = .ok b := by
  cases x with
  | error e => simp [bind, Except.bind]
  | ok a => simp [bind, Except.bind]

theorem except_bind_error {ε α β : Type} {x : Except ε α} {f : α → Except ε β} {e : ε} :
    (x >>= f) = .error e ↔ x = .error e ∨ ∃ a, x = .ok a ∧ f a = .error e := by
  cases x with
  | error e' => simp [bind, Except.bind]
  | ok a => simp [bind, Except.bind]

theorem except_pure_ok {ε α : Type} {a b : α} : (pure a : Except ε α) = .ok b ↔ a = b := by
  simp [pure, Except.pure]

theorem except_pure_error {ε α : Type} {a : α} {e : ε} : ¬(pure a : Except ε α) = .error e := by
  simp [pure, Except.pure]

/-! ## Loops -/

/-- A completed check loop gives one result per element. -/
theorem checkAll_ok {α β : Type} {f : α → Except Stop β} {xs : List α} {ys : List β} :
    checkAll f xs = .ok ys ↔ List.Forall₂ (fun x y => f x = .ok y) xs ys := by
  induction xs generalizing ys with
  | nil => cases ys <;> simp [checkAll]
  | cons x xs ih =>
    unfold checkAll
    cases hx : f x with
    | error e => cases ys <;> simp [hx]
    | ok y =>
      cases hxs : checkAll f xs with
      | error e =>
        cases ys with
        | nil => simp
        | cons y' ys =>
          simp only [List.forall₂_cons, reduceCtorEq, false_iff, not_and]
          intro _ h
          rw [← ih, hxs] at h
          cases h
      | ok zs =>
        cases ys with
        | nil => simp
        | cons y' ys =>
          simp only [List.forall₂_cons, hx, Except.ok.injEq, List.cons.injEq, ← ih, hxs]

/-- A check loop completes when every check does. -/
theorem checkAll_total {α β : Type} {f : α → Except Stop β} {xs : List α} (h : ∀ x ∈ xs, ∃ y, f x = .ok y) :
    ∃ ys, checkAll f xs = .ok ys := by
  induction xs with
  | nil => exact ⟨[], rfl⟩
  | cons x xs ih =>
    obtain ⟨y, hy⟩ := h x (by simp)
    obtain ⟨ys, hys⟩ := ih fun z hz => h z (by simp [hz])
    exact ⟨y :: ys, by simp [checkAll, hy, hys]⟩

/-- A check loop of checks that give known results. -/
theorem checkAll_map {α β : Type} {f : α → Except Stop β} {g : α → β} {xs : List α} (h : ∀ x ∈ xs, f x = .ok (g x)) :
    checkAll f xs = .ok (xs.map g) := by
  induction xs with
  | nil => rfl
  | cons x xs ih => simp [checkAll, h x (by simp), ih fun z hz => h z (by simp [hz])]

theorem checkAll_length {α β : Type} {f : α → Except Stop β} {xs : List α} {ys : List β} (h : checkAll f xs = .ok ys) :
    ys.length = xs.length := ((checkAll_ok.mp h).length_eq).symm

/-- A check loop stops with the stop of its first failing element. -/
theorem checkAll_error {α β : Type} {f : α → Except Stop β} {xs : List α} {e : Stop} (h : checkAll f xs = .error e) :
    ∃ x ∈ xs, f x = .error e := by
  induction xs with
  | nil => simp [checkAll] at h
  | cons x xs ih =>
    unfold checkAll at h
    cases hx : f x with
    | error e' =>
      rw [hx] at h
      exact ⟨x, by simp, by rw [hx]; simpa using h⟩
    | ok y =>
      rw [hx] at h
      cases hxs : checkAll f xs with
      | error e' =>
        rw [hxs] at h
        obtain ⟨z, hz, hz'⟩ := ih (by rw [hxs]; simpa using h)
        exact ⟨z, by simp [hz], hz'⟩
      | ok ys => rw [hxs] at h; cases h

/-- The first failing element decides how a check loop stops. -/
theorem checkAll_first {α β : Type} {f : α → Except Stop β} {pre post : List α} {x : α} {e : Stop}
    (hpre : ∀ y ∈ pre, ∃ z, f y = .ok z) (hx : f x = .error e) : checkAll f (pre ++ x :: post) = .error e := by
  induction pre with
  | nil => simp [checkAll, hx]
  | cons y pre ih =>
    obtain ⟨z, hz⟩ := hpre y (by simp)
    simp [checkAll, hz, ih fun w hw => hpre w (by simp [hw])]

/-- A property every pass keeps holds after the passes. -/
theorem applyAll_inv {α σ : Type} {f : α → σ → Except Stop σ} {xs : List α} {P : σ → Prop} {s s' : σ}
    (hf : ∀ x ∈ xs, ∀ t t', P t → f x t = .ok t' → P t') (hs : P s) (h : applyAll f xs s = .ok s') : P s' := by
  induction xs generalizing s with
  | nil => simp only [applyAll, Except.ok.injEq] at h; exact h ▸ hs
  | cons x xs ih =>
    unfold applyAll at h
    cases hx : f x s with
    | error e => rw [hx] at h; cases h
    | ok t =>
      rw [hx] at h
      exact ih (fun y hy => hf y (by simp [hy])) (hf x (by simp) s t hs hx) h

/-- A stop of the passes is a stop of one of them, on a state that keeps every property the passes keep. -/
theorem applyAll_error {α σ : Type} {f : α → σ → Except Stop σ} {xs : List α} {P : σ → Prop} {s : σ} {e : Stop}
    (hf : ∀ x ∈ xs, ∀ t t', P t → f x t = .ok t' → P t') (hs : P s) (h : applyAll f xs s = .error e) :
    ∃ x ∈ xs, ∃ t, P t ∧ f x t = .error e := by
  induction xs generalizing s with
  | nil => simp [applyAll] at h
  | cons x xs ih =>
    unfold applyAll at h
    cases hx : f x s with
    | error e' => rw [hx] at h; exact ⟨x, by simp, s, hs, by rw [hx]; simpa using h⟩
    | ok t =>
      rw [hx] at h
      obtain ⟨y, hy, t', ht'⟩ := ih (fun y hy => hf y (by simp [hy])) (hf x (by simp) s t hs hx) h
      exact ⟨y, by simp [hy], t', ht'⟩

/-- The passes complete when each does on every state with a property they keep. -/
theorem applyAll_total {α σ : Type} {f : α → σ → Except Stop σ} {xs : List α} {P : σ → Prop} {s : σ}
    (hf : ∀ x ∈ xs, ∀ t, P t → ∃ t', f x t = .ok t' ∧ P t') (hs : P s) : ∃ s', applyAll f xs s = .ok s' ∧ P s' := by
  induction xs generalizing s with
  | nil => exact ⟨s, rfl, hs⟩
  | cons x xs ih =>
    obtain ⟨t, ht, hp⟩ := hf x (by simp) s hs
    obtain ⟨s', hs', hp'⟩ := ih (fun y hy => hf y (by simp [hy])) hp
    exact ⟨s', by simp [applyAll, ht, hs'], hp'⟩

/-! ## Reads by a command (R51) -/

theorem readItem_ok {c : Nat} {it : Item} {i : Nat} {s : State} {w : Word} :
    s.readItem c it i = .ok w ↔ s.item? c it i = some w := by
  unfold State.readItem
  cases s.item? c it i <;> simp

theorem readItem_error {c : Nat} {it : Item} {i : Nat} {s : State} {e : Stop} :
    s.readItem c it i = .error e ↔ e = .unwritten (itemAddr c it i) ∧ s.item? c it i = none := by
  unfold State.readItem
  cases s.item? c it i <;> simp [eq_comm]

/-- Storing words takes no value away. -/
theorem item_setItems_none {s : State} {c c' : Nat} {it it' : Item} {i0 i : Nat} {ws : List Word}
    (hw : i0 + ws.length ≤ it.count) (hi : i < it'.count) (h : (s.setItems c it i0 ws).item? c' it' i = none) :
    s.item? c' it' i = none := by
  by_cases hin : c = c' ∧ it = it' ∧ i0 ≤ i ∧ i < i0 + ws.length
  · obtain ⟨rfl, rfl, h0, h1⟩ := hin
    rw [item_setItems_same h0 h1] at h
    cases h
  · rw [item_setItems_other hw hi hin] at h
    exact h

/-! ## The shape of a command (R200, R203) -/

/-- Everything a command can do: complete with an error recorded, complete after its writes, or meet a never-written word. -/
theorem runCommand_cases {i : Instr} {fe : Bool} {bad : Option Nat} {body : Except Stop State} {s : State} :
    (s.status.fatal = true ∧ fe = false ∧ runCommand i fe bad body s = .next (complete (recordError .fatal 0 0 s))) ∨
    ((s.status.fatal && !fe) = false ∧
      ((∃ x, bad = some x ∧ runCommand i fe bad body s = .next (complete (recordError .badChannel x 0 s))) ∨
       (bad = none ∧
        ((∃ s', body = .ok s' ∧ runCommand i fe bad body s = .next (complete s')) ∨
         (∃ e ch d, body = .error (.raise e ch d) ∧
            runCommand i fe bad body s = .next (complete (recordError e ch d s))) ∨
         (∃ a, body = .error (.unwritten a) ∧ runCommand i fe bad body s = .fault (.unwrittenRead i a)))))) := by
  unfold runCommand
  by_cases hf : (s.status.fatal && !fe) = true
  · left
    simp only [Bool.and_eq_true, Bool.not_eq_true'] at hf
    simp [hf]
  · right
    rw [Bool.not_eq_true] at hf
    refine ⟨hf, ?_⟩
    rw [if_neg (by simp [hf])]
    cases bad with
    | some x => exact .inl ⟨x, rfl, rfl⟩
    | none =>
      right
      refine ⟨rfl, ?_⟩
      cases body with
      | ok s' => exact .inl ⟨s', rfl, rfl⟩
      | error e =>
        right
        cases e with
        | raise e ch d => exact .inl ⟨e, ch, d, rfl, rfl⟩
        | unwritten a => exact .inr ⟨a, rfl, rfl⟩

theorem runCommand_ok {i : Instr} {fe : Bool} {s s' : State} (hf : (s.status.fatal && !fe) = false) :
    runCommand i fe none (.ok s') s = .next (complete s') := by
  unfold runCommand
  rw [if_neg (by simp [hf])]

theorem runCommand_raise {i : Instr} {fe : Bool} {s : State} {e : ErrCode} {ch d : Nat}
    (hf : (s.status.fatal && !fe) = false) :
    runCommand i fe none (.error (.raise e ch d)) s = .next (complete (recordError e ch d s)) := by
  unfold runCommand
  rw [if_neg (by simp [hf])]

end Sys2Proof.Machine
end

