-- ==== Sys2Proof/Laws/SideInfo.lean ====
section
/-! SUPPORT. The side information a command reads: the bounds its fields keep, and how a read of it stops (10_state.md R35, R47,
R53 to R56). -/

namespace Sys2Proof.Machine

/-! ## How a read stops -/

/-- A stop a command with these read items can meet: an error, or a never-written word of one of the items (R51, R201). -/
def StopIn (items : List (Nat × Item)) (s : State) : Stop → Prop
  | .raise e _ _ => e ≠ .none
  | .unwritten a => ∃ x ∈ items, ∃ k < x.2.count, a = itemAddr x.1 x.2 k ∧ s.item? x.1 x.2 k = none

theorem StopIn.mono {items items' : List (Nat × Item)} {s : State} {e : Stop} (h : StopIn items s e)
    (hs : ∀ x ∈ items, x ∈ items') : StopIn items' s e := by
  cases e with
  | raise => exact h
  | unwritten a => obtain ⟨x, hx, k, hk⟩ := h; exact ⟨x, hs x hx, k, hk⟩

/-- A read of an element of one of the items. -/
theorem readItem_stop {items : List (Nat × Item)} {s : State} {c : Nat} {it : Item} {k : Nat} {e : Stop}
    (h : s.readItem c it k = .error e) (hm : (c, it) ∈ items) (hk : k < it.count) : StopIn items s e := by
  obtain ⟨rfl, hn⟩ := readItem_error.mp h
  exact ⟨(c, it), hm, k, hk, rfl, hn⟩

/-! ## Field bounds -/

theorem bits_lt (hi lo : Nat) (w : Word) : bits hi lo w < 2 ^ (hi + 1 - lo) := Nat.mod_lt _ (by positivity)

theorem frameLen_cases (s : State) : s.frameLen = 960 ∨ s.frameLen = 1024 := by
  unfold State.frameLen; cases s.cfg.fl960 <;> simp

theorem frameLen_le (s : State) : s.frameLen ≤ 1024 := by rcases frameLen_cases s with h | h <;> omega

theorem readIcs_ok {c : Nat} {s : State} {ics : Ics} :
    readIcs c s = .ok ics ↔ ∃ w, s.item? c .icsInfo 0 = some w ∧ icsOfWord w = ics := by
  unfold readIcs
  simp only [except_bind_ok, readItem_ok, except_pure_ok]

theorem readIcs_bounds {c : Nat} {s : State} {ics : Ics} (h : readIcs c s = .ok ics) :
    ics.seq < 4 ∧ ics.shape < 2 ∧ ics.maxSfb < 64 ∧ ics.numSwb < 64 ∧ ics.ngroups < 16 := by
  obtain ⟨w, _, rfl⟩ := readIcs_ok.mp h
  exact ⟨bits_lt 1 0 w, bits_lt 4 4 w, bits_lt 13 8 w, bits_lt 21 16 w, bits_lt 27 24 w⟩

theorem readIcs_stop {items : List (Nat × Item)} {c : Nat} {s : State} {e : Stop} (h : readIcs c s = .error e)
    (hm : (c, Item.icsInfo) ∈ items) : StopIn items s e := by
  unfold readIcs at h
  simp only [except_bind_error, except_pure_error, and_false, exists_false, or_false] at h
  exact readItem_stop h hm (by decide)

theorem readGroupLens_length {c n : Nat} {s : State} {g : List Nat} (h : readGroupLens c n s = .ok g) :
    g.length = min n 8 := by
  unfold readGroupLens at h
  split at h
  · simp only [Except.ok.injEq] at h; subst h; simp [*]
  · simp only [except_bind_ok, except_pure_ok] at h
    obtain ⟨w, _, rfl⟩ := h
    simp

theorem readGroupLens_stop {items : List (Nat × Item)} {c n : Nat} {s : State} {e : Stop}
    (h : readGroupLens c n s = .error e) (hm : (c, Item.groupLen) ∈ items) : StopIn items s e := by
  unfold readGroupLens at h
  split at h
  · cases h
  · simp only [except_bind_error, except_pure_error, and_false, exists_false, or_false] at h
    exact readItem_stop h hm (by decide)

/-! ## Windows -/

/-- What windows are for a legal frame: `NW` windows of `W` bins make `L`, and the groups cover them (R47, R53). -/
structure WindowsGood (s : State) (win : Windows) : Prop where
  size : win.count * win.len = s.frameLen
  pos : 0 < win.len
  few : win.count ≤ 8
  groups : win.groups ≤ 8
  sum : win.glen.sum = win.count
  nonempty : ∀ l ∈ win.glen, 1 ≤ l

theorem readWindows_good {c : Nat} {s : State} {ics : Ics} {win : Windows} (h : readWindows c ics s = .ok win) :
    WindowsGood s win := by
  unfold readWindows at h
  split at h
  · simp only [except_bind_ok] at h
    obtain ⟨glen, hg, h⟩ := h
    have hl := readGroupLens_length hg
    split at h
    · rename_i hok
      simp only [except_pure_ok] at h
      subst h
      unfold groupingOk at hok
      simp only [Bool.and_eq_true, decide_eq_true_eq, List.all_eq_true, beq_iff_eq] at hok
      obtain ⟨⟨⟨h1, h2⟩, h3⟩, h4⟩ := hok
      refine ⟨?_, ?_, by simp, ?_, h4, h3⟩
      · rcases frameLen_cases s with h | h <;> simp [h]
      · rcases frameLen_cases s with h | h <;> simp [h]
      · unfold Windows.groups; simp only; omega
    · cases h
  · simp only [Except.ok.injEq] at h
    subst h
    refine ⟨by simp, ?_, by simp, by simp [Windows.groups], by simp, by simp⟩
    rcases frameLen_cases s with h | h <;> simp [h]

theorem readWindows_stop {items : List (Nat × Item)} {c : Nat} {ics : Ics} {s : State} {e : Stop}
    (h : readWindows c ics s = .error e) (hm : (c, Item.groupLen) ∈ items) : StopIn items s e := by
  unfold readWindows at h
  split at h
  · simp only [except_bind_error] at h
    rcases h with h | ⟨glen, _, h⟩
    · exact readGroupLens_stop h hm
    · split at h
      · simp only [except_pure_error] at h
      · simp only [Except.error.injEq] at h; subst h; simp [StopIn]
  · cases h

/-- A window's group is a group (R47). -/
theorem groupOf_lt {glen : List Nat} {w : Nat} (h : w < glen.sum) : groupOf glen w < glen.length := by
  induction glen generalizing w with
  | nil => simp at h
  | cons l ls ih =>
    unfold groupOf
    split
    · simp
    · simp only [List.length_cons, List.sum_cons] at *
      have := ih (w := w - l) (by omega)
      omega

/-! ## Band tables -/

theorem readSwb_length {c n : Nat} {s : State} {swb : List Nat} (h : readSwb c n s = .ok swb) : swb.length = n + 1 := by
  unfold readSwb at h
  simpa using checkAll_length h

theorem readSwb_stop {items : List (Nat × Item)} {c n : Nat} {s : State} {e : Stop} (h : readSwb c n s = .error e)
    (hn : n < 64) (hm : (c, Item.swbOffset) ∈ items) : StopIn items s e := by
  unfold readSwb at h
  obtain ⟨i, hi, h⟩ := checkAll_error h
  simp only [except_bind_error, except_pure_error, and_false, exists_false, or_false] at h
  have := List.mem_range.mp hi
  exact readItem_stop h hm (by simp only [Item.count]; omega)

/-- What a legal band table is (R54). -/
structure BandsGood (win : Windows) (ics : Ics) (swb : List Nat) : Prop where
  length : swb.length = ics.numSwb + 1
  few : ics.maxSfb ≤ ics.numSwb
  zero : swb.getD 0 0 = 0
  rising : ∀ i < ics.numSwb, swb.getD i 0 < swb.getD (i + 1) 0
  last : swb.getD ics.numSwb 0 ≤ win.len

theorem readBands_good {c : Nat} {ics : Ics} {win : Windows} {s : State} {swb : List Nat}
    (h : readBands c ics win s = .ok swb) : BandsGood win ics swb := by
  unfold readBands at h
  simp only [except_bind_ok] at h
  obtain ⟨swb', hr, h⟩ := h
  split at h
  · rename_i hok
    simp only [except_pure_ok] at h
    subst h
    unfold sfbOk at hok
    simp only [Bool.and_eq_true, decide_eq_true_eq, beq_iff_eq, List.all_eq_true, List.mem_range] at hok
    obtain ⟨⟨⟨h1, h2⟩, h3⟩, h4⟩ := hok
    exact ⟨readSwb_length hr, h1, h2, h3, h4⟩
  · cases h

theorem readBands_stop {items : List (Nat × Item)} {c : Nat} {ics : Ics} {win : Windows} {s : State} {e : Stop}
    (h : readBands c ics win s = .error e) (hn : ics.numSwb < 64) (hm : (c, Item.swbOffset) ∈ items) :
    StopIn items s e := by
  unfold readBands at h
  simp only [except_bind_error] at h
  rcases h with h | ⟨swb, _, h⟩
  · exact readSwb_stop h hn hm
  · split at h
    · simp only [except_pure_error] at h
    · simp only [Except.error.injEq] at h; subst h; simp [StopIn]

/-- The table rises over any run of bands (R54). -/
theorem BandsGood.mono {win : Windows} {ics : Ics} {swb : List Nat} (h : BandsGood win ics swb) {i j : Nat} (hij : i ≤ j)
    (hj : j ≤ ics.numSwb) : swb.getD i 0 ≤ swb.getD j 0 := by
  induction j with
  | zero => have : i = 0 := by omega
            subst this; exact le_rfl
  | succ j ih =>
    by_cases e : i = j + 1
    · subst e; exact le_rfl
    · have h1 := ih (by omega) (by omega)
      have h2 := h.rising j (by omega)
      omega

/-- Every bin of the table lies in a window (R54). -/
theorem BandsGood.le_len {win : Windows} {ics : Ics} {swb : List Nat} (h : BandsGood win ics swb) {i : Nat}
    (hi : i ≤ ics.numSwb) : swb.getD i 0 ≤ win.len := le_trans (h.mono hi le_rfl) h.last

/-! ## Bands -/

theorem mem_bandList {groups maxSfb : Nat} {gb : Nat × Nat} :
    gb ∈ bandList groups maxSfb ↔ gb.1 < groups ∧ gb.2 < maxSfb := by
  obtain ⟨g, b⟩ := gb
  unfold bandList
  simp only [List.mem_flatMap, List.mem_range, List.mem_map, Prod.mk.injEq]
  constructor
  · rintro ⟨g', hg, b', hb, rfl, rfl⟩; exact ⟨hg, hb⟩
  · rintro ⟨hg, hb⟩; exact ⟨g, hg, b, hb, rfl, rfl⟩

theorem readBandType_stop {items : List (Nat × Item)} {c g sfb : Nat} {s : State} {e : Stop}
    (h : readBandType c g sfb s = .error e) (hg : g < 8) (hb : sfb < 64) (hm : (c, Item.bandType) ∈ items) :
    StopIn items s e := by
  unfold readBandType at h
  simp only [except_bind_error, except_pure_error, and_false, exists_false, or_false] at h
  exact readItem_stop h hm (by simp only [Item.count, Config.sfbCap]; omega)

theorem readSf_stop {items : List (Nat × Item)} {c g sfb : Nat} {s : State} {e : Stop}
    (h : readSf c g sfb s = .error e) (hg : g < 8) (hb : sfb < 64) (hm : (c, Item.sf) ∈ items) : StopIn items s e := by
  unfold readSf at h
  simp only [except_bind_error, except_pure_error, and_false, exists_false, or_false] at h
  exact readItem_stop h hm (by simp only [Item.count, Config.sfbCap]; omega)

/-- A run lies in the frame (R32, R54). -/
theorem bandRuns_in {s : State} {win : Windows} {ics : Ics} {swb : List Nat} (hw : WindowsGood s win)
    (hb : BandsGood win ics swb) {r : Run} (h : r ∈ bandRuns win swb ics.maxSfb) :
    r.g < 8 ∧ r.g < win.groups ∧ r.sfb < ics.maxSfb ∧ r.first + r.len ≤ s.frameLen := by
  unfold bandRuns at h
  simp only [List.mem_flatMap, List.mem_range, List.mem_map] at h
  obtain ⟨w, hwc, b, hbm, rfl⟩ := h
  have hg : groupOf win.glen w < win.groups := groupOf_lt (by rw [hw.sum]; exact hwc)
  have h1 := hb.le_len (i := b + 1) (by have := hb.few; omega)
  have h2 := hb.mono (i := b) (j := b + 1) (by omega) (by have := hb.few; omega)
  have h3 : w * win.len + win.len ≤ s.frameLen := by
    rw [← hw.size, ← Nat.succ_mul]
    exact Nat.mul_le_mul_right _ hwc
  have := hw.groups
  exact ⟨lt_of_lt_of_le hg this, hg, hbm, by simp only; omega⟩

theorem readSpecRun_stop {items : List (Nat × Item)} {c first len : Nat} {s : State} {e : Stop}
    (h : readSpecRun c first len s = .error e) (hl : first + len ≤ 1024) (hm : (c, Item.spec) ∈ items) :
    StopIn items s e := by
  unfold readSpecRun at h
  obtain ⟨i, hi, h⟩ := checkAll_error h
  have := List.mem_range.mp hi
  exact readItem_stop h hm (by simp only [Item.count]; omega)

theorem readSpecRun_length {c first len : Nat} {s : State} {ws : List Word} (h : readSpecRun c first len s = .ok ws) :
    ws.length = len := by
  unfold readSpecRun at h
  simpa using checkAll_length h

/-! ## Pairs -/

theorem readPairOk_stop {items : List (Nat × Item)} {a b : Nat} {ia ib : Ics} {s : State} {e : Stop}
    (h : readPairOk a b ia ib s = .error e) (hn : ia.numSwb < 64)
    (hm : ∀ c ∈ [a, b], (c, Item.swbOffset) ∈ items ∧ (c, Item.groupLen) ∈ items) : StopIn items s e := by
  have ha := hm a (by simp)
  have hb := hm b (by simp)
  unfold readPairOk at h
  split at h
  · rename_i hc
    simp only [except_bind_error] at h
    rcases h with h | ⟨ta, _, h | ⟨tb, _, h⟩⟩
    · exact readSwb_stop h hn ha.1
    · exact readSwb_stop h (by omega) hb.1
    · split at h
      · split at h
        · simp only [except_bind_error, except_pure_error, and_false, exists_false, or_false] at h
          rcases h with h | ⟨ga, _, h⟩
          · exact readGroupLens_stop h ha.2
          · exact readGroupLens_stop h hb.2
        · simp only [except_pure_error] at h
      · simp only [except_pure_error] at h
  · cases h

end Sys2Proof.Machine
end

