-- ==== Sys2Proof/Laws/Commands.lean ====
section
/-! SUPPORT. What the body of each command can do: how it can stop, and what it stores when it does not (41_inverse_quant.md R105;
42_stereo.md R123, R127; 43_tns.md R148; 44_filterbank.md R170). -/

namespace Sys2Proof.Machine

/-! ## Stores to the spectrum -/

/-- `t` is `s` after stores to SPEC elements `0 .. L-1` of the slots `cs`. -/
inductive SpecStores (cs : List Nat) (s : State) : State → Prop
  | refl : SpecStores cs s s
  | store {t : State} {c i : Nat} {ws : List Word} (h : SpecStores cs s t) (hc : c ∈ cs)
      (hw : i + ws.length ≤ s.frameLen) : SpecStores cs s (t.setItems c .spec i ws)

theorem SpecStores.eq {cs : List Nat} {s t : State} (h : SpecStores cs s t) : t = { s with mem := t.mem } := by
  induction h with
  | refl => rfl
  | store h hc hw ih => rw [setItems_eq, ih]

/-- Nothing but memory changes. -/
theorem SpecStores.fields {cs : List Nat} {s t : State} (h : SpecStores cs s t) :
    t.params = s.params ∧ t.cfg = s.cfg ∧ t.status = s.status ∧ t.framecnt = s.framecnt ∧ t.errinfo = s.errinfo ∧
      t.latch = s.latch ∧ t.pending = s.pending ∧ t.reads = s.reads ∧ t.draws = s.draws := by
  rw [h.eq]; simp

theorem SpecStores.frameLen {cs : List Nat} {s t : State} (h : SpecStores cs s t) : t.frameLen = s.frameLen := by
  unfold State.frameLen; rw [h.fields.2.1]

/-- Every byte outside SPEC `0 .. L-1` of the slots reads as before. -/
theorem SpecStores.byte {cs : List Nat} {s t : State} (h : SpecStores cs s t) {x : Nat}
    (hx : ∀ c ∈ cs, OutsideItem c .spec s.frameLen x) : t.mem.byte? x = s.mem.byte? x := by
  induction h with
  | refl => rfl
  | @store t c i ws h hc hw ih =>
    rw [setItems_mem, byte_store_outside, ih]
    have := hx c hc
    unfold OutsideItem at this
    rw [List.length_map]
    have e : itemAddr c .spec i = itemAddr c .spec 0 + 4 * i := by unfold itemAddr; omega
    omega

/-- A word with no value afterwards had none before. -/
theorem SpecStores.none {cs : List Nat} {s t : State} (h : SpecStores cs s t) {c : Nat} {it : Item} {k : Nat}
    (hk : k < it.count) (hn : t.item? c it k = none) : s.item? c it k = none := by
  induction h with
  | refl => exact hn
  | store h hc hw ih =>
    refine ih (item_setItems_none ?_ hk hn)
    have := frameLen_le s
    simp only [Item.count]
    omega

/-- Every element outside SPEC `0 .. L-1` of the slots reads as before. -/
theorem SpecStores.other {cs : List Nat} {s t : State} (h : SpecStores cs s t) {c : Nat} {it : Item} {k : Nat}
    (hk : k < it.count) (ho : ¬(c ∈ cs ∧ it = .spec ∧ k < s.frameLen)) : t.item? c it k = s.item? c it k := by
  induction h with
  | refl => rfl
  | @store t c' i ws h hc hw ih =>
    rw [item_setItems_other _ hk, ih]
    · rintro ⟨rfl, rfl, _, h2⟩
      exact ho ⟨hc, rfl, by omega⟩
    · have := frameLen_le s
      simp only [Item.count]
      omega

/-- Memory stays good. -/
theorem SpecStores.good {cs : List Nat} {s t : State} (h : SpecStores cs s t) {nch : Nat} (hc : ∀ c ∈ cs, c < nch)
    (hg : Mem.Good nch s.mem) : Mem.Good nch t.mem := by
  induction h with
  | refl => exact hg
  | store h hc' hw ih =>
    refine setItems_good ih (hc _ hc') ?_
    have := frameLen_le s
    simp only [Item.count]
    omega

/-- A stop met on the way is a stop of the command. -/
theorem SpecStores.stop {cs : List Nat} {s t : State} (h : SpecStores cs s t) {items : List (Nat × Item)} {e : Stop}
    (he : StopIn items t e) : StopIn items s e := by
  cases e with
  | raise => exact he
  | unwritten a =>
    obtain ⟨x, hx, k, hk, ha, hn⟩ := he
    exact ⟨x, hx, k, hk, ha, h.none hk hn⟩

theorem SpecStores.mono {cs cs' : List Nat} {s t : State} (h : SpecStores cs s t) (hc : ∀ c ∈ cs, c ∈ cs') :
    SpecStores cs' s t := by
  induction h with
  | refl => exact .refl
  | store h hc' hw ih => exact .store ih (hc _ hc') hw

/-! ## IQ -/

theorem iqTypeCheck_stop {items : List (Nat × Item)} {c : Nat} {s : State} {gb : Nat × Nat} {e : Stop}
    (h : iqTypeCheck c s gb = .error e) (hg : gb.1 < 8) (hb : gb.2 < 64) (hm : (c, Item.bandType) ∈ items) :
    StopIn items s e := by
  unfold iqTypeCheck at h
  simp only [except_bind_error] at h
  rcases h with h | ⟨t, _, h⟩
  · exact readBandType_stop h hg hb hm
  · split at h
    · simp only [Except.error.injEq] at h; subst h; simp [StopIn]
    · split at h
      · simp only [Except.error.injEq] at h; subst h; simp [StopIn]
      · simp only [except_pure_error] at h

theorem iqSfCheck_stop {items : List (Nat × Item)} {c : Nat} {s : State} {x : (Nat × Nat) × Nat} {e : Stop}
    (h : iqSfCheck c s x = .error e) (hg : x.1.1 < 8) (hb : x.1.2 < 64) (hm : (c, Item.sf) ∈ items) :
    StopIn items s e := by
  unfold iqSfCheck at h
  split at h
  · simp only [except_bind_error] at h
    rcases h with h | ⟨t, _, h⟩
    · exact readSf_stop h hg hb hm
    · split at h
      · simp only [except_pure_error] at h
      · simp only [Except.error.injEq] at h; subst h; simp [StopIn]
  · cases h

theorem iqRangeCheck_stop {c : Nat} {sf : Option Int} {q : Option Word} {i : Nat} {s : State} {e : Stop}
    {items : List (Nat × Item)} (h : iqRangeCheck c sf q i = .error e) (hi : i < 1024) (hq : q = s.item? c .qspec i)
    (hm : (c, Item.qspec) ∈ items) : StopIn items s e := by
  unfold iqRangeCheck at h
  split at h
  · cases h
  · split at h
    · simp only [Except.error.injEq] at h
      subst h
      exact ⟨_, hm, i, by simpa [Item.count] using hi, rfl, hq.symm⟩
    · split at h
      · simp only [Except.error.injEq] at h; subst h; simp [StopIn]
      · cases h

theorem mem_array_zipIdx {s : State} {c : Nat} {it : Item} {n : Nat} (hn : n ≤ 1024) {x : Option Word × Nat}
    (h : x ∈ (s.array c it n).zipIdx) : x.2 < n ∧ x.1 = s.item? c it x.2 := by
  rw [array_eq s c it hn] at h
  obtain ⟨v, i⟩ := x
  rw [List.mem_zipIdx_iff_getElem?] at h
  simp only [List.getElem?_map] at h
  by_cases hi : i < n
  · rw [List.getElem?_range hi] at h
    simp only [Option.map_some, Option.some.injEq] at h
    exact ⟨hi, h.symm⟩
  · have : (List.range n)[i]? = none := by simp; omega
    rw [this] at h
    cases h

/-- How IQ's body stops. -/
theorem iqBody_stop {c : Nat} {s : State} {e : Stop} (h : iqBody c s = .error e) :
    StopIn (Instr.readItems (.iq c)) s e := by
  unfold iqBody at h
  simp only [except_bind_error] at h
  rcases h with h | ⟨ics, h1, h | ⟨win, h2, h | ⟨swb, h3, h | ⟨types, h4, h | ⟨sfs, h5, h | ⟨bins, h6, h⟩⟩⟩⟩⟩⟩
  · exact readIcs_stop h (by simp [Instr.readItems])
  · exact readWindows_stop h (by simp [Instr.readItems])
  · exact readBands_stop h (readIcs_bounds h1).2.2.2.1 (by simp [Instr.readItems])
  · obtain ⟨gb, hgb, h⟩ := checkAll_error h
    obtain ⟨hg, hb⟩ := mem_bandList.mp hgb
    have := (readWindows_good h2).groups
    have := (readIcs_bounds h1).2.2.1
    exact iqTypeCheck_stop h (by omega) (by omega) (by simp [Instr.readItems])
  · obtain ⟨x, hx, h⟩ := checkAll_error h
    obtain ⟨hg, hb⟩ := mem_bandList.mp (List.of_mem_zip (a := x.1) (b := x.2) (by simpa using hx)).1
    have := (readWindows_good h2).groups
    have := (readIcs_bounds h1).2.2.1
    exact iqSfCheck_stop h (by omega) (by omega) (by simp [Instr.readItems])
  · obtain ⟨x, hx, h⟩ := checkAll_error h
    have hx' := mem_array_zipIdx (frameLen_le s) hx
    have := frameLen_le s
    exact iqRangeCheck_stop h (by omega) hx'.2 (by simp [Instr.readItems])
  · simp only [except_pure_error] at h

/-- What IQ's body stores. -/
theorem iqBody_ok {c : Nat} {s s' : State} (h : iqBody c s = .ok s') : SpecStores [c] s s' := by
  unfold iqBody at h
  simp only [except_bind_ok, except_pure_ok] at h
  obtain ⟨ics, _, win, _, swb, _, types, _, sfs, _, bins, h6, rfl⟩ := h
  refine .store .refl (by simp) ?_
  have h7 := checkAll_length h6
  have h8 : (s.array c .qspec s.frameLen).length = s.frameLen := by rw [array_eq s c .qspec (frameLen_le s)]; simp
  simp only [List.length_zipIdx] at h7
  simp only [List.length_map, List.length_zipIdx]
  omega

/-! ## Pairs -/

theorem pairTypeCheck_stop {items : List (Nat × Item)} {a b : Nat} {s : State} {gb : Nat × Nat} {e : Stop}
    (h : pairTypeCheck a b s gb = .error e) (hg : gb.1 < 8) (hb : gb.2 < 64) (hma : (a, Item.bandType) ∈ items)
    (hmb : (b, Item.bandType) ∈ items) : StopIn items s e := by
  unfold pairTypeCheck at h
  simp only [except_bind_error] at h
  rcases h with h | ⟨tl, _, h | ⟨tr, _, h⟩⟩
  · exact readBandType_stop h hg hb hma
  · exact readBandType_stop h hg hb hmb
  · split at h
    · simp only [Except.error.injEq] at h; subst h; simp [StopIn]
    split at h
    · simp only [Except.error.injEq] at h; subst h; simp [StopIn]
    split at h
    · simp only [Except.error.injEq] at h; subst h; simp [StopIn]
    split at h
    · simp only [Except.error.injEq] at h; subst h; simp [StopIn]
    · simp only [except_pure_error] at h

/-- The items the pair checks read (R122). -/
def pairItems (a b : Nat) : List (Nat × Item) :=
  [(a, .icsInfo), (b, .icsInfo), (a, .groupLen), (b, .groupLen), (a, .swbOffset), (b, .swbOffset), (a, .bandType),
   (b, .bandType), (a, .msCtrl)]

/-- How the pair checks stop. -/
theorem pairChecks_stop {a b : Nat} {s : State} {e : Stop} (h : pairChecks a b s = .error e) :
    StopIn (pairItems a b) s e := by
  unfold pairChecks at h
  simp only [except_bind_error] at h
  rcases h with h | ⟨ia, h1, h | ⟨ib, h2, h | ⟨ok, h3, h⟩⟩⟩
  · exact readIcs_stop h (by simp [pairItems])
  · exact readIcs_stop h (by simp [pairItems])
  · refine readPairOk_stop h (readIcs_bounds h1).2.2.2.1 ?_
    intro c hc
    simp only [List.mem_cons, List.not_mem_nil, or_false] at hc
    rcases hc with rfl | rfl <;> simp [pairItems]
  · split at h
    · simp only [Except.error.injEq] at h; subst h; simp [StopIn]
    · simp only [except_bind_error] at h
      rcases h with h | ⟨win, h4, h | ⟨swb, h5, h | ⟨ctrl, h6, h⟩⟩⟩
      · exact readWindows_stop h (by simp [pairItems])
      · exact readBands_stop h (readIcs_bounds h1).2.2.2.1 (by simp [pairItems])
      · exact readItem_stop h (by simp [pairItems]) (by decide)
      · split at h
        · simp only [Except.error.injEq] at h; subst h; simp [StopIn]
        · simp only [except_bind_error, except_pure_error, and_false, exists_false, or_false] at h
          obtain ⟨gb, hgb, h⟩ := checkAll_error h
          obtain ⟨hg, hb⟩ := mem_bandList.mp hgb
          have := (readWindows_good h4).groups
          have := (readIcs_bounds h1).2.2.1
          exact pairTypeCheck_stop h (by omega) (by omega) (by simp [pairItems]) (by simp [pairItems])

/-- What a legal pair's information is. -/
theorem pairChecks_ok {a b : Nat} {s : State} {x : PairInfo} (h : pairChecks a b s = .ok x) :
    ∃ ics, WindowsGood s x.win ∧ BandsGood x.win ics x.swb ∧ ics.maxSfb = x.maxSfb ∧ x.maxSfb < 64 ∧ x.mmp < 3 := by
  unfold pairChecks at h
  simp only [except_bind_ok] at h
  obtain ⟨ia, h1, ib, h2, ok, h3, h⟩ := h
  split at h
  · cases h
  · simp only [except_bind_ok] at h
    obtain ⟨win, h4, swb, h5, ctrl, h6, h⟩ := h
    split at h
    · cases h
    · simp only [except_bind_ok, except_pure_ok] at h
      obtain ⟨types, h7, rfl⟩ := h
      refine ⟨ia, readWindows_good h4, readBands_good h5, rfl, (readIcs_bounds h1).2.2.1, ?_⟩
      have := bits_lt 1 0 ctrl
      simp only
      omega

theorem msUsedIfPerBand_stop {items : List (Nat × Item)} {a mmp g sfb : Nat} {s : State} {e : Stop}
    (h : msUsedIfPerBand a mmp g sfb s = .error e) (hg : g < 8) (hb : sfb < 64) (hm : (a, Item.msUsed) ∈ items) :
    StopIn items s e := by
  unfold msUsedIfPerBand readMsUsed at h
  split at h
  · simp only [except_bind_error, except_pure_error, and_false, exists_false, or_false] at h
    exact readItem_stop h hm (by simp only [Item.count]; omega)
  · cases h

/-! ## MS -/

/-- What one run of MS stores. -/
theorem msRun_ok {a b : Nat} {s0 s t t' : State} {x : PairInfo} {r : Run} (hr : r.first + r.len ≤ s.frameLen)
    (ht : SpecStores [a, b] s t) (h : msRun a b s0 x r t = .ok t') : SpecStores [a, b] s t' := by
  unfold msRun at h
  simp only [except_bind_ok] at h
  obtain ⟨used, _, h⟩ := h
  split at h
  · simp only [except_bind_ok, except_pure_ok] at h
    obtain ⟨was, h1, wbs, h2, rfl⟩ := h
    have l1 := readSpecRun_length h1
    have l2 := readSpecRun_length h2
    exact .store (.store ht (by simp) (by simp [l1, l2]; omega)) (by simp) (by simp [l1, l2]; omega)
  · simp only [except_pure_ok] at h
    exact h ▸ ht

theorem msRun_stop {items : List (Nat × Item)} {a b : Nat} {s0 t : State} {x : PairInfo} {r : Run} {e : Stop}
    (hg : r.g < 8) (hb : r.sfb < 64) (hr : r.first + r.len ≤ 1024) (h : msRun a b s0 x r t = .error e)
    (hu : (a, Item.msUsed) ∈ items) (hsa : (a, Item.spec) ∈ items) (hsb : (b, Item.spec) ∈ items) : StopIn items t e := by
  unfold msRun at h
  simp only [except_bind_error] at h
  rcases h with h | ⟨used, _, h⟩
  · exact msUsedIfPerBand_stop h hg hb hu
  · split at h
    · simp only [except_bind_error, except_pure_error, and_false, exists_false, or_false] at h
      rcases h with h | ⟨was, _, h⟩
      · exact readSpecRun_stop h hr hsa
      · exact readSpecRun_stop h hr hsb
    · simp only [except_pure_error] at h

theorem pairItems_ms {a b : Nat} : ∀ x ∈ pairItems a b, x ∈ Instr.readItems (.ms a b) := by
  intro x hx
  simp only [pairItems, List.mem_cons, List.not_mem_nil, or_false] at hx
  rcases hx with rfl | rfl | rfl | rfl | rfl | rfl | rfl | rfl | rfl <;> simp [Instr.readItems]

theorem pairItems_is {a b : Nat} : ∀ x ∈ pairItems a b, x ∈ Instr.readItems (.is a b) := by
  intro x hx
  simp only [pairItems, List.mem_cons, List.not_mem_nil, or_false] at hx
  rcases hx with rfl | rfl | rfl | rfl | rfl | rfl | rfl | rfl | rfl <;> simp [Instr.readItems]

/-- How MS's body stops. -/
theorem msBody_stop {a b : Nat} {s : State} {e : Stop} (h : msBody a b s = .error e) :
    StopIn (Instr.readItems (.ms a b)) s e := by
  unfold msBody at h
  simp only [except_bind_error] at h
  rcases h with h | ⟨x, h1, h⟩
  · exact (pairChecks_stop h).mono pairItems_ms
  · obtain ⟨ics, hw, hb, hm, hm64, _⟩ := pairChecks_ok h1
    rw [← hm] at h
    have hl := frameLen_le s
    obtain ⟨r, hr, t, ht, h⟩ := applyAll_error (P := SpecStores [a, b] s)
      (fun r hr t t' ht h => msRun_ok (bandRuns_in hw hb hr).2.2.2 ht h) .refl h
    obtain ⟨h1, h2, h3, h4⟩ := bandRuns_in hw hb hr
    exact ht.stop (msRun_stop h1 (by omega) (by omega) h (by simp [Instr.readItems]) (by simp [Instr.readItems])
      (by simp [Instr.readItems]))

/-- What MS's body stores. -/
theorem msBody_ok {a b : Nat} {s s' : State} (h : msBody a b s = .ok s') : SpecStores [a, b] s s' := by
  unfold msBody at h
  simp only [except_bind_ok] at h
  obtain ⟨x, h1, h⟩ := h
  obtain ⟨ics, hw, hb, hm, _, _⟩ := pairChecks_ok h1
  rw [← hm] at h
  exact applyAll_inv (fun r hr t t' ht h => msRun_ok (bandRuns_in hw hb hr).2.2.2 ht h) .refl h

/-! ## IS -/

theorem isSfCheck_stop {items : List (Nat × Item)} {b : Nat} {x : PairInfo} {s : State} {gb : Nat × Nat} {e : Stop}
    (h : isSfCheck b x s gb = .error e) (hg : gb.1 < 8) (hb : gb.2 < 64) (hm : (b, Item.sf) ∈ items) :
    StopIn items s e := by
  unfold isSfCheck at h
  split at h
  · simp only [except_bind_error] at h
    rcases h with h | ⟨t, _, h⟩
    · exact readSf_stop h hg hb hm
    · split at h
      · simp only [except_pure_error] at h
      · simp only [Except.error.injEq] at h; subst h; simp [StopIn]
  · cases h

/-- What one run of IS stores. -/
theorem isRun_ok {a b : Nat} {s0 s t t' : State} {x : PairInfo} {sfs : List (Option Int)} {r : Run}
    (hr : r.first + r.len ≤ s.frameLen) (ht : SpecStores [b] s t) (h : isRun a b s0 x sfs r t = .ok t') :
    SpecStores [b] s t' := by
  unfold isRun at h
  split at h
  · simp only [Except.ok.injEq] at h; exact h ▸ ht
  · simp only [except_bind_ok, except_pure_ok] at h
    obtain ⟨used, _, was, h1, rfl⟩ := h
    have l1 := readSpecRun_length h1
    exact .store ht (by simp) (by simp [l1]; omega)

theorem isRun_stop {items : List (Nat × Item)} {a b : Nat} {s0 t : State} {x : PairInfo} {sfs : List (Option Int)}
    {r : Run} {e : Stop} (hg : r.g < 8) (hb : r.sfb < 64) (hr : r.first + r.len ≤ 1024)
    (h : isRun a b s0 x sfs r t = .error e) (hu : (a, Item.msUsed) ∈ items) (hs : (a, Item.spec) ∈ items) :
    StopIn items t e := by
  unfold isRun at h
  split at h
  · cases h
  · simp only [except_bind_error, except_pure_error, and_false, exists_false, or_false] at h
    rcases h with h | ⟨used, _, h⟩
    · exact msUsedIfPerBand_stop h hg hb hu
    · exact readSpecRun_stop h hr hs

/-- How IS's body stops. -/
theorem isBody_stop {a b : Nat} {s : State} {e : Stop} (h : isBody a b s = .error e) :
    StopIn (Instr.readItems (.is a b)) s e := by
  unfold isBody at h
  simp only [except_bind_error] at h
  rcases h with h | ⟨x, h1, h⟩
  · exact (pairChecks_stop h).mono pairItems_is
  · obtain ⟨ics, hw, hb, hm, hm64, _⟩ := pairChecks_ok h1
    rcases h with h | ⟨sfs, _, h⟩
    · obtain ⟨gb, hgb, h⟩ := checkAll_error h
      obtain ⟨hg, hb'⟩ := mem_bandList.mp hgb
      have := hw.groups
      exact isSfCheck_stop h (by omega) (by omega) (by simp [Instr.readItems])
    · rw [← hm] at h
      have hl := frameLen_le s
      obtain ⟨r, hr, t, ht, h⟩ := applyAll_error (P := SpecStores [b] s)
        (fun r hr t t' ht h => isRun_ok (bandRuns_in hw hb hr).2.2.2 ht h) .refl h
      obtain ⟨h1, h2, h3, h4⟩ := bandRuns_in hw hb hr
      exact ht.stop (isRun_stop h1 (by omega) (by omega) h (by simp [Instr.readItems]) (by simp [Instr.readItems]))

/-- What IS's body stores. -/
theorem isBody_ok {a b : Nat} {s s' : State} (h : isBody a b s = .ok s') : SpecStores [b] s s' := by
  unfold isBody at h
  simp only [except_bind_ok] at h
  obtain ⟨x, h1, sfs, _, h⟩ := h
  obtain ⟨ics, hw, hb, hm, _, _⟩ := pairChecks_ok h1
  rw [← hm] at h
  exact applyAll_inv (fun r hr t t' ht h => isRun_ok (bandRuns_in hw hb hr).2.2.2 ht h) .refl h

/-! ## TNS -/

theorem readCoefs_stop {items : List (Nat × Item)} {c w f order nbits : Nat} {s : State} {e : Stop}
    (h : readCoefs c w f order nbits s = .error e) (hw : w < 8) (hf : f < 4) (ho : order ≤ 32)
    (hm : (c, Item.tnsCoef) ∈ items) : StopIn items s e := by
  unfold readCoefs at h
  obtain ⟨i, hi, h⟩ := checkAll_error h
  have hi := List.mem_range.mp hi
  simp only [except_bind_error] at h
  rcases h with h | ⟨ci, _, h⟩
  · unfold readCoef at h
    simp only [except_bind_error, except_pure_error, and_false, exists_false, or_false] at h
    exact readItem_stop h hm (by simp only [Item.count]; omega)
  · split at h
    · simp only [except_pure_error] at h
    · simp only [Except.error.injEq] at h; subst h; simp [StopIn]

/-- How the checks of a window's filters stop. -/
theorem windowPasses_stop {items : List (Nat × Item)} {c w : Nat} {ctrl : TnsCtrl} {ics : Ics} {win : Windows}
    {swb : List Nat} {tw : TnsWindow} {s : State} {n f top : Nat} {e : Stop}
    (h : windowPasses c w ctrl ics win swb tw s n f top = .error e) (hw : w < 8) (hf : f + n ≤ 4)
    (ho : ctrl.maxOrder ≤ 32) (hmf : (c, Item.tnsFilt) ∈ items) (hmc : (c, Item.tnsCoef) ∈ items) : StopIn items s e := by
  induction n generalizing f top with
  | zero => simp [windowPasses] at h
  | succ n ih =>
    unfold windowPasses at h
    simp only [except_bind_error] at h
    rcases h with h | ⟨v, _, h⟩
    · exact readItem_stop h hmf (by simp only [Item.count]; omega)
    · split at h
      · simp only [Except.error.injEq] at h; subst h; simp [StopIn]
      · have ho' : tnsOrder ctrl (tnsFilterOfWord v) ≤ 32 := le_trans (Nat.min_le_right _ _) ho
        simp only [except_bind_error, except_pure_error, and_false, exists_false, or_false] at h
        rcases h with h | ⟨coefs, _, h⟩
        · unfold readPassCoefs at h
          split at h
          · exact readCoefs_stop h hw (by omega) ho' hmc
          · cases h
        · exact ih h (by omega)

/-- The passes of a window lie in the frame. -/
theorem windowPasses_ok {c w : Nat} {ctrl : TnsCtrl} {ics : Ics} {win : Windows} {swb : List Nat} {tw : TnsWindow}
    {s : State} {n f top : Nat} {passes : List FilterPass} (hW : WindowsGood s win) (hB : BandsGood win ics swb)
    (hw : w < win.count) (h : windowPasses c w ctrl ics win swb tw s n f top = .ok passes) :
    ∀ x ∈ passes, x.first + x.len ≤ s.frameLen := by
  induction n generalizing f top passes with
  | zero => simp only [windowPasses, Except.ok.injEq] at h; subst h; simp
  | succ n ih =>
    unfold windowPasses at h
    simp only [except_bind_ok] at h
    obtain ⟨v, _, h⟩ := h
    split at h
    · cases h
    · simp only [except_bind_ok, except_pure_ok] at h
      obtain ⟨coefs, _, rest, hr, rfl⟩ := h
      intro x hx
      rcases List.mem_cons.mp hx with rfl | hx
      · have hle : ∀ b, filterBin ctrl ics.maxSfb swb b ≤ win.len := fun b =>
          hB.le_len (le_trans (Nat.min_le_right _ _) hB.few)
        have h3 : w * win.len + win.len ≤ s.frameLen := by
          rw [← hW.size, ← Nat.succ_mul]
          exact Nat.mul_le_mul_right _ hw
        have h1 := hle top
        have h2 := hle (top - (tnsFilterOfWord v).length)
        simp only
        omega
      · exact ih hr x hx

theorem allPole_length {R : Type} (o : Arith R) (a : List R) (xs : List (Option R)) (hist : List R) :
    (allPole o a xs hist).length = xs.length := by
  induction xs generalizing hist with
  | nil => rfl
  | cons x xs ih => cases x <;> simp [allPole, ih]

theorem filterOutputs_length {R : Type} (o : Arith R) (coefRes : Nat) (coefs : List Int) (down : Bool) (words : List Word) :
    (filterOutputs o coefRes coefs down words).length = words.length := by
  unfold filterOutputs
  simp only
  split <;> simp [allPole_length]

theorem filterElems_length (coefRes : Nat) (coefs : List Int) (down : Bool) (words : List Word) :
    (filterElems coefRes coefs down words).length = words.length := by
  simp [filterElems, filterOutputs_length]

theorem tnsPass_ok {c : Nat} {s0 s t t' : State} {x : FilterPass} (hx : x.first + x.len ≤ s.frameLen)
    (ht : SpecStores [c] s t) (h : tnsPass c s0 x t = .ok t') : SpecStores [c] s t' := by
  unfold tnsPass at h
  split at h
  · simp only [Except.ok.injEq] at h; exact h ▸ ht
  · simp only [except_bind_ok, except_pure_ok] at h
    obtain ⟨words, h1, rfl⟩ := h
    have l1 := readSpecRun_length h1
    refine .store ht (by simp) ?_
    simp [filterElems_length, l1]
    omega

theorem tnsPass_stop {items : List (Nat × Item)} {c : Nat} {s0 t : State} {x : FilterPass} {e : Stop}
    (hx : x.first + x.len ≤ 1024) (h : tnsPass c s0 x t = .error e) (hm : (c, Item.spec) ∈ items) : StopIn items t e := by
  unfold tnsPass at h
  split at h
  · cases h
  · simp only [except_bind_error, except_pure_error, and_false, exists_false, or_false] at h
    exact readSpecRun_stop h hx hm

/-- A result of a completed loop is the result of one of its elements. -/
theorem forall₂_right {α β : Type} {R : α → β → Prop} {xs : List α} {ys : List β} (h : List.Forall₂ R xs ys) {y : β}
    (hy : y ∈ ys) : ∃ x ∈ xs, R x y := by
  induction h with
  | nil => simp at hy
  | cons h1 _ ih =>
    rcases List.mem_cons.mp hy with rfl | hp
    · exact ⟨_, by simp, h1⟩
    · obtain ⟨x, hx, h⟩ := ih hp; exact ⟨x, by simp [hx], h⟩

/-- The passes of all windows lie in the frame. -/
theorem tnsWindowCheck_ok {c : Nat} {ctrl : TnsCtrl} {ics : Ics} {win : Windows} {swb : List Nat} {s : State}
    {passes : List (List FilterPass)} (hW : WindowsGood s win) (hB : BandsGood win ics swb)
    (h : checkAll (tnsWindowCheck c ctrl ics win swb s) (List.range win.count) = .ok passes) :
    ∀ x ∈ passes.flatten, x.first + x.len ≤ s.frameLen := by
  intro x hx
  obtain ⟨ps, hps, hx⟩ := List.mem_flatten.mp hx
  have h := checkAll_ok.mp h
  obtain ⟨w, hw, h⟩ := forall₂_right h hps
  unfold tnsWindowCheck at h
  simp only [except_bind_ok] at h
  obtain ⟨v, _, h⟩ := h
  have hw := List.mem_range.mp hw
  by_cases hn : (if ics.isShort = true then 1 else 3) < (tnsWindowOfWord v).nfilt
  · rw [if_pos hn] at h; cases h
  · rw [if_neg hn] at h
    exact windowPasses_ok hW hB hw h x hx

/-- How TNS's body stops. -/
theorem tnsBody_stop {c : Nat} {s : State} {e : Stop} (h : tnsBody c s = .error e) :
    StopIn (Instr.readItems (.tns c)) s e := by
  unfold tnsBody at h
  simp only [except_bind_error] at h
  rcases h with h | ⟨v, _, h⟩
  · exact readItem_stop h (by simp [Instr.readItems]) (by decide)
  split at h
  · unfold tnsFilterBody at h
    simp only [except_bind_error] at h
    rcases h with h | ⟨ics, h1, h | ⟨win, h2, h | ⟨swb, h3, h⟩⟩⟩
    · exact readIcs_stop h (by simp [Instr.readItems])
    · exact readWindows_stop h (by simp [Instr.readItems])
    · exact readBands_stop h (readIcs_bounds h1).2.2.2.1 (by simp [Instr.readItems])
    have hW := readWindows_good h2
    have hB := readBands_good h3
    by_cases hc : (if ics.isShort = true then Config.tnsOrderCapShort else Config.tnsOrderCapLong)
        < (tnsCtrlOfWord v).maxOrder
    · rw [if_pos hc] at h
      simp only [Except.error.injEq] at h; subst h; simp [StopIn]
    rw [if_neg hc] at h
    simp only [except_bind_error] at h
    rcases h with h | ⟨passes, h4, h⟩
    · obtain ⟨w, hw, h⟩ := checkAll_error h
      have hw := List.mem_range.mp hw
      have := hW.few
      unfold tnsWindowCheck at h
      simp only [except_bind_error] at h
      rcases h with h | ⟨v', _, h⟩
      · exact readItem_stop h (by simp [Instr.readItems]) (by simp only [Item.count]; omega)
      by_cases hn : (if ics.isShort = true then 1 else 3) < (tnsWindowOfWord v').nfilt
      · rw [if_pos hn] at h
        simp only [Except.error.injEq] at h; subst h; simp [StopIn]
      · rw [if_neg hn] at h
        have hn4 : (tnsWindowOfWord v').nfilt < 4 := bits_lt 1 0 v'
        have ho : (tnsCtrlOfWord v).maxOrder < 32 := bits_lt 12 8 v
        exact windowPasses_stop h (by omega) (by omega) (by omega) (by simp [Instr.readItems]) (by simp [Instr.readItems])
    · have hp := tnsWindowCheck_ok hW hB h4
      have hl := frameLen_le s
      obtain ⟨x, hx, t, ht, h⟩ := applyAll_error (P := SpecStores [c] s)
        (fun x hx t t' ht h => tnsPass_ok (hp x hx) ht h) .refl h
      have := hp x hx
      exact ht.stop (tnsPass_stop (by omega) h (by simp [Instr.readItems]))
  · simp only [except_pure_error] at h

/-- What TNS's body stores. -/
theorem tnsBody_ok {c : Nat} {s s' : State} (h : tnsBody c s = .ok s') : SpecStores [c] s s' := by
  unfold tnsBody at h
  simp only [except_bind_ok] at h
  obtain ⟨v, _, h⟩ := h
  split at h
  · unfold tnsFilterBody at h
    simp only [except_bind_ok] at h
    obtain ⟨ics, h1, win, h2, swb, h3, h⟩ := h
    have hW := readWindows_good h2
    have hB := readBands_good h3
    by_cases hc : (if ics.isShort = true then Config.tnsOrderCapShort else Config.tnsOrderCapLong)
        < (tnsCtrlOfWord v).maxOrder
    · rw [if_pos hc] at h; cases h
    rw [if_neg hc] at h
    simp only [except_bind_ok] at h
    obtain ⟨passes, h4, h⟩ := h
    have hp := tnsWindowCheck_ok hW hB h4
    exact applyAll_inv (fun x hx t t' ht h => tnsPass_ok (hp x hx) ht h) .refl h
  · simp only [except_pure_ok] at h
    exact h ▸ .refl

/-! ## FB -/

theorem readFrame_length {c : Nat} {it : Item} {s : State} {ws : List Word} (h : readFrame c it s = .ok ws) :
    ws.length = s.frameLen := by
  unfold readFrame at h
  have h1 := checkAll_length h
  rw [List.length_zipIdx, array_eq s c it (frameLen_le s)] at h1
  simpa using h1

/-- A frame of an item reads as its elements. -/
theorem readFrame_ok {c : Nat} {it : Item} {s : State} {ws : List Word} (hl : ws.length = s.frameLen)
    (h : ∀ n < s.frameLen, s.item? c it n = some (ws.getD n 0#32)) : readFrame c it s = .ok ws := by
  unfold readFrame
  rw [array_eq s c it (frameLen_le s)]
  have e : ((List.range s.frameLen).map fun i => s.item? c it i) = ws.map some := by
    apply List.ext_getElem
    · simp [hl]
    · intro n h1 h2
      have hn : n < s.frameLen := by simpa using h1
      simp [h n hn, List.getD_eq_getElem?_getD, List.getElem?_eq_getElem (by omega : n < ws.length)]
  rw [e]
  have e2 : ws = ((ws.map some).zipIdx).map fun wi => wi.1.getD 0#32 := by
    apply List.ext_getElem
    · simp
    · intro n h1 h2; simp
  conv_rhs => rw [e2]
  apply checkAll_map
  rintro ⟨w, n⟩ hx
  rw [List.mem_zipIdx_iff_getElem?] at hx
  simp only [List.getElem?_map, Option.map_eq_some_iff] at hx
  obtain ⟨v, _, rfl⟩ := hx
  rfl

/-- A word of OVL or CHSTATE always holds a value (R31, R230). -/
theorem item_channelState (s : State) (c : Nat) {it : Item} {i : Nat} (hi : i < it.count) (h : it.isChannelState = true) :
    ∃ w, s.item? c it i = some w := by
  have hb : ∀ k < 4, ∃ b, s.mem.byte? (itemAddr c it i + k) = some b := by
    intro k hk
    have e : itemAddr c it i + k = itemAddr c it 0 + (4 * i + k) := by unfold itemAddr; omega
    have hc := inChannelState_itemAddr c it (k := 4 * i + k) (by omega)
    rw [h, ← e] at hc
    unfold Mem.byte?
    split
    · exact ⟨_, rfl⟩
    · exact ⟨0#8, by simp [Mem.unlisted, hc]⟩
  obtain ⟨b0, h0⟩ := hb 0 (by decide)
  obtain ⟨b1, h1⟩ := hb 1 (by decide)
  obtain ⟨b2, h2⟩ := hb 2 (by decide)
  obtain ⟨b3, h3⟩ := hb 3 (by decide)
  rw [Nat.add_zero] at h0
  exact ⟨wordOfLanes b0 b1 b2 b3, by unfold State.item? Mem.word?; rw [h0, h1, h2, h3]⟩

theorem readFrame_stop {items : List (Nat × Item)} {c : Nat} {it : Item} {s : State} {e : Stop}
    (h : readFrame c it s = .error e) (hc : it.count = 1024) (hm : (c, it) ∈ items) : StopIn items s e := by
  unfold readFrame at h
  obtain ⟨x, hx, h⟩ := checkAll_error h
  obtain ⟨h1, h2⟩ := mem_array_zipIdx (frameLen_le s) hx
  have := frameLen_le s
  split at h
  · cases h
  · simp only [Except.error.injEq] at h
    subst h
    exact ⟨_, hm, x.2, by simp only; omega, rfl, by simp only; rw [← h2]; assumption⟩

/-- How FB's body stops. -/
theorem fbBody_stop {c : Nat} {s : State} {e : Stop} (h : fbBody c s = .error e) :
    StopIn (Instr.readItems (.fb c)) s e := by
  unfold fbBody at h
  simp only [except_bind_error, except_pure_error, and_false, exists_false, or_false] at h
  rcases h with h | ⟨ics, _, h | ⟨prev, _, h | ⟨spec, _, h⟩⟩⟩
  · exact readIcs_stop h (by simp [Instr.readItems])
  · exact readItem_stop h (by simp [Instr.readItems]) (by decide)
  · exact readFrame_stop h rfl (by simp [Instr.readItems])
  · exact readFrame_stop h rfl (by simp [Instr.readItems])

/-- What FB's body stores. -/
theorem fbBody_ok {c : Nat} {s s' : State} (h : fbBody c s = .ok s') :
    ∃ pcm ovl chstate : List Word, ∃ wt : Bool, pcm.length = s.frameLen ∧ ovl.length = s.frameLen ∧ chstate.length = 1 ∧
      s' = { ((s.setItems c .pcm 0 pcm).setItems c .ovl 0 ovl).setItems c .chstate 0 chstate with
        status := { s.status with wt := s.status.wt || wt, started := true } } := by
  unfold fbBody at h
  simp only [except_bind_ok, except_pure_ok] at h
  obtain ⟨ics, _, prev, _, spec, _, ovl, h4, rfl⟩ := h
  refine ⟨_, _, _, _, ?_, ?_, rfl, rfl⟩
  · simp [pcmWords, readFrame_length h4]
  · simp [ovlWords]

end Sys2Proof.Machine
end

