-- ==== Sys2Proof/Laws/Enclosure.lean ====
section
/-! SUPPORT. The enclosure operations hold the real results of what their operands hold (00_scope.md R10, R11). -/

namespace Sys2Proof.Machine

theorem pow_two_pos (p : Nat) : (0 : ℝ) < 2 ^ p := by positivity

/-- `floorDiv` is below the real quotient. -/
theorem floorDiv_le (a : Int) {d : Nat} (hd : 0 < d) : (floorDiv a d : ℝ) ≤ (a : ℝ) / (d : ℝ) := by
  have hd' : (0 : ℝ) < (d : ℝ) := by exact_mod_cast hd
  rw [le_div_iff₀ hd']
  have : floorDiv a d * (d : Int) ≤ a := Int.ediv_mul_le a (by omega)
  exact_mod_cast this

/-- `ceilDiv` is above the real quotient. -/
theorem le_ceilDiv (a : Int) {d : Nat} (hd : 0 < d) : (a : ℝ) / (d : ℝ) ≤ (ceilDiv a d : ℝ) := by
  have h := floorDiv_le (-a) hd
  unfold floorDiv at h
  unfold ceilDiv
  push_cast at *
  rw [neg_div] at h
  linarith

theorem holds_exact (p : Nat) {v : Int} {r : ℝ} (h : r * 2 ^ p = (v : ℝ)) : (Encl.exact v).Holds p r := by
  unfold Encl.exact Encl.Holds
  simp [h]

/-- An exact enclosure holds one real. -/
theorem holds_exact_iff (p : Nat) {v : Int} {r : ℝ} : (Encl.exact v).Holds p r ↔ r * 2 ^ p = (v : ℝ) := by
  unfold Encl.exact Encl.Holds
  constructor
  · rintro ⟨h1, h2⟩; exact le_antisymm h2 h1
  · intro h; simp [h]

theorem holds_ofInt (p : Nat) (n : Int) : (Encl.ofInt p n).Holds p (n : ℝ) := by
  unfold Encl.ofInt
  apply holds_exact
  push_cast
  rfl

theorem holds_zero (p : Nat) : (Encl.exact 0).Holds p 0 := holds_exact p (by simp)

theorem Encl.Holds.add {p : Nat} {x y : Encl} {r s : ℝ} (hx : x.Holds p r) (hy : y.Holds p s) :
    (x.add y).Holds p (r + s) := by
  unfold Encl.Holds Encl.add at *
  push_cast
  constructor <;> nlinarith [hx.1, hx.2, hy.1, hy.2]

theorem Encl.Holds.neg {p : Nat} {x : Encl} {r : ℝ} (hx : x.Holds p r) : x.neg.Holds p (-r) := by
  unfold Encl.Holds Encl.neg at *
  push_cast
  constructor <;> nlinarith [hx.1, hx.2]

theorem Encl.Holds.sub {p : Nat} {x y : Encl} {r s : ℝ} (hx : x.Holds p r) (hy : y.Holds p s) :
    (x.sub y).Holds p (r - s) := by
  unfold Encl.sub
  rw [sub_eq_add_neg]
  exact hx.add hy.neg

/-- Any enclosure around an enclosure. -/
theorem Encl.Holds.mono {p : Nat} {x y : Encl} {r : ℝ} (hx : x.Holds p r) (h1 : y.lo ≤ x.lo) (h2 : x.hi ≤ y.hi) :
    y.Holds p r := by
  unfold Encl.Holds at *
  have h1' : (y.lo : ℝ) ≤ (x.lo : ℝ) := by exact_mod_cast h1
  have h2' : (x.hi : ℝ) ≤ (y.hi : ℝ) := by exact_mod_cast h2
  exact ⟨le_trans h1' hx.1, le_trans hx.2 h2'⟩

theorem Encl.Holds.scale {p : Nat} {x : Encl} {r : ℝ} (hx : x.Holds p r) (n : Nat) {d : Nat} (hd : 0 < d) :
    (x.scale n d).Holds p (r * ((n : ℝ) / (d : ℝ))) := by
  unfold Encl.Holds Encl.scale at *
  have hd' : (0 : ℝ) < (d : ℝ) := by exact_mod_cast hd
  have hn' : (0 : ℝ) ≤ (n : ℝ) := by positivity
  have h1 := floorDiv_le (x.lo * n) hd
  have h2 := le_ceilDiv (x.hi * n) hd
  push_cast at h1 h2
  have e : r * ((n : ℝ) / (d : ℝ)) * 2 ^ p = (r * 2 ^ p) * (n : ℝ) / (d : ℝ) := by ring
  rw [e]
  constructor
  · refine le_trans h1 ?_
    gcongr
    exact hx.1
  · refine le_trans ?_ h2
    gcongr
    exact hx.2

theorem mul_between {a b c d u v : ℝ} (h1 : a ≤ u) (h2 : u ≤ b) (h3 : c ≤ v) (h4 : v ≤ d) :
    min (min (a * c) (a * d)) (min (b * c) (b * d)) ≤ u * v ∧
      u * v ≤ max (max (a * c) (a * d)) (max (b * c) (b * d)) := by
  have key : ∀ t : ℝ, min (t * c) (t * d) ≤ t * v ∧ t * v ≤ max (t * c) (t * d) := by
    intro t
    rcases le_total 0 t with ht | ht
    · exact ⟨le_trans (min_le_left _ _) (mul_le_mul_of_nonneg_left h3 ht),
        le_trans (mul_le_mul_of_nonneg_left h4 ht) (le_max_right _ _)⟩
    · exact ⟨le_trans (min_le_right _ _) (mul_le_mul_of_nonpos_left h4 ht),
        le_trans (mul_le_mul_of_nonpos_left h3 ht) (le_max_left _ _)⟩
  have key2 : min (a * v) (b * v) ≤ u * v ∧ u * v ≤ max (a * v) (b * v) := by
    rcases le_total 0 v with hv | hv
    · exact ⟨le_trans (min_le_left _ _) (mul_le_mul_of_nonneg_right h1 hv),
        le_trans (mul_le_mul_of_nonneg_right h2 hv) (le_max_right _ _)⟩
    · exact ⟨le_trans (min_le_right _ _) (mul_le_mul_of_nonpos_right h2 hv),
        le_trans (mul_le_mul_of_nonpos_right h1 hv) (le_max_left _ _)⟩
  exact ⟨le_trans (min_le_min (key a).1 (key b).1) key2.1, le_trans key2.2 (max_le_max (key a).2 (key b).2)⟩

theorem Encl.Holds.mul {p : Nat} {x y : Encl} {r s : ℝ} (hx : x.Holds p r) (hy : y.Holds p s) :
    (Encl.mul p x y).Holds p (r * s) := by
  have hb := mul_between hx.1 hx.2 hy.1 hy.2
  unfold Encl.Holds Encl.mul
  simp only
  have h1 := floorDiv_le (min (min (x.lo * y.lo) (x.lo * y.hi)) (min (x.hi * y.lo) (x.hi * y.hi)))
    (show 0 < 2 ^ p by positivity)
  have h2 := le_ceilDiv (max (max (x.lo * y.lo) (x.lo * y.hi)) (max (x.hi * y.lo) (x.hi * y.hi)))
    (show 0 < 2 ^ p by positivity)
  push_cast at h1 h2
  have e : r * s * 2 ^ p = (r * 2 ^ p) * (s * 2 ^ p) / 2 ^ p := by
    have := (pow_two_pos p).ne'
    field_simp
  rw [e]
  constructor
  · refine le_trans h1 ?_
    gcongr
    exact hb.1
  · refine le_trans ?_ h2
    gcongr
    exact hb.2

/-- The sum of enclosures holds the sum of the reals they hold. -/
theorem holds_sum {p : Nat} {xs : List Encl} {rs : List ℝ} (h : List.Forall₂ (fun x r => x.Holds p r) xs rs) :
    ((enclArith p).sum xs).Holds p rs.sum := by
  induction h with
  | nil => exact holds_zero p
  | cons h1 _ ih => exact h1.add ih

/-! ## Roots -/

/-- The bits of a root: what `rootBits` adds stays below the root and comes within one of it. -/
theorem rootBits_spec {k : Nat} (x n r : Nat) (h1 : r ^ k ≤ x) (h2 : x < (r + 2 ^ n) ^ k) :
    rootBits k x n r ^ k ≤ x ∧ x < (rootBits k x n r + 1) ^ k := by
  induction n generalizing r with
  | zero => exact ⟨h1, by simpa [rootBits] using h2⟩
  | succ n ih =>
    unfold rootBits
    split
    · rename_i h
      refine ih _ h ?_
      have : r + 2 ^ n + 2 ^ n = r + 2 ^ (n + 1) := by rw [pow_succ]; omega
      rw [this]; exact h2
    · rename_i h
      exact ih _ h1 (by omega)

/-- `rootFloor k x` is the greatest `r` with `r ^ k <= x`. -/
theorem rootFloor_spec {k : Nat} (hk : 0 < k) (x : Nat) : rootFloor k x ^ k ≤ x ∧ x < (rootFloor k x + 1) ^ k := by
  unfold rootFloor
  refine rootBits_spec x _ 0 (by rw [zero_pow (by omega)]; exact Nat.zero_le _) ?_
  rw [zero_add, ← pow_mul]
  have h1 : x < 2 ^ (Nat.log2 x + 1) := Nat.lt_log2_self
  refine lt_of_lt_of_le h1 (Nat.pow_le_pow_right (by decide) ?_)
  have h2 := Nat.div_add_mod (Nat.log2 x) k
  have h3 := Nat.mod_lt (Nat.log2 x) hk
  rw [Nat.add_mul, Nat.mul_comm (Nat.log2 x / k) k]
  omega

/-- The `k`-th root of a natural number lies in its enclosure at precision 0. -/
theorem holds_rootEncl {k : Nat} (hk : 0 < k) {x : Nat} {r : ℝ} (hr : 0 ≤ r) (h : r ^ k = (x : ℝ)) :
    (rootEncl k x).Holds 0 r := by
  obtain ⟨h1, h2⟩ := rootFloor_spec hk x
  have l1 : ((rootFloor k x : ℝ)) ≤ r := by
    by_contra hc
    push Not at hc
    have := pow_lt_pow_left₀ hc hr (by omega : k ≠ 0)
    rw [h] at this
    exact absurd (by exact_mod_cast this : x < rootFloor k x ^ k) (by omega)
  have l2 : r < (rootFloor k x : ℝ) + 1 := by
    by_contra hc
    push Not at hc
    have := pow_le_pow_left₀ (by positivity) hc k
    rw [h] at this
    exact absurd (by exact_mod_cast this : (rootFloor k x + 1) ^ k ≤ x) (by omega)
  unfold rootEncl
  simp only
  split
  · rename_i he
    have : r = (rootFloor k x : ℝ) := by
      refine (pow_left_inj₀ hr (by positivity) (by omega : k ≠ 0)).mp ?_
      rw [h]
      exact_mod_cast he.symm
    apply holds_exact
    rw [this]; simp
  · unfold Encl.Holds
    push_cast
    constructor <;> simp <;> linarith

end Sys2Proof.Machine
end

