-- ==== Sys2Proof/Laws/Exact.lean ====
section
/-! SUPPORT. The complex numbers that cyclotomic numbers stand for, and that each operation of Machine/Exact.lean computes the
number it names. -/

namespace Sys2Proof.Machine

/-- The sum of `c * z^k` over the terms `(k, c)`. -/
noncomputable def termsValue (z : ℂ) (ts : List (Nat × Int)) : ℂ := (ts.map fun t => (t.2 : ℂ) * z ^ t.1).sum

/-- The number a `Cyc` stands for, `z` being the root of unity. -/
noncomputable def Cyc.value (z : ℂ) (x : Cyc) : ℂ := termsValue z x.terms / x.den

@[simp] theorem termsValue_nil (z : ℂ) : termsValue z [] = 0 := rfl

@[simp] theorem termsValue_cons (z : ℂ) (t : Nat × Int) (ts : List (Nat × Int)) :
    termsValue z (t :: ts) = (t.2 : ℂ) * z ^ t.1 + termsValue z ts := by simp [termsValue]

@[simp] theorem termsValue_append (z : ℂ) (xs ys : List (Nat × Int)) :
    termsValue z (xs ++ ys) = termsValue z xs + termsValue z ys := by simp [termsValue]

/-- Terms of one exponent add up. -/
theorem termsValue_same (z : ℂ) (k : Nat) (ts : List (Nat × Int)) (h : ∀ t ∈ ts, t.1 = k) :
    termsValue z ts = ((ts.map (·.2)).sum : Int) * z ^ k := by
  induction ts with
  | nil => simp
  | cons t ts ih =>
    rw [termsValue_cons, ih fun u hu => h u (by simp [hu]), h t (by simp)]
    push_cast [List.map_cons, List.sum_cons]
    ring

/-- A sum is split by a test. -/
theorem termsValue_filter (z : ℂ) (p q : Nat × Int → Bool) (ts : List (Nat × Int)) (h : ∀ t ∈ ts, q t = !p t) :
    termsValue z (ts.filter p) + termsValue z (ts.filter q) = termsValue z ts := by
  induction ts with
  | nil => simp
  | cons t ts ih =>
    have ht := h t (by simp)
    have ih := ih fun u hu => h u (by simp [hu])
    cases hp : p t <;> simp [hp, ht, ← ih] <;> ring

/-- `collect` keeps the sum, when the exponents agree but for their `d` lowest bits. -/
theorem collect_value (z : ℂ) (d : Nat) (ts : List (Nat × Int)) (b : Nat) (h : ∀ t ∈ ts, t.1 / 2 ^ d = b) :
    termsValue z (collect d ts) = termsValue z ts := by
  induction d generalizing ts b with
  | zero =>
    cases ts with
    | nil => rfl
    | cons t ts =>
      have h' : ∀ u ∈ t :: ts, u.1 = t.1 := by
        intro u hu
        have h1 := h u hu
        have h2 := h t (by simp)
        simp only [pow_zero, Nat.div_one] at h1 h2
        omega
      rw [termsValue_same z t.1 _ h']
      unfold collect
      split
      · rename_i hz; rw [hz]; simp
      · simp
  | succ d ih =>
    cases ts with
    | nil => rfl
    | cons t ts =>
      have key : ∀ u ∈ t :: ts, u.1 / 2 ^ d / 2 = b := by
        intro u hu
        rw [Nat.div_div_eq_div_mul, ← pow_succ]
        exact h u hu
      have hf : ∀ r < 2, ∀ u ∈ (t :: ts).filter (fun u => u.1 / 2 ^ d % 2 == r), u.1 / 2 ^ d = 2 * b + r := by
        intro r _ u hu
        obtain ⟨hu, hr⟩ := List.mem_filter.mp hu
        have := key u hu
        simp only [beq_iff_eq] at hr
        omega
      unfold collect
      rw [termsValue_append, ih _ _ (hf 0 (by decide)), ih _ _ (hf 1 (by decide))]
      refine termsValue_filter z _ _ _ fun u _ => ?_
      rcases Nat.mod_two_eq_zero_or_one (u.1 / 2 ^ d) with h0 | h0 <;> simp [h0]

/-- `collect` on exponents below `2^13`. -/
theorem collect_value_of_lt (z : ℂ) {ts : List (Nat × Int)} (h : ∀ t ∈ ts, t.1 < 2 ^ exponentBits) :
    termsValue z (collect exponentBits ts) = termsValue z ts :=
  collect_value z _ ts 0 fun t ht => Nat.div_eq_of_lt (h t ht)

/-- Multiplication by a monomial, for a root of unity of order `M`. -/
theorem timesMonomial_value {z : ℂ} {M : Nat} (hz : z ^ M = 1) (a : Nat) (c : Int) (ts : List (Nat × Int)) :
    termsValue z (timesMonomial M a c ts) = c * z ^ a * termsValue z ts := by
  induction ts with
  | nil => simp [timesMonomial]
  | cons t ts ih =>
    have e : z ^ ((t.1 + a) % M) = z ^ (t.1 + a) := by
      conv_rhs => rw [← Nat.div_add_mod (t.1 + a) M, pow_add, pow_mul, hz, one_pow, one_mul]
    have ih' : termsValue z (List.map (fun t => ((t.1 + a) % M, t.2 * c)) ts) = c * z ^ a * termsValue z ts := ih
    show termsValue z (((t.1 + a) % M, t.2 * c) :: List.map (fun t => ((t.1 + a) % M, t.2 * c)) ts) = _
    rw [termsValue_cons, ih', termsValue_cons, e, pow_add]
    push_cast
    ring

theorem mem_timesMonomial_lt {M a : Nat} {c : Int} (hM : 0 < M) {ts : List (Nat × Int)} {t : Nat × Int}
    (h : t ∈ timesMonomial M a c ts) : t.1 < M := by
  obtain ⟨u, _, rfl⟩ := List.mem_map.mp h
  exact Nat.mod_lt _ hM

/-- The terms of a product stand for the product. -/
theorem mulTerms_value {z : ℂ} {M : Nat} (hz : z ^ M = 1) (hM : 0 < M) (hB : M ≤ 2 ^ exponentBits)
    (xs ys : List (Nat × Int)) : termsValue z (mulTerms M xs ys) = termsValue z xs * termsValue z ys := by
  unfold mulTerms
  rw [collect_value_of_lt]
  · induction xs with
    | nil => simp
    | cons x xs ih =>
      rw [List.flatMap_cons, termsValue_append, ih, timesMonomial_value hz, termsValue_cons]
      ring
  · intro t ht
    obtain ⟨_, _, h⟩ := List.mem_flatMap.mp ht
    exact lt_of_lt_of_le (mem_timesMonomial_lt hM h) hB

/-- A product of numbers. -/
theorem Cyc.mul_value {z : ℂ} {M : Nat} (hz : z ^ M = 1) (hM : 0 < M) (hB : M ≤ 2 ^ exponentBits) (x y : Cyc) :
    (x.mul M y).value z = x.value z * y.value z := by
  unfold Cyc.value Cyc.mul
  rw [mulTerms_value hz hM hB]
  push_cast
  rw [mul_div_mul_comm]

/-- Terms with every coefficient multiplied. -/
theorem termsValue_scaled (z : ℂ) (c : Int) (ts : List (Nat × Int)) :
    termsValue z (ts.map fun t => (t.1, t.2 * c)) = c * termsValue z ts := by
  induction ts with
  | nil => simp
  | cons t ts ih =>
    rw [List.map_cons, termsValue_cons, ih, termsValue_cons]
    push_cast
    ring

/-- A linear combination of numbers. -/
theorem Cyc.combine_value (z : ℂ) (c c' : Int) {x y : Cyc} (hx : 0 < x.den) (hy : 0 < y.den)
    (hX : ∀ t ∈ x.terms, t.1 < 2 ^ exponentBits) (hY : ∀ t ∈ y.terms, t.1 < 2 ^ exponentBits) :
    (x.combine c c' y).value z = c * x.value z + c' * y.value z := by
  have hxl : x.den * (Nat.lcm x.den y.den / x.den) = Nat.lcm x.den y.den := Nat.mul_div_cancel' (Nat.dvd_lcm_left _ _)
  have hyl : y.den * (Nat.lcm x.den y.den / y.den) = Nat.lcm x.den y.den := Nat.mul_div_cancel' (Nat.dvd_lcm_right _ _)
  have hl : 0 < Nat.lcm x.den y.den := Nat.lcm_pos hx hy
  unfold Cyc.value Cyc.combine
  simp only
  rw [collect_value_of_lt]
  · simp only [mul_assoc]
    rw [termsValue_append, termsValue_scaled, termsValue_scaled]
    have hx0 : (x.den : ℂ) ≠ 0 := by exact_mod_cast hx.ne'
    have hy0 : (y.den : ℂ) ≠ 0 := by exact_mod_cast hy.ne'
    have hl0 : ((Nat.lcm x.den y.den : Nat) : ℂ) ≠ 0 := by exact_mod_cast hl.ne'
    have e1 : ((Nat.lcm x.den y.den : Nat) : ℂ) = x.den * ((Nat.lcm x.den y.den / x.den : Nat) : ℂ) := by
      exact_mod_cast hxl.symm
    have e2 : ((Nat.lcm x.den y.den : Nat) : ℂ) = y.den * ((Nat.lcm x.den y.den / y.den : Nat) : ℂ) := by
      exact_mod_cast hyl.symm
    rw [add_div]
    congr 1
    · rw [div_eq_iff hl0]
      conv_rhs => rw [e1]
      simp only [Int.cast_mul, Int.cast_natCast]
      field_simp
    · rw [div_eq_iff hl0]
      conv_rhs => rw [e2]
      simp only [Int.cast_mul, Int.cast_natCast]
      field_simp
  · intro t ht
    rcases List.mem_append.mp ht with h | h
    · obtain ⟨u, hu, rfl⟩ := List.mem_map.mp h; exact hX u hu
    · obtain ⟨u, hu, rfl⟩ := List.mem_map.mp h; exact hY u hu

/-- A product with a fraction. -/
theorem Cyc.scale_value (z : ℂ) (n d : Nat) (x : Cyc) : (x.scale n d).value z = x.value z * ((n : ℂ) / (d : ℂ)) := by
  unfold Cyc.value Cyc.scale
  simp only
  split
  · rename_i h; simp [h]
  · rw [termsValue_scaled]
    push_cast
    rw [mul_comm, mul_div_mul_comm]

/-- A rational. -/
theorem Cyc.rational_value (z : ℂ) (v : Int) (d : Nat) : (Cyc.rational v d).value z = (v : ℂ) / (d : ℂ) := by
  unfold Cyc.value Cyc.rational
  split
  · rename_i h; simp [h]
  · simp

/-- `cos(pi n / d)`, for `z = e^(2 pi i / M)` and an integer multiple of its angle. -/
theorem Cyc.cosPi_value {M n d : Nat} (hM : 0 < M) (hB : M ≤ 2 ^ exponentBits) (hd : 0 < d) (h : 2 * d ∣ M * n) :
    (Cyc.cosPi M n d).value (Complex.exp (2 * Real.pi * Complex.I / M)) = (Real.cos (Real.pi * n / d) : ℂ) := by
  obtain ⟨u, hu⟩ := h
  have hdiv : M * n / (2 * d) = u := by rw [hu]; exact Nat.mul_div_cancel_left u (by omega)
  have hM0 : (M : ℂ) ≠ 0 := by exact_mod_cast hM.ne'
  have hd0 : (d : ℂ) ≠ 0 := by exact_mod_cast hd.ne'
  set z := Complex.exp (2 * Real.pi * Complex.I / M) with hzd
  have hz : z ^ M = 1 := by
    rw [hzd, ← Complex.exp_nat_mul, mul_div_cancel₀ _ hM0, Complex.exp_two_pi_mul_I]
  have hlt := Nat.mod_lt u hM
  unfold Cyc.value Cyc.cosPi
  simp only [hdiv]
  rw [collect_value_of_lt]
  · simp only [termsValue_cons, termsValue_nil, add_zero, Int.cast_one, one_mul]
    have e1 : z ^ (u % M) = z ^ u := by
      conv_rhs => rw [← Nat.div_add_mod u M, pow_add, pow_mul, hz, one_pow, one_mul]
    have e2 : z ^ ((M - u % M) % M) * z ^ (u % M) = 1 := by
      rw [← pow_add]
      rcases Nat.eq_zero_or_pos (u % M) with h0 | h0
      · simp [h0]
      · rw [Nat.mod_eq_of_lt (by omega), Nat.sub_add_cancel hlt.le, hz]
    have e3 : z ^ u = Complex.exp (Real.pi * n / d * Complex.I) := by
      rw [hzd, ← Complex.exp_nat_mul]
      congr 1
      have hu' : (M : ℂ) * n = 2 * d * u := by exact_mod_cast hu
      field_simp
      linear_combination -hu'
    have e4 : z ^ ((M - u % M) % M) = Complex.exp (-(Real.pi * n / d) * Complex.I) := by
      rw [e1, e3] at e2
      rw [neg_mul, Complex.exp_neg]
      exact eq_inv_of_mul_eq_one_left e2
    rw [e4, e1, e3, Complex.ofReal_cos, Complex.cos]
    push_cast
    rfl
  · intro t ht
    simp only [List.mem_cons, List.not_mem_nil, or_false] at ht
    rcases ht with rfl | rfl
    · exact lt_of_lt_of_le hlt hB
    · exact lt_of_lt_of_le (Nat.mod_lt _ hM) hB

/-- Every exponent of the result of `collect` is one of its input. -/
theorem mem_collect {d : Nat} {ts : List (Nat × Int)} {t : Nat × Int} (h : t ∈ collect d ts) : ∃ u ∈ ts, u.1 = t.1 := by
  induction d generalizing ts with
  | zero =>
    cases ts with
    | nil => simp [collect] at h
    | cons u us =>
      unfold collect at h
      split at h
      · simp at h
      · simp only [List.mem_singleton] at h
        exact ⟨u, by simp, by rw [h]⟩
  | succ d ih =>
    cases ts with
    | nil => simp [collect] at h
    | cons u us =>
      unfold collect at h
      rcases List.mem_append.mp h with h | h
      all_goals
        obtain ⟨v, hv, e⟩ := ih h
        exact ⟨v, (List.mem_filter.mp hv).1, e⟩

/-- One multiplication by `z^(M/q) - 1`. -/
theorem vanishes_step {z : ℂ} {M : Nat} (hz : z ^ M = 1) (hM : 0 < M) (hB : M ≤ 2 ^ exponentBits) (q : Nat)
    (ts : List (Nat × Int)) :
    termsValue z (collect exponentBits (timesMonomial M (M / q) 1 ts ++ timesMonomial M 0 (-1) ts)) =
      (z ^ (M / q) - 1) * termsValue z ts := by
  rw [collect_value_of_lt]
  · rw [termsValue_append, timesMonomial_value hz, timesMonomial_value hz]
    push_cast
    ring
  · intro t ht
    rcases List.mem_append.mp ht with h | h <;> exact lt_of_lt_of_le (mem_timesMonomial_lt hM h) hB

/-- Where `vanishes` says so, the number is zero. -/
theorem vanishes_sound {z : ℂ} {M : Nat} (hz : IsPrimitiveRoot z M) (hM : 0 < M) (hB : M ≤ 2 ^ exponentBits)
    {ts : List (Nat × Int)} (ht : ∀ t ∈ ts, t.1 < 2 ^ exponentBits) (h : vanishes M ts = true) : termsValue z ts = 0 := by
  have key : ∀ (qs : List Nat) (us : List (Nat × Int)), (∀ q ∈ qs, 1 < q ∧ q ∣ M) →
      (qs.foldl (fun us q => collect exponentBits (timesMonomial M (M / q) 1 us ++ timesMonomial M 0 (-1) us)) us) = [] →
      termsValue z us = 0 := by
    intro qs
    induction qs with
    | nil => intro us _ h; rw [List.foldl_nil] at h; rw [h]; rfl
    | cons q qs ih =>
      intro us hq h
      have h1 := ih _ (fun r hr => hq r (by simp [hr])) h
      rw [vanishes_step hz.pow_eq_one hM hB, mul_eq_zero] at h1
      refine h1.resolve_left fun h0 => ?_
      obtain ⟨hq1, hq2⟩ := hq q (by simp)
      have hd := hz.dvd_of_pow_eq_one _ (sub_eq_zero.mp h0)
      have hlt : M / q < M := Nat.div_lt_self hM hq1
      have hpos : 0 < M / q := Nat.div_pos (Nat.le_of_dvd hM hq2) (by omega)
      exact absurd (Nat.le_of_dvd hpos hd) (by omega)
  unfold vanishes at h
  rw [List.isEmpty_iff] at h
  rw [← collect_value_of_lt z ht]
  refine key _ _ ?_ h
  intro q hq
  unfold primesOf at hq
  simp only [List.mem_filter, List.mem_cons, List.not_mem_nil, or_false, beq_iff_eq] at hq
  exact ⟨by omega, Nat.dvd_of_mod_eq_zero hq.2⟩

end Sys2Proof.Machine
end

