-- ==== Sys2Proof/Laws/Numeric.lean ====
section
/-! SUPPORT. What the default ROUND can answer for an element's real (00_scope.md R12). -/

namespace Sys2Proof.Machine

/-- A real known exactly is decided. -/
theorem roundBetween_self (p : Nat) (v : Int) : roundBetween p v v ≠ .undecided := by
  unfold roundBetween
  split
  · simp
  · rw [if_pos (by omega)]
    split
    · simp
    · rw [if_pos rfl]
      split <;> simp

/-- `refine` leaves a real open or rounds it from one of the finer enclosures. -/
theorem refine_cases (finer : Nat → Encl) (n p : Nat) :
    refine finer n p = .undecided ∨ ∃ q ≥ p, refine finer n p = roundBetween q (finer q).lo (finer q).hi := by
  induction n generalizing p with
  | zero => exact .inl rfl
  | succ n ih =>
    unfold refine
    split
    · exact (ih (2 * p)).imp id fun ⟨q, hq, h⟩ => ⟨q, by omega, h⟩
    · exact .inr ⟨p, le_rfl, rfl⟩

/-- The default ROUND is taken from the first enclosure, from a finer one, or from the boundary the first one holds, and from
nothing else; it is never left open. -/
theorem roundReal_cases (p : Nat) (x : Encl) (finer : Nat → Encl) (isGrid : Int → Bool) :
    roundReal p x finer isGrid ≠ .undecided ∧
    (roundReal p x finer isGrid = roundBetween p x.lo x.hi ∨
      (∃ q ≥ 2 * p, roundReal p x finer isGrid = roundBetween q (finer q).lo (finer q).hi) ∨
      roundBetween p x.lo x.hi = .undecided ∧
        roundReal p x finer isGrid = roundBetween 150 (gridPoint p x) (gridPoint p x)) := by
  unfold roundReal
  split
  · rename_i hu
    split
    · exact ⟨roundBetween_self _ _, .inr (.inr ⟨hu, rfl⟩)⟩
    · split
      · exact ⟨roundBetween_self _ _, .inr (.inr ⟨hu, rfl⟩)⟩
      · rename_i h
        exact ⟨h, .inr (.inl ((refine_cases finer refinements (2 * p)).resolve_left h))⟩
  · rename_i h
    exact ⟨h, .inl rfl⟩

end Sys2Proof.Machine
end

