-- ==== Sys2Proof/Laws/PerInstr.lean ====
section
/-! SUPPORT. The fields of every command's word: its operands stand in CA and CB and its reserved field is 0 (30_encoding.md R80,
R81). -/

namespace Sys2Proof

/-- The fields of the word `OP : CA : CB : 0` (R80). -/
theorem commandWord_fields {op a b : Nat} (ho : op < 256) (ha : a < 16) (hb : b < 16) :
    opField (commandWord op a b) = op ∧ caField (commandWord op a b) = a ∧ cbField (commandWord op a b) = b ∧
      rsvField (commandWord op a b) = 0 := by
  have hw : (commandWord op a b).toNat = op * 16777216 + a * 1048576 + b * 65536 := by
    unfold commandWord
    rw [BitVec.toNat_ofNat]
    omega
  simp only [opField, caField, cbField, rsvField, bits, hw]
  omega

/-- A command is well-formed when its channel operands are slots 0..15 (R86). -/
theorem wellFormed_iff (i : Instr) : i.WellFormed ↔ ∀ c ∈ i.channels, c < 16 := by
  simp [Instr.WellFormed, Instr.wf, channelFits]

/-- The operands and the reserved field of a command's word (R80, R81). -/
def Laws.Fields.Statement (i : Instr) : Prop :=
  i.WellFormed → caField (encode i) = i.channels.getD 0 0 ∧ cbField (encode i) = i.channels.getD 1 0 ∧
    rsvField (encode i) = 0

theorem Laws.Fields.nop : Laws.Fields.Statement .nop := fun _ => (commandWord_fields (by decide) (by decide) (by decide)).2

theorem Laws.Fields.iq (c : Nat) : Laws.Fields.Statement (.iq c) := fun h =>
  (commandWord_fields (by decide) ((wellFormed_iff _).mp h c (by simp [Instr.channels])) (by decide)).2

theorem Laws.Fields.ms (a b : Nat) : Laws.Fields.Statement (.ms a b) := fun h => by
  have h' := (wellFormed_iff _).mp h
  exact (commandWord_fields (by decide) (h' a (by simp [Instr.channels]))
    (h' b (by simp [Instr.channels]))).2

theorem Laws.Fields.is (a b : Nat) : Laws.Fields.Statement (.is a b) := fun h => by
  have h' := (wellFormed_iff _).mp h
  exact (commandWord_fields (by decide) (h' a (by simp [Instr.channels]))
    (h' b (by simp [Instr.channels]))).2

theorem Laws.Fields.tns (c : Nat) : Laws.Fields.Statement (.tns c) := fun h =>
  (commandWord_fields (by decide) ((wellFormed_iff _).mp h c (by simp [Instr.channels])) (by decide)).2

theorem Laws.Fields.fb (c : Nat) : Laws.Fields.Statement (.fb c) := fun h =>
  (commandWord_fields (by decide) ((wellFormed_iff _).mp h c (by simp [Instr.channels])) (by decide)).2

theorem Laws.Fields.fend : Laws.Fields.Statement .fend := fun _ => (commandWord_fields (by decide) (by decide) (by decide)).2

theorem Laws.Fields.srst : Laws.Fields.Statement .srst := fun _ => (commandWord_fields (by decide) (by decide) (by decide)).2

end Sys2Proof
end

