-- ==== Sys2Proof/Tests/Slice0.lean ====
section
/-! SUPPORT. Small tests of the model. Every expected value is taken from the spec's vectors (95_test_vectors.md) or worked out by
hand from the rule named. Witnesses: for each statement with hypotheses, a concrete state and operands that meet them. -/

namespace Sys2Proof.Machine

set_option Elab.async false

/-! ## Well-formedness and decoding -/

theorem test_wf_refuses_channel_16 : Instr.wf (.iq 16) = false := by decide
theorem test_wf_refuses_left_16 : Instr.wf (.ms 16 0) = false := by decide
theorem test_wf_refuses_right_16 : Instr.wf (.is 0 16) = false := by decide
theorem test_wf_refuses_tns_fb_16 : Instr.wf (.tns 16) = false ∧ Instr.wf (.fb 16) = false := by decide
theorem test_wf_accepts : Instr.wf (.iq 15) = true ∧ Instr.wf (.ms 15 0) = true ∧ Instr.wf .srst = true := by decide

/-- V-ENC-1 to V-ENC-8. -/
theorem test_decode_legal :
    decode 0x00000000#32 = .ok .nop ∧ decode 0x01300000#32 = .ok (.iq 3) ∧ decode 0x02010000#32 = .ok (.ms 0 1) ∧
      decode 0x03230000#32 = .ok (.is 2 3) ∧ decode 0x04700000#32 = .ok (.tns 7) ∧ decode 0x05000000#32 = .ok (.fb 0) ∧
      decode 0x10000000#32 = .ok .fend ∧ decode 0x11000000#32 = .ok .srst := by decide

/-- V-ENC-9 to V-ENC-13 and V-ENC-18. -/
theorem test_decode_illegal :
    decode 0x00000001#32 = .error (.nonzeroReserved 0x00) ∧ decode 0x01010000#32 = .error (.nonzeroReserved 0x01) ∧
      decode 0x10100000#32 = .error (.nonzeroReserved 0x10) ∧ decode 0x06000000#32 = .error (.undefinedOp 0x06) ∧
      decode 0xFF000000#32 = .error (.undefinedOp 0xFF) ∧ decode 0x05000001#32 = .error (.nonzeroReserved 0x05) := by
  decide

/-- R87's words. -/
theorem test_assemble :
    (assemble "iq" [3]).map encode = some 0x01300000#32 ∧ (assemble "ms" [0, 1]).map encode = some 0x02010000#32 ∧
      (assemble "fend" []).map encode = some 0x10000000#32 ∧ assemble "iq" [16] = none := by decide

/-- No word is an instance of two rows of R82. -/
theorem test_opcode_rows_apart :
    opcodeTable.Pairwise fun r r' => (r.pattern ^^^ r'.pattern) &&& r.mask &&& r'.mask ≠ 0#32 := by decide

theorem test_decodeTableWord : decodeTableWord 32 0x02110000 = some (.ms 1 1) ∧ decodeTableWord 32 0x06000000 = none := by
  decide

/-! ## Small states -/

/-- The STATUS and ERRINFO words a step leaves, for comparison with the vectors. -/
def statusAfter : Result → Option (Word × Word)
  | .next t => some (t.status.toWord, t.errinfo.toWord)
  | .fault _ => none
  | .refused _ => none

/-- The elements `is` of an item after a step. -/
def itemsAfter (c : Nat) (it : Item) (is : List Nat) : Result → Option (List (Option Word))
  | .next t => some (is.map fun i => t.item? c it i)
  | .fault _ => none
  | .refused _ => none

/-- The fault a step ends in. -/
def faultOf : Result → Option Fault
  | .next _ => none
  | .fault f => some f
  | .refused _ => none

/-- A state with a command word just latched. -/
def latched (w : Word) (s : State) : State := s.withFetchWord 32 w.toNat

/-- The pair of V-MS-2 and P2: two long slots of two bands, the right slot's second one an intensity band. -/
def pairState : State :=
  State.reset
    |>.setItems 0 .icsInfo 0 [0x00020200#32]
    |>.setItems 1 .icsInfo 0 [0x00020200#32]
    |>.setItems 0 .groupLen 0 [0x00000000#32]
    |>.setItems 1 .groupLen 0 [0x00000000#32]
    |>.setItems 0 .swbOffset 0 [0#32, 4#32, 8#32]
    |>.setItems 1 .swbOffset 0 [0#32, 4#32, 8#32]
    |>.setItems 0 .bandType 0 [1#32, 1#32]
    |>.setItems 1 .bandType 0 [1#32, 15#32]
    |>.setItems 0 .sf 0 [100#32, 104#32]
    |>.setItems 1 .sf 0 [100#32, 4#32]
    |>.setItems 0 .msCtrl 0 [1#32]
    |>.setItems 0 .msUsed 0 [1#32]
    |>.setItems 0 .qspec 0 [8#32, 0xFFFFFFE5#32, 1#32, 0#32, 1#32, 8#32, 0xFFFFFFFF#32, 0#32]
    |>.setItems 0 .spec 0 [0x41800000#32, 0xC2A20000#32, 0x3F800000#32, 0#32, 0x40000000#32, 0x42000000#32, 0xC0000000#32, 0#32]
    |>.setItems 1 .spec 0 [0x3F800000#32, 0x3F800000#32, 0#32, 0xC1800000#32, 0#32, 0#32, 0#32, 0#32]

/-- V-TNS-1. -/
def tnsState : State :=
  State.reset
    |>.setItems 0 .icsInfo 0 [0x00010100#32]
    |>.setItems 0 .swbOffset 0 [0#32, 4#32]
    |>.setItems 0 .tnsCtrl 0 [0x00011401#32]
    |>.setItems 0 .tnsWin 0 [0x00000001#32]
    |>.setItems 0 .tnsFilt 0 [0x00000101#32]
    |>.setItems 0 .tnsCoef 0 [0xFFFFFFFD#32]
    |>.setItems 0 .spec 0 [0x3F800000#32, 0#32, 0#32, 0#32]

/-- EIGHT_SHORT with one group of 7 windows (V-IQ-E7, V-TNS-E8). -/
def shortState : State :=
  State.reset
    |>.setItems 0 .icsInfo 0 [0x01010102#32]
    |>.setItems 1 .icsInfo 0 [0x01010102#32]
    |>.setItems 0 .groupLen 0 [0x00000007#32]
    |>.setItems 1 .groupLen 0 [0x00000007#32]
    |>.setItems 0 .swbOffset 0 [0#32, 4#32]
    |>.setItems 1 .swbOffset 0 [0#32, 4#32]
    |>.setItems 0 .tnsCtrl 0 [0x00011401#32]

/-- A long slot with an all-zero spectrum (V-FB-1). -/
def silentState : State :=
  State.reset
    |>.setItems 0 .icsInfo 0 [0x00000000#32]
    |>.setItems 0 .spec 0 (List.replicate 1024 0x00000000#32)

/-! ## Commands -/

/-- V-CTL-1. -/
theorem test_nop : statusAfter (exec .nop (latched 0x00000000#32 State.reset)) = some (0x00000002#32, 0#32) := by decide

/-- V-CTL-3 and V-CTL-4. -/
theorem test_fend :
    exec .fend { State.reset with framecnt := 0xFFFFFFFF#32 } = .next (complete State.reset) ∧
      (∃ t, exec .fend { State.reset with framecnt := 5#32 } = .next t ∧ t.framecnt = 6#32) := ⟨rfl, _, rfl, rfl⟩

/-- V-CTL-6: OVL and CHSTATE are cleared, SPEC is kept. -/
theorem test_srst :
    itemsAfter 0 .ovl [5] (exec .srst (((latched 0x11000000#32 State.reset).setItems 0 .ovl 5 [0x3F800000#32]).setItems 0
        .spec 0 [0x40000000#32])) = some [some 0#32] ∧
      itemsAfter 0 .spec [0] (exec .srst (((latched 0x11000000#32 State.reset).setItems 0 .ovl 5 [0x3F800000#32]).setItems 0
        .spec 0 [0x40000000#32])) = some [some 0x40000000#32] := by decide +kernel

/-- V-ENC-10, and V-ENC-17 and V-FB-E1 through the sequencer. -/
theorem test_illegal_and_bad_channel :
    statusAfter (step (latched 0x01010000#32 State.reset)) = some (0x00000106#32, 0x00010000#32) ∧
      statusAfter (step (latched 0x029A0000#32 State.reset)) = some (0x00000206#32, 0x00000009#32) ∧
      statusAfter (step (latched 0x05800000#32 State.reset)) = some (0x00000206#32, 0x00000008#32) := by decide +kernel

/-- V-IQ-1: 8, -27, 1, 0, 1, 8, -1, 0 give 16, -81, 1, 0, 2, 32, -2, 0; bin 1023 is zeroed. -/
theorem test_iq : itemsAfter 0 .spec [0, 1, 2, 3, 4, 5, 6, 7, 1023] (exec (.iq 0) pairState) =
    some [some 0x41800000#32, some 0xC2A20000#32, some 0x3F800000#32, some 0#32, some 0x40000000#32, some 0x42000000#32,
      some 0xC0000000#32, some 0#32, some 0#32] := by decide +kernel

/-- V-IQ-2: rounded values of `dq`. -/
theorem test_dq_rounded :
    storedWord State.reset (.iq 0) 0 (dqElem 2 100) = 0x40214518#32 ∧
      storedWord State.reset (.iq 0) 0 (dqElem 3 99) = 0x4068DAAF#32 ∧
      storedWord State.reset (.iq 0) 0 (dqElem (-8191) 255) = 0xDB8796D6#32 := by decide +kernel

/-- V-IQ-E1 and V-IQ-E9. -/
theorem test_iq_errors :
    statusAfter (exec (.iq 0) (pairState.setItems 0 .qspec 2 [8192#32])) = some (0x00000706#32, 0x00020000#32) ∧
      statusAfter (exec (.iq 0) (pairState.setItems 0 .bandType 0 [13#32, 12#32])) = some (0x00000C06#32, 0#32) := by
  decide +kernel

/-- V-MS-3 and V-MS-6: band 0 decoded, band 1 an intensity band of the right slot and untouched. -/
theorem test_ms :
    itemsAfter 0 .spec [0, 1, 3, 4] (exec (.ms 0 1) pairState) =
        some [some 0x41880000#32, some 0xC2A00000#32, some 0xC1800000#32, some 0x40000000#32] ∧
      itemsAfter 1 .spec [0, 1, 3, 4] (exec (.ms 0 1) pairState) =
        some [some 0x41700000#32, some 0xC2A40000#32, some 0x41800000#32, some 0#32] := by decide +kernel

/-- R12: a tie that neither exact arithmetic nor a finer enclosure recognizes goes to even: 3 * 2^-150 lies between 1 and 2 units. -/
theorem test_round_unrecognized_tie :
    roundReal 384 ⟨3 * 2 ^ 234 - 1, 3 * 2 ^ 234 + 1⟩ (fun _ => ⟨-1, 1⟩) (fun _ => false) = .word 0x00000002#32 := by
  decide +kernel

/-- V-MS-7: rounding of `1 + 2^-30`, and V-MS-8: `+0 + -0`. -/
theorem test_ms_rounding :
    storedWord State.reset (.ms 0 1) 0 (msElems 0x3F800000#32 0x30800000#32).1 = 0x3F800000#32 ∧
      storedWord State.reset (.ms 0 1) 0 (msElems 0#32 0x80000000#32).1 = 0#32 := by decide +kernel

/-- P2: band 1 of the right slot becomes half the left one. -/
theorem test_is : itemsAfter 1 .spec [0, 4, 5, 6] (exec (.is 0 1) pairState) =
    some [some 0x3F800000#32, some 0x3F800000#32, some 0x41800000#32, some 0xBF800000#32] := by decide +kernel

/-- V-IS-2, V-IS-3 and V-IS-8. -/
theorem test_is_scale :
    storedWord State.reset (.is 0 1) 0 (isElem (isNegative 14 false) 4 0x41800000#32) = 0xC1000000#32 ∧
      storedWord State.reset (.is 0 1) 0 (isElem (isNegative 15 true) 4 0x41800000#32) = 0xC1000000#32 ∧
      storedWord State.reset (.is 0 1) 0 (isElem (isNegative 15 false) 1 0x41800000#32) = 0x415744FD#32 := by decide +kernel

/-- V-TNS-1. -/
theorem test_tns : itemsAfter 0 .spec [0, 1, 2, 3] (exec (.tns 0) tnsState) =
    some [some 0x3F800000#32, some 0x3F5DB3D7#32, some 0x3F400000#32, some 0x3F2646E1#32] := by decide +kernel

/-- V-TNS-4: a downward filter. -/
theorem test_tns_down :
    itemsAfter 0 .spec [0, 1, 2, 3] (exec (.tns 0) ((tnsState.setItems 0 .tnsFilt 0 [0x00010101#32]).setItems 0 .spec 0
      [0#32, 0#32, 0#32, 0x40000000#32])) =
    some [some 0x3FA646E1#32, some 0x3FC00000#32, some 0x3FDDB3D7#32, some 0x40000000#32] := by decide +kernel

/-- Output `j` of V-TNS-1's filter, `y[2] = x[2] + 3/4 x[0]` for `x[1] = 0`. -/
def tnsOutput (words : List Word) (j : Nat) : Word :=
  storedWord State.reset (.tns 0) j ((filterElems 0 [-3] false words).getD j .any)

/-- R12: an exact zero, and two ties: `3/4 (1 + 2^-23)` and `3/4 + 2^-25`. -/
theorem test_tns_exact :
    tnsOutput [0x3F800000#32, 0#32, 0xBF400000#32] 2 = 0x00000000#32 ∧
      tnsOutput [0x3F800001#32, 0#32, 0#32] 2 = 0x3F400002#32 ∧
      tnsOutput [0x3F800000#32, 0#32, 0x33000000#32] 2 = 0x3F400000#32 := by decide +kernel

/-- The impulse frame of V-FB-2 and V-FB-5. -/
def impulse : List Word := 0x3F800000#32 :: List.replicate 1023 0#32

/-- V-FB-2 and V-FB-4: PCM[0] of ONLY_LONG, PCM[448] of EIGHT_SHORT. -/
theorem test_fb_elements :
    storedWord State.reset (.fb 0) 0 ((frameOf 1024 0 impulse 0 0).pcmElem 0 0#32) = 0x350E102B#32 ∧
      storedWord State.reset (.fb 0) 448 ((frameOf 1024 2 impulse 0 0).pcmElem 448 0#32) = 0x380D4BDD#32 := by decide +kernel

/-- V-FB-4 and V-FB-5: the zero part of EIGHT_SHORT and the flat part of LONG_START. -/
theorem test_fb_windows :
    storedWord State.reset (.fb 0) 447 ((frameOf 1024 2 impulse 0 0).pcmElem 447 0#32) = 0#32 ∧
      storedWord State.reset (.fb 0) 1024 ((frameOf 1024 1 impulse 0 0).ovlElem 0) = 0xBA35287B#32 := by decide +kernel

/-- R12, R163: with `L = 960` and `X[0] = X[128] = 1` the terms of `z[7]` cancel, since `(2 * 7 + 961) * (1 + 257) / 7680` differs
from an odd multiple of 1/2 by an integer: +0.0. -/
theorem test_fb_exact_zero :
    storedWord State.reset (.fb 0) 7 ((frameOf 960 0 (0x3F800000#32 :: (List.replicate 127 0#32 ++ 0x3F800000#32 ::
      List.replicate 831 0#32)) 0 0).pcmElem 7 0#32) = 0x00000000#32 := by decide +kernel

/-! ## Host accesses -/

/-- V-HOST-1, V-HOST-3: what reads return. -/
theorem test_reads :
    readLoc State.reset (.reg .id) = 0x494D4443#32 ∧ readLoc State.reset (.reg .version) = 1#32 ∧
      readLoc State.reset (.reg .nchreg) = 8#32 ∧ readLoc State.reset (.reg .cmd) = 0#32 := by decide

/-- V-HOST-11 to V-HOST-14. -/
theorem test_bus_errors :
    locate Params.default 0x00020 4 = .error .unmapped ∧ locate Params.default 0x00002 4 = .error .misaligned ∧
      locate Params.default 0x14014 4 = .error .unmapped ∧ locate Params.default 0x90000 4 = .error .outside := by decide

/-- V-HOST-15: a locked FL960. -/
theorem test_config_error :
    statusAfter (hostWrite 0x008 4 1#32 { State.reset with
      status := { Status.reset with done := true, started := true } }) = some (0x0000031E#32, 0#32) := by decide

/-- V-HOST-5: clearing an error. -/
theorem test_clear_error :
    statusAfter (hostWrite 0x00C 4 4#32 { State.reset with
      status := { Status.reset with done := true, err := true, errcode := .qRange }
      errinfo := { ch := 0#4, detail := 2#16 } }) = some (0x00000002#32, 0#32) := by decide

/-- V-HOST-8, V-HOST-20 and V-HOST-21. -/
theorem test_item_writes :
    (writeLoc (.item 0 .spec 0) 0x3F800000#32 (latched 0#32 State.reset)).status.toWord = 0x00000021#32 ∧
      (writeLoc (.item 0 .chstate 0) 0x13#32 State.reset).item? 0 .chstate 0 = some 0#32 ∧
      (writeLoc (.item 0 .icsInfo 0) 0xFFFFFFFF#32 State.reset).item? 0 .icsInfo 0 = some 0x0F3F3F13#32 := by decide +kernel

/-- V-HOST-17: the interrupt line. -/
theorem test_irq :
    State.irq { State.reset with cfg := { Cfg.reset with ieDone := true }, status := { Status.reset with done := true } } =
      true ∧
    State.irq { State.reset with cfg := { Cfg.reset with ieDone := true, ieErr := true },
                                 status := { Status.reset with wt := true } } = false := by decide

/-! ## Witnesses: steps and whole-machine rules -/

theorem witness_DecodeEncodeAgree :
    Instr.WellFormed (.ms 15 0) ∧ Instr.WellFormed (.iq 15) ∧ decode 0x11000000#32 = .ok .srst := by decide

theorem witness_StepRunsDecoded :
    ((latched 0#32 State.reset).status.busy = true ∧ sequencerTurn (latched 0#32 State.reset) = true ∧
      decode (latched 0#32 State.reset).latch = .ok .nop) ∧ decodeTableWord 32 0x11000000 = some .srst := by decide

theorem witness_IllegalWordRaises :
    (latched 0x06000000#32 State.reset).status.busy = true ∧ sequencerTurn (latched 0x06000000#32 State.reset) = true ∧
      decode (latched 0x06000000#32 State.reset).latch = .error (.undefinedOp 6) := by decide

theorem witness_HostTurn :
    (HostActs State.reset ∧ State.reset.pending = []) ∧
      (∀ op ∈ [HostOp.read 0x00C 4, .write 0x010 4 0#32, .wait, .powerOn],
        HostActs { State.reset with pending := [op] } ∧ ({ State.reset with pending := [op] } : State).pending = op :: []) ∧
      ({ latched 0#32 State.reset with pending := [.wait] } : State).pending = .wait :: [] :=
  ⟨⟨.inl rfl, rfl⟩, fun _ _ => ⟨.inl rfl, rfl⟩, rfl⟩

/-- A command in flight while the host reads STATUS, writes CMD and waits. -/
def pollingState : State :=
  { latched 0#32 State.reset with pending := [.read 0x00C 4, .write 0x010 4 0#32, .wait] }

theorem witness_CommandGetsItsTurn :
    pollingState.status.busy = true ∧ ∀ op ∈ pollingState.pending, match op with
      | .read addr size => ∃ l, locate pollingState.params addr size = .ok l
      | .write addr size _ => ∃ l, locate pollingState.params addr size = .ok l
      | .wait => True
      | .powerOn => False := by
  refine ⟨rfl, ?_⟩
  intro op h
  simp only [pollingState, List.mem_cons, List.not_mem_nil, or_false] at h
  rcases h with rfl | rfl | rfl
  · exact ⟨.reg .status, by decide⟩
  · exact ⟨.reg .cmd, by decide⟩
  · trivial

theorem witness_CommandPort :
    State.reset.params.valid = true ∧ State.reset.status.busy = false ∧
      (latched 0#32 State.reset).params.valid = true ∧ (latched 0#32 State.reset).status.busy = true := by decide

theorem witness_StepKeepsInv : (latched 0#32 pairState).Inv ∧ ∃ t, step (latched 0#32 pairState) = .next t := by
  refine ⟨⟨by decide, ⟨by decide +kernel, by decide +kernel, by decide +kernel, by decide +kernel⟩,
    ⟨fun _ => ⟨rfl, rfl⟩, fun h => absurd h (by decide)⟩, fun h => absurd h (by decide)⟩, _, rfl⟩

/-- A recorded error, with FEND in flight. -/
def errorState : State :=
  latched 0x10000000#32 { State.reset with
    status := { Status.reset with err := true, errcode := .qRange }
    errinfo := { ch := 1#4, detail := 2#16 } }

theorem witness_ErrorRecord :
    State.reset.status.err = false ∧ errorState.status.err = true ∧
      ∃ t, step errorState = .next t ∧ t.status.err = true := ⟨rfl, rfl, _, rfl, rfl⟩

theorem witness_AllOrNothing : (∃ t, exec .fend State.reset = .next t) ∧ ∃ t, exec (.iq 8) State.reset = .next t :=
  ⟨⟨_, rfl⟩, _, rfl⟩

/-- Two long bands of which the last bin was never written. -/
def gapState : State :=
  State.reset
    |>.setItems 0 .icsInfo 0 [0x00020200#32]
    |>.setItems 0 .swbOffset 0 [0#32, 4#32, 8#32]
    |>.setItems 0 .bandType 0 [1#32, 1#32]
    |>.setItems 0 .sf 0 [100#32, 104#32]
    |>.setItems 0 .qspec 0 [8#32, 0xFFFFFFE5#32, 1#32, 0#32, 1#32, 8#32, 0xFFFFFFFF#32]
    |>.setItems 0 .spec 0 [0#32]

theorem witness_FaultsOnlyUnwritten :
    (Accepted (.iq 0) State.reset ∧ Accepted (.fb 7) State.reset ∧ Accepted (.ms 0 1) State.reset ∧
      Accepted (.is 7 0) State.reset ∧ Accepted (.tns 0) State.reset ∧ State.reset.item? 0 .icsInfo 0 = none ∧
      State.reset.item? 0 .tnsCtrl 0 = none) ∧
    ((State.reset.setItems 0 .tnsCtrl 0 [1#32]).item? 0 .tnsCtrl 0 = some 1#32 ∧ (1#32 : Word).getLsbD 0 = true ∧
      (State.reset.setItems 0 .tnsCtrl 0 [1#32]).item? 0 .icsInfo 0 = none) ∧
    (Accepted (.fb 0) gapState ∧ gapState.item? 0 .icsInfo 0 ≠ none ∧ 1 < gapState.frameLen ∧
      (∀ j < 1, gapState.item? 0 .spec j ≠ none) ∧ gapState.item? 0 .spec 1 = none) := by
  refine ⟨?_, by decide +kernel, ?_⟩
  · unfold Accepted; decide +kernel
  · unfold Accepted; decide +kernel

/-- A configuration error, with SRST in flight. -/
def fatalState : State :=
  latched 0x11000000#32 { State.reset with status := { Status.reset with started := true, fatal := true, err := true,
                                                                         errcode := .config } }

theorem witness_FatalBlocks :
    (fatalState.status.fatal = true ∧ Instr.nop ≠ .fend ∧ Instr.nop ≠ .srst) ∧
      ∃ t, step fatalState = .next t ∧ fatalState.status.fatal = true ∧ t.status.fatal = false :=
  ⟨⟨rfl, by decide, by decide⟩, _, rfl, rfl, rfl⟩

theorem witness_BadChannelRaised :
    State.reset.status.fatal = false ∧ State.reset.params.nch ≤ 8 ∧ 7 < State.reset.params.nch ∧ (15 : Nat) < 16 := by decide

/-- A NOP in flight is no reset and no FB. -/
theorem nop_not_reset (s : State) (h : decode s.latch = .ok .nop) (hb : s.status.busy = true)
    (ht : sequencerTurn s = true) : ¬Resets s ∧ ∀ c, ¬Executes s (.fb c) := by
  constructor
  · rintro (⟨_, _, h'⟩ | ⟨h' | h', _⟩)
    · rw [h] at h'; cases h'
    · rw [hb] at h'; cases h'
    · rw [ht] at h'; cases h'
  · rintro c ⟨_, _, h'⟩
    rw [h] at h'; cases h'

theorem witness_ChannelStateOwner :
    ∃ t, step (latched 0#32 State.reset) = .next t ∧ ¬Resets (latched 0#32 State.reset) ∧ inChannelState 0x12000 = true ∧
      inChannelState 0x8400B = true ∧ ∀ c, Executes (latched 0#32 State.reset) (.fb c) → 0x12000 / 0x10000 ≠ c + 1 :=
  ⟨_, rfl, (nop_not_reset _ rfl rfl rfl).1, by decide, by decide, fun c h => absurd h ((nop_not_reset _ rfl rfl rfl).2 c)⟩

theorem witness_FrameCounter :
    (∃ t, step (latched 0x10000000#32 State.reset) = .next t ∧ Executes (latched 0x10000000#32 State.reset) .fend) ∧
    (∃ t, step (latched 0x11000000#32 State.reset) = .next t ∧ Resets (latched 0x11000000#32 State.reset)) ∧
    (∃ t, step { State.reset with pending := [.powerOn] } = .next t ∧ Resets { State.reset with pending := [.powerOn] }) ∧
    ∃ t, step (latched 0#32 State.reset) = .next t ∧ ¬Executes (latched 0#32 State.reset) .fend ∧
      ¬Resets (latched 0#32 State.reset) := by
  refine ⟨⟨_, rfl, rfl, rfl, by decide⟩, ⟨_, rfl, .inl ⟨rfl, rfl, by decide⟩⟩, ⟨_, rfl, .inr ⟨.inl rfl, _, rfl⟩⟩,
    _, rfl, ?_, (nop_not_reset _ rfl rfl rfl).1⟩
  rintro ⟨_, _, h⟩
  exact absurd h (by decide)

/-- A slot whose spectrum was written with zeros. -/
theorem zeros_read (s : State) (N n : Nat) (hn : n < N) :
    (s.setItems 0 .spec 0 (List.replicate N 0#32)).item? 0 .spec n = some 0#32 := by
  rw [item_setItems_same (Nat.zero_le n) (by simpa using hn)]
  simp [List.getD_eq_getElem?_getD, hn]

/-- What FB reads in a state that agrees with `silentState` on slot 0's header and spectrum. -/
theorem silent_reads {s : State} (hi : s.item? 0 .icsInfo 0 = some 0#32)
    (hs : ∀ n < s.frameLen, s.item? 0 .spec n = some 0#32) :
    readIcs 0 s = .ok ⟨0, 0, 0, 0, 0⟩ ∧ readFrame 0 .spec s = .ok (List.replicate s.frameLen 0#32) ∧
      ∃ ovl prev, readFrame 0 .ovl s = .ok ovl ∧ s.item? 0 .chstate 0 = some prev := by
  refine ⟨readIcs_ok.mpr ⟨0#32, hi, by decide⟩, readFrame_ok (by simp) ?_, ?_⟩
  · intro n hn
    rw [hs n hn]
    simp [List.getD_eq_getElem?_getD, hn]
  · obtain ⟨prev, hp⟩ := item_channelState s 0 (it := .chstate) (i := 0) (by decide) rfl
    have hl := frameLen_le s
    have ho : ∀ n, n < s.frameLen → ∃ w, s.item? 0 .ovl n = some w := fun n hn =>
      item_channelState s 0 (lt_of_lt_of_le hn hl) rfl
    choose f hf using ho
    refine ⟨(List.range s.frameLen).map fun n => if h : n < s.frameLen then f n h else 0#32, prev, ?_, hp⟩
    refine readFrame_ok (by simp) ?_
    intro n hn
    rw [hf n hn]
    simp [List.getD_eq_getElem?_getD, hn]

/-- The header and the spectrum of `silentState`. -/
theorem silent_items : silentState.item? 0 .icsInfo 0 = some 0#32 ∧
    ∀ n < silentState.frameLen, silentState.item? 0 .spec n = some 0#32 := by
  constructor
  · unfold silentState
    rw [item_setItems_other (by rw [List.length_replicate]; decide) (by decide) (by rintro ⟨_, h, _⟩; cases h),
      item_setItems_same (Nat.le_refl 0) (by decide)]
    rfl
  · intro n hn
    exact zeros_read _ 1024 n (lt_of_lt_of_le hn (frameLen_le _))

/-- `silentState` with FB in flight. -/
def silentFb : State := { silentState with latch := 0x05000000#32, status := { Status.reset with busy := true } }

theorem silentFb_body : ∃ s', fbBody 0 silentFb = .ok s' ∧ s'.status.started = true := by
  obtain ⟨h1, h2, ovl, prev, h3, h4⟩ := silent_reads (s := silentFb) silent_items.1 silent_items.2
  have h4' : silentFb.readItem 0 .chstate 0 = .ok prev := readItem_ok.mpr h4
  unfold fbBody
  rw [h1, h2, h3, h4']
  exact ⟨_, rfl, rfl⟩

theorem silentFb_step : ∃ t, step silentFb = .next t ∧ t.status.started = true := by
  obtain ⟨s', h5, h6⟩ := silentFb_body
  refine ⟨complete s', ?_, h6⟩
  have hb : (silentFb.status.busy && sequencerTurn silentFb) = true := rfl
  have hd : decode silentFb.latch = .ok (.fb 0) := by
    show decode 0x05000000#32 = _
    decide
  have hc : badChannelC 0 silentFb = none := rfl
  unfold step sequencerStep
  rw [if_pos hb, hd]
  show execFb 0 silentFb = _
  unfold execFb
  rw [hc, h5]
  exact runCommand_ok rfl

/-- A CFG write that would change FL960 in a started stream. -/
def lockedState : State :=
  { State.reset with
    status := { Status.reset with started := true }
    cfg := { Cfg.reset with ieDone := true }
    pending := [.write 0x008 4 1#32] }

theorem witness_StreamLock :
    (∃ t, step fatalState = .next t ∧ fatalState.status.started = true ∧ t.status.started = false) ∧
    (∃ t, step lockedState = .next t ∧ lockedState.status.fatal = false ∧ t.status.fatal = true) ∧
    (∃ t, step { fatalState with cfg := { Cfg.reset with fl960 := true } } = .next t ∧ t.cfg.fl960 = false) ∧
    ∃ t, step silentFb = .next t ∧ silentFb.status.started = false ∧ t.status.started = true := by
  refine ⟨⟨_, rfl, rfl, rfl⟩, ⟨_, rfl, rfl, rfl⟩, ⟨_, rfl, rfl⟩, ?_⟩
  obtain ⟨t, h1, h2⟩ := silentFb_step
  exact ⟨t, h1, rfl, h2⟩

/-! ## Witnesses: host accesses -/

theorem witness_ReadOnlyRegisters :
    State.reset.params.valid = true ∧ State.reset.status.busy = false ∧ (∃ t, step pairState = .next t) ∧
      bit 2 0xFFFFFFFB#32 = false := ⟨by decide, rfl, ⟨_, rfl⟩, by decide⟩

theorem witness_RegisterReads : errorState.params.valid = true ∧
    State.reset.params.valid = true ∧ State.reset.status.busy = false := by decide

theorem witness_CfgWrite :
    (State.reset.params.valid = true ∧ State.reset.status.busy = false ∧ State.reset.status.started = false) ∧
      lockedState.params.valid = true ∧ lockedState.status.busy = false ∧ lockedState.status.started = true ∧
      bit 0 0x300#32 = lockedState.cfg.fl960 ∧ bit 0 0x301#32 ≠ lockedState.cfg.fl960 := by decide

theorem witness_ConfigError :
    (lockedState.params.valid = true ∧ lockedState.status.busy = false ∧ lockedState.status.started = true ∧
      bit 0 1#32 ≠ lockedState.cfg.fl960) ∧ lockedState.status.err = false ∧
      ({ lockedState with status := { lockedState.status with err := true } } : State).status.err = true := by decide

theorem witness_StatusWriteOneToClear : errorState.params.valid = true := by decide

theorem witness_AccessWidth :
    ((2 : Nat) ≠ 4 ∨ 0 % 4 ≠ 0) ∧ ((4 : Nat) ≠ 4 ∨ 3 % 4 ≠ 0) ∧ ∃ t, hostRead 0x00C 4 State.reset = .next t :=
  ⟨by decide, by decide, _, rfl⟩

theorem witness_UnmappedOffsets :
    (State.reset.params.valid = true ∧ 0x8FFFC % 4 = 0 ∧ 0x8FFFC < 0x10000 * (State.reset.params.nch + 1)) ∧
      (Unmapped 0x8FFFC ∧ Unmapped 0x20 ∧ Unmapped 0xFFFC ∧ Unmapped 0x14014 ∧ Unmapped 0x15240 ∧ Unmapped 0x15320 ∧
        Unmapped 0x15480 ∧ Unmapped 0x17000) ∧
      ¬Unmapped 0x1C ∧ ¬Unmapped 0x10000 ∧ ¬Unmapped 0x14010 ∧ ¬Unmapped 0x14100 ∧ ¬Unmapped 0x86FFC := by
  refine ⟨by decide, ?_, ?_⟩
  all_goals (unfold Unmapped; omega)

theorem witness_BusyAccesses :
    ((latched 0x01700000#32 State.reset).status.busy = true ∧
      locate (latched 0x01700000#32 State.reset).params 0x81FFC 4 = .ok (.item 7 .spec 1023) ∧
      Loc.item 7 .spec 1023 ≠ .reg .status ∧ decode (latched 0x01700000#32 State.reset).latch = .ok (.iq 7) ∧
      inWriteSet (.iq 7) (latched 0x01700000#32 State.reset) (.item 7 .spec 1023) = true) ∧
    (locate (latched 0x01700000#32 State.reset).params 0x80000 4 = .ok (.item 7 .qspec 0) ∧
      inWriteSet (.iq 7) (latched 0x01700000#32 State.reset) (.item 7 .qspec 0) = false) := by decide

/-- STATUS in flight: FB, SRST, another command, an illegal word. -/
theorem witness_BusyAccesses_status :
    (latched 0x05700000#32 State.reset).status.busy = true ∧
      locate (latched 0x05700000#32 State.reset).params 0x00C 4 = .ok (.reg .status) ∧
      decode (latched 0x05700000#32 State.reset).latch = .ok (.fb 7) ∧
      decode (latched 0x11000000#32 State.reset).latch = .ok .srst ∧
      decode (latched 0x10000000#32 State.reset).latch = .ok .fend ∧
      decode (latched 0xFF000000#32 State.reset).latch = .error (.undefinedOp 0xFF) := by decide

theorem witness_ItemAccess :
    State.reset.params.valid = true ∧ State.reset.status.busy = false ∧ 7 < State.reset.params.nch ∧
      1023 < Item.tnsCoef.count ∧ Item.tnsCoef.hostWritable = true ∧ Item.chstate.hostWritable = false ∧
      State.reset.item? 7 .tnsCoef 1023 = none ∧ State.reset.item? 7 .chstate 0 = some 0#32 := by decide

/-- The last elements of the items that are indexed by band or filter. -/
def cornerState : State :=
  State.reset
    |>.setItems 7 .icsInfo 0 [0x0F3F3F13#32]
    |>.setItems 7 .bandType 511 [15#32]
    |>.setItems 7 .sf 511 [0xFFFFFF01#32]
    |>.setItems 7 .msUsed 15 [0x80000000#32]
    |>.setItems 7 .tnsCoef 1023 [0xFFFFFFF8#32]

theorem witness_FieldLayout :
    cornerState.item? 7 .icsInfo 0 = some 0x0F3F3F13#32 ∧ cornerState.item? 7 .bandType (64 * 7 + 63) = some 15#32 ∧
      cornerState.item? 7 .sf (64 * 7 + 63) = some 0xFFFFFF01#32 ∧
      cornerState.item? 7 .msUsed (2 * 7 + 1) = some 0x80000000#32 ∧
      cornerState.item? 7 .tnsCoef (32 * (4 * 7 + 3) + 31) = some 0xFFFFFFF8#32 := by decide +kernel

theorem witness_ResetState : PowersOn { State.reset with pending := [.powerOn] } := ⟨.inl rfl, _, rfl⟩

/-- A pending interrupt the host is about to clear. -/
def irqState : State :=
  { State.reset with
    cfg := { Cfg.reset with ieDone := true }
    status := { Status.reset with done := true }
    pending := [.write 0x00C 4 2#32] }

theorem witness_InterruptLine :
    (∃ t, step irqState = .next t ∧ irqState.irq = true ∧ irqState.status.done = true ∧ t.irq = false ∧
      t.status.done = false) ∧
    ∃ t, step { errorState with status := { errorState.status with busy := false }
                                pending := [.write 0x00C 4 4#32] } = .next t ∧ t.status.err = false :=
  ⟨⟨_, rfl, rfl, rfl, rfl, rfl⟩, _, rfl, rfl⟩

/-! ## Witnesses: side information -/

theorem witness_NopCompletes : State.reset.status.fatal = false ∧ fatalState.status.fatal = true ∧
    bits 31 24 (0x00000001#32 : Word) = 0 ∧ (0x00000001#32 : Word) ≠ 0x00000000#32 := ⟨rfl, rfl, by decide, by decide⟩

/-- GROUP_LEN read as its fields. -/
theorem shortState_glen (c : Nat) (hc : c < 2) : GlenIs c shortState fun g => groupLenField g 0x00000007#32 := by
  refine ⟨0x00000007#32, ?_, fun g => rfl⟩
  interval_cases c <;> decide +kernel

theorem witness_WindowPredicate :
    (⟨0, 0, 2, 2, 0⟩ : Ics).seq ≠ 2 ∧ GlenIs 0 shortState (fun g => groupLenField g 0x00000007#32) ∧
      ¬WindowOk ⟨2, 0, 1, 1, 1⟩ (fun g => groupLenField g 0x00000007#32) ∧
      WindowOk ⟨2, 0, 1, 1, 8⟩ (fun g => groupLenField g 0x11111111#32) ∧
      ¬WindowOk ⟨2, 0, 1, 1, 9⟩ (fun g => groupLenField g 0x11111111#32) ∧
      GlenIs 0 (shortState.setItems 0 .groupLen 0 [0x11111111#32]) (fun g => groupLenField g 0x11111111#32) := by
  refine ⟨by decide, shortState_glen 0 (by decide), by unfold WindowOk; decide, by unfold WindowOk; decide,
    by unfold WindowOk; decide, ⟨0x11111111#32, by decide +kernel, fun g => rfl⟩⟩

/-- The band table of both slots of `pairState`. -/
def pairSwb (i : Nat) : Nat := [0, 4, 8].getD i 0

theorem pairState_swb (c : Nat) (hc : c < 2) : SwbIs c 2 pairState pairSwb := by
  intro i hi
  refine ⟨BitVec.ofNat 32 (pairSwb i), ?_, ?_⟩
  · interval_cases c <;> interval_cases i <;> decide +kernel
  · interval_cases i <;> decide

theorem witness_BandTable :
    SwbIs 0 2 pairState pairSwb ∧ SfbOk ⟨0, 0, 2, 2, 0⟩ 1024 pairSwb ∧ ¬SfbOk ⟨0, 0, 3, 2, 0⟩ 1024 pairSwb ∧
      ¬SfbOk ⟨0, 0, 2, 2, 0⟩ 7 pairSwb ∧ SfbOk ⟨0, 0, 2, 2, 0⟩ 8 (fun i => [0, 4, 8].getD i 0) := by
  refine ⟨pairState_swb 0 (by decide), ?_, ?_, ?_, ?_⟩ <;> (unfold SfbOk; decide)

/-- The header of the slots of `pairState`. -/
def longIcs : Ics := ⟨0, 0, 2, 2, 0⟩

/-- The headers and band tables of `pairState`, and nothing else. -/
def longPair : State :=
  State.reset
    |>.setItems 0 .icsInfo 0 [0x00020200#32]
    |>.setItems 1 .icsInfo 0 [0x00020200#32]
    |>.setItems 0 .swbOffset 0 [0#32, 4#32, 8#32]
    |>.setItems 1 .swbOffset 0 [0#32, 4#32, 8#32]

theorem longPair_swb (c : Nat) (hc : c < 2) : SwbIs c 2 longPair pairSwb := by
  intro i hi
  refine ⟨BitVec.ofNat 32 (pairSwb i), ?_, ?_⟩
  · interval_cases c <;> interval_cases i <;> decide +kernel
  · interval_cases i <;> decide

/-- The headers of `pairState`. -/
theorem pairState_ics : readIcs 0 pairState = .ok ⟨0, 0, 2, 2, 0⟩ ∧ readIcs 1 pairState = .ok ⟨0, 0, 2, 2, 0⟩ := by
  decide +kernel

theorem shortState_swb (c : Nat) (hc : c < 2) : SwbIs c 1 shortState fun i => [0, 4].getD i 0 := by
  intro i hi
  refine ⟨BitVec.ofNat 32 ([0, 4].getD i 0), ?_, ?_⟩ <;> (interval_cases c <;> interval_cases i <;> decide +kernel)

/-- A long pair whose GROUP_LEN was never written (LONG2 of the vectors), a short pair, and two pairs that differ. -/
theorem witness_PairPredicate :
    (readIcs 0 longPair = .ok longIcs ∧ readIcs 1 longPair = .ok longIcs ∧ SwbIs 0 2 longPair pairSwb ∧
      SwbIs 1 2 longPair pairSwb ∧ longIcs.seq ≠ 2 ∧ longPair.item? 0 .groupLen 0 = none ∧
      PairOk longIcs longIcs pairSwb pairSwb (fun _ => 0) fun _ => 0) ∧
    (readIcs 0 shortState = .ok ⟨2, 0, 1, 1, 1⟩ ∧ readIcs 1 shortState = .ok ⟨2, 0, 1, 1, 1⟩ ∧
      SwbIs 0 1 shortState (fun i => [0, 4].getD i 0) ∧ SwbIs 1 1 shortState (fun i => [0, 4].getD i 0) ∧
      GlenIs 0 shortState (fun g => groupLenField g 0x00000007#32) ∧
      GlenIs 1 shortState (fun g => groupLenField g 0x00000007#32) ∧
      PairOk ⟨2, 0, 1, 1, 1⟩ ⟨2, 0, 1, 1, 1⟩ (fun i => [0, 4].getD i 0) (fun i => [0, 4].getD i 0)
        (fun g => groupLenField g 0x00000007#32) fun g => groupLenField g 0x00000007#32) ∧
    (readIcs 1 (longPair.setItems 1 .icsInfo 0 [0x00010200#32]) = .ok ⟨0, 0, 2, 1, 0⟩ ∧
      ¬PairOk longIcs ⟨0, 0, 2, 1, 0⟩ pairSwb pairSwb (fun _ => 0) fun _ => 0) ∧
    longPair.status.fatal = false ∧ 1 < longPair.params.nch := by
  refine ⟨⟨by decide +kernel, by decide +kernel, longPair_swb 0 (by decide), longPair_swb 1 (by decide), by decide,
      by decide +kernel, ⟨rfl, rfl, rfl, fun _ _ => rfl, fun h => absurd h (by decide)⟩⟩,
    ⟨by decide +kernel, by decide +kernel, shortState_swb 0 (by decide), shortState_swb 1 (by decide),
      shortState_glen 0 (by decide), shortState_glen 1 (by decide), ⟨rfl, rfl, rfl, fun _ _ => rfl, fun _ => ⟨rfl, fun _ _ => rfl⟩⟩⟩,
    ⟨by decide +kernel, fun h => absurd h.2.2.1 (by decide)⟩, rfl, by decide⟩

theorem witness_SideInfoErrorsRaised_window :
    shortState.status.fatal = false ∧ 0 < shortState.params.nch ∧ readIcs 0 shortState = .ok ⟨2, 0, 1, 1, 1⟩ ∧
      GlenIs 0 shortState (fun g => groupLenField g 0x00000007#32) ∧
      ¬WindowOk ⟨2, 0, 1, 1, 1⟩ (fun g => groupLenField g 0x00000007#32) ∧
      (∃ v, shortState.item? 0 .tnsCtrl 0 = some v ∧ (tnsCtrlOfWord v).present = true) ∧
      1 < shortState.params.nch ∧ readIcs 1 shortState = .ok ⟨2, 0, 1, 1, 1⟩ ∧
      readPairOk 0 1 ⟨2, 0, 1, 1, 1⟩ ⟨2, 0, 1, 1, 1⟩ shortState = .ok true := by
  refine ⟨rfl, by decide, by decide +kernel, shortState_glen 0 (by decide), by unfold WindowOk; decide,
    ⟨0x00011401#32, by decide +kernel, by decide⟩, by decide, by decide +kernel, by decide +kernel⟩

/-- V-MS-E6: both band tables start at 2. -/
def badSfbState : State :=
  ((pairState.setItems 0 .swbOffset 0 [2#32]).setItems 1 .swbOffset 0 [2#32]).setItems 0 .tnsCtrl 0 [0x00011401#32]

theorem witness_SideInfoErrorsRaised_sfb :
    badSfbState.status.fatal = false ∧ 0 < badSfbState.params.nch ∧ readIcs 0 badSfbState = .ok ⟨0, 0, 2, 2, 0⟩ ∧
      readWindows 0 ⟨0, 0, 2, 2, 0⟩ badSfbState = .ok ⟨1024, 1, [1]⟩ ∧
      SwbIs 0 2 badSfbState (fun i => [2, 4, 8].getD i 0) ∧
      ¬SfbOk ⟨0, 0, 2, 2, 0⟩ 1024 (fun i => [2, 4, 8].getD i 0) ∧
      (∃ v, badSfbState.item? 0 .tnsCtrl 0 = some v ∧ (tnsCtrlOfWord v).present = true) ∧
      readIcs 1 badSfbState = .ok ⟨0, 0, 2, 2, 0⟩ ∧
      readPairOk 0 1 ⟨0, 0, 2, 2, 0⟩ ⟨0, 0, 2, 2, 0⟩ badSfbState = .ok true := by
  refine ⟨rfl, by decide, by decide +kernel, by decide +kernel, ?_, by unfold SfbOk; decide,
    ⟨0x00011401#32, by decide +kernel, by decide⟩, by decide +kernel, by decide +kernel⟩
  intro i hi
  refine ⟨BitVec.ofNat 32 ([2, 4, 8].getD i 0), ?_, ?_⟩ <;> (interval_cases i <;> decide +kernel)

/-! ## Witnesses: commands -/

/-- The windows and band table of the slots of `pairState`. -/
def longWin : Windows := ⟨1024, 1, [1]⟩
def longSwb : List Nat := [0, 4, 8]

theorem pairState_side : SideInfo 0 pairState longIcs longWin longSwb :=
  ⟨by decide +kernel, by decide +kernel, by decide +kernel⟩

theorem pairState_types :
    readBandType 0 0 0 pairState = .ok 1 ∧ readBandType 0 0 1 pairState = .ok 1 ∧ readBandType 1 0 0 pairState = .ok 1 ∧
      readBandType 1 0 1 pairState = .ok 15 := by decide +kernel

/-- The bins of the bands of `longSwb`. -/
theorem longBin {i g sfb : Nat} (hi : i < 1024) (h : BinBand longWin longSwb 2 i g sfb) :
    g = 0 ∧ ((sfb = 0 ∧ i < 4) ∨ (sfb = 1 ∧ 4 ≤ i ∧ i < 8)) := by
  obtain ⟨h, hg⟩ := h
  have h1 := List.find?_some h
  have h2 := List.mem_range.mp (List.mem_of_find?_eq_some h)
  have e1 : i % longWin.len = i := Nat.mod_eq_of_lt hi
  have e2 : i / longWin.len = 0 := Nat.div_eq_of_lt hi
  rw [e1] at h1
  rw [e2] at hg
  refine ⟨hg, ?_⟩
  simp only [Bool.and_eq_true, decide_eq_true_eq] at h1
  interval_cases sfb
  · exact .inl ⟨rfl, h1.2⟩
  · exact .inr ⟨rfl, h1⟩

/-- The QSPEC and SPEC words of `pairState` and their sizes. -/
theorem pairState_words : ∀ i < 8,
    (pairState.item? 0 .spec i).isSome = true ∧ (pairState.item? 1 .spec i).isSome = true ∧
      ((pairState.item? 0 .qspec i).any fun w => decide (w.toInt.natAbs ≤ 8191)) = true := by decide +kernel

theorem pairState_frameLen : pairState.frameLen = 1024 := rfl

theorem iqLegal_pairState : IqLegal 0 pairState longIcs longWin longSwb := by
  have hg : ∀ g, g < longWin.groups → g = 0 := fun g h => Nat.lt_one_iff.mp h
  have hb : ∀ b, b < longIcs.maxSfb → b = 0 ∨ b = 1 := fun b h => by
    have h' : b < 2 := h
    omega
  obtain ⟨t0, t1, _, _⟩ := pairState_types
  refine ⟨pairState_side, ?_, ?_, ?_⟩
  · intro g h sfb h'
    obtain rfl := hg g h
    rcases hb sfb h' with rfl | rfl
    · exact ⟨1, t0, rfl⟩
    · exact ⟨1, t1, rfl⟩
  · intro g h sfb h' t _ _
    obtain rfl := hg g h
    rcases hb sfb h' with rfl | rfl
    · exact ⟨100, by decide +kernel, by decide, by decide⟩
    · exact ⟨104, by decide +kernel, by decide, by decide⟩
  · intro i hi g sfb t hB _ _
    have hi' : i < 8 := by rcases (longBin hi hB).2 with h | h <;> omega
    have h := (pairState_words i hi').2.2
    cases hw : pairState.item? 0 .qspec i with
    | none => rw [hw] at h; cases h
    | some w => rw [hw] at h; exact ⟨w, rfl, of_decide_eq_true h⟩

theorem witness_IqCompletes :
    pairState.status.fatal = false ∧ 0 < pairState.params.nch ∧ IqLegal 0 pairState longIcs longWin longSwb ∧
      NoBand longWin longSwb 2 8 ∧ NoBand longWin longSwb 2 1023 ∧ BinBand longWin longSwb 2 7 0 1 :=
  ⟨rfl, by decide, iqLegal_pairState, by unfold NoBand; decide, by unfold NoBand; decide, by unfold BinBand; decide⟩

/-- Only band (0, 0) comes before band (0, 1), and none before (0, 0). -/
theorem before_01 {g' sfb' : Nat} (h : BandBefore g' sfb' 0 1) : g' = 0 ∧ sfb' = 0 := by
  unfold BandBefore at h; omega

theorem longGroup {g : Nat} (h : g < longWin.groups) : g = 0 := Nat.lt_one_iff.mp h

theorem longBand {b : Nat} (h : b < longIcs.maxSfb) : b = 0 ∨ b = 1 := by
  have h' : b < 2 := h
  omega

/-- V-IQ-E4, V-IQ-E3 and V-IQ-E1. -/
def typeState : State := pairState.setItems 0 .bandType 1 [12#32]
def sfState : State := pairState.setItems 0 .sf 1 [256#32]
def rangeState : State := pairState.setItems 0 .qspec 2 [8192#32]

theorem witness_IqErrors_type :
    typeState.status.fatal = false ∧ 0 < typeState.params.nch ∧ SideInfo 0 typeState longIcs longWin longSwb ∧
      0 < longWin.groups ∧ 1 < longIcs.maxSfb ∧ readBandType 0 0 1 typeState = .ok 12 ∧
      typeError 12 = some .badBandType ∧ typeError 13 = some .unsupported ∧
      ∀ g' sfb', g' < longWin.groups → sfb' < longIcs.maxSfb → BandBefore g' sfb' 0 1 →
        ∃ t', readBandType 0 g' sfb' typeState = .ok t' ∧ typeError t' = none := by
  refine ⟨rfl, by decide, ⟨by decide +kernel, by decide +kernel, by decide +kernel⟩, by decide, by decide,
    by decide +kernel, by decide, by decide, ?_⟩
  intro g' sfb' _ _ h
  obtain ⟨rfl, rfl⟩ := before_01 h
  exact ⟨1, by decide +kernel, by decide⟩

theorem witness_IqErrors_sf :
    (sfState.status.fatal = false ∧ 0 < sfState.params.nch ∧ SideInfo 0 sfState longIcs longWin longSwb ∧
      ∀ g < longWin.groups, ∀ sfb < longIcs.maxSfb, ∃ t, readBandType 0 g sfb sfState = .ok t ∧ typeError t = none) ∧
    readBandType 0 0 1 sfState = .ok 1 ∧ isSpectral 1 = true ∧ isSpectral 11 = true ∧ readSf 0 0 1 sfState = .ok 256 ∧
      ¬((0 : Int) ≤ 256 ∧ (256 : Int) ≤ 255) ∧
      ∀ g' sfb' t', g' < longWin.groups → sfb' < longIcs.maxSfb → BandBefore g' sfb' 0 1 →
        readBandType 0 g' sfb' sfState = .ok t' → isSpectral t' = true →
        ∃ sf', readSf 0 g' sfb' sfState = .ok sf' ∧ 0 ≤ sf' ∧ sf' ≤ 255 := by
  refine ⟨⟨rfl, by decide, ⟨by decide +kernel, by decide +kernel, by decide +kernel⟩, ?_⟩, by decide +kernel, by decide,
    by decide, by decide +kernel, by decide, ?_⟩
  · intro g hg sfb hb
    obtain rfl := longGroup hg
    rcases longBand hb with rfl | rfl <;> exact ⟨1, by decide +kernel, by decide⟩
  · intro g' sfb' t' _ _ h _ _
    obtain ⟨rfl, rfl⟩ := before_01 h
    exact ⟨100, by decide +kernel, by decide, by decide⟩

theorem witness_IqErrors_range :
    (rangeState.status.fatal = false ∧ 0 < rangeState.params.nch ∧ SideInfo 0 rangeState longIcs longWin longSwb ∧
      (∀ g < longWin.groups, ∀ sfb < longIcs.maxSfb, ∃ t, readBandType 0 g sfb rangeState = .ok t ∧ typeError t = none) ∧
      ∀ g < longWin.groups, ∀ sfb < longIcs.maxSfb, ∀ t, readBandType 0 g sfb rangeState = .ok t → isSpectral t = true →
        ∃ sf, readSf 0 g sfb rangeState = .ok sf ∧ 0 ≤ sf ∧ sf ≤ 255) ∧
    2 < rangeState.frameLen ∧ BinBand longWin longSwb longIcs.maxSfb 2 0 0 ∧ readBandType 0 0 0 rangeState = .ok 1 ∧
      rangeState.item? 0 .qspec 2 = some 8192#32 ∧ 8191 < (8192#32).toInt.natAbs ∧
      ∀ i' < 2, ∀ g' sfb' t', BinBand longWin longSwb longIcs.maxSfb i' g' sfb' →
        readBandType 0 g' sfb' rangeState = .ok t' → isSpectral t' = true →
        ∃ w', rangeState.item? 0 .qspec i' = some w' ∧ w'.toInt.natAbs ≤ 8191 := by
  refine ⟨⟨rfl, by decide, ⟨by decide +kernel, by decide +kernel, by decide +kernel⟩, ?_, ?_⟩, by decide,
    by unfold BinBand; decide, by decide +kernel, by decide +kernel, by decide, ?_⟩
  · intro g hg sfb hb
    obtain rfl := longGroup hg
    rcases longBand hb with rfl | rfl <;> exact ⟨1, by decide +kernel, by decide⟩
  · intro g hg sfb hb t _ _
    obtain rfl := longGroup hg
    rcases longBand hb with rfl | rfl
    · exact ⟨100, by decide +kernel, by decide, by decide⟩
    · exact ⟨104, by decide +kernel, by decide, by decide⟩
  · intro i' hi g' sfb' t' _ _ _
    interval_cases i'
    · exact ⟨8#32, by decide +kernel, by decide⟩
    · exact ⟨0xFFFFFFE5#32, by decide +kernel, by decide⟩

/-- Bin 7 of `gapState`'s second band is the first spectral one without a value. -/
theorem witness_FaultsOnlyUnwritten_bin :
    (Accepted (.iq 0) gapState ∧ SideInfo 0 gapState longIcs longWin longSwb ∧
      ∀ g < longWin.groups, ∀ sfb < longIcs.maxSfb, ∃ t, readBandType 0 g sfb gapState = .ok t ∧ typeError t = none ∧
        (isSpectral t = true → ∃ sf, readSf 0 g sfb gapState = .ok sf ∧ 0 ≤ sf ∧ sf ≤ 255)) ∧
    7 < gapState.frameLen ∧ BinBand longWin longSwb longIcs.maxSfb 7 0 1 ∧ readBandType 0 0 1 gapState = .ok 1 ∧
      gapState.item? 0 .qspec 7 = none ∧ ∀ j < 7, ∃ w, gapState.item? 0 .qspec j = some w ∧ w.toInt.natAbs ≤ 8191 := by
  have hw : ∀ j < 7, ((gapState.item? 0 .qspec j).any fun w => decide (w.toInt.natAbs ≤ 8191)) = true := by decide +kernel
  refine ⟨⟨⟨rfl, by decide⟩, ⟨by decide +kernel, by decide +kernel, by decide +kernel⟩, ?_⟩, by decide,
    by unfold BinBand; decide, by decide +kernel, by decide +kernel, ?_⟩
  · intro g hg sfb hb
    obtain rfl := longGroup hg
    rcases longBand hb with rfl | rfl
    · exact ⟨1, by decide +kernel, by decide, fun _ => ⟨100, by decide +kernel, by decide, by decide⟩⟩
    · exact ⟨1, by decide +kernel, by decide, fun _ => ⟨104, by decide +kernel, by decide, by decide⟩⟩
  · intro j hj
    have h := hw j hj
    cases hq : gapState.item? 0 .qspec j with
    | none => rw [hq] at h; cases h
    | some w => rw [hq] at h; exact ⟨w, rfl, of_decide_eq_true h⟩

/-- `pairState` is a legal pair. -/
theorem pairLegal_pairState : PairLegal 0 1 pairState longIcs longWin longSwb 1 := by
  obtain ⟨t0, t1, t2, t3⟩ := pairState_types
  refine ⟨pairState_side, ⟨longIcs, pairState_ics.2, by decide +kernel⟩, ⟨1#32, by decide +kernel, by decide, by decide⟩, ?_⟩
  intro g hg sfb hb
  obtain rfl := longGroup hg
  rcases longBand hb with rfl | rfl
  · exact ⟨1, 1, t0, by decide, t2, by decide⟩
  · exact ⟨1, 15, t1, by decide, t3, by decide⟩

theorem msLegal_pairState : MsLegal 0 1 pairState longIcs longWin longSwb 1 := by
  refine ⟨pairLegal_pairState, ?_, ?_⟩
  · intro _ g hg sfb hb
    obtain rfl := longGroup hg
    rcases longBand hb with rfl | rfl
    · exact ⟨true, by decide +kernel⟩
    · exact ⟨false, by decide +kernel⟩
  · rintro i ⟨hi, g, sfb, t, hB, _⟩
    have hi' : i < 8 := by rcases (longBin hi hB).2 with h | h <;> omega
    obtain ⟨h1, h2, _⟩ := pairState_words i hi'
    obtain ⟨wa, ha⟩ := Option.isSome_iff_exists.mp h1
    obtain ⟨wb, hb⟩ := Option.isSome_iff_exists.mp h2
    exact ⟨wa, wb, ha, hb⟩

/-- MS rewrites band 0 of `pairState`. -/
theorem msTouches_pairState {i : Nat} (hi : i < 4) : MsTouches 0 1 pairState longIcs longWin longSwb 1 i := by
  refine ⟨lt_trans hi (by decide), 0, 0, 1, ?_, .inr ⟨rfl, by decide +kernel⟩, pairState_types.2.2.1, by decide⟩
  unfold BinBand
  interval_cases i <;> decide

theorem witness_MsCompletes :
    pairState.status.fatal = false ∧ 0 < pairState.params.nch ∧ 1 < pairState.params.nch ∧ (0 : Nat) ≠ 1 ∧
      MsLegal 0 1 pairState longIcs longWin longSwb 1 ∧ MsTouches 0 1 pairState longIcs longWin longSwb 1 3 :=
  ⟨rfl, by decide, by decide, by decide, msLegal_pairState, msTouches_pairState (by decide)⟩

theorem isLegal_pairState : IsLegal 0 1 pairState longIcs longWin longSwb 1 := by
  refine ⟨pairLegal_pairState, ?_, ?_⟩
  · intro g hg sfb hb t _ _
    obtain rfl := longGroup hg
    rcases longBand hb with rfl | rfl
    · exact ⟨⟨100, by decide +kernel, by decide, by decide⟩, true, by decide +kernel⟩
    · exact ⟨⟨4, by decide +kernel, by decide, by decide⟩, false, by decide +kernel⟩
  · rintro i t p u ⟨hi, g, sfb, hB, _⟩
    have hi' : i < 8 := by rcases (longBin hi hB).2 with h | h <;> omega
    exact Option.isSome_iff_exists.mp (pairState_words i hi').1

/-- IS rewrites band 1 of `pairState`. -/
theorem isTouches_pairState {i : Nat} (h1 : 4 ≤ i) (h2 : i < 8) :
    IsTouches 0 1 pairState longIcs longWin longSwb 1 i 15 4 false := by
  refine ⟨lt_trans h2 (by decide), 0, 1, ?_, pairState_types.2.2.2, by decide, by decide +kernel, by decide +kernel⟩
  unfold BinBand
  interval_cases i <;> decide

theorem witness_IsCompletes :
    pairState.status.fatal = false ∧ 0 < pairState.params.nch ∧ 1 < pairState.params.nch ∧ (0 : Nat) ≠ 1 ∧
      IsLegal 0 1 pairState longIcs longWin longSwb 1 ∧ IsTouches 0 1 pairState longIcs longWin longSwb 1 7 15 4 false :=
  ⟨rfl, by decide, by decide, by decide, isLegal_pairState, isTouches_pairState (by decide) (by decide)⟩

/-- Commands that come to a never-written word: the right header, GROUP_LEN, a band table's last element, a band type, MS_CTRL, a
scalefactor and a SPEC bin; the step each takes ends in a fault that names it. -/
theorem witness_UnwrittenReadFaults :
    (Accepted (.ms 1 0) State.reset ∧ ReadsWord State.reset (.ms 1 0) 0 .icsInfo 0 ∧ State.reset.item? 0 .icsInfo 0 = none) ∧
    (ReadsWord (State.reset.setItems 0 .icsInfo 0 [0x01010102#32]) (.iq 0) 0 .groupLen 0 ∧
      faultOf (exec (.iq 0) (State.reset.setItems 0 .icsInfo 0 [0x01010102#32])) =
        some (.unwrittenRead (.iq 0) (itemAddr 0 .groupLen 0))) ∧
    (ReadsWord longPair (.iq 0) 0 .bandType (64 * 0 + 0) ∧ ReadsWord longPair (.ms 0 1) 0 .msCtrl 0 ∧
      faultOf (exec (.iq 0) longPair) = some (.unwrittenRead (.iq 0) (itemAddr 0 .bandType 0)) ∧
      faultOf (exec (.ms 0 1) longPair) = some (.unwrittenRead (.ms 0 1) (itemAddr 0 .msCtrl 0))) ∧
    (ReadsWord (longPair.setItems 0 .bandType 0 [1#32, 0#32]) (.iq 0) 0 .sf (64 * 0 + 0) ∧
      faultOf (exec (.iq 0) (longPair.setItems 0 .bandType 0 [1#32, 0#32])) =
        some (.unwrittenRead (.iq 0) (itemAddr 0 .sf 0))) ∧
    (ReadsWord (State.reset.setItems 0 .icsInfo 0 [0#32]) (.fb 0) 0 .spec 1023 ∧
      faultOf (exec (.fb 0) (State.reset.setItems 0 .icsInfo 0 [0#32])) = some (.unwrittenRead (.fb 0) (itemAddr 0 .spec 0))) := by
  have side : SideInfo 0 longPair longIcs longWin longSwb := ⟨by decide +kernel, by decide +kernel, by decide +kernel⟩
  have side' : SideInfo 0 (longPair.setItems 0 .bandType 0 [1#32, 0#32]) longIcs longWin longSwb :=
    ⟨by decide +kernel, by decide +kernel, by decide +kernel⟩
  refine ⟨⟨by unfold Accepted; decide, .msPair (.info (.inr rfl)), by decide⟩,
    ⟨.iqHeader (.groups (ics := ⟨2, 0, 1, 1, 1⟩) (by decide +kernel) rfl (by decide)), by decide +kernel⟩,
    ⟨.iqType side (by decide) (by decide) fun _ _ _ _ h => ?_, .msPair (.mask side (ib := longIcs) (by decide +kernel)
      (by decide +kernel)), by decide +kernel, by decide +kernel⟩,
    ⟨.iqSf (t := 1) side' ?_ (by decide) (by decide) (by decide +kernel) (by decide) fun _ _ _ _ _ h => ?_,
      by decide +kernel⟩, .fbBin (by decide), by decide +kernel⟩
  · unfold BandBefore at h; omega
  · intro g hg sfb hb
    obtain rfl := longGroup hg
    rcases longBand hb with rfl | rfl
    · exact ⟨1, by decide +kernel, by decide⟩
    · exact ⟨0, by decide +kernel, by decide⟩
  · unfold BandBefore at h; omega

/-- V-MS-E2 and V-MS-E5. -/
def badMaskState : State := pairState.setItems 0 .msCtrl 0 [3#32]
def rightNoiseState : State := pairState.setItems 1 .bandType 1 [13#32]

theorem witness_PairErrors :
    (badMaskState.status.fatal = false ∧ 0 < badMaskState.params.nch ∧ 1 < badMaskState.params.nch ∧
      SideInfo 0 badMaskState longIcs longWin longSwb ∧ readIcs 1 badMaskState = .ok longIcs ∧
      readPairOk 0 1 longIcs longIcs badMaskState = .ok true ∧ badMaskState.item? 0 .msCtrl 0 = some 3#32 ∧
      bits 1 0 3#32 = 3) ∧
    (SideInfo 0 rightNoiseState longIcs longWin longSwb ∧ readIcs 1 rightNoiseState = .ok longIcs ∧
      readPairOk 0 1 longIcs longIcs rightNoiseState = .ok true ∧ rightNoiseState.item? 0 .msCtrl 0 = some 1#32 ∧
      readBandType 0 0 1 rightNoiseState = .ok 1 ∧ readBandType 1 0 1 rightNoiseState = .ok 13 ∧
      pairTypeError 0 1 1 13 = some (.unsupported, 1) ∧ pairTypeError 0 1 14 13 = some (.badBandType, 0) ∧
      ∀ g' sfb', g' < longWin.groups → sfb' < longIcs.maxSfb → BandBefore g' sfb' 0 1 →
        ∃ tl' tr', readBandType 0 g' sfb' rightNoiseState = .ok tl' ∧ readBandType 1 g' sfb' rightNoiseState = .ok tr' ∧
          pairTypeError 0 1 tl' tr' = none) := by
  refine ⟨⟨rfl, by decide, by decide, ⟨by decide +kernel, by decide +kernel, by decide +kernel⟩, by decide +kernel,
    by decide +kernel, by decide +kernel, by decide⟩, ⟨by decide +kernel, by decide +kernel, by decide +kernel⟩,
    by decide +kernel, by decide +kernel, by decide +kernel, by decide +kernel, by decide +kernel, by decide, by decide, ?_⟩
  intro g' sfb' _ _ h
  obtain ⟨rfl, rfl⟩ := before_01 h
  exact ⟨1, 1, by decide +kernel, by decide +kernel, by decide⟩

/-- V-IS-E1, on the pair's second band. -/
def positionState : State := pairState.setItems 1 .sf 1 [256#32]

theorem witness_IsPositionError :
    (positionState.status.fatal = false ∧ 0 < positionState.params.nch ∧ 1 < positionState.params.nch ∧
      PairLegal 0 1 positionState longIcs longWin longSwb 1) ∧
    readBandType 1 0 1 positionState = .ok 15 ∧ isIntensity 15 = true ∧ readSf 1 0 1 positionState = .ok 256 ∧
      ¬((-255 : Int) ≤ 256 ∧ (256 : Int) ≤ 255) ∧
      ∀ g' sfb' t', g' < longWin.groups → sfb' < longIcs.maxSfb → BandBefore g' sfb' 0 1 →
        readBandType 1 g' sfb' positionState = .ok t' → isIntensity t' = true →
        ∃ p', readSf 1 g' sfb' positionState = .ok p' ∧ -255 ≤ p' ∧ p' ≤ 255 := by
  refine ⟨⟨rfl, by decide, by decide, ⟨⟨by decide +kernel, by decide +kernel, by decide +kernel⟩,
    ⟨longIcs, by decide +kernel, by decide +kernel⟩, ⟨1#32, by decide +kernel, by decide, by decide⟩, ?_⟩⟩,
    by decide +kernel, by decide, by decide +kernel, by decide, ?_⟩
  · intro g hg sfb hb
    obtain rfl := longGroup hg
    rcases longBand hb with rfl | rfl
    · exact ⟨1, 1, by decide +kernel, by decide, by decide +kernel, by decide⟩
    · exact ⟨1, 15, by decide +kernel, by decide, by decide +kernel, by decide⟩
  · intro g' sfb' t' _ _ h _ _
    obtain ⟨rfl, rfl⟩ := before_01 h
    exact ⟨100, by decide +kernel, by decide, by decide⟩

/-! ## Witnesses: TNS -/

theorem witness_TnsCompletes_absent :
    State.status (State.reset.setItems 0 .tnsCtrl 0 [0x1F00#32]) = Status.reset ∧
      (State.reset.setItems 0 .tnsCtrl 0 [0x1F00#32]).item? 0 .tnsCtrl 0 = some 0x1F00#32 ∧ bit 0 0x1F00#32 = false :=
  ⟨rfl, by decide +kernel, by decide⟩

/-- The side information of `tnsState`. -/
def tnsCtl : TnsCtrl := ⟨true, 20, 1⟩
def tnsIcs : Ics := ⟨0, 0, 1, 1, 0⟩
def tnsTw : Nat → TnsWindow := fun _ => ⟨1, 0⟩
def tnsFl : Nat → Nat → TnsFilter := fun _ _ => ⟨1, 1, false, 0⟩
def tnsCf : Nat → Nat → Nat → Int := fun _ _ _ => -3

theorem tnsState_present : TnsPresent 0 tnsState tnsCtl tnsIcs longWin [0, 4] :=
  ⟨⟨0x00011401#32, by decide +kernel, by decide, by decide⟩, by decide +kernel, by decide +kernel, by decide +kernel⟩

theorem tnsState_reads :
    TnsReads 0 tnsState tnsCtl tnsIcs longWin [0, 4] tnsFl 0 0 [0x3F800000#32, 0#32, 0#32, 0#32] := by
  unfold TnsReads; decide +kernel

theorem tnsLegal_tnsState : TnsLegal 0 tnsState tnsCtl tnsIcs longWin [0, 4] tnsTw tnsFl tnsCf := by
  refine ⟨tnsState_present, by decide, ?_, ?_⟩
  · intro w hw
    obtain rfl : w = 0 := Nat.lt_one_iff.mp hw
    refine ⟨⟨1#32, by decide +kernel, by decide⟩, by decide, ?_⟩
    intro f hf
    obtain rfl : f = 0 := Nat.lt_one_iff.mp hf
    refine ⟨⟨0x00000101#32, by decide +kernel, by decide⟩, fun h => absurd h (by decide), ?_⟩
    intro _ i hi
    obtain rfl : i = 0 := Nat.lt_one_iff.mp hi
    exact ⟨by decide +kernel, by decide⟩
  · rintro w f ⟨hw, hf, _, _⟩
    obtain rfl : w = 0 := Nat.lt_one_iff.mp hw
    obtain rfl : f = 0 := Nat.lt_one_iff.mp hf
    exact ⟨[0x3F800000#32, 0#32, 0#32, 0#32], tnsState_reads⟩

theorem witness_TnsCompletes :
    tnsState.status.fatal = false ∧ 0 < tnsState.params.nch ∧
      TnsLegal 0 tnsState tnsCtl tnsIcs longWin [0, 4] tnsTw tnsFl tnsCf ∧
      TnsRuns tnsCtl tnsIcs longWin [0, 4] tnsTw tnsFl 0 0 ∧
      TnsReads 0 tnsState tnsCtl tnsIcs longWin [0, 4] tnsFl 0 0 [0x3F800000#32, 0#32, 0#32, 0#32] :=
  ⟨rfl, by decide, tnsLegal_tnsState, by unfold TnsRuns; decide, tnsState_reads⟩

/-- V-TNS-1 without its coefficient and its spectrum. -/
def longTns : State :=
  State.reset
    |>.setItems 0 .icsInfo 0 [0x00010100#32]
    |>.setItems 0 .swbOffset 0 [0#32, 4#32]
    |>.setItems 0 .tnsCtrl 0 [0x00011401#32]
    |>.setItems 0 .tnsWin 0 [0x00000001#32]
    |>.setItems 0 .tnsFilt 0 [0x00000101#32]

theorem longTns_present : TnsPresent 0 longTns tnsCtl tnsIcs longWin [0, 4] :=
  ⟨⟨0x00011401#32, by decide +kernel, by decide, by decide⟩, by decide +kernel, by decide +kernel, by decide +kernel⟩

/-- The words of the bands and filters that MS, IS and TNS come to; a TNS coefficient that was never written. -/
theorem witness_UnwrittenReadFaults_bins :
    (ReadsWord pairState (.ms 0 1) 0 .msUsed (2 * 0 + 0 / 32) ∧ ReadsWord pairState (.ms 0 1) 1 .spec 3 ∧
      ReadsWord pairState (.is 0 1) 0 .spec 7) ∧
    (ReadsWord longTns (.tns 0) 0 .tnsCoef ((4 * 0 + 0) * 32 + 0) ∧ longTns.item? 0 .tnsCoef 0 = none ∧
      faultOf (exec (.tns 0) longTns) = some (.unwrittenRead (.tns 0) (itemAddr 0 .tnsCoef 0))) ∧
    ReadsWord tnsState (.tns 0) 0 .spec (0 * longWin.len + 3) := by
  refine ⟨⟨.msUsed pairLegal_pairState (by decide) (by decide), .msBin pairLegal_pairState (msTouches_pairState (by decide))
      (.inr rfl), .isBin (t := 15) pairLegal_pairState (fun g hg sfb hb t ht hi => (isLegal_pairState.bands g hg sfb hb t ht hi).1)
      (by decide) (g := 0) (sfb := 1) (by unfold BinBand; decide) pairState_types.2.2.2 (by decide)⟩,
    ⟨.tnsCoef (tw := tnsTw) (filt := tnsFl) (coef := tnsCf) longTns_present (by decide) (by decide)
      (fun _ h => absurd h (Nat.not_lt_zero _)) ⟨1#32, by decide +kernel, by decide⟩ (by decide) (by decide)
      (fun _ h => absurd h (Nat.not_lt_zero _)) ⟨0x00000101#32, by decide +kernel, by decide⟩
      (fun h => absurd h (by decide)) (by decide) (by decide) (fun _ h => absurd h (Nat.not_lt_zero _)), by decide +kernel,
      by decide +kernel⟩,
    .tnsBin (f := 0) tnsState_present (by decide) tnsLegal_tnsState.windows (by unfold TnsRuns; decide) (by decide) (by decide)⟩

theorem witness_TnsErrors_order :
    TnsPresent 0 (tnsState.setItems 0 .tnsCtrl 0 [0x00011501#32]) ⟨true, 21, 1⟩ tnsIcs longWin [0, 4] ∧
      tnsOrderCap tnsIcs < (⟨true, 21, 1⟩ : TnsCtrl).maxOrder :=
  ⟨⟨⟨0x00011501#32, by decide +kernel, by decide, by decide⟩, by decide +kernel, by decide +kernel, by decide +kernel⟩,
    by decide⟩

/-- V-TNS-E4 and V-TNS-E5. -/
def shortTns (win3 : Word) : State :=
  shortState
    |>.setItems 0 .groupLen 0 [0x00000008#32]
    |>.setItems 0 .tnsCtrl 0 [0x00010701#32]
    |>.setItems 0 .tnsWin 0 [0#32, 0#32, 0#32, win3, 0#32, 0#32, 0#32, 0#32]
    |>.setItems 0 .tnsFilt 12 [0x00000010#32]

def shortIcs : Ics := ⟨2, 0, 1, 1, 1⟩
def shortWin : Windows := ⟨128, 8, [8]⟩
def shortTw (n : Nat) : Nat → TnsWindow := fun w => if w = 3 then ⟨n, 0⟩ else ⟨0, 0⟩
def shortFl : Nat → Nat → TnsFilter := fun _ _ => ⟨16, 0, false, 0⟩

theorem witness_TnsErrors_window :
    TnsPresent 0 (shortTns 2#32) ⟨true, 7, 1⟩ shortIcs shortWin [0, 4] ∧ 7 ≤ tnsOrderCap shortIcs ∧ 3 < shortWin.count ∧
      (∀ w' < 3, TnsWindowLegal 0 (shortTns 2#32) ⟨true, 7, 1⟩ shortIcs [0, 4] (shortTw 2) shortFl tnsCf w') ∧
      TnsWindowIs 0 (shortTns 2#32) (shortTw 2) 3 ∧ tnsFilterCap shortIcs < (shortTw 2 3).nfilt := by
  refine ⟨⟨⟨0x00010701#32, by decide +kernel, by decide, by decide⟩, by decide +kernel, by decide +kernel,
    by decide +kernel⟩, by decide, by decide, ?_, ⟨2#32, by decide +kernel, by decide⟩, by decide⟩
  intro w hw
  interval_cases w
  all_goals exact ⟨⟨0#32, by decide +kernel, by decide⟩, by decide, fun f hf => absurd hf (Nat.not_lt_zero f)⟩

theorem witness_TnsErrors_filter :
    TnsPresent 0 (shortTns 1#32) ⟨true, 7, 1⟩ shortIcs shortWin [0, 4] ∧
      (∀ w' < 3, TnsWindowLegal 0 (shortTns 1#32) ⟨true, 7, 1⟩ shortIcs [0, 4] (shortTw 1) shortFl tnsCf w') ∧
      TnsWindowIs 0 (shortTns 1#32) (shortTw 1) 3 ∧ (shortTw 1 3).nfilt ≤ tnsFilterCap shortIcs ∧ 0 < (shortTw 1 3).nfilt ∧
      (∀ f' < 0, TnsFilterLegal 0 (shortTns 1#32) ⟨true, 7, 1⟩ shortIcs [0, 4] (shortTw 1) shortFl tnsCf 3 f') ∧
      TnsFilterIs 0 (shortTns 1#32) shortFl 3 0 ∧ ¬TnsLimits shortIcs (shortFl 3 0) := by
  refine ⟨⟨⟨0x00010701#32, by decide +kernel, by decide, by decide⟩, by decide +kernel, by decide +kernel,
    by decide +kernel⟩, ?_, ⟨1#32, by decide +kernel, by decide⟩, by decide, by decide, fun f hf => absurd hf (Nat.not_lt_zero f),
    ⟨0x00000010#32, by decide +kernel, by decide⟩, fun h => absurd (h rfl).1 (by decide)⟩
  intro w hw
  interval_cases w
  all_goals exact ⟨⟨0#32, by decide +kernel, by decide⟩, by decide, fun f hf => absurd hf (Nat.not_lt_zero f)⟩

/-- V-TNS-E2. -/
def coefState : State := tnsState.setItems 0 .tnsCoef 0 [4#32]

theorem witness_TnsErrors_coef :
    TnsPresent 0 coefState tnsCtl tnsIcs longWin [0, 4] ∧ tnsCtl.maxOrder ≤ tnsOrderCap tnsIcs ∧
      TnsWindowIs 0 coefState tnsTw 0 ∧ (tnsTw 0).nfilt ≤ tnsFilterCap tnsIcs ∧ TnsFilterIs 0 coefState tnsFl 0 0 ∧
      TnsLimits tnsIcs (tnsFl 0 0) ∧
      tnsLo tnsCtl tnsIcs [0, 4] (tnsFl 0) 0 < tnsHi tnsCtl tnsIcs [0, 4] (tnsFl 0) 0 ∧
      0 < tnsOrder tnsCtl (tnsFl 0 0) ∧ readCoef 0 0 0 0 coefState = .ok 4 ∧
      coefInRange (coefWidth (tnsTw 0).coefRes (tnsFl 0 0).compress) 4 = false :=
  ⟨⟨⟨0x00011401#32, by decide +kernel, by decide, by decide⟩, by decide +kernel, by decide +kernel, by decide +kernel⟩,
    by decide, ⟨1#32, by decide +kernel, by decide⟩, by decide, ⟨0x00000101#32, by decide +kernel, by decide⟩,
    fun h => absurd h (by decide), by decide, by decide, by decide +kernel, by decide⟩

/-! ## Witnesses: filterbank -/

theorem witness_FbCompletes :
    silentFb.status.fatal = false ∧ 0 < silentFb.params.nch ∧ readIcs 0 silentFb = .ok ⟨0, 0, 0, 0, 0⟩ ∧
      readFrame 0 .spec silentFb = .ok (List.replicate silentFb.frameLen 0#32) := by
  obtain ⟨h1, h2, _⟩ := silent_reads (s := silentFb) silent_items.1 silent_items.2
  exact ⟨rfl, by decide, h1, h2⟩

/-- OVL reads 0 while nothing is listed there. -/
theorem reset_ovl {n : Nat} (hn : n < 1024) : State.reset.item? 0 .ovl n = some 0#32 := by
  have hb : ∀ k < 4, State.reset.mem.byte? (itemAddr 0 .ovl n + k) = some 0#8 := by
    intro k hk
    have e : itemAddr 0 .ovl n + k = itemAddr 0 .ovl 0 + (4 * n + k) := by unfold itemAddr; omega
    have hc := inChannelState_itemAddr 0 .ovl (k := 4 * n + k) (by simp only [Item.count]; omega)
    rw [← e] at hc
    show Mem.byte? [] _ = _
    simp only [Mem.byte?, List.find?_nil, Mem.unlisted, hc, Item.isChannelState, if_true]
  have h0 := hb 0 (by decide)
  rw [Nat.add_zero] at h0
  unfold State.item? Mem.word?
  rw [h0, hb 1 (by decide), hb 2 (by decide), hb 3 (by decide)]
  rfl

theorem witness_FbSilence :
    silentFb.params.num = .nearestEven ∧ silentFb.status.fatal = false ∧ 0 < silentFb.params.nch ∧
      readIcs 0 silentFb = .ok ⟨0, 0, 0, 0, 0⟩ ∧ readFrame 0 .spec silentFb = .ok (List.replicate silentFb.frameLen 0#32) ∧
      readFrame 0 .ovl silentFb = .ok (List.replicate silentFb.frameLen 0#32) ∧
      ∀ w ∈ List.replicate silentFb.frameLen 0#32, f32Units w = some 0 := by
  obtain ⟨h1, h2, _⟩ := silent_reads (s := silentFb) silent_items.1 silent_items.2
  refine ⟨rfl, rfl, by decide, h1, h2, readFrame_ok (by simp) ?_, ?_⟩
  · intro n hn
    have hn' : n < 1024 := lt_of_lt_of_le hn (frameLen_le _)
    have e : silentFb.item? 0 .ovl n = State.reset.item? 0 .ovl n := by
      show silentState.item? 0 .ovl n = _
      unfold silentState
      rw [item_setItems_other (by rw [List.length_replicate]; decide) hn' (by rintro ⟨_, h, _⟩; cases h),
        item_setItems_other (by decide) hn' (by rintro ⟨_, h, _⟩; cases h)]
    rw [e, reset_ovl hn']
    simp [List.getD_eq_getElem?_getD, hn]
  · intro w hw
    rw [List.eq_of_mem_replicate hw]
    decide

/-! ## Witnesses: numerics -/

theorem witness_IqStoresNearest :
    State.reset.params.num = .nearestEven ∧ (-8191 : Int).natAbs ≤ 8191 ∧ (0 : Int) ≤ 0 ∧ (255 : Int) ≤ 255 ∧
      (∃ r, IsDq (-8191) 255 r) ∧ (∃ r, IsDq 8191 0 r) ∧ ∃ r, IsDq 0 0 r :=
  ⟨rfl, by decide, by decide, by decide, ⟨_, rfl⟩, ⟨_, rfl⟩, ⟨_, rfl⟩⟩

theorem witness_PerfectCubesExact :
    State.reset.params.num = .nearestEven ∧ (-8000 : Int).natAbs = 20 ^ 3 ∧ (-8000 : Int).natAbs ≤ 8191 ∧
      (0 : Int) - 100 = 4 * (-25) ∧ (252 : Int) - 100 = 4 * 38 := by decide

/-- The word 0x3F800000 is 1. -/
theorem isF32_one : IsF32 0x3F800000#32 1 := ⟨2 ^ 149, by decide +kernel, by norm_num⟩

theorem witness_MsStoresNearest :
    IsF32 0x3F800000#32 1 ∧ |(1 : ℝ) + 1| < 2 ^ 128 - 2 ^ 103 ∧ |(1 : ℝ) - 1| < 2 ^ 128 - 2 ^ 103 ∧
      (∃ w, IsF32 w (1 + 1)) ∧ ∃ w, IsF32 w (1 - 1) := by
  refine ⟨isF32_one, by norm_num, by norm_num, ⟨0x40000000#32, 2 ^ 150, by decide +kernel, by norm_num⟩, 0#32, 0,
    by decide, by norm_num⟩

theorem witness_IsStoresNearest :
    (∃ r, IsIntensity true 255 1 r ∧ |r| < 2 ^ 128 - 2 ^ 103) ∧ ∃ r, IsIntensity false 0 1 r ∧ |r| < 2 ^ 128 - 2 ^ 103 := by
  refine ⟨⟨_, rfl, ?_⟩, _, rfl, by norm_num⟩
  have h : (2 : ℝ) ^ (-((255 : Int) : ℝ) / 4) ≤ 1 := Real.rpow_le_one_of_one_le_of_nonpos (by norm_num) (by norm_num)
  have h0 : (0 : ℝ) < (2 : ℝ) ^ (-((255 : Int) : ℝ) / 4) := Real.rpow_pos_of_pos (by norm_num) _
  simp only [if_true, mul_one, abs_mul, abs_neg, abs_one, one_mul, abs_of_pos h0]
  refine lt_of_le_of_lt h ?_
  norm_num

theorem witness_TnsCoefficient :
    coefInRange (coefResBits 0) (-4) = true ∧ coefInRange (coefResBits 1) 7 = true ∧ (∃ k, IsReflection 0 (-4) k) ∧
      ∃ k, IsReflection 1 7 k := ⟨by decide, by decide, ⟨_, rfl⟩, _, rfl⟩

theorem witness_StepUpRecursion :
    List.Forall₂ (fun x k => Encl.Holds 149 x k) [Encl.exact 0] [(0 : ℝ)] ∧ (1 : Nat) ≤ 1 ∧ 1 ≤ [(0 : ℝ)].length :=
  ⟨.cons ⟨by simp [Encl.exact], by simp [Encl.exact]⟩ .nil, by decide, by decide⟩

/-- The second of three words is not finite: a downward filter reads one finite word before it. -/
theorem witness_AllPoleFilter :
    (∀ ci ∈ [(-3 : Int)], coefInRange (coefResBits 0) ci = true) ∧
      List.Forall₂ IsF32 ((filterOrder true [0#32, 0x7F800000#32, 0x3F800000#32]).take (0 + 1)) [(1 : ℝ)] ∧
      (∃ ks, List.Forall₂ (IsReflection 0) [-3] ks) ∧ 0 < [(1 : ℝ)].length ∧
      f32Units ((filterOrder true [0#32, 0x7F800000#32, 0x3F800000#32]).getD 1 0#32) = none ∧
      f32Units ((filterOrder false [0#32, 0x7F800000#32, 0x3F800000#32]).getD 1 0#32) = none :=
  ⟨by decide, .cons isF32_one .nil, ⟨[_], .cons rfl .nil⟩, by decide, by decide, by decide⟩

/-- Every window value exists. -/
theorem exists_window (shape N n : Nat) : ∃ r, IsWindow shape N n r := by
  unfold IsWindow
  split
  · exact ⟨_, rfl⟩
  · refine ⟨_, fun q => (∑' j : ℕ, ((Real.pi * (kbdAlpha N : ℝ) *
      Real.sqrt (1 - (((q : ℝ) - (N : ℝ) / 4) / ((N : ℝ) / 4)) ^ 2) / 2) ^ j / (j.factorial : ℝ)) ^ 2) /
      (∑' j : ℕ, ((Real.pi * (kbdAlpha N : ℝ) / 2) ^ j / (j.factorial : ℝ)) ^ 2), ?_, rfl⟩
    intro q _
    exact ⟨_, _, rfl, rfl, rfl⟩

theorem witness_WindowTables : prec ≤ 768 ∧ (∃ r, IsWindow 0 240 239 r) ∧ (∃ r, IsWindow 1 2048 0 r) ∧ ∃ r, IsWindow 1 256 255 r :=
  ⟨by decide, exists_window _ _ _, exists_window _ _ _, exists_window _ _ _⟩

/-- Every windowed IMDCT value exists. -/
theorem exists_windowedImdct (N : Nat) (X : ℕ → ℝ) (n shape m : Nat) : ∃ z, IsWindowedImdct N X n shape m z := by
  obtain ⟨w, hw⟩ := exists_window shape N m
  exact ⟨_, _, w, rfl, hw, rfl⟩

/-- Every value of the windowed frame exists. -/
theorem exists_frame (seq L sp shape : Nat) (X : ℕ → ℝ) (n : Nat) : ∃ z, IsFrame seq L sp shape X n z := by
  unfold IsFrame
  split
  · exact exists_windowedImdct _ _ _ _ _
  · unfold IsLongStart
    split
    · exact exists_windowedImdct _ _ _ _ _
    · split
      · exact ⟨_, rfl⟩
      · split
        · obtain ⟨w, hw⟩ := exists_window shape (2 * (L / 8)) (n - (3 * L / 2 - L / 8 / 2) + L / 8)
          exact ⟨_, _, w, rfl, hw, rfl⟩
        · exact ⟨_, rfl⟩
  · have h : ∀ j, ∃ t, IsShortTerm L sp shape X n j t := by
      intro j
      unfold IsShortTerm
      simp only
      split
      · exact exists_windowedImdct _ _ _ _ _
      · exact ⟨_, rfl⟩
    choose t ht using h
    exact ⟨_, t, fun j _ => ht j, rfl⟩
  · unfold IsLongStop
    split
    · exact ⟨_, rfl⟩
    · split
      · obtain ⟨w, hw⟩ := exists_window sp (2 * (L / 8)) (n - (L / 2 - L / 8 / 2))
        exact ⟨_, _, w, rfl, hw, rfl⟩
      · split
        · exact ⟨_, rfl⟩
        · exact exists_windowedImdct _ _ _ _ _

/-- A finite frame for every sequence; a spectrum that is not finite in bin 127, which EIGHT_SHORT reads for `z[448]` and not for
`z[704]`. -/
theorem witness_FrameEnclosed :
    prec ≤ 768 ∧ (List.replicate 960 0#32).length = 960 ∧
      (∀ seq k, FrameReads 960 seq 1919 k → IsF32 ((List.replicate 960 0#32).getD k 0#32) 0) ∧
      (∀ seq < 4, ∃ z, IsFrame seq 960 0 1 (fun _ => 0) 1919 z) ∧
      FrameReads 1024 2 448 127 ∧ ¬FrameReads 1024 2 704 127 ∧ FrameReads 1024 0 2047 127 ∧ ¬FrameReads 1024 1 1600 127 ∧
      ¬FrameReads 1024 3 447 127 ∧
      f32Units ((List.replicate 127 0#32 ++ 0x7F800000#32 :: List.replicate 896 0#32).getD 127 0#32) = none := by
  refine ⟨by decide, List.length_replicate, ?_, fun seq _ => exists_frame _ _ _ _ _ _, by simp [FrameReads],
    by simp [FrameReads], trivial, by simp [FrameReads], by simp [FrameReads], by decide +kernel⟩
  intro _ k _
  have e : (List.replicate 960 0#32).getD k 0#32 = 0#32 := by
    rw [List.getD_eq_getElem?_getD, List.getElem?_replicate]
    split <;> rfl
  rw [e]
  exact ⟨0, by decide, by simp⟩

theorem witness_RoundNearestEven :
    (Encl.mk (2 ^ 149) (2 ^ 149)).Holds 149 1 ∧ roundBetween 149 (2 ^ 149) (2 ^ 149) = .word 0x3F800000#32 ∧
      (Encl.mk (-1) (-1)).Holds 400 (-(1 / 2 ^ 400)) ∧ roundBetween 400 (-1) (-1) = .smallZero ∧
      (Encl.mk (2 ^ 128 * 2 ^ 149) (2 ^ 128 * 2 ^ 149)).Holds 149 (2 ^ 128) ∧
      roundBetween 149 (2 ^ 128 * 2 ^ 149) (2 ^ 128 * 2 ^ 149) = .overflow ∧
      |(1 : ℝ)| < 2 ^ 128 - 2 ^ 103 := by
  refine ⟨?_, by decide +kernel, ?_, by decide +kernel, ?_, by decide +kernel, by norm_num⟩
  · unfold Encl.Holds; norm_num
  · unfold Encl.Holds; norm_num
  · unfold Encl.Holds; norm_num

/-! ## Witnesses: the results of commands -/

/-- IQ on bin 2 of V-IQ-1: `dq(1, 100) = 1`. -/
theorem isResult_iq : IsResult pairState (.iq 0) 2 1 := by
  refine .iq (g := 0) (sfb := 0) (t := 1) (sf := 100) (w := 1#32) iqLegal_pairState (by decide) (by unfold BinBand; decide)
    pairState_types.1 (by decide) (by decide +kernel) (by decide +kernel) ?_
  unfold IsDq
  norm_num

theorem isF32_zero : IsF32 0#32 0 := ⟨0, by decide, by simp⟩

/-- MS on bin 2 of V-MS-3: `1 + 0` and `1 - 0`. -/
theorem isResult_ms : IsResult pairState (.ms 0 1) 2 (1 + 0) ∧ IsResult pairState (.ms 0 1) (1024 + 2) (1 - 0) :=
  ⟨.msLeft (wa := 0x3F800000#32) (wb := 0#32) msLegal_pairState (msTouches_pairState (by decide)) (by decide +kernel)
      (by decide +kernel) isF32_one isF32_zero,
    .msRight (wa := 0x3F800000#32) (wb := 0#32) msLegal_pairState (msTouches_pairState (by decide)) (by decide +kernel)
      (by decide +kernel) isF32_one isF32_zero⟩

/-- IS on bin 7 of P2, whose left bin is 0. -/
theorem isResult_is : IsResult pairState (.is 0 1) 7 0 := by
  refine .is (w := 0#32) (x := 0) isLegal_pairState (isTouches_pairState (by decide) (by decide)) (by decide +kernel) isF32_zero ?_
  unfold IsIntensity
  simp

/-- TNS on the first bin of V-TNS-1. -/
theorem isResult_tns : ∃ ks, IsResult tnsState (.tns 0) 0 ((allPoleOver (directFormOver ks) [1] []).getD 0 0) :=
  ⟨[_], .tns (w := 0) (f := 0) (k := 0) tnsLegal_tnsState (by unfold TnsRuns; decide) tnsState_reads (by decide)
    (.cons isF32_one .nil) (.cons rfl .nil)⟩

/-- `z[n]` of a silent ONLY_LONG frame. -/
theorem silent_frame (n : Nat) : IsFrame 0 1024 0 0 (fun _ => 0) n 0 := by
  show IsWindowedImdct _ _ _ _ _ _
  obtain ⟨w, hw⟩ := exists_window (if n < 1024 then 0 else 0) 2048 n
  refine ⟨0, w, ?_, hw, by simp⟩
  unfold IsImdct
  simp

/-- CHSTATE reads 0 while nothing is listed there. -/
theorem silent_chstate : silentFb.item? 0 .chstate 0 = some 0#32 := by
  show silentState.item? 0 .chstate 0 = _
  unfold silentState
  rw [item_setItems_other (by rw [List.length_replicate]; decide) (by decide) (by rintro ⟨_, h, _⟩; cases h),
    item_setItems_other (by decide) (by decide) (by rintro ⟨_, h, _⟩; cases h)]
  decide +kernel

/-- FB's last output and overlap elements on a silent slot. -/
theorem isResult_fb : IsResult silentFb (.fb 0) 1023 (0 + 0) ∧ IsResult silentFb (.fb 0) (1024 + 1023) 0 := by
  obtain ⟨_, _, _, h1, h2, h3, h4⟩ := witness_FbSilence
  have hz : ∀ n, IsF32 ((List.replicate silentFb.frameLen 0#32).getD n 0#32) 0 := by
    intro n
    have e : (List.replicate silentFb.frameLen 0#32).getD n 0#32 = 0#32 := by
      rw [List.getD_eq_getElem?_getD, List.getElem?_replicate]
      split <;> rfl
    rw [e]
    exact isF32_zero
  exact ⟨.pcm h1 h2 silent_chstate h3 (by decide) (fun k _ _ => hz k) (hz 1023) (silent_frame 1023),
    .ovl h1 h2 silent_chstate (by decide) (fun k _ _ => hz k) (silent_frame 2047)⟩

/-- `pairState` with an implementation's NUM has the same results. -/
theorem witness_NumProperty :
    (Accepted (.iq 0) pairState ∧ Accepted (.ms 0 1) pairState ∧ Accepted (.is 0 1) pairState ∧ Accepted (.tns 0) tnsState ∧
      Accepted (.fb 0) silentFb) ∧ pairState.params.num = .nearestEven ∧
    (IsResult pairState (.iq 0) 2 1 ∧ |(1 : ℝ)| + 1 / 2 ^ 200 < 2 ^ 128 - 2 ^ 103) ∧
    ({ pairState with params := { pairState.params with num := .implementation 5 } } : State).params.num =
      .implementation 5 := by
  refine ⟨?_, rfl, ⟨isResult_iq, by norm_num⟩, rfl⟩
  unfold Accepted
  exact ⟨⟨rfl, by decide⟩, ⟨rfl, by decide⟩, ⟨rfl, by decide⟩, ⟨rfl, by decide⟩, rfl, by decide⟩

theorem witness_ExactTies :
    (IsResult pairState (.iq 0) 2 1 ∧ (∃ v : Int, (1 : ℝ) * 2 ^ 150 = (v : ℝ)) ∧ |(1 : ℝ)| < 2 ^ 128 - 2 ^ 103) ∧
    (IsResult silentFb (.fb 0) (1024 + 1023) 0 ∧ (∃ v : Int, (0 : ℝ) * 2 ^ 150 = (v : ℝ))) :=
  ⟨⟨isResult_iq, ⟨2 ^ 150, by norm_num⟩, by norm_num⟩, isResult_fb.2, ⟨0, by simp⟩⟩

end Sys2Proof.Machine
end

section
/-! The default ROUND of a real is the binary32 value nearest to it (00_scope.md R12). -/

namespace Sys2Proof.Machine

/-! ## Magnitudes -/

/-- The magnitude with the bits [30:0] `m` as a multiple of 2^-149, the exponents past the finite ones included. -/
def magUnits (m : Nat) : Nat := if m / 2 ^ 23 = 0 then m else (2 ^ 23 + m % 2 ^ 23) * 2 ^ (m / 2 ^ 23 - 1)

/-- `s` units in the last place `2^e`, as a magnitude: a carry out of the significand moves the exponent field. -/
theorem magUnits_scaled {e s : Nat} (h : e = 0 ∨ 2 ^ 23 ≤ s) (hs : s ≤ 2 ^ 24) : magUnits (e * 2 ^ 23 + s) = s * 2 ^ e := by
  unfold magUnits
  rcases Nat.lt_or_ge s (2 ^ 23) with h1 | h1
  · obtain rfl : e = 0 := by omega
    rw [if_pos (by omega)]
    simp
  rcases Nat.lt_or_ge s (2 ^ 24) with h2 | h2
  · have hd : (e * 2 ^ 23 + s) / 2 ^ 23 = e + 1 := by omega
    have hm : (e * 2 ^ 23 + s) % 2 ^ 23 = s - 2 ^ 23 := by omega
    rw [if_neg (by omega), hd, hm, Nat.add_sub_cancel' h1, Nat.add_sub_cancel]
  · obtain rfl : s = 2 ^ 24 := by omega
    have hd : (e * 2 ^ 23 + 2 ^ 24) / 2 ^ 23 = e + 2 := by omega
    have hm : (e * 2 ^ 23 + 2 ^ 24) % 2 ^ 23 = 0 := by omega
    rw [if_neg (by omega), hd, hm]
    simp only [Nat.add_zero, Nat.add_succ_sub_one, pow_succ]
    ring

/-- The significand and last place of a magnitude. -/
theorem exists_scaled (m : Nat) : ∃ e s, m = e * 2 ^ 23 + s ∧ s < 2 ^ 24 ∧ (e = 0 ∨ 2 ^ 23 ≤ s) := by
  rcases Nat.eq_zero_or_pos (m / 2 ^ 23) with h | h
  · exact ⟨0, m, by omega, by omega, .inl rfl⟩
  · exact ⟨m / 2 ^ 23 - 1, 2 ^ 23 + m % 2 ^ 23, by omega, by omega, .inr (by omega)⟩

/-- Consecutive magnitudes are one unit in the last place apart, at most a 2^23rd of the smaller one above the subnormals. -/
theorem magUnits_succ (m : Nat) : ∃ g, magUnits (m + 1) = magUnits m + g ∧ 0 < g ∧ (g = 1 ∨ 2 ^ 23 * g ≤ magUnits m) := by
  obtain ⟨e, s, rfl, hs, h⟩ := exists_scaled m
  refine ⟨2 ^ e, ?_, by positivity, ?_⟩
  · rw [Nat.add_assoc, magUnits_scaled (by omega) (by omega), magUnits_scaled h (by omega)]
    ring
  · rw [magUnits_scaled h (by omega)]
    rcases h with rfl | h
    · exact .inl rfl
    · exact .inr (Nat.mul_le_mul_right _ h)

theorem magUnits_strictMono : StrictMono magUnits :=
  strictMono_nat_of_lt_succ fun m => by
    obtain ⟨g, h, hg, _⟩ := magUnits_succ m
    omega

@[simp] theorem magUnits_zero : magUnits 0 = 0 := rfl

/-- The first magnitude that is not finite stands for 2^128, the last finite one for 2^128 - 2^104. -/
theorem magUnits_infMag : magUnits infMag = 2 ^ 24 * 2 ^ 253 ∧ magUnits (infMag - 1) = (2 ^ 24 - 1) * 2 ^ 253 := by
  decide +kernel

/-! ## Rounding a magnitude -/

/-- `m` is the magnitude nearest to `y`, a multiple of 2^-149, ties to the even one. -/
structure IsRoundedMag (y : ℝ) (m : Nat) : Prop where
  upper : 2 * y ≤ magUnits m + magUnits (m + 1)
  upperTie : 2 * y = magUnits m + magUnits (m + 1) → m % 2 = 0
  lower : ∀ k, m = k + 1 → (magUnits k + magUnits m : ℝ) ≤ 2 * y
  lowerTie : ∀ k, m = k + 1 → (magUnits k + magUnits m : ℝ) = 2 * y → m % 2 = 0

/-- Rounding is monotone. -/
theorem IsRoundedMag.mono {y z : ℝ} {m n : Nat} (hy : IsRoundedMag y m) (hz : IsRoundedMag z n) (h : y ≤ z) : m ≤ n := by
  by_contra hc
  obtain ⟨k, rfl⟩ : ∃ k, m = k + 1 := ⟨m - 1, by omega⟩
  have h1 := hy.lower k rfl
  have h2 := hz.upper
  have hk : (magUnits n : ℝ) ≤ magUnits k := by exact_mod_cast magUnits_strictMono.monotone (by omega)
  have hk' : (magUnits (n + 1) : ℝ) ≤ magUnits (k + 1) := by exact_mod_cast magUnits_strictMono.monotone (by omega)
  have e : magUnits n = magUnits k := by
    have : (magUnits n : ℝ) = magUnits k := by linarith
    exact_mod_cast this
  obtain rfl := magUnits_strictMono.injective e
  have p1 := hy.lowerTie n rfl (by linarith)
  have p2 := hz.upperTie (by linarith)
  omega

/-- What lies between two reals that round to one magnitude rounds to it. -/
theorem IsRoundedMag.between {x y z : ℝ} {m : Nat} (hx : IsRoundedMag x m) (hz : IsRoundedMag z m) (h1 : x ≤ y)
    (h2 : y ≤ z) : IsRoundedMag y m where
  upper := by linarith [hz.upper]
  upperTie h := hz.upperTie (by linarith [hz.upper])
  lower k hk := by linarith [hx.lower k hk]
  lowerTie k hk h := hx.lowerTie k hk (by linarith [hx.lower k hk])

/-- No magnitude is nearer, and where another one is as near, `m` is even. -/
theorem IsRoundedMag.nearest {y : ℝ} {m : Nat} (h : IsRoundedMag y m) (n : Nat) :
    |(magUnits m : ℝ) - y| ≤ |(magUnits n : ℝ) - y| ∧
      (|(magUnits m : ℝ) - y| = |(magUnits n : ℝ) - y| → n = m ∨ m % 2 = 0) := by
  rcases lt_trichotomy n m with hn | rfl | hn
  · obtain ⟨k, rfl⟩ : ∃ k, m = k + 1 := ⟨m - 1, by omega⟩
    have h1 := h.lower k rfl
    have h2 : (magUnits n : ℝ) ≤ magUnits k := by exact_mod_cast magUnits_strictMono.monotone (by omega)
    have h3 : (magUnits k : ℝ) < magUnits (k + 1) := by exact_mod_cast magUnits_strictMono (by omega)
    rw [abs_of_nonpos (a := (magUnits n : ℝ) - y) (by linarith)]
    refine ⟨abs_le.mpr ⟨by linarith, by linarith⟩, fun e => .inr (h.lowerTie k rfl ?_)⟩
    rcases abs_choice ((magUnits (k + 1) : ℝ) - y) with ha | ha <;> rw [ha] at e <;> linarith
  · simp
  · have h1 := h.upper
    have h2 : (magUnits (m + 1) : ℝ) ≤ magUnits n := by exact_mod_cast magUnits_strictMono.monotone (by omega)
    have h3 : (magUnits m : ℝ) < magUnits (m + 1) := by exact_mod_cast magUnits_strictMono (by omega)
    rw [abs_of_nonneg (a := (magUnits n : ℝ) - y) (by linarith)]
    refine ⟨abs_le.mpr ⟨by linarith, by linarith⟩, fun e => .inr (h.upperTie ?_)⟩
    rcases abs_choice ((magUnits m : ℝ) - y) with ha | ha <;> rw [ha] at e <;> linarith

/-- A rounded magnitude lies within half a unit in the last place: relative error 2^-24, or half a subnormal. -/
theorem IsRoundedMag.error {y : ℝ} {m : Nat} (h : IsRoundedMag y m) (hy : 0 ≤ y) :
    |(magUnits m : ℝ) - y| ≤ y / 2 ^ 24 + 1 / 2 := by
  have gap : ∀ k, (magUnits k : ℝ) ≤ y → (magUnits (k + 1) : ℝ) - magUnits k ≤ y / 2 ^ 23 + 1 := by
    intro k hk
    obtain ⟨g, hg, _, h1⟩ := magUnits_succ k
    have hg' : (magUnits (k + 1) : ℝ) = magUnits k + g := by exact_mod_cast hg
    rcases h1 with rfl | h1
    · rw [hg']; push_cast; linarith [div_nonneg hy (by positivity : (0 : ℝ) ≤ 2 ^ 23)]
    · have h1' : (2 : ℝ) ^ 23 * g ≤ magUnits k := by exact_mod_cast h1
      have : (g : ℝ) ≤ y / 2 ^ 23 := by rw [le_div_iff₀ (by positivity)]; linarith
      linarith
  rcases le_total (magUnits m : ℝ) y with hm | hm
  · rw [abs_of_nonpos (by linarith)]
    linarith [gap m hm, h.upper]
  · rw [abs_of_nonneg (by linarith)]
    rcases m with _ | k
    · simp at hm
      simp only [magUnits_zero, Nat.cast_zero]
      linarith [div_nonneg hy (by positivity : (0 : ℝ) ≤ 2 ^ 24)]
    · have h1 := h.lower k rfl
      linarith [gap k (by linarith)]

/-! ## What `roundMag` computes -/

/-- `roundShift` is the nearest integer quotient, ties to even. -/
theorem roundShift_spec (a k : Nat) :
    2 * a ≤ (2 * roundShift a k + 1) * 2 ^ k ∧ (2 * a = (2 * roundShift a k + 1) * 2 ^ k → roundShift a k % 2 = 0) ∧
      2 * roundShift a k * 2 ^ k ≤ 2 * a + 2 ^ k ∧ (2 * roundShift a k * 2 ^ k = 2 * a + 2 ^ k → roundShift a k % 2 = 0) := by
  have h1 := Nat.div_add_mod a (2 ^ k)
  have h2 := Nat.mod_lt a (Nat.two_pow_pos k)
  unfold roundShift
  simp only
  generalize a / 2 ^ k = q at *
  generalize a % 2 ^ k = r at *
  generalize 2 ^ k = P at *
  subst h1
  have e : ∀ s, (2 * s + 1) * P = 2 * (P * s) + P ∧ 2 * s * P = 2 * (P * s) := fun s => ⟨by ring, by ring⟩
  have e1 : P * (q + 1) = P * q + P := by ring
  split
  · simp only [e]; omega
  split
  · simp only [e, e1]; omega
  · rcases Nat.mod_two_eq_zero_or_one q with hq | hq <;> rw [hq] <;> simp only [e, e1, Nat.add_zero] <;> omega

/-- The last place `roundMag` keeps and the significand it rounds to. -/
theorem roundMag_scaled (p a : Nat) :
    ∃ e s, roundMag p a = e * 2 ^ 23 + s ∧ s ≤ 2 ^ 24 ∧ (e = 0 ∨ 2 ^ 23 ≤ s ∧ 2 ^ 23 * 2 ^ (e + (p - 149)) ≤ a) ∧
      s = roundShift a (e + (p - 149)) := by
  set d := p - 149 with hd
  have hu : max (Nat.log2 a - 23) d - d + d = max (Nat.log2 a - 23) d := Nat.sub_add_cancel (le_max_right _ _)
  refine ⟨max (Nat.log2 a - 23) d - d, roundShift a (max (Nat.log2 a - 23) d), rfl, ?_, ?_, by rw [hu]⟩
  · have h1 : a < 2 ^ 24 * 2 ^ max (Nat.log2 a - 23) d := by
      rw [← pow_add]
      exact lt_of_lt_of_le Nat.lt_log2_self (Nat.pow_le_pow_right (by decide) (by omega))
    have h2 := (roundShift_spec a (max (Nat.log2 a - 23) d)).2.2.1
    generalize roundShift a (max (Nat.log2 a - 23) d) = s at *
    by_contra hc
    have h3 : 2 * (2 ^ 24 + 1) * 2 ^ max (Nat.log2 a - 23) d ≤ 2 * s * 2 ^ max (Nat.log2 a - 23) d :=
      Nat.mul_le_mul_right _ (by omega)
    have h4 := Nat.two_pow_pos (max (Nat.log2 a - 23) d)
    omega
  · rcases Nat.lt_or_ge d (Nat.log2 a - 23) with h | h
    · refine .inr ?_
      have ha : a ≠ 0 := by rintro rfl; simp at h
      rw [max_eq_left h.le, Nat.sub_add_cancel h.le]
      have h1 : 2 ^ 23 * 2 ^ (Nat.log2 a - 23) ≤ a := by
        rw [← pow_add, Nat.add_sub_cancel' (by omega)]
        exact Nat.log2_self_le ha
      refine ⟨?_, h1⟩
      have h2 := (roundShift_spec a (Nat.log2 a - 23)).1
      generalize roundShift a (Nat.log2 a - 23) = s at *
      by_contra hc
      have h3 : (2 * s + 1) * 2 ^ (Nat.log2 a - 23) < 2 * 2 ^ 23 * 2 ^ (Nat.log2 a - 23) :=
        Nat.mul_lt_mul_of_pos_right (by omega) (Nat.two_pow_pos _)
      omega
    · exact .inl (by omega)

/-- The magnitude after `s * 2^e` is at least a unit in its last place above, a unit but for a carry. -/
theorem magUnits_scaled_succ {e s m : Nat} (hm : m = e * 2 ^ 23 + s) (hs : s ≤ 2 ^ 24) (hes : e = 0 ∨ 2 ^ 23 ≤ s) :
    (s : ℝ) * 2 ^ e + 2 ^ e ≤ magUnits (m + 1) ∧ (s < 2 ^ 24 → (magUnits (m + 1) : ℝ) = s * 2 ^ e + 2 ^ e) := by
  have hlt : s < 2 ^ 24 → (magUnits (m + 1) : ℝ) = s * 2 ^ e + 2 ^ e := by
    intro h
    rw [hm, Nat.add_assoc, magUnits_scaled (by omega) (by omega)]
    push_cast
    ring
  refine ⟨?_, hlt⟩
  rcases Nat.lt_or_ge s (2 ^ 24) with h | h
  · exact (hlt h).ge
  · obtain rfl : s = 2 ^ 24 := by omega
    have e1 : m + 1 = (e + 1) * 2 ^ 23 + (2 ^ 23 + 1) := by omega
    rw [e1, magUnits_scaled (by omega) (by omega)]
    have hE : (0 : ℝ) < 2 ^ e := pow_two_pos e
    push_cast
    rw [pow_succ]
    linarith

/-- The magnitude before `s * 2^e` is a unit in its last place below, but for the least significand. -/
theorem magUnits_scaled_pred {e s k : Nat} (hk : k + 1 = e * 2 ^ 23 + s) (hs : s ≤ 2 ^ 24) (hes : e = 0 ∨ 2 ^ 23 ≤ s) :
    (magUnits k : ℝ) = s * 2 ^ e - 2 ^ e ∨ (magUnits k : ℝ) < s * 2 ^ e ∧ e ≠ 0 ∧ s = 2 ^ 23 := by
  by_cases h : e ≠ 0 ∧ s = 2 ^ 23
  · have h1 := magUnits_strictMono (Nat.lt_succ_self k)
    rw [Nat.succ_eq_add_one, hk, magUnits_scaled hes hs] at h1
    exact .inr ⟨by exact_mod_cast h1, h⟩
  · have e1 : k = e * 2 ^ 23 + (s - 1) := by omega
    rw [e1, magUnits_scaled (by omega) (by omega), Nat.cast_mul, Nat.cast_sub (by omega)]
    push_cast
    exact .inl (by ring)

/-- `roundShift_spec` over the reals: `s * 2^e` is nearest to `y = a / 2^d`, ties to even. -/
theorem roundShift_real {a e d s : Nat} {y : ℝ} (hs : s = roundShift a (e + d)) (hy : y * 2 ^ d = (a : ℝ)) :
    2 * y ≤ (2 * s + 1) * 2 ^ e ∧ (2 * y = (2 * s + 1) * 2 ^ e → s % 2 = 0) ∧ (2 * s - 1) * (2 : ℝ) ^ e ≤ 2 * y ∧
      ((2 * s - 1) * (2 : ℝ) ^ e = 2 * y → s % 2 = 0) := by
  obtain ⟨up, upTie, low, lowTie⟩ := roundShift_spec a (e + d)
  rw [← hs] at up upTie low lowTie
  have hP := pow_two_pos d
  refine ⟨?_, fun h => upTie ?_, ?_, fun h => lowTie ?_⟩
  · have : (2 : ℝ) * a ≤ (2 * s + 1) * 2 ^ (e + d) := by exact_mod_cast up
    rw [← hy, pow_add, ← mul_assoc, ← mul_assoc] at this
    exact le_of_mul_le_mul_right this hP
  · have : (2 : ℝ) * a = (2 * s + 1) * 2 ^ (e + d) := by rw [← hy, pow_add]; linear_combination 2 ^ d * h
    exact_mod_cast this
  · have : (2 : ℝ) * s * 2 ^ (e + d) ≤ 2 * a + 2 ^ (e + d) := by exact_mod_cast low
    rw [← hy, pow_add] at this
    refine le_of_mul_le_mul_right ?_ hP
    linarith
  · have : (2 : ℝ) * s * 2 ^ (e + d) = 2 * a + 2 ^ (e + d) := by rw [← hy, pow_add]; linear_combination 2 ^ d * h
    exact_mod_cast this

/-- `roundMag` rounds `a / 2^p`, here as the multiple `y` of 2^-149. -/
theorem isRoundedMag_roundMag {p a : Nat} {y : ℝ} (hy : y * 2 ^ (p - 149) = (a : ℝ)) : IsRoundedMag y (roundMag p a) := by
  obtain ⟨e, s, hm, hs, hes, hsr⟩ := roundMag_scaled p a
  have hes' : e = 0 ∨ 2 ^ 23 ≤ s := hes.imp_right And.left
  obtain ⟨up, upTie, low, lowTie⟩ := roundShift_real hsr hy
  obtain ⟨next, nextEq⟩ := magUnits_scaled_succ hm hs hes'
  have hval : (magUnits (roundMag p a) : ℝ) = s * 2 ^ e := by rw [hm, magUnits_scaled hes' hs]; push_cast; rfl
  have hpar : roundMag p a % 2 = s % 2 := by omega
  -- below the least significand of its exponent nothing is rounded down to it
  have prev : ∀ k, roundMag p a = k + 1 → (magUnits k : ℝ) = s * 2 ^ e - 2 ^ e ∨
      (magUnits k : ℝ) < s * 2 ^ e ∧ (s : ℝ) * 2 ^ e ≤ y := by
    intro k hk
    refine (magUnits_scaled_pred (hk ▸ hm) hs hes').imp_right fun ⟨h1, he, hs23⟩ => ⟨h1, ?_⟩
    obtain ⟨-, h2⟩ := hes.resolve_left he
    have : ((2 ^ 23 : Nat) : ℝ) * 2 ^ (e + (p - 149)) ≤ a := by exact_mod_cast h2
    rw [← hy, pow_add, ← mul_assoc] at this
    rw [hs23]
    exact le_of_mul_le_mul_right this (pow_two_pos _)
  refine ⟨?_, fun h => ?_, fun k hk => ?_, fun k hk h => ?_⟩
  · rw [hval]; linarith
  · rcases Nat.lt_or_ge s (2 ^ 24) with h1 | h1
    · rw [hpar]; exact upTie (by rw [h, hval, nextEq h1]; ring)
    · omega
  · rcases prev k hk with h | ⟨h1, h2⟩
    · rw [h, hval]; linarith
    · rw [hval]; linarith
  · rcases prev k hk with h1 | ⟨h1, h2⟩
    · rw [hpar]; exact lowTie (by rw [← h, h1, hval]; ring)
    · rw [hval] at h; linarith

/-! ## Rounded words -/

/-- The magnitude bits of a word. -/
theorem abs_f32Units {w : Word} {v : Int} (h : f32Units w = some v) : |v| = magUnits (w.toNat % 2 ^ 31) := by
  unfold f32Units at h
  split at h
  · cases h
  have hu : unitsOf w = magUnits (w.toNat % 2 ^ 31) := by
    unfold unitsOf significand magUnits expField fracField bits
    norm_num
    have e1 : w.toNat / 8388608 % 256 = w.toNat % 2147483648 / 8388608 := by omega
    have e2 : w.toNat % 8388608 = w.toNat % 2147483648 % 8388608 := by omega
    rw [e1, e2]
    generalize w.toNat % 2147483648 = m
    by_cases hm : m / 8388608 = 0
    · rw [if_pos hm, if_pos (by omega), hm, max_eq_right (by omega), Nat.sub_self, pow_zero, mul_one]
      omega
    · rw [if_neg hm, if_neg (by omega), max_eq_left (by omega)]
  simp only [Option.some.injEq] at h
  rw [← hu, ← h]
  split <;> simp

theorem signedWord_toNat {neg : Bool} {m : Nat} (h : m < infMag) :
    (signedWord neg m).toNat = (if neg then 2 ^ 31 else 0) + m := by
  unfold signedWord
  rw [BitVec.toNat_ofNat, Nat.mod_eq_of_lt]
  unfold infMag at h
  split <;> omega

/-- A word made of a finite magnitude is finite. -/
theorem f32Units_signedWord {neg : Bool} {m : Nat} (h : m < infMag) :
    f32Units (signedWord neg m) = some (if neg then -(magUnits m : Int) else magUnits m) := by
  have ht := signedWord_toNat (neg := neg) h
  have h' : m < 2139095040 := h
  have hb : bit 31 (signedWord neg m) = neg := by
    unfold bit bits
    rw [ht]
    cases neg
    · simp; omega
    · simp; omega
  have he : expField (signedWord neg m) ≠ 255 := by
    unfold expField bits
    rw [ht]
    cases neg <;> norm_num <;> omega
  have hu : ∃ v, f32Units (signedWord neg m) = some v := by
    unfold f32Units
    rw [if_neg he]
    exact ⟨_, rfl⟩
  obtain ⟨v, hv⟩ := hu
  have ha := abs_f32Units hv
  have hm : (signedWord neg m).toNat % 2 ^ 31 = m := by
    rw [ht]; cases neg <;> norm_num <;> omega
  rw [hm] at ha
  have hv' := hv
  unfold f32Units at hv
  rw [if_neg he, hb, Option.some.injEq] at hv
  rw [hv', Option.some.injEq]
  cases neg
  · simp only [Bool.false_eq_true, if_false] at hv ⊢
    rw [← ha, abs_of_nonneg (by omega)]
  · simp only [if_true] at hv ⊢
    rw [← ha, abs_of_nonpos (by omega), neg_neg]

theorem significand_signedWord {neg : Bool} {m : Nat} (h : m < infMag) :
    significand (signedWord neg m) % 2 = m % 2 := by
  unfold significand fracField bits
  rw [signedWord_toNat h]
  split <;> cases neg <;> norm_num <;> omega

/-- `w` is a finite word with the magnitude nearest to `r`'s and, unless it is a zero, with the sign of `r`. -/
def RoundsTo (r : ℝ) (w : Word) : Prop :=
  ∃ (neg : Bool) (m : Nat), w = signedWord neg m ∧ m < infMag ∧ IsRoundedMag (|r| * 2 ^ 149) m ∧
    (m = 0 ∨ (if neg then r ≤ 0 else 0 ≤ r))

theorem isRoundedMag_zero {m : Nat} (h : IsRoundedMag 0 m) : m = 0 := by
  by_contra hc
  obtain ⟨k, rfl⟩ : ∃ k, m = k + 1 := ⟨m - 1, by omega⟩
  have h1 := h.lower k rfl
  have h2 : (magUnits k : ℝ) < magUnits (k + 1) := by exact_mod_cast magUnits_strictMono (by omega)
  have h3 : (0 : ℝ) ≤ magUnits k := by positivity
  linarith

/-- The value of a rounded word and the real it rounds, with one sign. -/
theorem RoundsTo.value {r : ℝ} {w : Word} (h : RoundsTo r w) :
    ∃ (v : Int) (m : Nat) (σ : ℝ), f32Units w = some v ∧ significand w % 2 = m % 2 ∧ IsRoundedMag (|r| * 2 ^ 149) m ∧
      (σ = 1 ∨ σ = -1) ∧ (v : ℝ) = σ * magUnits m ∧ r = σ * |r| := by
  obtain ⟨neg, m, rfl, hm, hr, hs⟩ := h
  refine ⟨_, m, if 0 ≤ r then 1 else -1, f32Units_signedWord hm, significand_signedWord hm, hr, ?_, ?_, ?_⟩
  · split <;> simp
  · rcases hs with rfl | hs
    · simp
    rcases lt_trichotomy r 0 with h0 | rfl | h0
    · obtain rfl : neg = true := by
        by_contra hn
        rw [if_neg hn] at hs
        exact absurd hs h0.not_ge
      rw [if_neg h0.not_ge]
      simp
    · rw [abs_zero, zero_mul] at hr
      simp [isRoundedMag_zero hr]
    · obtain rfl : neg = false := by
        by_contra hn
        rw [if_pos (by simpa using hn)] at hs
        exact absurd hs h0.not_ge
      rw [if_pos h0.le]
      simp
  · split
    · rename_i h0; rw [abs_of_nonneg h0, one_mul]
    · rename_i h0; rw [abs_of_neg (not_le.mp h0)]; ring

theorem RoundsTo.nearest {r : ℝ} {w : Word} (h : RoundsTo r w) : IsNearestEven r w := by
  obtain ⟨v, m, σ, hw, hpar, hr, hσ, hv, hs⟩ := h.value
  refine ⟨v, hw, fun w' v' hv' => ?_⟩
  set y := |r| * 2 ^ 149 with hy
  have hσ1 : |σ| = 1 := by rcases hσ with rfl | rfl <;> simp
  have hry : r * 2 ^ 149 = σ * y := by rw [hy, ← mul_assoc, ← hs]
  have habs : |(v' : ℝ)| = magUnits (w'.toNat % 2 ^ 31) := by exact_mod_cast abs_f32Units hv'
  have e1 : |(v : ℝ) - r * 2 ^ 149| = |(magUnits m : ℝ) - y| := by
    rw [hv, hry, ← mul_sub, abs_mul, hσ1, one_mul]
  have e2 : |(magUnits (w'.toNat % 2 ^ 31) : ℝ) - y| ≤ |(v' : ℝ) - r * 2 ^ 149| := by
    have hy' : |r * 2 ^ 149| = y := by rw [abs_mul, abs_of_pos (pow_two_pos 149)]
    rw [← habs, ← hy']
    exact abs_abs_sub_abs_le_abs_sub _ _
  obtain ⟨n1, n2⟩ := hr.nearest (w'.toNat % 2 ^ 31)
  rw [e1]
  refine ⟨n1.trans e2, fun he => ?_⟩
  rw [hpar]
  refine (n2 (le_antisymm n1 (he ▸ e2))).imp (fun h => ?_) id
  -- a word of the same magnitude has the same value, or both are zero
  rw [h] at habs
  by_cases hc : (v' : ℝ) = v
  · exact_mod_cast hc
  have h1 : (v' : ℝ) = -(σ * magUnits m) := by
    rw [hv] at hc
    rw [abs_eq (Nat.cast_nonneg _)] at habs
    rcases hσ with rfl | rfl <;> rcases habs with h3 | h3 <;> rw [h3] at hc ⊢ <;> simp at hc ⊢
  have he' : |(magUnits m : ℝ) - y| = (magUnits m : ℝ) + y := by
    rw [he, h1, hry, show -(σ * (magUnits m : ℝ)) - σ * y = -σ * (magUnits m + y) by ring, abs_mul, abs_neg, hσ1, one_mul,
      abs_of_nonneg (by positivity)]
  have hz : (magUnits m : ℝ) = 0 := by
    rcases abs_choice ((magUnits m : ℝ) - y) with h3 | h3
    · have hy1 : y = 0 := by linarith
      rw [hy1] at hr
      simp [isRoundedMag_zero hr]
    · linarith
  have : (v' : ℝ) = v := by rw [h1, hv, hz]; ring
  exact_mod_cast this

/-- A rounded word of a real near `r` is within relative error 2^-24 of `r`. -/
theorem RoundsTo.relativeError {r r' : ℝ} {w : Word} (h : RoundsTo r' w) (hr : |r' - r| ≤ 1 / 2 ^ 200) :
    RelativeError (1 / 2 ^ 24) r w := by
  obtain ⟨v, m, σ, hw, _, hm, hσ, hv, hs⟩ := h.value
  have hσ1 : |σ| = 1 := by rcases hσ with rfl | rfl <;> simp
  refine ⟨v / 2 ^ 149, ⟨v, hw, by field_simp⟩, ?_⟩
  have e : (v : ℝ) / 2 ^ 149 - r' = σ * (magUnits m - |r'| * 2 ^ 149) / 2 ^ 149 := by
    rw [eq_div_iff (by positivity), hv]
    conv_lhs => rw [hs]
    field_simp
  have h1 : |(v : ℝ) / 2 ^ 149 - r'| ≤ |r'| / 2 ^ 24 + 1 / 2 ^ 150 := by
    rw [e, abs_div, abs_mul, hσ1, one_mul, abs_of_pos (pow_two_pos 149), div_le_iff₀ (by positivity)]
    calc _ ≤ _ := hm.error (by positivity)
      _ = _ := by ring
  have h2 : |r'| ≤ |r| + 1 / 2 ^ 200 := by linarith [abs_sub_abs_le_abs_sub r' r]
  calc _ ≤ |(v : ℝ) / 2 ^ 149 - r'| + |r' - r| := abs_sub_le _ _ _
    _ ≤ (|r| + 1 / 2 ^ 200) / 2 ^ 24 + 1 / 2 ^ 150 + 1 / 2 ^ 200 := by
      have h4 : |r'| / 2 ^ 24 ≤ (|r| + 1 / 2 ^ 200) / 2 ^ 24 := by gcongr
      linarith
    _ = 1 / 2 ^ 24 * |r| + (1 / 2 ^ 200 / 2 ^ 24 + 1 / 2 ^ 150 + 1 / 2 ^ 200) := by ring
    _ ≤ _ := by gcongr; norm_num

/-! ## What `roundBetween` answers -/

/-- What an answer of the default ROUND says of the real `r` it was asked for; an open one says nothing. -/
def Rounded.Of (r : ℝ) : Rounded → Prop
  | .word w => RoundsTo r w ∧ (r = 0 → w = 0x00000000#32)
  | .smallZero => r ≠ 0 ∧ IsRoundedMag (|r| * 2 ^ 149) 0
  | .overflow => 2 ^ 128 - 2 ^ 103 ≤ |r|
  | .undecided => True

/-- A magnitude that rounds past the finite ones is at least 2^128 - 2^103. -/
theorem IsRoundedMag.overflow {y : ℝ} {m : Nat} (h : IsRoundedMag y m) (hm : infMag ≤ m) :
    (2 ^ 128 - 2 ^ 103) * 2 ^ 149 ≤ y := by
  obtain ⟨k, rfl⟩ : ∃ k, m = k + 1 := ⟨m - 1, by unfold infMag at hm; omega⟩
  obtain ⟨h1, h2⟩ := magUnits_infMag
  have h3 : (2 : ℝ) ^ 24 * 2 ^ 253 ≤ magUnits (k + 1) := by
    have := magUnits_strictMono.monotone hm
    rw [h1] at this
    exact_mod_cast this
  have h4 : (2 ^ 24 - 1) * (2 : ℝ) ^ 253 ≤ magUnits k := by
    have := magUnits_strictMono.monotone (show infMag - 1 ≤ k by unfold infMag at *; omega)
    rw [h2] at this
    calc _ = (((2 ^ 24 - 1) * 2 ^ 253 : Nat) : ℝ) := by push_cast; norm_num
      _ ≤ _ := by exact_mod_cast this
  linarith [h.lower k rfl]

/-- The enclosure's ends as magnitudes around that of a real with the sign of both. -/
theorem Encl.Holds.magnitude {p : Nat} {x : Encl} {r : ℝ} (h : x.Holds p r) (hp : 149 ≤ p) (hs : 0 < x.lo ∨ x.hi < 0) :
    r ≠ 0 ∧ (if decide (x.lo < 0) = true then r ≤ 0 else 0 ≤ r) ∧
      ∃ y z : ℝ, IsRoundedMag y (roundMag p x.lo.natAbs) ∧ IsRoundedMag z (roundMag p x.hi.natAbs) ∧
        (y ≤ |r| * 2 ^ 149 ∧ |r| * 2 ^ 149 ≤ z ∨ z ≤ |r| * 2 ^ 149 ∧ |r| * 2 ^ 149 ≤ y) := by
  obtain ⟨h1, h2⟩ := h
  have hP : (0 : ℝ) < 2 ^ (p - 149) := by positivity
  have hpp : (2 : ℝ) ^ p = 2 ^ 149 * 2 ^ (p - 149) := by rw [← pow_add, Nat.add_sub_cancel' hp]
  have mag : ∀ v : Int, IsRoundedMag (|(v : ℝ)| / 2 ^ (p - 149)) (roundMag p v.natAbs) := fun v =>
    isRoundedMag_roundMag (by rw [div_mul_cancel₀ _ hP.ne', Nat.cast_natAbs, Int.cast_abs])
  have hr : |r| * 2 ^ 149 = |r * 2 ^ p| / 2 ^ (p - 149) := by
    rw [abs_mul, abs_of_pos (pow_two_pos p), hpp]
    field_simp
  have h3 : (x.lo : ℝ) ≤ x.hi := h1.trans h2
  refine ⟨?_, ?_, _, _, mag x.lo, mag x.hi, ?_⟩
  · rintro rfl
    simp only [zero_mul, Int.cast_nonpos, Int.cast_nonneg_iff] at h1 h2
    omega
  · rcases hs with h | h
    · have h' : (0 : ℝ) < x.lo := by exact_mod_cast h
      rw [if_neg (by simpa using h.le)]
      exact (pos_of_mul_pos_left (h'.trans_le h1) (pow_two_pos p).le).le
    · have h' : (x.hi : ℝ) < 0 := by exact_mod_cast h
      have h'' : x.lo ≤ x.hi := by exact_mod_cast h3
      rw [if_pos (by simp; omega)]
      exact (neg_of_mul_neg_left (h2.trans_lt h') (pow_two_pos p).le).le
  · rw [hr]
    rcases hs with h | h
    · left
      have h' : (0 : ℝ) < x.lo := by exact_mod_cast h
      rw [abs_of_pos h', abs_of_pos (h'.trans_le h1), abs_of_pos (h'.trans_le h3)]
      exact ⟨by gcongr, by gcongr⟩
    · right
      have h' : (x.hi : ℝ) < 0 := by exact_mod_cast h
      rw [abs_of_neg h', abs_of_neg (h2.trans_lt h'), abs_of_neg (h3.trans_lt h')]
      exact ⟨by gcongr, by gcongr⟩

/-- Whatever `roundBetween` answers for an enclosure is so of every real in it (R12). -/
theorem roundBetween_of {p : Nat} {lo hi : Int} {r : ℝ} (hp : 149 ≤ p) (h : (Encl.mk lo hi).Holds p r) :
    (roundBetween p lo hi).Of r := by
  unfold roundBetween
  split
  · rename_i hz
    obtain ⟨rfl, rfl⟩ := hz
    have hr : r = 0 := by
      have := (holds_exact_iff p (v := 0)).mp h
      simpa using this
    subst hr
    have hm : IsRoundedMag 0 (roundMag 149 0) := isRoundedMag_roundMag (by simp)
    exact ⟨⟨false, 0, rfl, by decide, by simpa [roundMag, roundShift] using hm, .inl rfl⟩, fun _ => rfl⟩
  split
  · rename_i hs
    obtain ⟨hr, hsign, y, z, hy, hz, hyz⟩ := h.magnitude hp hs
    split
    · rename_i ho
      have h1 := hy.overflow ho.1
      have h2 := hz.overflow ho.2
      refine le_of_mul_le_mul_right ?_ (pow_two_pos 149)
      rcases hyz with h3 | h3 <;> linarith [h3.1]
    split
    · rename_i ho he
      simp only at ho he hy hz hsign
      rw [← he] at hz ho
      have hm : IsRoundedMag (|r| * 2 ^ 149) (roundMag p lo.natAbs) :=
        hyz.elim (fun h3 => hy.between hz h3.1 h3.2) fun h3 => hz.between hy h3.1 h3.2
      split
      · rename_i h0
        exact ⟨hr, h0 ▸ hm⟩
      · exact ⟨⟨_, _, rfl, by omega, hm, .inr hsign⟩, fun h => absurd h hr⟩
    · trivial
  · trivial

/-- A real that rounds to zero rounds to either zero. -/
theorem roundsTo_zeros {r : ℝ} (h : IsRoundedMag (|r| * 2 ^ 149) 0) : RoundsTo r 0x00000000#32 ∧ RoundsTo r 0x80000000#32 :=
  ⟨⟨false, 0, rfl, by decide, h, .inl rfl⟩, ⟨true, 0, rfl, by decide, h, .inl rfl⟩⟩

/-- Settles O60: each answer of `roundBetween` is true of every real in the enclosure (`roundBetween_of`), and a real known exactly
is decided. -/
theorem roundNearestEven : Obligations.RoundNearestEven := by
  unfold Obligations.RoundNearestEven
  intro p lo hi r hp h
  have hof := roundBetween_of hp h
  refine ⟨fun w hw => ?_, fun hz => ?_, fun ho => ?_, fun he hr => ?_⟩
  · rw [hw] at hof
    exact ⟨hof.1.nearest, hof.2⟩
  · rw [hz] at hof
    obtain ⟨h0, h1⟩ := roundsTo_zeros hof.2
    exact ⟨hof.1, h0.nearest, h1.nearest⟩
  · rw [ho] at hof
    exact hof
  · subst he
    cases hb : roundBetween p lo lo with
    | word w => exact .inl ⟨w, rfl⟩
    | smallZero => exact .inr rfl
    | overflow =>
      rw [hb] at hof
      exact absurd hr (not_lt.mpr hof)
    | undecided => exact absurd hb (roundBetween_self p lo)

end Sys2Proof.Machine
end

section
/-! The default ROUND of an element: of the exact real, or of the boundary its enclosure holds (00_scope.md R12; log 6). -/

namespace Sys2Proof.Machine

/-! ## The boundary an undecided enclosure holds -/

/-- An enclosure's end as a rounded magnitude. -/
theorem isRoundedMag_natAbs (p : Nat) (v : Int) : IsRoundedMag (|(v : ℝ)| / 2 ^ (p - 149)) (roundMag p v.natAbs) :=
  isRoundedMag_roundMag (by rw [div_mul_cancel₀ _ (pow_two_pos _).ne', Nat.cast_natAbs, Int.cast_abs])

/-- Between two reals of different rounded magnitudes lies a rounding boundary, a multiple of 2^-150. -/
theorem IsRoundedMag.boundary {y z : ℝ} {m n : Nat} (hy : IsRoundedMag y m) (hz : IsRoundedMag z n) (h : m < n) :
    ∃ b : Nat, 2 * y ≤ b ∧ (b : ℝ) ≤ 2 * z := by
  obtain ⟨k, rfl⟩ : ∃ k, n = k + 1 := ⟨n - 1, by omega⟩
  refine ⟨magUnits m + magUnits (m + 1), by push_cast; exact hy.upper, ?_⟩
  have h1 : (magUnits m : ℝ) ≤ magUnits k := by exact_mod_cast magUnits_strictMono.monotone (by omega)
  have h2 : (magUnits (m + 1) : ℝ) ≤ magUnits (k + 1) := by exact_mod_cast magUnits_strictMono.monotone (by omega)
  push_cast
  linarith [hz.lower k rfl]

/-- An enclosure that does not tell how to round holds a multiple of 2^-150. -/
theorem exists_grid_of_undecided {p : Nat} {x : Encl} (hp : 150 ≤ p) (hx : x.lo ≤ x.hi)
    (hu : roundBetween p x.lo x.hi = .undecided) :
    ∃ g : Int, x.lo ≤ g * 2 ^ (p - 150) ∧ g * 2 ^ (p - 150) ≤ x.hi := by
  by_cases hs : 0 < x.lo ∨ x.hi < 0
  swap
  · exact ⟨0, by omega, by omega⟩
  have hP : (0 : ℝ) < 2 ^ (p - 150) := by positivity
  have h2 : (2 : ℝ) ^ (p - 149) = 2 * 2 ^ (p - 150) := by rw [show p - 149 = p - 150 + 1 by omega, pow_succ']
  have hne : roundMag p x.lo.natAbs ≠ roundMag p x.hi.natAbs := by
    intro he
    unfold roundBetween at hu
    rw [if_neg (by omega), if_pos hs, he] at hu
    split at hu
    · cases hu
    · split at hu
      · split at hu <;> cases hu
      · rename_i h; exact h rfl
  have half : ∀ v : Int, 2 * (|(v : ℝ)| / 2 ^ (p - 149)) = |(v : ℝ)| / 2 ^ (p - 150) := by
    intro v; rw [h2]; field_simp
  have hlo := isRoundedMag_natAbs p x.lo
  have hhi := isRoundedMag_natAbs p x.hi
  have hx' : (x.lo : ℝ) ≤ x.hi := by exact_mod_cast hx
  rcases hs with h | h
  · have h' : (0 : ℝ) < x.lo := by exact_mod_cast h
    have hle : |(x.lo : ℝ)| / 2 ^ (p - 149) ≤ |(x.hi : ℝ)| / 2 ^ (p - 149) := by
      rw [abs_of_pos h', abs_of_pos (h'.trans_le hx')]; gcongr
    obtain ⟨b, h1, h2⟩ := hlo.boundary hhi (lt_of_le_of_ne (hlo.mono hhi hle) hne)
    rw [half, abs_of_pos h', div_le_iff₀ hP] at h1
    rw [half, abs_of_pos (h'.trans_le hx'), le_div_iff₀ hP] at h2
    exact ⟨b, by exact_mod_cast h1, by exact_mod_cast h2⟩
  · have h' : (x.hi : ℝ) < 0 := by exact_mod_cast h
    have hle : |(x.hi : ℝ)| / 2 ^ (p - 149) ≤ |(x.lo : ℝ)| / 2 ^ (p - 149) := by
      rw [abs_of_neg h', abs_of_neg (hx'.trans_lt h')]; gcongr
    obtain ⟨b, h1, h2⟩ := hhi.boundary hlo (lt_of_le_of_ne (hhi.mono hlo hle) hne.symm)
    rw [half, abs_of_neg h', div_le_iff₀ hP] at h1
    rw [half, abs_of_neg (hx'.trans_lt h'), le_div_iff₀ hP] at h2
    refine ⟨-b, ?_, ?_⟩
    · have : (x.lo : ℝ) ≤ -(b * 2 ^ (p - 150)) := by linarith
      rw [neg_mul]
      exact_mod_cast this
    · have : -(b * 2 ^ (p - 150)) ≤ (x.hi : ℝ) := by linarith
      rw [neg_mul]
      exact_mod_cast this

/-- The boundary `gridPoint` finds is the least one not below the enclosure. -/
theorem gridPoint_le_iff (p : Nat) (x : Encl) (g : Int) : gridPoint p x ≤ g ↔ x.lo ≤ g * 2 ^ (p - 150) := by
  have h : -g ≤ -x.lo / ((2 ^ (p - 150) : Nat) : Int) ↔ -g * ((2 ^ (p - 150) : Nat) : Int) ≤ -x.lo :=
    Int.le_ediv_iff_mul_le (by positivity)
  unfold gridPoint ceilDiv
  push_cast at h ⊢
  rw [neg_mul] at h
  omega

/-- An undecided enclosure holds its `gridPoint`. -/
theorem holds_gridPoint {p : Nat} {x : Encl} (hp : 150 ≤ p) (hx : x.lo ≤ x.hi)
    (hu : roundBetween p x.lo x.hi = .undecided) : x.Holds p ((gridPoint p x : ℝ) / 2 ^ 150) := by
  obtain ⟨g, h1, h2⟩ := exists_grid_of_undecided hp hx hu
  have h3 := (gridPoint_le_iff p x _).mp le_rfl
  have h4 : gridPoint p x * 2 ^ (p - 150) ≤ x.hi :=
    (Int.mul_le_mul_of_nonneg_right ((gridPoint_le_iff p x g).mpr h1) (by positivity)).trans h2
  have e : (gridPoint p x : ℝ) / 2 ^ 150 * 2 ^ p = gridPoint p x * 2 ^ (p - 150) := by
    rw [show (2 : ℝ) ^ p = 2 ^ 150 * 2 ^ (p - 150) by rw [← pow_add, Nat.add_sub_cancel' hp]]
    field_simp
  unfold Encl.Holds
  rw [e]
  exact ⟨by exact_mod_cast h3, by exact_mod_cast h4⟩

theorem Encl.Holds.le {p : Nat} {x : Encl} {r : ℝ} (h : x.Holds p r) : x.lo ≤ x.hi := by
  exact_mod_cast h.1.trans h.2

/-- Two reals in one enclosure are no farther apart than it is wide. -/
theorem Encl.Near.dist {p : Nat} {x : Encl} {r t : ℝ} (h : x.Near p r) (hp : 200 ≤ p) (ht : x.Holds p t) :
    |t - r| ≤ 1 / 2 ^ 200 := by
  obtain ⟨⟨h1, h2⟩, hw⟩ := h
  obtain ⟨h3, h4⟩ := ht
  have hw' : (x.hi : ℝ) - x.lo ≤ 2 ^ (p - 200) := by exact_mod_cast hw
  have e : (2 : ℝ) ^ p = 2 ^ (p - 200) * 2 ^ 200 := by rw [← pow_add, Nat.sub_add_cancel hp]
  refine le_of_mul_le_mul_right ?_ (pow_two_pos p)
  have e1 : 1 / 2 ^ 200 * (2 : ℝ) ^ p = 2 ^ (p - 200) := by rw [e]; field_simp
  rw [e1, ← abs_of_pos (pow_two_pos p), ← abs_mul, sub_mul]
  exact abs_le.mpr ⟨by linarith, by linarith⟩

/-! ## The elements -/

/-- The element `e` stands for the real `r`: known exactly, or enclosed at most 2^-200 wide at first, and enclosed at every
precision `roundReal` may take a finer enclosure at. -/
inductive Elem.Stands (r : ℝ) : Elem → Prop
  | exact {v : Int} {finer : Nat → Encl} {isGrid : Int → Bool} (h : (Encl.exact v).Holds 149 r) :
      Elem.Stands r (.real 149 (Encl.exact v) finer isGrid)
  | enclosed {p : Nat} {x : Encl} {finer : Nat → Encl} {isGrid : Int → Bool} (hp : 200 ≤ p) (near : x.Near p r)
      (hfiner : ∀ q, 2 * p ≤ q → (finer q).Holds q r) : Elem.Stands r (.real p x finer isGrid)

/-- The real that `roundReal` rounds: the exact one, or one within 2^-200 of it where the exact one is no multiple of 2^-150. -/
theorem roundReal_of {p : Nat} {x : Encl} {finer : Nat → Encl} {isGrid : Int → Bool} {r : ℝ}
    (h : (Elem.real p x finer isGrid).Stands r) :
    ∃ t : ℝ, |t - r| ≤ 1 / 2 ^ 200 ∧ ((∃ v : Int, r * 2 ^ 150 = (v : ℝ)) → t = r) ∧ (roundReal p x finer isGrid).Of t := by
  have self : ∀ {R : Rounded}, R.Of r →
      ∃ t : ℝ, |t - r| ≤ 1 / 2 ^ 200 ∧ ((∃ v : Int, r * 2 ^ 150 = (v : ℝ)) → t = r) ∧ R.Of t :=
    fun hR => ⟨r, by simp, fun _ => rfl, hR⟩
  cases h with
  | exact h =>
    obtain ⟨_, h1 | ⟨q, _, h1⟩ | ⟨hu, _⟩⟩ := roundReal_cases 149 (Encl.exact _) finer isGrid
    · exact self (h1 ▸ roundBetween_of le_rfl h)
    · unfold roundReal
      split
      · rename_i hu; exact absurd hu (roundBetween_self 149 _)
      · exact self (roundBetween_of le_rfl h)
    · exact absurd hu (roundBetween_self 149 _)
  | enclosed hp near hfiner =>
    obtain ⟨_, h1 | ⟨q, hq, h1⟩ | ⟨hu, h1⟩⟩ := roundReal_cases p x finer isGrid
    · exact self (h1 ▸ roundBetween_of (by omega) near.1)
    · exact self (h1 ▸ roundBetween_of (by omega) (hfiner q hq))
    · have hg := holds_gridPoint (by omega) near.1.le hu
      have hd := near.dist hp hg
      refine ⟨gridPoint p x / 2 ^ 150, hd, ?_, h1 ▸ roundBetween_of (by omega) ?_⟩
      · rintro ⟨v, hv⟩
        have e : (gridPoint p x : ℝ) / 2 ^ 150 - r = ((gridPoint p x - v : Int) : ℝ) / 2 ^ 150 := by
          push_cast; rw [← hv]; field_simp
        rw [e, abs_div, abs_of_pos (pow_two_pos 150), div_le_iff₀ (pow_two_pos 150), ← Int.cast_abs] at hd
        have h0 : |gridPoint p x - v| < 1 := by
          have : ((|gridPoint p x - v| : Int) : ℝ) < (1 : Int) := hd.trans_lt (by norm_num)
          exact_mod_cast this
        rw [Int.abs_lt_one_iff] at h0
        rw [h0] at e
        simp only [Int.cast_zero, zero_div] at e
        linarith
      · exact holds_exact 150 (by field_simp)

/-- The word the default ROUND stores for an element that stands for `r` is the rounding of `r`, or of a real within 2^-200 of `r`
where `r` is no multiple of 2^-150, unless it overflows (R12). -/
theorem storedWord_roundsTo {s : State} {i : Instr} {idx : Nat} {e : Elem} {r : ℝ} (hn : s.params.num = .nearestEven)
    (h : e.Stands r) :
    ∃ t : ℝ, |t - r| ≤ 1 / 2 ^ 200 ∧ ((∃ v : Int, r * 2 ^ 150 = (v : ℝ)) → t = r) ∧
      (|t| < 2 ^ 128 - 2 ^ 103 →
        RoundsTo t (storedWord s i idx e) ∧ (t = 0 → storedWord s i idx e = 0x00000000#32)) := by
  cases e with
  | any => cases h
  | real p x finer isGrid =>
    obtain ⟨t, h1, h2, h3⟩ := roundReal_of h
    refine ⟨t, h1, h2, fun ht => ?_⟩
    unfold storedWord
    rw [hn]
    simp only [nearestWord]
    have hd := (roundReal_cases p x finer isGrid).1
    cases hR : roundReal p x finer isGrid with
    | word w =>
      rw [hR] at h3
      exact h3
    | smallZero =>
      rw [hR] at h3
      obtain ⟨z1, z2⟩ := roundsTo_zeros h3.2
      refine ⟨?_, fun h => absurd h h3.1⟩
      unfold roundedWord
      simp only
      split
      · exact z2
      · exact z1
    | overflow =>
      rw [hR] at h3
      exact absurd ht (not_lt.mpr h3)
    | undecided => exact absurd hR hd

end Sys2Proof.Machine
end

section
/-! How wide the enclosures are: each holds its real with an explicit radius of error (00_scope.md R11; log 6). -/

namespace Sys2Proof.Machine

/-! ## The radius of an enclosure -/

/-- The unit in the last place at precision `p`. -/
noncomputable def ulp (p : Nat) : ℝ := 1 / 2 ^ p

theorem ulp_pos (p : Nat) : 0 < ulp p := by unfold ulp; positivity

theorem ulp_mul_two_pow (p : Nat) : ulp p * 2 ^ p = 1 := by unfold ulp; field_simp

/-- The enclosure `x` at precision `p` holds `r` and reaches no farther than `ε` from it on either side. -/
structure Encl.Within (p : Nat) (x : Encl) (r ε : ℝ) : Prop where
  holds : x.Holds p r
  lo : (r - ε) * 2 ^ p ≤ x.lo
  hi : (x.hi : ℝ) ≤ (r + ε) * 2 ^ p

section
variable {p : Nat} {x y : Encl} {r s ε δ : ℝ}

theorem Encl.Within.mono (h : x.Within p r ε) (he : ε ≤ δ) : x.Within p r δ where
  holds := h.holds
  lo := le_trans (by gcongr) h.lo
  hi := h.hi.trans (by gcongr)

theorem Encl.Within.nonneg (h : x.Within p r ε) : 0 ≤ ε := by
  have h1 : (r - ε) * 2 ^ p ≤ r * 2 ^ p := h.lo.trans h.holds.1
  linarith [le_of_mul_le_mul_right h1 (pow_two_pos p)]

/-- An enclosure of radius 2^-201 is near. -/
theorem Encl.Within.near (h : x.Within p r ε) (hp : 200 ≤ p) (he : ε ≤ 1 / 2 ^ 201) : x.Near p r := by
  refine ⟨h.holds, ?_⟩
  have h1 := (h.mono he).lo
  have h2 := (h.mono he).hi
  have e : (2 : ℝ) ^ p = 2 ^ (p - 200) * 2 ^ 200 := by rw [← pow_add, Nat.sub_add_cancel hp]
  have h3 : (x.hi : ℝ) - x.lo ≤ 2 ^ (p - 200) := by
    have e1 : (r + 1 / 2 ^ 201) * 2 ^ p - (r - 1 / 2 ^ 201) * 2 ^ p = (2 : ℝ) ^ (p - 200) := by rw [e]; field_simp; ring
    linarith
  exact_mod_cast h3

theorem within_exact {v : Int} (h : r * 2 ^ p = (v : ℝ)) : (Encl.exact v).Within p r 0 where
  holds := holds_exact p h
  lo := by simp [Encl.exact, h]
  hi := by simp [Encl.exact, h]

theorem within_zero : (Encl.exact 0).Within p 0 0 := within_exact (by simp)

theorem within_ofInt (n : Int) : (Encl.ofInt p n).Within p (n : ℝ) 0 := within_exact (by push_cast; rfl)

theorem Encl.Within.add (hx : x.Within p r ε) (hy : y.Within p s δ) : (x.add y).Within p (r + s) (ε + δ) where
  holds := hx.holds.add hy.holds
  lo := by unfold Encl.add; push_cast; linarith [hx.lo, hy.lo]
  hi := by unfold Encl.add; push_cast; linarith [hx.hi, hy.hi]

theorem Encl.Within.neg (hx : x.Within p r ε) : x.neg.Within p (-r) ε where
  holds := hx.holds.neg
  lo := by unfold Encl.neg; push_cast; linarith [hx.hi]
  hi := by unfold Encl.neg; push_cast; linarith [hx.lo]

theorem Encl.Within.sub (hx : x.Within p r ε) (hy : y.Within p s δ) : (x.sub y).Within p (r - s) (ε + δ) := by
  unfold Encl.sub
  rw [sub_eq_add_neg]
  exact hx.add hy.neg

/-- `floorDiv` is less than one below the real quotient. -/
theorem lt_floorDiv (a : Int) {d : Nat} (hd : 0 < d) : (a : ℝ) / d - 1 ≤ (floorDiv a d : ℝ) := by
  have hd' : (0 : ℝ) < d := by exact_mod_cast hd
  have h : a < (floorDiv a d + 1) * d := Int.lt_ediv_add_one_mul_self a (by omega)
  have h' : (a : ℝ) ≤ (floorDiv a d + 1) * d := by exact_mod_cast h.le
  rw [← div_le_iff₀ hd'] at h'
  linarith

/-- `ceilDiv` is less than one above the real quotient. -/
theorem ceilDiv_lt (a : Int) {d : Nat} (hd : 0 < d) : (ceilDiv a d : ℝ) ≤ (a : ℝ) / d + 1 := by
  have h := lt_floorDiv (-a) hd
  unfold floorDiv at h
  unfold ceilDiv
  push_cast at *
  rw [neg_div] at h
  linarith

theorem Encl.Within.scale (hx : x.Within p r ε) (n : Nat) {d : Nat} (hd : 0 < d) :
    (x.scale n d).Within p (r * (n / d)) (ε * (n / d) + ulp p) := by
  have hd' : (0 : ℝ) < d := by exact_mod_cast hd
  have h1 := lt_floorDiv (x.lo * n) hd
  have h2 := ceilDiv_lt (x.hi * n) hd
  push_cast at h1 h2
  have e : ∀ t : ℝ, t * 2 ^ p * n / d = t * (n / d) * 2 ^ p := fun t => by ring
  refine ⟨hx.holds.scale n hd, ?_, ?_⟩
  · have h3 : (r - ε) * 2 ^ p * n / d ≤ x.lo * n / d := by gcongr; exact hx.lo
    rw [e] at h3
    show _ ≤ ((floorDiv (x.lo * n) d : Int) : ℝ)
    linarith [ulp_mul_two_pow p]
  · have h3 : x.hi * n / d ≤ (r + ε) * 2 ^ p * n / d := by gcongr; exact hx.hi
    rw [e] at h3
    show ((ceilDiv (x.hi * n) d : Int) : ℝ) ≤ _
    linarith [ulp_mul_two_pow p]

/-- A product of two numbers near `u` and `v` is near `u * v`. -/
theorem abs_mul_sub_mul_le {a b u v α β : ℝ} (ha : |a - u| ≤ α) (hb : |b - v| ≤ β) :
    |a * b - u * v| ≤ |u| * β + |v| * α + α * β := by
  have e : a * b - u * v = u * (b - v) + v * (a - u) + (a - u) * (b - v) := by ring
  rw [e]
  refine (abs_add_three _ _ _).trans ?_
  rw [abs_mul, abs_mul, abs_mul]
  have h0 : 0 ≤ α := (abs_nonneg _).trans ha
  gcongr

theorem Encl.Within.ends (h : x.Within p r ε) :
    |(x.lo : ℝ) - r * 2 ^ p| ≤ ε * 2 ^ p ∧ |(x.hi : ℝ) - r * 2 ^ p| ≤ ε * 2 ^ p :=
  ⟨abs_le.mpr ⟨by linarith [h.lo], by linarith [h.holds.1, mul_nonneg h.nonneg (pow_two_pos p).le]⟩,
    abs_le.mpr ⟨by linarith [h.holds.2, mul_nonneg h.nonneg (pow_two_pos p).le], by linarith [h.hi]⟩⟩

theorem Encl.Within.mul (hx : x.Within p r ε) (hy : y.Within p s δ) :
    (Encl.mul p x y).Within p (r * s) (|r| * δ + |s| * ε + ε * δ + ulp p) := by
  have hP := pow_two_pos p
  obtain ⟨xl, xh⟩ := hx.ends
  obtain ⟨yl, yh⟩ := hy.ends
  set B := (|r| * δ + |s| * ε + ε * δ) * 2 ^ p with hB
  have corner : ∀ a b : ℝ, |a - r * 2 ^ p| ≤ ε * 2 ^ p → |b - s * 2 ^ p| ≤ δ * 2 ^ p →
      |a * b - r * 2 ^ p * (s * 2 ^ p)| ≤ B * 2 ^ p := by
    intro a b ha hb
    refine (abs_mul_sub_mul_le ha hb).trans (le_of_eq ?_)
    rw [abs_mul, abs_mul, abs_of_pos hP, hB]
    ring
  have c1 := abs_le.mp (corner _ _ xl yl)
  have c2 := abs_le.mp (corner _ _ xl yh)
  have c3 := abs_le.mp (corner _ _ xh yl)
  have c4 := abs_le.mp (corner _ _ xh yh)
  refine ⟨hx.holds.mul hy.holds, ?_, ?_⟩
  · have h1 := lt_floorDiv (min (min (x.lo * y.lo) (x.lo * y.hi)) (min (x.hi * y.lo) (x.hi * y.hi)))
      (show 0 < 2 ^ p by positivity)
    push_cast at h1
    have h2 : (r * s * 2 ^ p - B) * 2 ^ p ≤
        min (min ((x.lo : ℝ) * y.lo) (x.lo * y.hi)) (min (x.hi * y.lo) (x.hi * y.hi)) :=
      le_min (le_min (by linarith) (by linarith)) (le_min (by linarith) (by linarith))
    rw [← le_div_iff₀ hP] at h2
    refine le_trans ?_ h1
    linarith [ulp_mul_two_pow p]
  · have h1 := ceilDiv_lt (max (max (x.lo * y.lo) (x.lo * y.hi)) (max (x.hi * y.lo) (x.hi * y.hi)))
      (show 0 < 2 ^ p by positivity)
    push_cast at h1
    have h2 : max (max ((x.lo : ℝ) * y.lo) (x.lo * y.hi)) (max (x.hi * y.lo) (x.hi * y.hi)) ≤
        (r * s * 2 ^ p + B) * 2 ^ p :=
      max_le (max_le (by linarith) (by linarith)) (max_le (by linarith) (by linarith))
    rw [← div_le_iff₀ hP] at h2
    refine h1.trans ?_
    linarith [ulp_mul_two_pow p]

end

/-! ## Alternating series -/

/-- What an alternating series with terms falling from `N` on leaves out is at most the first term left out. -/
theorem alternating_remainder {f : ℕ → ℝ} {l : ℝ} (h : HasSum (fun n => (-1) ^ n * f n) l) (N : ℕ)
    (hf : ∀ n, N ≤ n → f (n + 1) ≤ f n) : |l - ∑ i ∈ Finset.range N, (-1) ^ i * f i| ≤ f N := by
  have hanti : Antitone fun k => f (N + k) := antitone_nat_of_succ_le fun k => hf (N + k) (by omega)
  have hs : HasSum (fun k => (-1) ^ k * f (N + k)) ((-1) ^ N * (l - ∑ i ∈ Finset.range N, (-1) ^ i * f i)) := by
    have e : ∀ k, (-1 : ℝ) ^ k * f (N + k) = (-1) ^ N * ((-1) ^ (k + N) * f (k + N)) := by
      intro k
      rw [pow_add, Nat.add_comm N k]
      have : (-1 : ℝ) ^ N * (-1) ^ N = 1 := by rw [← mul_pow]; simp
      linear_combination -((-1) ^ k * f (k + N)) * this
    simp only [e]
    exact ((hasSum_nat_add_iff' N).mpr h).mul_left _
  have h1 := hanti.alternating_series_le_tendsto hs.tendsto_sum_nat 0
  have h2 := hanti.tendsto_le_alternating_series hs.tendsto_sum_nat 0
  simp only [Nat.mul_zero, Finset.range_zero, Finset.sum_empty, Nat.zero_add, Finset.sum_range_one, pow_zero, one_mul,
    Nat.add_zero] at h1 h2
  have h3 : |l - ∑ i ∈ Finset.range N, (-1) ^ i * f i| = |(-1) ^ N * (l - ∑ i ∈ Finset.range N, (-1) ^ i * f i)| := by
    rw [abs_mul, abs_pow]; simp
  rw [h3, abs_of_nonneg h1]
  exact h2

/-- An enclosure of a partial sum widened by the first term left out holds the sum of the series. -/
theorem within_remainder {p : Nat} {acc term : Encl} {l S T α β : ℝ} (hacc : acc.Within p S α) (hterm : term.Within p T β)
    (h : |l - S| ≤ T) : (Encl.mk (acc.lo - term.hi) (acc.hi + term.hi)).Within p l (α + β + 2 * T) := by
  obtain ⟨h1, h2⟩ := abs_le.mp h
  have hP := pow_two_pos p
  have e1 : (S - T) * 2 ^ p ≤ l * 2 ^ p := by gcongr; linarith
  have e2 : l * 2 ^ p ≤ (S + T) * 2 ^ p := by gcongr; linarith
  have e3 : (l - 2 * T) * 2 ^ p ≤ (S - T) * 2 ^ p := mul_le_mul_of_nonneg_right (by linarith) hP.le
  have e4 : (S + T) * 2 ^ p ≤ (l + 2 * T) * 2 ^ p := mul_le_mul_of_nonneg_right (by linarith) hP.le
  refine ⟨⟨?_, ?_⟩, ?_, ?_⟩ <;> push_cast
  · linarith [hacc.holds.1, hterm.holds.2]
  · linarith [hacc.holds.2, hterm.holds.2]
  · linarith [hacc.lo, hterm.hi]
  · linarith [hacc.hi, hterm.hi]

/-- A partial sum of an alternating series with one more term. -/
theorem within_alternate {p : Nat} {acc term : Encl} {f : ℕ → ℝ} {j : ℕ} {α β : ℝ}
    (hacc : acc.Within p (∑ i ∈ Finset.range j, (-1) ^ i * f i) α) (hterm : term.Within p (f j) β) :
    (if j % 2 = 0 then acc.add term else acc.sub term).Within p (∑ i ∈ Finset.range (j + 1), (-1) ^ i * f i) (α + β) := by
  rw [Finset.sum_range_succ]
  split
  · rename_i h
    rw [(Nat.even_iff.mpr h).neg_one_pow, one_mul]
    exact hacc.add hterm
  · rename_i h
    rw [(Nat.odd_iff.mpr (by omega)).neg_one_pow, neg_one_mul, ← sub_eq_add_neg]
    exact hacc.sub hterm

/-! ## pi -/

/-- A term of the series of `arctan (1 / x)`, its sign left out. -/
noncomputable def arctanTerm (x k : ℕ) : ℝ := (1 / x : ℝ) ^ (2 * k + 1) / ((2 * k + 1 : ℕ) : ℝ)

section
variable {p x : Nat}

theorem hasSum_arctanTerm (hx : 2 ≤ x) : HasSum (fun n => (-1 : ℝ) ^ n * arctanTerm x n) (Real.arctan (1 / x)) := by
  have hx1 : (1 : ℝ) / x ≤ 1 / 2 := by gcongr; exact_mod_cast hx
  have := Real.hasSum_arctan (x := 1 / x) (by rw [Real.norm_of_nonneg (by positivity)]; linarith)
  simpa only [arctanTerm, mul_div_assoc] using this

theorem arctanTerm_succ_le (hx : 2 ≤ x) (n : ℕ) : arctanTerm x (n + 1) ≤ arctanTerm x n := by
  have hx1 : (1 : ℝ) / x ≤ 1 / 2 := by gcongr; exact_mod_cast hx
  unfold arctanTerm
  gcongr ?_ / ?_
  · exact pow_le_pow_of_le_one (by positivity) (by linarith) (by omega)
  · exact_mod_cast (by omega : 2 * n + 1 ≤ 2 * (n + 1) + 1)

theorem arctanTerm_le_pow (x k : ℕ) : arctanTerm x k ≤ (1 / x : ℝ) ^ (2 * k + 1) :=
  div_le_self (by positivity) (by exact_mod_cast (by omega : 1 ≤ 2 * k + 1))

/-- A term of the series from the power it has. -/
theorem arctanTerm_within {power : Encl} {k : Nat} (h : power.Within p ((1 / x : ℝ) ^ (2 * k + 1)) (2 * ulp p)) :
    (power.scale 1 (2 * k + 1)).Within p (arctanTerm x k) (3 * ulp p) := by
  have hu := ulp_pos p
  have h1 := h.scale 1 (d := 2 * k + 1) (by omega)
  have e : (1 / x : ℝ) ^ (2 * k + 1) * ((1 : ℕ) / (2 * k + 1 : ℕ)) = arctanTerm x k := by
    unfold arctanTerm; push_cast; ring
  rw [e] at h1
  refine h1.mono ?_
  have h2 : ((1 : ℕ) : ℝ) / ((2 * k + 1 : ℕ) : ℝ) ≤ 1 := by
    rw [div_le_one (by positivity)]; push_cast; linarith [(Nat.cast_nonneg k : (0 : ℝ) ≤ k)]
  nlinarith

/-- The next power of the series. -/
theorem arctanPower_within (hx : 2 ≤ x) {power : Encl} {k : Nat}
    (h : power.Within p ((1 / x : ℝ) ^ (2 * k + 1)) (2 * ulp p)) :
    (power.scale 1 (x * x)).Within p ((1 / x : ℝ) ^ (2 * (k + 1) + 1)) (2 * ulp p) := by
  have hx2 : (2 : ℝ) ≤ x := by exact_mod_cast hx
  have hu := ulp_pos p
  have h1 := h.scale 1 (d := x * x) (by positivity)
  have e : (1 / x : ℝ) ^ (2 * k + 1) * ((1 : ℕ) / (x * x : ℕ)) = (1 / x : ℝ) ^ (2 * (k + 1) + 1) := by
    rw [show 2 * (k + 1) + 1 = 2 * k + 1 + 2 by ring, pow_add _ _ 2]; push_cast; field_simp
  rw [e] at h1
  refine h1.mono ?_
  have h2 : ((1 : ℕ) : ℝ) / ((x * x : ℕ) : ℝ) ≤ 1 / 4 := by push_cast; gcongr; nlinarith
  nlinarith

/-- The series of `arctan (1 / x)`, from the term `j` on. -/
theorem arctanTerms_within (hx : 2 ≤ x) (n j : Nat) {power acc : Encl}
    (hpow : power.Within p ((1 / x : ℝ) ^ (2 * j + 1)) (2 * ulp p))
    (hacc : acc.Within p (∑ i ∈ Finset.range j, (-1 : ℝ) ^ i * arctanTerm x i) (j * (3 * ulp p))) :
    (arctanTerms x n j power acc).Within p (Real.arctan (1 / x))
      (((j + n : ℕ) + 1) * (3 * ulp p) + 2 * (1 / x : ℝ) ^ (2 * (j + n) + 1)) := by
  induction n generalizing j power acc with
  | zero =>
    have hrem := alternating_remainder (hasSum_arctanTerm hx) j fun n _ => arctanTerm_succ_le hx n
    refine (within_remainder hacc (arctanTerm_within hpow) hrem).mono ?_
    have h1 := arctanTerm_le_pow x j
    simp only [Nat.add_zero]
    linarith
  | succ n ih =>
    unfold arctanTerms
    have hacc' := within_alternate hacc (arctanTerm_within hpow)
    have e : (j : ℝ) * (3 * ulp p) + 3 * ulp p = ((j + 1 : ℕ) : ℝ) * (3 * ulp p) := by push_cast; ring
    rw [e] at hacc'
    have := ih (j + 1) (arctanPower_within hx hpow) hacc'
    rwa [show j + 1 + n = j + (n + 1) by ring] at this

end

theorem arctanInv_within (p : Nat) {x : Nat} (hx : 2 ≤ x) :
    (arctanInv p x).Within p (Real.arctan (1 / x)) ((3 / 2 * p + 11) * ulp p) := by
  have hx2 : (2 : ℝ) ≤ x := by exact_mod_cast hx
  have hpow : ((Encl.ofInt p 1).scale 1 x).Within p ((1 / x : ℝ) ^ (2 * 0 + 1)) (2 * ulp p) := by
    have h := (within_ofInt (p := p) 1).scale 1 (d := x) (by omega)
    simp only [Int.cast_one, one_mul, zero_mul, zero_add, Nat.cast_one] at h
    simpa using h.mono (by linarith [ulp_pos p])
  refine (arctanTerms_within hx (p / 2 + 2) 0 hpow (by simpa using within_zero)).mono ?_
  have h1 : (1 / x : ℝ) ^ (2 * (0 + (p / 2 + 2)) + 1) ≤ ulp p := by
    calc (1 / x : ℝ) ^ (2 * (0 + (p / 2 + 2)) + 1) ≤ (1 / 2 : ℝ) ^ (2 * (0 + (p / 2 + 2)) + 1) := by gcongr
      _ ≤ (1 / 2 : ℝ) ^ p := pow_le_pow_of_le_one (by norm_num) (by norm_num) (by omega)
      _ = ulp p := by unfold ulp; rw [one_div_pow]
  have h2 : ((0 + (p / 2 + 2) : ℕ) : ℝ) ≤ p / 2 + 2 := by
    have : ((p / 2 : ℕ) : ℝ) ≤ (p : ℝ) / 2 := by exact_mod_cast Nat.cast_div_le (α := ℝ) (m := p) (n := 2)
    push_cast; linarith
  have h3 : (((0 + (p / 2 + 2) : ℕ) : ℝ) + 1) * (3 * ulp p) ≤ (p / 2 + 2 + 1) * (3 * ulp p) := by
    have := ulp_pos p
    gcongr
  linarith

/-- Machin's formula. -/
theorem piEncl_within (p : Nat) : (piEncl p).Within p Real.pi ((30 * p + 222) * ulp p) := by
  have h5 := (arctanInv_within p (x := 5) (by decide)).scale 16 (d := 1) one_pos
  have h239 := (arctanInv_within p (x := 239) (by decide)).scale 4 (d := 1) one_pos
  have h := h5.sub h239
  have e : Real.arctan (1 / (5 : ℕ)) * ((16 : ℕ) / (1 : ℕ)) - Real.arctan (1 / (239 : ℕ)) * ((4 : ℕ) / (1 : ℕ)) = Real.pi := by
    have := Real.four_mul_arctan_inv_5_sub_arctan_inv_239
    push_cast
    simp only [one_div, div_one]
    linarith
  rw [e] at h
  exact h.mono (by push_cast; ring_nf; linarith [ulp_pos p])

end Sys2Proof.Machine
end

section
/-! The enclosures of the cosine (43_tns.md R144; 44_filterbank.md R161, R163). -/

namespace Sys2Proof.Machine

/-! ## How small a unit in the last place is -/

theorem succ_pow_four_le {n : Nat} (hn : 384 ≤ n) : (n + 1) ^ 4 ≤ 2 * n ^ 4 := by
  have h1 : (n + 1) * 384 ≤ n * 385 := by omega
  have h2 : ((n + 1) * 384) ^ 4 ≤ (n * 385) ^ 4 := Nat.pow_le_pow_left h1 4
  rw [mul_pow, mul_pow] at h2
  norm_num at h2
  omega

theorem pow_four_mul_le {p : Nat} (hp : 384 ≤ p) : p ^ 4 * (2 ^ 200 * 2 ^ 149) ≤ 2 ^ p := by
  induction p, hp using Nat.le_induction with
  | base =>
    rw [show 384 = 192 + 192 from rfl, pow_add 2 192 192]
    norm_num
  | succ n hn ih =>
    calc (n + 1) ^ 4 * (2 ^ 200 * 2 ^ 149) ≤ 2 * n ^ 4 * (2 ^ 200 * 2 ^ 149) := Nat.mul_le_mul_right _ (succ_pow_four_le hn)
      _ = 2 * (n ^ 4 * (2 ^ 200 * 2 ^ 149)) := by ring
      _ ≤ 2 * 2 ^ n := Nat.mul_le_mul_left _ ih
      _ = 2 ^ (n + 1) := by ring

/-- At every precision FB and TNS use, p^4 units in the last place are less than 2^-349. -/
theorem pow_four_mul_ulp {p : Nat} (hp : 384 ≤ p) : (p : ℝ) ^ 4 * ulp p ≤ 1 / (2 ^ 200 * 2 ^ 149) := by
  unfold ulp
  rw [mul_one_div, div_le_div_iff₀ (pow_two_pos p) (by positivity), one_mul]
  exact_mod_cast pow_four_mul_le hp

/-- The same for a lower power of `p`. -/
theorem pow_mul_ulp {p k : Nat} (hp : 384 ≤ p) (hk : k ≤ 4) : (p : ℝ) ^ k * ulp p ≤ 1 / (2 ^ 200 * 2 ^ 149) := by
  refine le_trans ?_ (pow_four_mul_ulp hp)
  have h1 : (1 : ℝ) ≤ p := by exact_mod_cast (by omega : 1 ≤ p)
  have := ulp_pos p
  gcongr

/-! ## The series of the cosine -/

/-- A term of the cosine's series, its sign left out. -/
noncomputable def cosTerm (x : ℝ) (k : ℕ) : ℝ := (x ^ 2) ^ k / ((2 * k).factorial : ℝ)

theorem cosTerm_nonneg (x : ℝ) (k : ℕ) : 0 ≤ cosTerm x k := by
  unfold cosTerm
  positivity

theorem cosTerm_zero (x : ℝ) : cosTerm x 0 = 1 := by simp [cosTerm]

theorem cosTerm_one (x : ℝ) : cosTerm x 1 = x ^ 2 / 2 := by simp [cosTerm]

/-- Each term is the one before times `x^2 / ((2k + 1) (2k + 2))`. -/
theorem cosTerm_succ (x : ℝ) (k : ℕ) :
    cosTerm x (k + 1) = cosTerm x k * x ^ 2 * ((1 : ℕ) / ((2 * k + 1) * (2 * k + 2) : ℕ)) := by
  unfold cosTerm
  rw [show 2 * (k + 1) = 2 * k + 1 + 1 by ring, Nat.factorial_succ, Nat.factorial_succ, pow_succ]
  push_cast
  field_simp
  ring

theorem cosTerm_coef {k : ℕ} (hk : 1 ≤ k) : ((1 : ℕ) : ℝ) / ((2 * k + 1) * (2 * k + 2) : ℕ) ≤ 1 / 12 := by
  have : (1 : ℝ) ≤ k := by exact_mod_cast hk
  push_cast
  gcongr
  nlinarith

/-- The terms fall from the second one on. -/
theorem cosTerm_succ_le {x : ℝ} (hx : x ^ 2 ≤ 5 / 2) {k : ℕ} (hk : 1 ≤ k) : cosTerm x (k + 1) ≤ cosTerm x k := by
  rw [cosTerm_succ, mul_assoc]
  refine mul_le_of_le_one_right (cosTerm_nonneg x k) ?_
  calc _ ≤ 5 / 2 * (1 / 12 : ℝ) := mul_le_mul hx (cosTerm_coef hk) (by positivity) (by norm_num)
    _ ≤ 1 := by norm_num

theorem hasSum_cosTerm (x : ℝ) : HasSum (fun n => (-1 : ℝ) ^ n * cosTerm x n) (Real.cos x) := by
  have := Real.hasSum_cos x
  simpa only [cosTerm, mul_div_assoc, pow_mul] using this

/-- The series from its term `j >= 1` on, where the terms fall; `W` is a radius every term keeps. -/
theorem cosTerms_within {p : Nat} {t : Encl} {x τ W : ℝ} (ht : t.Within p (x ^ 2) τ) (hx : x ^ 2 ≤ 5 / 2)
    (hW : 5 / 4 * τ + 5 / 2 * W + W * τ + 13 * ulp p ≤ 12 * W) (n j : Nat) {term acc : Encl} (hj : 1 ≤ j)
    (hterm : term.Within p (cosTerm x j) W) (hT : cosTerm x j ≤ 5 / 4)
    (hacc : acc.Within p (∑ i ∈ Finset.range j, (-1 : ℝ) ^ i * cosTerm x i) (j * W)) :
    (cosTerms p t n j term acc).Within p (Real.cos x) (((j + n : ℕ) + 1) * W + 2 * cosTerm x (j + n)) := by
  have hu := ulp_pos p
  induction n generalizing j term acc with
  | zero =>
    have hrem := alternating_remainder (hasSum_cosTerm x) j fun n hn => cosTerm_succ_le hx (by omega)
    refine (within_remainder hacc hterm hrem).mono ?_
    simp only [Nat.add_zero]
    linarith
  | succ n ih =>
    unfold cosTerms
    have hterm' : ((term.mul p t).scale 1 ((2 * j + 1) * (2 * j + 2))).Within p (cosTerm x (j + 1)) W := by
      rw [cosTerm_succ]
      refine ((hterm.mul ht).scale 1 (by positivity)).mono ?_
      have hT0 := cosTerm_nonneg x j
      rw [abs_of_nonneg hT0, abs_of_nonneg (sq_nonneg x)]
      have hτ := ht.nonneg
      have hW0 := hterm.nonneg
      calc _ ≤ (5 / 4 * τ + 5 / 2 * W + W * τ + ulp p) * (1 / 12) + ulp p :=
            add_le_add_left (mul_le_mul (by gcongr) (cosTerm_coef hj) (by positivity) (by positivity)) _
        _ ≤ W := by linarith
    have hacc' := within_alternate hacc hterm
    have e : (j : ℝ) * W + W = ((j + 1 : ℕ) : ℝ) * W := by push_cast; ring
    rw [e] at hacc'
    have := ih (j + 1) (by omega) hterm' ((cosTerm_succ_le hx hj).trans hT) hacc'
    rwa [show j + 1 + n = j + (n + 1) by ring] at this

/-- The factorials outgrow the powers of the cosine's series and the precision. -/
theorem pow_le_factorial {J : Nat} (hJ : 56 ≤ J) : 5 ^ J * 128 ^ J ≤ 2 ^ 56 * (2 * J).factorial := by
  induction J, hJ using Nat.le_induction with
  | base => norm_num [Nat.factorial]
  | succ n hn ih =>
    calc 5 ^ (n + 1) * 128 ^ (n + 1) = 640 * (5 ^ n * 128 ^ n) := by ring
      _ ≤ ((2 * n + 2) * (2 * n + 1)) * (2 ^ 56 * (2 * n).factorial) := Nat.mul_le_mul (by nlinarith) ih
      _ = 2 ^ 56 * (2 * (n + 1)).factorial := by
        rw [show 2 * (n + 1) = 2 * n + 1 + 1 by ring, Nat.factorial_succ, Nat.factorial_succ]; ring

/-- The first term of the cosine's series that is left out is below half a unit in the last place. -/
theorem cosTerm_le {p J : Nat} {x : ℝ} (hJ : 56 ≤ J) (hp : p + 57 ≤ 8 * J) (hx : x ^ 2 ≤ 5 / 2) :
    2 * cosTerm x J ≤ ulp p := by
  have h1 : (5 : ℝ) ^ J * 128 ^ J ≤ 2 ^ 56 * (2 * J).factorial := by exact_mod_cast pow_le_factorial hJ
  have h2 : (2 : ℝ) ^ p * 2 ^ 57 ≤ 2 ^ (8 * J) := by
    rw [← pow_add]; exact pow_le_pow_right₀ (by norm_num) hp
  have hf : (0 : ℝ) < (2 * J).factorial := by positivity
  unfold ulp cosTerm
  rw [← mul_div_assoc, div_le_div_iff₀ hf (pow_two_pos p), one_mul]
  calc 2 * (x ^ 2) ^ J * 2 ^ p ≤ 2 * (5 / 2) ^ J * 2 ^ p := by gcongr
    _ = (5 / 2) ^ J * (2 ^ p * 2 ^ 57) / 2 ^ 56 := by field_simp
    _ ≤ (5 / 2) ^ J * 2 ^ (8 * J) / 2 ^ 56 := by gcongr
    _ = 5 ^ J * 128 ^ J / 2 ^ 56 := by
      rw [pow_mul, ← mul_pow, ← mul_pow]; norm_num
    _ ≤ _ := by rw [div_le_iff₀ (pow_two_pos 56)]; linarith

theorem cosOfSquare_within {p : Nat} (hp : 384 ≤ p) {t : Encl} {x : ℝ} (hx : x ^ 2 ≤ 5 / 2)
    (ht : t.Within p (x ^ 2) (52 * p * ulp p)) : (cosOfSquare p t).Within p (Real.cos x) (18 * p ^ 2 * ulp p) := by
  have hu := ulp_pos p
  have hp' : (384 : ℝ) ≤ p := by exact_mod_cast hp
  have hpu : (p : ℝ) * ulp p ≤ 1 / (2 ^ 200 * 2 ^ 149) := by simpa using pow_mul_ulp hp (k := 1) (by decide)
  have hpu0 : 0 < (p : ℝ) * ulp p := by positivity
  have hu' : 384 * ulp p ≤ p * ulp p := by gcongr
  set W := 106 * (p * ulp p) with hW
  have hJ : p / 8 + 8 = p / 8 + 7 + 1 := rfl
  -- the first term is exact, the second starts the falling ones
  have h0 : (Encl.ofInt p 1).Within p 1 0 := by simpa using within_ofInt (p := p) 1
  have hacc : ((Encl.exact 0).add (Encl.ofInt p 1)).Within p
      (∑ i ∈ Finset.range 1, (-1 : ℝ) ^ i * cosTerm x i) ((1 : ℕ) * W) := by
    simpa [cosTerm_zero] using (within_zero.add h0).mono (by simp; positivity)
  have hterm : (((Encl.ofInt p 1).mul p t).scale 1 ((2 * 0 + 1) * (2 * 0 + 2))).Within p
      (cosTerm x 1) W := by
    have h := (h0.mul ht).scale 1 (d := (2 * 0 + 1) * (2 * 0 + 2)) (by decide)
    have e : 1 * x ^ 2 * ((1 : ℕ) / ((2 * 0 + 1) * (2 * 0 + 2) : ℕ)) = cosTerm x 1 := by rw [cosTerm_succ, cosTerm_zero]
    rw [e] at h
    refine h.mono ?_
    norm_num
    linarith
  have h := cosTerms_within (W := W) ht hx (by
    have : W * (52 * p * ulp p) ≤ W * (1 / 1000) := by
      gcongr
      calc 52 * p * ulp p = 52 * (p * ulp p) := by ring
        _ ≤ 52 * (1 / (2 ^ 200 * 2 ^ 149)) := by gcongr
        _ ≤ _ := by norm_num
    linarith) (p / 8 + 7) 1 le_rfl hterm (by rw [cosTerm_one]; linarith) hacc
  unfold cosOfSquare
  rw [hJ]
  unfold cosTerms
  refine (h.mono ?_)
  have hT := cosTerm_le (p := p) (J := 1 + (p / 8 + 7)) (by omega) (by omega) hx
  have hn : ((1 + (p / 8 + 7) : ℕ) : ℝ) + 1 ≤ p / 6 := by
    have : ((p / 8 : ℕ) : ℝ) ≤ (p : ℝ) / 8 := by exact_mod_cast Nat.cast_div_le (α := ℝ) (m := p) (n := 8)
    push_cast; linarith
  calc _ ≤ p / 6 * W + ulp p := by gcongr
    _ = 106 / 6 * (p ^ 2 * ulp p) + ulp p := by rw [hW]; ring
    _ ≤ 18 * p ^ 2 * ulp p := by nlinarith

/-! ## The cosine of a fraction of pi -/

/-- An angle up to the right angle: the square of its enclosure. -/
theorem square_within {p n d : Nat} (hp : 384 ≤ p) (hd : 0 < d) (h : 2 * n ≤ d) :
    (((piEncl p).scale n d).mul p ((piEncl p).scale n d)).Within p ((Real.pi * (n / d)) ^ 2) (52 * p * ulp p) ∧
      (Real.pi * (n / d)) ^ 2 ≤ 5 / 2 := by
  have hu := ulp_pos p
  have hp' : (384 : ℝ) ≤ p := by exact_mod_cast hp
  have hd' : (0 : ℝ) < d := by exact_mod_cast hd
  have hq : (n : ℝ) / d ≤ 1 / 2 := by
    rw [div_le_iff₀ hd']
    have : (2 * n : ℝ) ≤ d := by exact_mod_cast h
    linarith
  have hq0 : (0 : ℝ) ≤ n / d := by positivity
  have hpi := Real.pi_lt_d2
  have hpi0 := Real.pi_pos
  have hx : |Real.pi * ((n : ℝ) / d)| ≤ 158 / 100 := by
    rw [abs_of_nonneg (by positivity)]
    nlinarith
  have h1 : ((piEncl p).scale n d).Within p (Real.pi * (n / d)) (16 * (p * ulp p)) := by
    refine ((piEncl_within p).scale n hd).mono ?_
    have : (30 * (p : ℝ) + 222) * ulp p * (n / d) ≤ (30 * p + 222) * ulp p * (1 / 2) := by gcongr
    nlinarith
  constructor
  · rw [sq]
    refine (h1.mul h1).mono ?_
    have hpu : (p : ℝ) * ulp p ≤ 1 / (2 ^ 200 * 2 ^ 149) := by simpa using pow_mul_ulp hp (k := 1) (by decide)
    have hpu0 : 0 < (p : ℝ) * ulp p := by positivity
    have h2 : |Real.pi * ((n : ℝ) / d)| * (16 * (p * ulp p)) ≤ 158 / 100 * (16 * (p * ulp p)) := by gcongr
    have h3 : 16 * ((p : ℝ) * ulp p) * (16 * (p * ulp p)) ≤ 1 / 10 * (p * ulp p) := by
      have : 16 * (p * ulp p) * 16 ≤ (1 / 10 : ℝ) :=
        calc 16 * (p * ulp p) * 16 ≤ 16 * (1 / (2 ^ 200 * 2 ^ 149)) * (16 : ℝ) := by gcongr
          _ ≤ 1 / 10 := by norm_num
      nlinarith
    nlinarith
  · calc (Real.pi * ((n : ℝ) / d)) ^ 2 = |Real.pi * ((n : ℝ) / d)| ^ 2 := (sq_abs _).symm
      _ ≤ (158 / 100) ^ 2 := by gcongr
      _ ≤ 5 / 2 := by norm_num

theorem cosPiUpper_within {p n d : Nat} (hp : 384 ≤ p) (hd : 0 < d) (hn : n ≤ d) :
    (cosPiUpper p (piEncl p) n d).Within p (Real.cos (Real.pi * n / d)) (18 * p ^ 2 * ulp p) := by
  have hd' : (d : ℝ) ≠ 0 := by exact_mod_cast hd.ne'
  unfold cosPiUpper
  split
  · rename_i h
    obtain ⟨h1, h2⟩ := square_within hp hd h
    rw [mul_div_assoc]
    exact cosOfSquare_within hp h2 h1
  · rename_i h
    obtain ⟨h1, h2⟩ := square_within hp hd (n := d - n) (by omega)
    have h3 := (cosOfSquare_within hp h2 h1).neg
    have e : Real.pi * ((d - n : ℕ) / d : ℝ) = Real.pi - Real.pi * n / d := by
      rw [Nat.cast_sub hn]; field_simp
    rwa [e, Real.cos_pi_sub, neg_neg] at h3

/-- The enclosure of `cos(pi n / d)` at every precision FB and TNS use. -/
theorem cosPi_within {p d : Nat} (hp : 384 ≤ p) (hd : 0 < d) (n : Nat) :
    (cosPi p (piEncl p) n d).Within p (Real.cos (Real.pi * n / d)) (18 * p ^ 2 * ulp p) := by
  have hd' : (d : ℝ) ≠ 0 := by exact_mod_cast hd.ne'
  have hr := Nat.mod_lt n (show 0 < 2 * d by omega)
  have hdm := Nat.div_add_mod n (2 * d)
  set r := n % (2 * d) with hrd
  have e : Real.cos (Real.pi * n / d) = Real.cos (Real.pi * r / d) := by
    have h1 : Real.pi * n / d = Real.pi * r / d + (n / (2 * d) : ℕ) * (2 * Real.pi) := by
      conv_lhs => rw [← hdm]
      push_cast
      field_simp
      ring
    rw [h1, Real.cos_add_nat_mul_two_pi]
  unfold cosPi
  simp only [← hrd]
  rw [e]
  split
  · rename_i h
    exact cosPiUpper_within hp hd h
  · rename_i h
    have h1 := cosPiUpper_within hp hd (n := 2 * d - r) (by omega)
    have e2 : Real.pi * ((2 * d - r : ℕ) : ℝ) / d = 2 * Real.pi - Real.pi * r / d := by
      rw [Nat.cast_sub (by omega)]; push_cast; field_simp
    rwa [e2, Real.cos_two_pi_sub] at h1

/-- The enclosure of `sin(pi n / d)`. -/
theorem sinPi_within {p d : Nat} (hp : 384 ≤ p) (hd : 0 < d) (n : Nat) :
    ((enclArith p).sinPi n d).Within p (Real.sin (Real.pi * n / d)) (18 * p ^ 2 * ulp p) := by
  have hd' : (d : ℝ) ≠ 0 := by exact_mod_cast hd.ne'
  have h := cosPi_within hp (d := 2 * d) (by omega) (2 * n + 3 * d)
  have e : Real.cos (Real.pi * ((2 * n + 3 * d : ℕ) : ℝ) / ((2 * d : ℕ) : ℝ)) = Real.sin (Real.pi * n / d) := by
    have h1 : Real.pi * ((2 * n + 3 * d : ℕ) : ℝ) / ((2 * d : ℕ) : ℝ) =
        Real.pi * n / d - Real.pi / 2 + 2 * Real.pi := by
      push_cast; field_simp; ring
    rw [h1, Real.cos_add_two_pi, Real.cos_sub_pi_div_two]
  rw [e] at h
  exact h

end Sys2Proof.Machine
end

section
/-! The elements of IQ, MS and IS stand for their exact reals (41_inverse_quant.md R102; 42_stereo.md R123, R125). -/

namespace Sys2Proof.Machine

/-! ## Roots -/

theorem rootEncl_width (k x : Nat) : (rootEncl k x).hi - (rootEncl k x).lo ≤ 1 := by
  unfold rootEncl
  simp only
  split <;> simp [Encl.exact]

/-- A signed root at precision `p`, from the root of an integer: at most one unit in the last place wide. -/
theorem signedRoot_near {k p X : Nat} {a : ℝ} (hk : 0 < k) (ha : 0 ≤ a) (h : (a * 2 ^ p) ^ k = (X : ℝ)) (neg : Bool) :
    (if neg then (rootEncl k X).neg else rootEncl k X).Near p (if neg then -a else a) := by
  have hroot : (rootEncl k X).Holds p a := by
    have := holds_rootEncl hk (r := a * 2 ^ p) (by positivity) h
    unfold Encl.Holds at *
    simpa using this
  have hw : (1 : Int) ≤ 2 ^ (p - 200) := one_le_pow₀ (by norm_num)
  have hw' := rootEncl_width k X
  cases neg
  · exact ⟨hroot, by simp; omega⟩
  · exact ⟨hroot.neg, by simp [Encl.neg]; omega⟩

/-! ## IQ (R102) -/

/-- The twelfth power of `|q|^(4/3) 2^((sf - 100)/4)` at precision `p`. -/
theorem dq_pow_twelve {p : Nat} {q sf : Int} (hp : 25 ≤ p) (hsf : 0 ≤ sf) :
    ((q.natAbs : ℝ) ^ ((4 : ℝ) / 3) * (2 : ℝ) ^ (((sf : ℝ) - 100) / 4) * 2 ^ p) ^ 12 =
      ((q.natAbs ^ 16 * 2 ^ (12 * p + 3 * (sf - Config.sfOffset)).toNat : Nat) : ℝ) := by
  have e1 : ((q.natAbs : ℝ) ^ ((4 : ℝ) / 3)) ^ 12 = (q.natAbs : ℝ) ^ 16 := by
    rw [← Real.rpow_natCast, ← Real.rpow_mul (by positivity), ← Real.rpow_natCast]
    norm_num
  have e2 : ((2 : ℝ) ^ (((sf : ℝ) - 100) / 4)) ^ 12 * (2 ^ p) ^ 12 = 2 ^ (12 * p + 3 * (sf - Config.sfOffset)).toNat := by
    rw [← Real.rpow_natCast, ← Real.rpow_mul (by norm_num), ← pow_mul, ← Real.rpow_natCast 2 (p * 12),
      ← Real.rpow_add (by norm_num), ← Real.rpow_natCast 2]
    congr 1
    have h : (((12 * p + 3 * (sf - Config.sfOffset)).toNat : Int) : ℝ) = ((12 * p + 3 * (sf - Config.sfOffset) : Int) : ℝ) := by
      rw [Int.toNat_of_nonneg (by unfold Config.sfOffset; omega)]
    rw [Int.cast_natCast] at h
    rw [h]
    unfold Config.sfOffset
    push_cast
    ring
  rw [mul_pow, mul_pow, e1, mul_assoc, e2]
  push_cast
  rfl

theorem dqEncl_near {p : Nat} {q sf : Int} {r : ℝ} (hp : 25 ≤ p) (hsf : 0 ≤ sf) (h : IsDq q sf r) :
    (dqEncl p q sf).Near p r := by
  have hn := signedRoot_near (by decide : 0 < 12) (by positivity) (dq_pow_twelve (q := q) hp hsf) (decide (q < 0))
  have e : (if decide (q < 0) = true then -((q.natAbs : ℝ) ^ ((4 : ℝ) / 3) * (2 : ℝ) ^ (((sf : ℝ) - 100) / 4))
      else (q.natAbs : ℝ) ^ ((4 : ℝ) / 3) * (2 : ℝ) ^ (((sf : ℝ) - 100) / 4)) = r := by
    rw [h]
    rcases lt_trichotomy q 0 with hq | rfl | hq
    · simp [hq, Int.sign_eq_neg_one_of_neg hq]
    · simp
    · simp [hq.not_gt, Int.sign_eq_one_of_pos hq]
  rw [e] at hn
  unfold dqEncl
  simpa using hn

theorem dqElem_stands {q sf : Int} {r : ℝ} (hsf : 0 ≤ sf) (h : IsDq q sf r) : (dqElem q sf).Stands r :=
  .enclosed (by decide) (dqEncl_near (by decide) hsf h) fun q hq => (dqEncl_near (by unfold prec at hq; omega) hsf h).1

/-! ## MS (R123) -/

theorem ofUnits_stands {v : Int} {r : ℝ} (h : r * 2 ^ 149 = (v : ℝ)) : (Elem.ofUnits v).Stands r := .exact (holds_exact 149 h)

theorem msElems_stands {wa wb : Word} {x y : ℝ} (hx : IsF32 wa x) (hy : IsF32 wb y) :
    (msElems wa wb).1.Stands (x + y) ∧ (msElems wa wb).2.Stands (x - y) := by
  obtain ⟨m, hm, ex⟩ := hx
  obtain ⟨n, hn, ey⟩ := hy
  unfold msElems
  rw [hm, hn]
  exact ⟨ofUnits_stands (by push_cast; linarith), ofUnits_stands (by push_cast; linarith)⟩

/-! ## IS (R125) -/

/-- The fourth power of a scaled left bin at precision `p`. -/
theorem intensity_pow_four {p : Nat} {pos v : Int} {x : ℝ} (hp : 213 ≤ p) (hpos : pos ≤ 255) (hx : x * 2 ^ 149 = (v : ℝ)) :
    ((2 : ℝ) ^ (-(pos : ℝ) / 4) * |x| * 2 ^ p) ^ 4 = ((v.natAbs ^ 4 * 2 ^ (4 * ((p : Int) - 149) - pos).toNat : Nat) : ℝ) := by
  have e1 : |x| = (v.natAbs : ℝ) / 2 ^ 149 := by
    rw [eq_div_iff (by positivity), Nat.cast_natAbs, Int.cast_abs, ← hx, abs_mul, abs_of_pos (pow_two_pos 149)]
  have e2 : ((2 : ℝ) ^ (-(pos : ℝ) / 4)) ^ 4 * (2 ^ p) ^ 4 = (2 ^ 149) ^ 4 * 2 ^ (4 * ((p : Int) - 149) - pos).toNat := by
    rw [← Real.rpow_natCast, ← Real.rpow_mul (by norm_num), ← pow_mul, ← pow_mul, ← pow_add, ← Real.rpow_natCast 2 (p * 4),
      ← Real.rpow_add (by norm_num), ← Real.rpow_natCast 2]
    congr 1
    have h : (((4 * ((p : Int) - 149) - pos).toNat : Int) : ℝ) = ((4 * ((p : Int) - 149) - pos : Int) : ℝ) := by
      rw [Int.toNat_of_nonneg (by omega)]
    rw [Int.cast_natCast] at h
    push_cast
    rw [h]
    push_cast
    ring
  have hc := (pow_two_pos 149).ne'
  rw [e1]
  push_cast
  generalize (2 : ℝ) ^ 149 = c at *
  generalize (2 : ℝ) ^ (-(pos : ℝ) / 4) = b at *
  rw [← mul_left_inj' (pow_ne_zero 4 hc)]
  field_simp
  linear_combination (v.natAbs : ℝ) ^ 4 * e2

theorem isEncl_near {p : Nat} {negative : Bool} {pos v : Int} {x r : ℝ} (hp : 213 ≤ p) (hpos : pos ≤ 255)
    (hx : x * 2 ^ 149 = (v : ℝ)) (h : IsIntensity negative pos x r) : (isEncl p negative pos v).Near p r := by
  have hn := signedRoot_near (by decide : 0 < 4) (by positivity) (intensity_pow_four hp hpos hx) (decide (v < 0) != negative)
  have e : (if (decide (v < 0) != negative) = true then -((2 : ℝ) ^ (-(pos : ℝ) / 4) * |x|)
      else (2 : ℝ) ^ (-(pos : ℝ) / 4) * |x|) = r := by
    rw [h]
    by_cases hv : v < 0
    · have : x < 0 := by
        have : (v : ℝ) < 0 := by exact_mod_cast hv
        exact neg_of_mul_neg_left (hx ▸ this) (pow_two_pos 149).le
      rw [abs_of_neg this]
      cases negative <;> simp [hv]
    · have : 0 ≤ x := by
        have : (0 : ℝ) ≤ v := by exact_mod_cast not_lt.mp hv
        exact nonneg_of_mul_nonneg_left (hx ▸ this) (pow_two_pos 149)
      rw [abs_of_nonneg this]
      cases negative <;> simp [hv]
  rw [e] at hn
  exact hn

theorem isElem_stands {negative : Bool} {pos : Int} {w : Word} {x r : ℝ} (hpos : pos ≤ 255) (hx : IsF32 w x)
    (h : IsIntensity negative pos x r) : (isElem negative pos w).Stands r := by
  obtain ⟨v, hv, ex⟩ := hx
  unfold isElem
  rw [hv]
  exact .enclosed (by decide) (isEncl_near (by decide) hpos ex h) fun q hq =>
    (isEncl_near (by unfold prec at hq; omega) hpos ex h).1

end Sys2Proof.Machine
end

section
/-! The elements of TNS stand for their exact reals: reflection coefficients, direct form and all-pole recursion
(43_tns.md R144, R145, R147; log 6). -/

namespace Sys2Proof.Machine

/-! ## Finite words -/

/-- A finite binary32 value is below 2^128. -/
theorem IsF32.abs_lt {w : Word} {x : ℝ} (h : IsF32 w x) : |x| < 2 ^ 128 := by
  obtain ⟨v, hv, hx⟩ := h
  have hm : w.toNat % 2 ^ 31 < infMag := by
    unfold f32Units expField bits at hv
    split at hv
    · cases hv
    · rename_i he
      norm_num [infMag] at he ⊢
      omega
  have h1 := abs_f32Units hv
  have h2 := magUnits_strictMono hm
  rw [magUnits_infMag.1] at h2
  have h3 : |(v : ℝ)| < 2 ^ 24 * 2 ^ 253 := by
    have : ((|v| : Int) : ℝ) < ((2 ^ 24 * 2 ^ 253 : Nat) : ℝ) := by rw [h1]; exact_mod_cast h2
    rw [Int.cast_abs] at this
    exact_mod_cast this
  refine lt_of_mul_lt_mul_right ?_ (pow_two_pos 149).le
  rw [← abs_of_pos (pow_two_pos 149), ← abs_mul, hx, abs_of_pos (pow_two_pos 149)]
  calc _ < _ := h3
    _ = _ := by norm_num

/-- A finite word's element in enclosure arithmetic is exact. -/
theorem within_ofUnits {p : Nat} (hp : 149 ≤ p) {v : Int} {x : ℝ} (h : x * 2 ^ 149 = (v : ℝ)) :
    ((enclArith p).ofUnits v).Within p x 0 := by
  refine within_exact ?_
  rw [show (2 : ℝ) ^ p = 2 ^ 149 * 2 ^ (p - 149) by rw [← pow_add, Nat.add_sub_cancel' hp], ← mul_assoc, h]
  push_cast
  rfl

/-! ## Reflection coefficients (R144) -/

theorem IsReflection.abs_le_one {coefRes : Nat} {ci : Int} {k : ℝ} (h : IsReflection coefRes ci k) : |k| ≤ 1 := by
  rw [h]; exact Real.abs_sin_le_one _

theorem reflection_within {p coefRes : Nat} {ci : Int} {k : ℝ} (hp : 384 ≤ p) (h : IsReflection coefRes ci k) :
    (reflection (enclArith p) coefRes ci).Within p k (18 * p ^ 2 * ulp p) := by
  have hb : (2 : ℝ) ^ (coefResBits coefRes - 1) * 2 = 2 ^ coefResBits coefRes := by
    rw [← pow_succ, Nat.sub_add_cancel (by unfold coefResBits; omega)]
  have h2 : 2 ≤ 2 ^ coefResBits coefRes := Nat.le_self_pow (by unfold coefResBits; omega) 2
  have h2' : (2 : ℝ) ≤ 2 ^ coefResBits coefRes := by exact_mod_cast h2
  have hu : 0 ≤ 18 * (p : ℝ) ^ 2 * ulp p := by have := ulp_pos p; positivity
  unfold reflection
  rcases lt_trichotomy ci 0 with hc | rfl | hc
  · rw [if_neg hc.ne, if_neg hc.not_gt]
    have h1 := within_zero.sub (sinPi_within hp (d := 2 ^ coefResBits coefRes + 1) (by omega) ci.natAbs)
    have e : 0 - Real.sin (Real.pi * (ci.natAbs : ℝ) / ((2 ^ coefResBits coefRes + 1 : ℕ) : ℝ)) = k := by
      rw [h, if_neg (not_le.mpr hc), zero_sub, ← Real.sin_neg]
      congr 1
      have e1 : (ci.natAbs : ℝ) = -(ci : ℝ) := by
        rw [Nat.cast_natAbs, abs_of_neg hc]; push_cast; ring
      have h3 : (2 : ℝ) ^ (coefResBits coefRes - 1) * 2 + 1 ≠ 0 := by positivity
      have h4 : (2 : ℝ) ^ (coefResBits coefRes - 1) + 1 / 2 ≠ 0 := by positivity
      push_cast
      rw [e1, ← hb, div_div_eq_mul_div, ← neg_div, div_eq_div_iff h3 h4]
      ring
    rw [e, zero_add] at h1
    exact h1
  · rw [if_pos rfl]
    have e : k = 0 := by rw [h]; simp
    rw [e]
    exact within_zero.mono hu
  · rw [if_neg hc.ne', if_pos hc]
    have h1 := sinPi_within hp (d := 2 ^ coefResBits coefRes - 1) (by omega) ci.natAbs
    have e : Real.sin (Real.pi * (ci.natAbs : ℝ) / ((2 ^ coefResBits coefRes - 1 : ℕ) : ℝ)) = k := by
      rw [h, if_pos hc.le]
      congr 1
      have e1 : (ci.natAbs : ℝ) = ci := by
        rw [Nat.cast_natAbs, abs_of_pos hc]
      rw [e1, Nat.cast_sub (by omega)]
      push_cast
      have h3 : (2 : ℝ) ^ (coefResBits coefRes - 1) * 2 - 1 ≠ 0 := by rw [hb]; linarith
      have h4 : (2 : ℝ) ^ (coefResBits coefRes - 1) + -(1 / 2) ≠ 0 := by
        intro h0; apply h3; linarith
      rw [← hb, div_div_eq_mul_div, div_eq_div_iff h3 h4]
      ring
    rw [e] at h1
    exact h1

/-! ## Lists of enclosures -/

/-- The enclosures `xs` hold the reals `rs`, the one at position `i` of radius `ε i`, its real at most `M i` in magnitude. -/
structure HoldAt (p : Nat) (xs : List Encl) (rs : List ℝ) (M ε : ℕ → ℝ) : Prop where
  length : xs.length = rs.length
  within : ∀ i < rs.length, (xs.getD i (Encl.exact 0)).Within p (rs.getD i 0) (ε i)
  bound : ∀ i < rs.length, |rs.getD i 0| ≤ M i

section
variable {p : Nat} {xs ys : List Encl} {rs ss : List ℝ} {M N ε δ : ℕ → ℝ}

theorem HoldAt.nil : HoldAt p [] [] M ε := ⟨rfl, by simp, by simp⟩

theorem HoldAt.cons {x : Encl} {r : ℝ} (hx : x.Within p r (ε 0)) (hr : |r| ≤ M 0)
    (h : HoldAt p xs rs (fun i => M (i + 1)) fun i => ε (i + 1)) : HoldAt p (x :: xs) (r :: rs) M ε where
  length := by simp [h.length]
  within i hi := by
    cases i with
    | zero => simpa using hx
    | succ i => simpa using h.within i (by simpa using hi)
  bound i hi := by
    cases i with
    | zero => simpa using hr
    | succ i => simpa using h.bound i (by simpa using hi)

theorem HoldAt.tail {x : Encl} {r : ℝ} (h : HoldAt p (x :: xs) (r :: rs) M ε) :
    HoldAt p xs rs (fun i => M (i + 1)) fun i => ε (i + 1) where
  length := by simpa using h.length
  within i hi := by simpa using h.within (i + 1) (by simpa using hi)
  bound i hi := by simpa using h.bound (i + 1) (by simpa using hi)

/-- The sum of products of two lists. -/
theorem HoldAt.dot (hx : HoldAt p xs rs M ε) (hy : HoldAt p ys ss N δ) (hM : ∀ i, 0 ≤ M i ∧ 0 ≤ ε i)
    (hN : ∀ i, 0 ≤ N i ∧ 0 ≤ δ i) :
    ((enclArith p).sum (List.zipWith (enclArith p).mul xs ys)).Within p (List.zipWith (· * ·) rs ss).sum
        (∑ i ∈ Finset.range rs.length, (M i * δ i + N i * ε i + ε i * δ i + ulp p)) ∧
      |(List.zipWith (· * ·) rs ss).sum| ≤ ∑ i ∈ Finset.range rs.length, M i * N i := by
  have hu := ulp_pos p
  induction rs generalizing xs ys ss M N ε δ with
  | nil =>
    obtain rfl : xs = [] := List.length_eq_zero_iff.mp hx.length
    exact ⟨within_zero.mono (by simp), by simp⟩
  | cons r rs ih =>
    obtain ⟨x, xs, rfl⟩ : ∃ y ys, xs = y :: ys := List.exists_cons_of_length_eq_add_one hx.length
    cases ss with
    | nil =>
      obtain rfl : ys = [] := List.length_eq_zero_iff.mp hy.length
      constructor
      · refine within_zero.mono (Finset.sum_nonneg fun i _ => ?_)
        have := hM i; have := hN i
        nlinarith [mul_nonneg (hM i).1 (hN i).2, mul_nonneg (hN i).1 (hM i).2, mul_nonneg (hM i).2 (hN i).2]
      · simpa using Finset.sum_nonneg fun i _ => mul_nonneg (hM i).1 (hN i).1
    | cons s ss =>
      obtain ⟨y, ys, rfl⟩ : ∃ y' ys', ys = y' :: ys' := List.exists_cons_of_length_eq_add_one hy.length
      obtain ⟨i1, i2⟩ := ih hx.tail hy.tail (fun i => hM (i + 1)) (fun i => hN (i + 1))
      have wx : x.Within p r (ε 0) := by simpa using hx.within 0 (by simp)
      have wy : y.Within p s (δ 0) := by simpa using hy.within 0 (by simp)
      have bx : |r| ≤ M 0 := by simpa using hx.bound 0 (by simp)
      have by' : |s| ≤ N 0 := by simpa using hy.bound 0 (by simp)
      simp only [List.zipWith_cons_cons, List.sum_cons, List.length_cons, Finset.sum_range_succ']
      constructor
      · refine ((wx.mul wy).add i1).mono ?_
        have h1 : |r| * δ 0 ≤ M 0 * δ 0 := mul_le_mul_of_nonneg_right bx (hN 0).2
        have h2 : |s| * ε 0 ≤ N 0 * ε 0 := mul_le_mul_of_nonneg_right by' (hM 0).2
        linarith
      · refine (abs_add_le _ _).trans ?_
        have h1 : |r * s| ≤ M 0 * N 0 := by
          rw [abs_mul]; exact mul_le_mul bx by' (abs_nonneg _) (hM 0).1
        linarith

end

/-! ## The direct form (R145) -/

/-- The enclosed direct-form coefficients of an order `m`: binomially bounded, and so are the radii. -/
abbrev DirectHolds (p m : Nat) (E : ℝ) (xs : List Encl) (as : List ℝ) : Prop :=
  as.length = m ∧ HoldAt p xs as (fun i => (m.choose (i + 1) : ℝ)) fun i => 2 ^ m * E * (m.choose (i + 1) : ℝ)

/-- A list extended by one pass of the step-up recursion: the inner positions and the last one. -/
theorem getD_zipWith_reverse {α : Type} (f : α → α → α) (xs : List α) (k d : α) :
    (∀ i < xs.length, (List.zipWith f xs xs.reverse ++ [k]).getD i d = f (xs.getD i d) (xs.getD (xs.length - 1 - i) d)) ∧
      (List.zipWith f xs xs.reverse ++ [k]).getD xs.length d = k := by
  constructor
  · intro i hi
    rw [List.getD_eq_getElem?_getD, List.getElem?_append_left (by simpa using hi)]
    simp only [List.getElem?_zipWith, List.getElem?_reverse hi, List.getD_eq_getElem?_getD, List.getElem?_eq_getElem hi,
      List.getElem?_eq_getElem (show xs.length - 1 - i < xs.length by omega)]
    rfl
  · rw [List.getD_eq_getElem?_getD, List.getElem?_append_right (by simp)]
    simp

/-- The binomials of one pass: Pascal's rule on the mirrored index. -/
theorem choose_stepUp {m i : Nat} (hi : i < m) :
    ((m + 1).choose (i + 1) : ℝ) = m.choose (m - 1 - i + 1) + m.choose (i + 1) := by
  rw [Nat.choose_succ_succ, show m - 1 - i + 1 = m - i by omega, Nat.choose_symm hi.le]
  push_cast
  rfl

/-- The radius of an inner coefficient after a pass, `c` and `c'` being the binomials of the two it is made of. -/
theorem stepUp_radius {κ u c c' b k : ℝ} {m : Nat} (hm : 1 ≤ m) (hκ0 : 0 ≤ κ) (hκ : κ ≤ 1 / 2) (hu : 0 ≤ u) (hk : |k| ≤ 1)
    (hc : 0 ≤ c) (hc' : 1 ≤ c') (hb : |b| ≤ c') :
    2 ^ m * (κ + u) * c + (|k| * (2 ^ m * (κ + u) * c') + |b| * κ + κ * (2 ^ m * (κ + u) * c') + u) ≤
      2 ^ (m + 1) * (κ + u) * (c' + c) := by
  have h2 : (2 : ℝ) ≤ 2 ^ m := le_self_pow₀ (by norm_num) (by omega)
  have s0 : 0 ≤ 2 ^ m * (κ + u) * c := by positivity
  have s1 : |k| * (2 ^ m * (κ + u) * c') ≤ 1 * (2 ^ m * (κ + u) * c') := by gcongr
  have s2 : |b| * κ ≤ c' * κ := by gcongr
  have s3 : κ * (2 ^ m * (κ + u) * c') ≤ 1 / 2 * (2 ^ m * (κ + u) * c') := by gcongr
  have s4 : u ≤ u * c' := le_mul_of_one_le_right hu hc'
  have s5 : (κ + u) * c' * 2 ≤ (κ + u) * c' * 2 ^ m := by gcongr
  rw [pow_succ]
  linarith

/-- One pass of the step-up recursion. -/
theorem stepUp_holds {p m : Nat} {κ k : ℝ} {xs : List Encl} {as : List ℝ} {x : Encl} (hκ : κ ≤ 1 / 2)
    (h : DirectHolds p m (κ + ulp p) xs as) (hx : x.Within p k κ) (hk : |k| ≤ 1) :
    DirectHolds p (m + 1) (κ + ulp p) (stepUp (enclArith p) xs x) (stepUpOver as k) := by
  obtain ⟨hm, h⟩ := h
  have hu := ulp_pos p
  have hκ0 := hx.nonneg
  have hlx : xs.length = m := h.length.trans hm
  obtain ⟨innerX, lastX⟩ := getD_zipWith_reverse (fun u v => u.add (x.mul p v)) xs x (Encl.exact 0)
  obtain ⟨innerA, lastA⟩ := getD_zipWith_reverse (fun u v => u + k * v) as k 0
  have eX : stepUp (enclArith p) xs x = List.zipWith (fun u v => u.add (x.mul p v)) xs xs.reverse ++ [x] := rfl
  have eA : stepUpOver as k = List.zipWith (fun u v => u + k * v) as as.reverse ++ [k] := rfl
  rw [← eX, hlx] at innerX lastX
  rw [← eA, hm] at innerA lastA
  have hlen : (stepUpOver as k).length = m + 1 := by simp [stepUpOver, hm]
  refine ⟨hlen, by rw [hlen]; simp [stepUp, hlx], fun i hi => ?_, fun i hi => ?_⟩
  · rw [hlen] at hi
    rcases Nat.lt_or_ge i m with him | him
    · rw [innerX i him, innerA i him, choose_stepUp him]
      have w1 := h.within i (by omega)
      have w2 := h.within (m - 1 - i) (by omega)
      have c1 : (1 : ℝ) ≤ m.choose (m - 1 - i + 1) := by exact_mod_cast Nat.choose_pos (by omega : m - 1 - i + 1 ≤ m)
      exact (w1.add (hx.mul w2)).mono (stepUp_radius (by omega) hκ0 hκ hu.le hk (Nat.cast_nonneg _) c1
        (h.bound (m - 1 - i) (by omega)))
    · obtain rfl : i = m := by omega
      rw [lastX, lastA]
      refine hx.mono ?_
      have : κ + ulp p ≤ 2 ^ (i + 1) * (κ + ulp p) := le_mul_of_one_le_left (by linarith) (one_le_pow₀ (by norm_num))
      simp only [Nat.choose_self, Nat.cast_one, mul_one]
      linarith
  · rw [hlen] at hi
    rcases Nat.lt_or_ge i m with him | him
    · rw [innerA i him, choose_stepUp him]
      have b1 := h.bound i (by omega)
      have b2 := h.bound (m - 1 - i) (by omega)
      refine (abs_add_le _ _).trans ?_
      rw [abs_mul]
      have : |k| * |as.getD (m - 1 - i) 0| ≤ 1 * |as.getD (m - 1 - i) 0| := by gcongr
      linarith
    · obtain rfl : i = m := by omega
      rw [lastA]
      simpa using hk

theorem directForm_holds {p : Nat} {κ : ℝ} (hκ : κ ≤ 1 / 2) {xs : List Encl} {ks : List ℝ}
    (h : List.Forall₂ (fun x k => x.Within p k κ ∧ |k| ≤ 1) xs ks) :
    DirectHolds p ks.length (κ + ulp p) (directForm (enclArith p) xs) (directFormOver ks) := by
  have key : ∀ {xs : List Encl} {ks : List ℝ}, List.Forall₂ (fun x k => x.Within p k κ ∧ |k| ≤ 1) xs ks →
      ∀ {m : Nat} {a : List Encl} {b : List ℝ}, DirectHolds p m (κ + ulp p) a b →
      DirectHolds p (m + ks.length) (κ + ulp p) (xs.foldl (stepUp (enclArith p)) a) (ks.foldl stepUpOver b) := by
    intro xs ks h
    induction h with
    | nil => intro m a b h; simpa using h
    | cons hx _ ih =>
      intro m a b h
      have := ih (stepUp_holds hκ h hx.1 hx.2)
      simpa [Nat.add_assoc, Nat.add_comm 1] using this
  have := key h (m := 0) (a := []) (b := []) ⟨rfl, HoldAt.nil⟩
  rwa [Nat.zero_add] at this

/-! ## The filter (R147) -/

/-- The binomial weights of an order up to 20 against falling powers of 30 sum to less than one. -/
theorem sum_choose_le {m : Nat} (hm : m ≤ 20) :
    ∑ i ∈ Finset.range m, (m.choose (i + 1) : ℝ) * (1 / 30) ^ (i + 1) ≤ 93 / 100 := by
  have h := add_pow (1 / 30 : ℝ) 1 m
  rw [Finset.sum_range_succ'] at h
  simp only [one_pow, mul_one, pow_zero, Nat.choose_zero_right, Nat.cast_one] at h
  have h2 : ((1 / 30 : ℝ) + 1) ^ m ≤ (1 / 30 + 1) ^ 20 := pow_le_pow_right₀ (by norm_num) hm
  have h3 : ((1 / 30 : ℝ) + 1) ^ 20 ≤ 193 / 100 := by norm_num
  have e : ∑ i ∈ Finset.range m, (m.choose (i + 1) : ℝ) * (1 / 30) ^ (i + 1) =
      ∑ i ∈ Finset.range m, (1 / 30 : ℝ) ^ (i + 1) * (m.choose (i + 1) : ℝ) :=
    Finset.sum_congr rfl fun i _ => mul_comm _ _
  linarith

/-- A filter's coefficients with radius `R` times their binomial bound. -/
structure FilterCoefs (p : Nat) (R : ℝ) (a : List Encl) (b : List ℝ) : Prop where
  order : b.length ≤ 20
  small : 0 ≤ R ∧ R ≤ 1 / 100
  holds : HoldAt p a b (fun i => (b.length.choose (i + 1) : ℝ)) fun i => R * (b.length.choose (i + 1) : ℝ)

/-- The outputs before, latest first, where the next one has the scale `B`: each a 30th of the next in bound and radius. -/
abbrev HistoryHolds (p : Nat) (Y W B : ℝ) (hist : List Encl) (past : List ℝ) : Prop :=
  HoldAt p hist past (fun i => Y * B * (1 / 30) ^ (i + 1)) fun i => W * B * (1 / 30) ^ (i + 1)

/-- One output of the filter. -/
theorem output_within {p : Nat} {R X W B : ℝ} {a hist : List Encl} {b past : List ℝ} (ha : FilterCoefs p R a b)
    (hX : 0 ≤ X) (hW : 20 * (15 * X * R + 20 * ulp p) ≤ W) (hB : 1 ≤ B) (hh : HistoryHolds p (15 * X) W B hist past)
    {x : Encl} {r : ℝ} (hx : x.Within p r 0) (hr : |r| ≤ X) :
    (x.sub ((enclArith p).sum (List.zipWith (enclArith p).mul a hist))).Within p
        (r - (List.zipWith (· * ·) b past).sum) (W * B) ∧
      |r - (List.zipWith (· * ·) b past).sum| ≤ 15 * X * B := by
  obtain ⟨hR, hR1⟩ := ha.small
  have hu := ulp_pos p
  have hW0 : 0 ≤ W := le_trans (by positivity) hW
  obtain ⟨d1, d2⟩ := ha.holds.dot hh (fun i => ⟨by positivity, by positivity⟩) (fun i => ⟨by positivity, by positivity⟩)
  have hS := sum_choose_le ha.order
  set S := ∑ i ∈ Finset.range b.length, (b.length.choose (i + 1) : ℝ) * (1 / 30) ^ (i + 1) with hSd
  have hS0 : 0 ≤ S := Finset.sum_nonneg fun i _ => by positivity
  have e1 : ∑ i ∈ Finset.range b.length, (b.length.choose (i + 1) : ℝ) * (15 * X * B * (1 / 30) ^ (i + 1)) =
      15 * X * B * S := by
    rw [hSd, Finset.mul_sum]; exact Finset.sum_congr rfl fun i _ => by ring
  have e2 : ∑ i ∈ Finset.range b.length, ((b.length.choose (i + 1) : ℝ) * (W * B * (1 / 30) ^ (i + 1)) +
        15 * X * B * (1 / 30) ^ (i + 1) * (R * b.length.choose (i + 1)) +
        R * b.length.choose (i + 1) * (W * B * (1 / 30) ^ (i + 1)) + ulp p) =
      (W + 15 * X * R + R * W) * B * S + b.length * ulp p := by
    rw [Finset.sum_add_distrib, Finset.sum_const, Finset.card_range, nsmul_eq_mul, hSd, Finset.mul_sum]
    congr 1
    exact Finset.sum_congr rfl fun i _ => by ring
  rw [e1] at d2
  rw [e2] at d1
  have hlen : (b.length : ℝ) ≤ 20 := by exact_mod_cast ha.order
  constructor
  · refine (hx.sub d1).mono ?_
    have h1 : (W + 15 * X * R + R * W) * B * S ≤ (W + 15 * X * R + R * W) * B * (93 / 100) := by gcongr
    have h2 : R * W ≤ 1 / 100 * W := by gcongr
    have h3 : (b.length : ℝ) * ulp p ≤ 20 * ulp p * B := by
      calc (b.length : ℝ) * ulp p ≤ 20 * ulp p := by gcongr
        _ ≤ _ := le_mul_of_one_le_right (by positivity) hB
    have h4 : ((W + 15 * X * R + R * W) * (93 / 100) + 20 * ulp p) * B ≤ W * B := by
      gcongr
      have : 0 ≤ X * R := by positivity
      linarith
    linarith
  · refine (abs_sub _ _).trans ?_
    have h1 : 15 * X * B * S ≤ 15 * X * B * (93 / 100) := by gcongr
    have h2 : X ≤ X * B := le_mul_of_one_le_right hX hB
    linarith

/-- The history with one more output. -/
theorem history_cons {p : Nat} {Y W B : ℝ} {hist : List Encl} {past : List ℝ} (hh : HistoryHolds p Y W B hist past)
    {y : Encl} {t : ℝ} (hy : y.Within p t (W * B)) (ht : |t| ≤ Y * B) : HistoryHolds p Y W (B * 30) (y :: hist) (t :: past) := by
  have e : ∀ (c : ℝ) (i : ℕ), c * (B * 30) * (1 / 30) ^ (i + 1 + 1) = c * B * (1 / 30) ^ (i + 1) := fun c i => by
    rw [pow_succ _ (i + 1)]; ring
  refine HoldAt.cons (hy.mono (le_of_eq (by ring))) (ht.trans (le_of_eq (by ring))) ?_
  simpa only [e] using hh

/-- Output `k` of the filter, the inputs up to it finite. -/
theorem allPole_within {p : Nat} {R W : ℝ} {a : List Encl} {b : List ℝ} (hp : 149 ≤ p) (ha : FilterCoefs p R a b)
    (hW : 20 * (15 * 2 ^ 128 * R + 20 * ulp p) ≤ W) (k : Nat) {words : List Word} {xs : List ℝ} (hk : k < words.length)
    (hxs : List.Forall₂ IsF32 (words.take (k + 1)) xs) {B : ℝ} {hist : List Encl} {past : List ℝ} (hB : 1 ≤ B)
    (hh : HistoryHolds p (15 * 2 ^ 128) W B hist past) :
    ∃ y, (allPole (enclArith p) a (words.map fun w => (f32Units w).map (enclArith p).ofUnits) hist).getD k none = some y ∧
      y.Within p ((allPoleOver b xs past).getD k 0) (W * (B * 30 ^ k)) := by
  induction k generalizing words xs B hist past with
  | zero =>
    obtain ⟨w, ws, rfl⟩ := List.exists_cons_of_length_pos hk
    rw [List.take_succ_cons] at hxs
    cases hxs with
    | @cons _ x _ xs hw hrest =>
      obtain ⟨v, hv, hx⟩ := id hw
      obtain ⟨h1, _⟩ := output_within ha (by positivity) hW hB hh (within_ofUnits hp hx) hw.abs_lt.le
      refine ⟨_, ?_, by simpa [allPoleOver] using h1⟩
      simp [hv, allPole]
      rfl
  | succ k ih =>
    obtain ⟨w, ws, rfl⟩ := List.exists_cons_of_length_pos (Nat.zero_lt_of_lt hk)
    rw [List.take_succ_cons] at hxs
    cases hxs with
    | @cons _ x _ xs hw hrest =>
      obtain ⟨v, hv, hx⟩ := id hw
      obtain ⟨h1, h2⟩ := output_within ha (by positivity) hW hB hh (within_ofUnits hp hx) hw.abs_lt.le
      obtain ⟨y, hy, hy'⟩ := ih (by simpa using hk) hrest (by linarith) (history_cons hh h1 h2)
      refine ⟨y, ?_, ?_⟩
      · rw [← hy]
        simp only [List.map_cons, hv, Option.map_some, allPole, List.getD_cons_succ]
        rfl
      · simp only [allPoleOver, List.getD_cons_succ]
        rwa [show B * 30 * 30 ^ k = B * 30 ^ (k + 1) by rw [pow_succ]; ring] at hy'

/-- A filter's precision outruns its widening. -/
theorem tnsPrec_enough {len p : Nat} (hp : tnsPrec len ≤ p) : p ^ 2 * 30 ^ len * (2 ^ 200 * 2 ^ 200) ≤ 2 ^ p := by
  unfold tnsPrec at hp
  induction p, hp using Nat.le_induction with
  | base =>
    induction len with
    | zero =>
      rw [show 512 + 5 * 0 = 200 + 200 + 112 from rfl, pow_add _ (200 + 200), pow_add]
      norm_num
    | succ n ih =>
      have h : (512 + 5 * (n + 1)) ^ 2 * 30 ≤ (512 + 5 * n) ^ 2 * 32 := by
        have e : (512 + 5 * (n + 1)) ^ 2 * 30 + (50 * n ^ 2 + 8740 * n + 369938) = (512 + 5 * n) ^ 2 * 32 := by ring
        exact e ▸ Nat.le_add_right _ _
      calc (512 + 5 * (n + 1)) ^ 2 * 30 ^ (n + 1) * (2 ^ 200 * 2 ^ 200)
          = ((512 + 5 * (n + 1)) ^ 2 * 30) * (30 ^ n * (2 ^ 200 * 2 ^ 200)) := by ring
        _ ≤ ((512 + 5 * n) ^ 2 * 32) * (30 ^ n * (2 ^ 200 * 2 ^ 200)) := Nat.mul_le_mul_right _ h
        _ = ((512 + 5 * n) ^ 2 * 30 ^ n * (2 ^ 200 * 2 ^ 200)) * 32 := by ring
        _ ≤ 2 ^ (512 + 5 * n) * 32 := Nat.mul_le_mul_right _ ih
        _ = 2 ^ (512 + 5 * (n + 1)) := by
          rw [show 512 + 5 * (n + 1) = 512 + 5 * n + 5 by ring, pow_add _ _ 5, show (32 : ℕ) = 2 ^ 5 from rfl]
  | succ q hq ih =>
    have h : (q + 1) ^ 2 ≤ q ^ 2 * 2 := by
      clear ih
      nlinarith
    calc (q + 1) ^ 2 * 30 ^ len * (2 ^ 200 * 2 ^ 200) ≤ q ^ 2 * 2 * 30 ^ len * (2 ^ 200 * 2 ^ 200) := by gcongr
      _ = q ^ 2 * 30 ^ len * (2 ^ 200 * 2 ^ 200) * 2 := by ring
      _ ≤ 2 ^ q * 2 := Nat.mul_le_mul_right _ ih
      _ = 2 ^ (q + 1) := by ring

theorem tnsPrec_ulp {len p k : Nat} (hp : tnsPrec len ≤ p) (hk : k ≤ len) :
    (p : ℝ) ^ 2 * ulp p * 30 ^ k ≤ 1 / (2 ^ 200 * 2 ^ 200) := by
  have h : ((p : ℝ) ^ 2 * 30 ^ len * (2 ^ 200 * 2 ^ 200)) ≤ 2 ^ p := by exact_mod_cast tnsPrec_enough hp
  have h1 : (30 : ℝ) ^ k ≤ 30 ^ len := pow_le_pow_right₀ (by norm_num) hk
  rw [le_div_iff₀ (by positivity)]
  unfold ulp
  rw [mul_one_div, div_mul_eq_mul_div, div_mul_eq_mul_div, div_le_one (by positivity)]
  calc _ ≤ (p : ℝ) ^ 2 * 30 ^ len * (2 ^ 200 * 2 ^ 200) := by gcongr
    _ ≤ _ := h

/-- In the order the filter runs, its outputs are those of the recursion. -/
theorem filterOrder_filterOutputs {R : Type} (o : Arith R) (coefRes : Nat) (coefs : List Int) (down : Bool)
    (words : List Word) :
    filterOrder down (filterOutputs o coefRes coefs down words) =
      allPole o (directForm o (coefs.map (reflection o coefRes)))
        ((filterOrder down words).map fun w => (f32Units w).map o.ofUnits) [] := by
  unfold filterOrder filterOutputs
  cases down <;> simp

/-- Output `k` of a filter at its first precision or a finer one. -/
theorem filterOutputs_within {p coefRes k : Nat} {coefs : List Int} {down : Bool} {words : List Word} {xs ks : List ℝ}
    (hp : tnsPrec words.length ≤ p) (hc : coefs.length ≤ 20) (hk : k < words.length)
    (hxs : List.Forall₂ IsF32 ((filterOrder down words).take (k + 1)) xs)
    (hks : List.Forall₂ (IsReflection coefRes) coefs ks) :
    ∃ y, (filterOrder down (filterOutputs (enclArith p) coefRes coefs down words)).getD k none = some y ∧
      y.Within p ((allPoleOver (directFormOver ks) xs []).getD k 0) (1 / 2 ^ 201) := by
  have hp384 : 384 ≤ p := by unfold tnsPrec at hp; omega
  have hu := ulp_pos p
  have hlen : ks.length = coefs.length := hks.length_eq.symm
  have hsmall : (p : ℝ) ^ 2 * ulp p ≤ 1 / (2 ^ 200 * 2 ^ 149) := pow_mul_ulp hp384 (by decide)
  have hup : ulp p ≤ p ^ 2 * ulp p :=
    le_mul_of_one_le_left hu.le (one_le_pow₀ (by exact_mod_cast (by omega : 1 ≤ p)))
  set T := (p : ℝ) ^ 2 * ulp p with hT
  have hκ : 18 * (p : ℝ) ^ 2 * ulp p = 18 * T := by rw [hT]; ring
  have hd := directForm_holds (p := p) (κ := 18 * T) (xs := coefs.map (reflection (enclArith p) coefRes)) (ks := ks) (by
      calc 18 * T ≤ 18 * (1 / (2 ^ 200 * 2 ^ 149)) := by gcongr
        _ ≤ 1 / 2 := by norm_num) (by
      rw [List.forall₂_map_left_iff]
      exact hks.imp fun ci k h => ⟨hκ ▸ reflection_within hp384 h, h.abs_le_one⟩)
  obtain ⟨hdl, hdh⟩ := hd
  set R := 2 ^ ks.length * (18 * T + ulp p) with hR
  have hR1 : R ≤ 2 ^ 25 * T := by
    calc R ≤ 2 ^ 20 * (18 * T + T) := by
          rw [hR]
          gcongr
          · norm_num
          · omega
      _ ≤ _ := by linarith [hu.trans_le hup]
  have ha : FilterCoefs p R (directForm (enclArith p) (coefs.map (reflection (enclArith p) coefRes))) (directFormOver ks) := by
    refine ⟨by omega, ⟨by positivity, ?_⟩, ?_⟩
    · calc R ≤ 2 ^ 25 * (1 / (2 ^ 200 * 2 ^ 149)) := hR1.trans (by gcongr)
        _ ≤ _ := by norm_num
    · rw [hdl]; exact hdh
  have hlw : (filterOrder down words).length = words.length := by unfold filterOrder; split <;> simp
  obtain ⟨y, hy, hw⟩ := allPole_within (W := 2 ^ 163 * T) (by omega) ha (by
      calc 20 * (15 * 2 ^ 128 * R + 20 * ulp p) ≤ 20 * (15 * 2 ^ 128 * (2 ^ 25 * T) + 20 * T) := by gcongr
        _ ≤ 2 ^ 163 * T := by linarith [hu.trans_le hup]) k (by omega) hxs le_rfl HoldAt.nil
  refine ⟨y, by rw [filterOrder_filterOutputs]; exact hy, hw.mono ?_⟩
  calc 2 ^ 163 * T * (1 * 30 ^ k) = 2 ^ 163 * (p ^ 2 * ulp p * 30 ^ k) := by rw [hT]; ring
    _ ≤ 2 ^ 163 * (1 / (2 ^ 200 * 2 ^ 200)) := by gcongr; exact tnsPrec_ulp hp hk.le
    _ ≤ 1 / 2 ^ 201 := by norm_num

/-- An element of a list taken in the order of a filter. -/
theorem filterOrder_getD {α : Type} (down : Bool) {xs : List α} {k : Nat} (hk : k < xs.length) (d : α) :
    (filterOrder down xs).getD k d = xs.getD (if down then xs.length - 1 - k else k) d := by
  unfold filterOrder
  cases down
  · rfl
  · simp [List.getD_eq_getElem?_getD, List.getElem?_reverse hk]

/-- Element `j` of a filter, where it has an output. -/
theorem filterElems_getD {coefRes j : Nat} {coefs : List Int} {down : Bool} {words : List Word} {y : Encl}
    (h : (filterOutputs (enclArith (tnsPrec words.length)) coefRes coefs down words).getD j none = some y) :
    ∃ isGrid, (filterElems coefRes coefs down words).getD j .any = .real (tnsPrec words.length) y
      (fun q => ((filterOutputs (enclArith q) coefRes coefs down words).getD j none).getD y) isGrid := by
  rw [List.getD_eq_getElem?_getD] at h
  refine ⟨equalsGrid (tnsOrderOfUnity coefRes)
    ((filterOutputs (exactArith (tnsOrderOfUnity coefRes)) coefRes coefs down words).getD j none).join, ?_⟩
  unfold filterElems
  simp only
  cases he : (filterOutputs (enclArith (tnsPrec words.length)) coefRes coefs down words)[j]? with
  | none => rw [he] at h; cases h
  | some o =>
    rw [he, Option.getD_some] at h
    subst h
    rw [List.getD_eq_getElem?_getD, List.getElem?_map, List.getElem?_zipIdx, he, Nat.zero_add]
    rfl

/-- The element of output `k` of a filter stands for it. -/
theorem filterElems_stands {coefRes k : Nat} {coefs : List Int} {down : Bool} {words : List Word} {xs ks : List ℝ}
    (hc : coefs.length ≤ 20) (hk : k < words.length)
    (hxs : List.Forall₂ IsF32 ((filterOrder down words).take (k + 1)) xs)
    (hks : List.Forall₂ (IsReflection coefRes) coefs ks) :
    ((filterElems coefRes coefs down words).getD (if down then words.length - 1 - k else k) .any).Stands
      ((allPoleOver (directFormOver ks) xs []).getD k 0) := by
  have at' : ∀ p, tnsPrec words.length ≤ p → ∃ y,
      (filterOutputs (enclArith p) coefRes coefs down words).getD (if down then words.length - 1 - k else k) none = some y ∧
        y.Within p ((allPoleOver (directFormOver ks) xs []).getD k 0) (1 / 2 ^ 201) := by
    intro p hp
    obtain ⟨y, hy, hw⟩ := filterOutputs_within hp hc hk hxs hks
    rw [filterOrder_getD down (by rw [filterOutputs_length]; exact hk), filterOutputs_length] at hy
    exact ⟨y, hy, hw⟩
  obtain ⟨y, hy, hw⟩ := at' _ le_rfl
  obtain ⟨isGrid, he⟩ := filterElems_getD hy
  have h200 : 200 ≤ tnsPrec words.length := by unfold tnsPrec; omega
  rw [he]
  refine .enclosed h200 (hw.near h200 le_rfl) fun q hq => ?_
  obtain ⟨z, hz, hwz⟩ := at' q (by omega)
  rw [hz]
  exact hwz.holds

end Sys2Proof.Machine
end

section
/-! The enclosure of the Bessel function and of the KBD window's kernel (44_filterbank.md R162; log 6). -/

namespace Sys2Proof.Machine

/-! ## The Bessel function -/

/-- Term `j` of `I0` in the square `U` of half the argument. -/
noncomputable def besselTerm (U : ℝ) (j : ℕ) : ℝ := U ^ j / (j.factorial : ℝ) ^ 2

/-- `I0` in the square of half the argument. -/
noncomputable def besselValue (U : ℝ) : ℝ := ∑' j : ℕ, besselTerm U j

theorem isBesselI0_iff {x r : ℝ} : IsBesselI0 x r ↔ r = besselValue ((x / 2) ^ 2) := by
  unfold IsBesselI0 besselValue besselTerm
  have : ∀ j : ℕ, ((x / 2) ^ j / (j.factorial : ℝ)) ^ 2 = ((x / 2) ^ 2) ^ j / (j.factorial : ℝ) ^ 2 := fun j => by
    rw [div_pow, ← pow_mul, ← pow_mul, Nat.mul_comm]
  simp only [this]

section
variable {U : ℝ}

theorem besselTerm_succ (U : ℝ) (j : ℕ) : besselTerm U (j + 1) = besselTerm U j * U * ((1 : ℕ) / ((j + 1) * (j + 1) : ℕ)) := by
  unfold besselTerm
  rw [Nat.factorial_succ, pow_succ]
  push_cast
  field_simp

theorem besselTerm_nonneg (hU : 0 ≤ U) (j : ℕ) : 0 ≤ besselTerm U j := by unfold besselTerm; positivity

theorem hasSum_bessel (hU : 0 ≤ U) : HasSum (besselTerm U) (besselValue U) := by
  refine (Summable.of_nonneg_of_le (besselTerm_nonneg hU) (fun j => ?_) (Real.summable_pow_div_factorial U)).hasSum
  unfold besselTerm
  have h1 : (1 : ℝ) ≤ j.factorial := by exact_mod_cast j.factorial_pos
  gcongr
  rw [sq]
  exact le_mul_of_one_le_left (by positivity) h1

theorem besselTerm_le_value (hU : 0 ≤ U) (j : ℕ) : besselTerm U j ≤ besselValue U :=
  le_hasSum (hasSum_bessel hU) j fun i _ => besselTerm_nonneg hU i

theorem one_le_besselValue (hU : 0 ≤ U) : 1 ≤ besselValue U := by
  simpa [besselTerm] using besselTerm_le_value hU 0

/-- No KBD window has a value of `I0` past 2^31. -/
theorem besselValue_le (hU : 0 ≤ U) (hU' : U ≤ 90) : besselValue U ≤ 2 ^ 31 := by
  have hs : Real.sqrt U ≤ 19 / 2 := Real.sqrt_le_iff.mpr ⟨by norm_num, by norm_num; linarith⟩
  have hexp : HasSum (fun j : ℕ => Real.sqrt U ^ j / (j.factorial : ℝ)) (Real.exp (Real.sqrt U)) := by
    rw [Real.exp_eq_exp_ℝ]
    exact NormedSpace.expSeries_div_hasSum_exp (𝔸 := ℝ) (Real.sqrt U)
  have h1 : besselValue U ≤ Real.exp (Real.sqrt U) * Real.exp (Real.sqrt U) := by
    refine hasSum_le (fun j => ?_) (hasSum_bessel hU) (hexp.mul_left (Real.exp (Real.sqrt U)))
    have ha : 0 ≤ Real.sqrt U ^ j / (j.factorial : ℝ) := by positivity
    have e : besselTerm U j = Real.sqrt U ^ j / (j.factorial : ℝ) * (Real.sqrt U ^ j / (j.factorial : ℝ)) := by
      unfold besselTerm
      conv_lhs => rw [← Real.sq_sqrt hU]
      rw [← pow_mul]
      ring
    rw [e]
    exact mul_le_mul_of_nonneg_right (le_hasSum hexp j fun i _ => by positivity) ha
  refine h1.trans ?_
  rw [← Real.exp_add]
  calc Real.exp (Real.sqrt U + Real.sqrt U) ≤ Real.exp (19 : ℕ) := Real.exp_le_exp.mpr (by push_cast; linarith)
    _ = Real.exp 1 ^ 19 := by rw [← Real.exp_nat_mul, mul_one]
    _ ≤ 3 ^ 19 := by gcongr; exact Real.exp_one_lt_three.le
    _ ≤ 2 ^ 31 := by norm_num

/-- Once the terms halve, what is left out is at most twice the first term left out. -/
theorem bessel_remainder (hU : 0 ≤ U) (hU' : U ≤ 90) {N : ℕ} (hN : 20 ≤ N) :
    ∑ i ∈ Finset.range N, besselTerm U i ≤ besselValue U ∧
      besselValue U ≤ ∑ i ∈ Finset.range N, besselTerm U i + 2 * besselTerm U N := by
  have h := hasSum_bessel hU
  refine ⟨sum_le_hasSum _ (fun i _ => besselTerm_nonneg hU i) h, ?_⟩
  have half : ∀ i : ℕ, besselTerm U (i + N) ≤ besselTerm U N * (1 / 2) ^ i := by
    intro i
    induction i with
    | zero => simp
    | succ i ih =>
      rw [show i + 1 + N = i + N + 1 by ring, besselTerm_succ, mul_assoc]
      have hc : U * ((1 : ℕ) / ((i + N + 1) * (i + N + 1) : ℕ)) ≤ 1 / 2 := by
        have : (20 : ℝ) ≤ N := by exact_mod_cast hN
        have hi : (0 : ℝ) ≤ i := by positivity
        push_cast
        rw [mul_one_div, div_le_iff₀ (by positivity)]
        nlinarith
      calc _ ≤ besselTerm U N * (1 / 2) ^ i * (1 / 2) :=
            mul_le_mul ih hc (by positivity) (mul_nonneg (besselTerm_nonneg hU N) (by positivity))
        _ = _ := by rw [pow_succ]; ring
  have h2 := hasSum_le half ((hasSum_nat_add_iff' N).mpr h) (hasSum_geometric_two.mul_left (besselTerm U N))
  linarith

/-- A bound of the terms that never falls below 1, so that the rounding of each step stays small beside it. -/
noncomputable def besselBound (U : ℝ) (j : ℕ) : ℝ := max 1 (besselTerm (max U 1) j)

theorem one_le_besselBound (U : ℝ) (j : ℕ) : 1 ≤ besselBound U j := le_max_left _ _

theorem besselTerm_le_bound (hU : 0 ≤ U) (j : ℕ) : besselTerm U j ≤ besselBound U j := by
  refine le_trans ?_ (le_max_right _ _)
  unfold besselTerm
  gcongr
  exact le_max_left _ _

theorem besselBound_le_value (hU : 0 ≤ U) (j : ℕ) : besselBound U j ≤ besselValue U := by
  refine max_le (one_le_besselValue hU) ?_
  rcases le_total 1 U with h | h
  · rw [max_eq_left h]
    exact besselTerm_le_value hU j
  · rw [max_eq_right h]
    refine le_trans ?_ (one_le_besselValue hU)
    have h1 : (1 : ℝ) ≤ j.factorial := by exact_mod_cast j.factorial_pos
    unfold besselTerm
    rw [one_pow, div_le_one (by positivity)]
    exact one_le_pow₀ h1

/-- The bound grows with the terms: below 1 only after they have begun to fall. -/
theorem besselBound_succ (U : ℝ) (j : ℕ) :
    besselBound U j * max U 1 * ((1 : ℕ) / ((j + 1) * (j + 1) : ℕ)) ≤ besselBound U (j + 1) := by
  set V := max U 1 with hV
  have hV1 : 1 ≤ V := le_max_right _ _
  have hV0 : 0 ≤ V := zero_le_one.trans hV1
  rcases le_or_gt 1 (besselTerm V j) with h | h
  · rw [besselBound, max_eq_right h, ← besselTerm_succ]
    exact le_max_right _ _
  · rw [besselBound, max_eq_left h.le, one_mul]
    refine le_trans ?_ (one_le_besselBound U (j + 1))
    rw [Nat.cast_one, mul_one_div, div_le_one (by positivity)]
    by_contra hc
    push Not at hc
    push_cast at hc
    have hf : (j.factorial : ℝ) ≤ (j : ℝ) ^ j := by exact_mod_cast Nat.factorial_le_pow j
    rcases Nat.eq_zero_or_pos j with rfl | hj
    · simp [besselTerm] at h
    have hj' : (0 : ℝ) < j := by exact_mod_cast hj
    have h1 : (j : ℝ) ^ 2 < V := by nlinarith
    have h2 : ((j : ℝ) ^ j) ^ 2 < V ^ j := by
      rw [← pow_mul, Nat.mul_comm, pow_mul]
      exact pow_lt_pow_left₀ h1 (by positivity) hj.ne'
    have h3 : (j.factorial : ℝ) ^ 2 < V ^ j := lt_of_le_of_lt (by gcongr) h2
    unfold besselTerm at h
    rw [div_lt_one (by positivity)] at h
    linarith

end

section
variable {p N j : Nat} {u term acc : Encl} {U ω κ : ℝ}

/-- A term's radius as a part of the value. -/
theorem besselRadius_le (hU : 0 ≤ U) (hκ : 0 ≤ κ) (hj : j ≤ N) : j * κ * besselBound U j ≤ N * κ * besselValue U := by
  have hj' : (j : ℝ) ≤ N := by exact_mod_cast hj
  have h1 := besselBound_le_value hU j
  have h2 := one_le_besselBound U j
  gcongr

/-- The series after `N` terms, its remainder enclosed by twice the next term. -/
theorem besselRemainder_within (hU : 0 ≤ U) (hU' : U ≤ 90) (hN : 20 ≤ N) (hκ : 0 ≤ κ)
    (hterm : term.Within p (besselTerm U N) (N * κ * besselBound U N))
    (hacc : acc.Within p (∑ i ∈ Finset.range N, besselTerm U i) (N * (N * κ * besselValue U))) :
    (⟨acc.lo, acc.hi + 2 * term.hi⟩ : Encl).Within p (besselValue U)
      ((N ^ 2 + 2 * N) * κ * besselValue U + 2 * besselTerm U N) := by
  obtain ⟨r1, r2⟩ := bessel_remainder hU hU' hN
  have hK := one_le_besselValue hU
  have hT := besselTerm_nonneg hU N
  have hP := pow_two_pos p
  have hb := besselRadius_le hU hκ (le_refl N)
  have hNK : 0 ≤ N * κ * besselValue U := by positivity
  refine ⟨⟨?_, ?_⟩, ?_, ?_⟩
  · calc (acc.lo : ℝ) ≤ (∑ i ∈ Finset.range N, besselTerm U i) * 2 ^ p := hacc.holds.1
      _ ≤ _ := by gcongr
  · calc besselValue U * 2 ^ p ≤ (∑ i ∈ Finset.range N, besselTerm U i + 2 * besselTerm U N) * 2 ^ p := by gcongr
      _ ≤ _ := by push_cast; linarith [hacc.holds.2, hterm.holds.2]
  · refine le_trans (mul_le_mul_of_nonneg_right ?_ hP.le) hacc.lo
    linarith
  · have h1 := hacc.hi
    have h2 := hterm.hi
    push_cast
    calc (acc.hi : ℝ) + 2 * term.hi ≤ (∑ i ∈ Finset.range N, besselTerm U i + N * (N * κ * besselValue U) +
          2 * (besselTerm U N + N * κ * besselBound U N)) * 2 ^ p := by linarith
      _ ≤ _ := mul_le_mul_of_nonneg_right (by linarith) hP.le

/-- The next term of the series, its radius grown by `κ` of the bound. -/
theorem besselTerm_succ_within (hu : u.Within p U ω) (hU : 0 ≤ U) (hκ : κ = 2 * (ω + ulp p)) (hjκ : j * κ ≤ 1)
    (hterm : term.Within p (besselTerm U j) (j * κ * besselBound U j)) :
    (((Encl.mul p term u).scale 1 ((j + 1) * (j + 1)))).Within p (besselTerm U (j + 1))
      ((j + 1 : ℕ) * κ * besselBound U (j + 1)) := by
  have hul := ulp_pos p
  have hω := hu.nonneg
  have hκ0 : 0 ≤ κ := by rw [hκ]; linarith
  rw [besselTerm_succ]
  refine ((hterm.mul hu).scale 1 (by positivity)).mono ?_
  set c : ℝ := (1 : ℕ) / ((j + 1) * (j + 1) : ℕ) with hc
  set V := max U 1 with hV
  set B := besselBound U j with hB
  have hc0 : 0 ≤ c := by positivity
  have hc1 : c ≤ 1 := by
    rw [hc, Nat.cast_one, div_le_one (by positivity)]
    exact_mod_cast Nat.one_le_iff_ne_zero.mpr (by positivity)
  have hB1 : 1 ≤ B := one_le_besselBound U j
  have hB2 := one_le_besselBound U (j + 1)
  have hstep : B * V * c ≤ besselBound U (j + 1) := besselBound_succ U j
  have hTB : besselTerm U j ≤ B := besselTerm_le_bound hU j
  have hT := besselTerm_nonneg hU j
  have hV1 : (1 : ℝ) ≤ V := le_max_right _ _
  have hVU : U ≤ V := le_max_left _ _
  rw [abs_of_nonneg hT, abs_of_nonneg hU]
  have s1 : besselTerm U j * ω ≤ B * V * ω := by
    gcongr
    exact hTB.trans (le_mul_of_one_le_right (by linarith) hV1)
  have s2 : U * (j * κ * B) ≤ V * (j * κ * B) := by gcongr
  have s3 : j * κ * B * ω ≤ B * V * ω := by
    refine mul_le_mul_of_nonneg_right ?_ hω
    calc j * κ * B ≤ 1 * B := by gcongr
      _ ≤ B * V := by rw [one_mul]; exact le_mul_of_one_le_right (by linarith) hV1
  have s4 : ulp p * c ≤ ulp p * 1 := by gcongr
  have s5 : ulp p ≤ ulp p * besselBound U (j + 1) := le_mul_of_one_le_right hul.le hB2
  have s6 : (2 * ω + j * κ) * (B * V * c) ≤ (2 * ω + j * κ) * besselBound U (j + 1) := by gcongr
  have s7 : (besselTerm U j * ω + U * (j * κ * B) + j * κ * B * ω) * c ≤ ((2 * ω + j * κ) * (B * V)) * c := by
    gcongr
    linarith
  rw [hκ] at *
  push_cast
  linarith

/-- The series of `I0` from its term `j` on: with `N` terms in all, each term's radius is a part of the bound that grows by `κ` a
step. -/
theorem besselTerms_within (hu : u.Within p U ω) (hU : 0 ≤ U) (hU' : U ≤ 90) (hN : 20 ≤ N) (hκ : κ = 2 * (ω + ulp p))
    (hNκ : N * κ ≤ 1) (n j : Nat) (hjn : j + n = N) {term acc : Encl}
    (hterm : term.Within p (besselTerm U j) (j * κ * besselBound U j))
    (hacc : acc.Within p (∑ i ∈ Finset.range j, besselTerm U i) (j * (N * κ * besselValue U))) :
    (besselTerms p u n j term acc).Within p (besselValue U)
      ((N ^ 2 + 2 * N) * κ * besselValue U + 2 * besselTerm U N) := by
  have hκ0 : 0 ≤ κ := by have := hu.nonneg; have := ulp_pos p; rw [hκ]; linarith
  induction n generalizing j term acc with
  | zero =>
    obtain rfl : j = N := by omega
    exact besselRemainder_within hU hU' hN hκ0 hterm hacc
  | succ n ih =>
    have hjκ : j * κ ≤ 1 := by
      refine le_trans ?_ hNκ
      gcongr
      omega
    unfold besselTerms
    refine ih (j + 1) (by omega) (besselTerm_succ_within hu hU hκ hjκ hterm) ?_
    rw [Finset.sum_range_succ]
    refine (hacc.add hterm).mono ?_
    have := besselRadius_le (N := N) hU hκ0 (show j ≤ N by omega)
    push_cast
    linarith

end

/-- The factorials outgrow the powers of the Bessel series and the precision. -/
theorem pow_le_factorial_sq {N : Nat} (hN : 116 ≤ N) : 1440 ^ N ≤ 2 ^ 76 * N.factorial ^ 2 := by
  induction N, hN using Nat.le_induction with
  | base => norm_num [Nat.factorial]
  | succ n hn ih =>
    calc 1440 ^ (n + 1) = 1440 * 1440 ^ n := by ring
      _ ≤ (n + 1) ^ 2 * (2 ^ 76 * n.factorial ^ 2) := Nat.mul_le_mul (by nlinarith) ih
      _ = 2 ^ 76 * (n + 1).factorial ^ 2 := by rw [Nat.factorial_succ]; ring

/-- The first term of the Bessel series that is left out is below half a unit in the last place. -/
theorem besselTerm_le_ulp {p N : Nat} {U : ℝ} (hU : 0 ≤ U) (hU' : U ≤ 90) (hN : 116 ≤ N) (hp : p + 77 ≤ 4 * N) :
    2 * besselTerm U N ≤ ulp p := by
  have h1 : (1440 : ℝ) ^ N ≤ 2 ^ 76 * (N.factorial : ℝ) ^ 2 := by exact_mod_cast pow_le_factorial_sq hN
  have h2 : (2 : ℝ) ^ p * 2 ^ 77 ≤ 2 ^ (4 * N) := by
    rw [← pow_add]; exact pow_le_pow_right₀ (by norm_num) hp
  have hf : (0 : ℝ) < (N.factorial : ℝ) ^ 2 := by positivity
  unfold ulp besselTerm
  rw [← mul_div_assoc, div_le_div_iff₀ hf (pow_two_pos p), one_mul]
  calc 2 * U ^ N * 2 ^ p ≤ 2 * 90 ^ N * 2 ^ p := by gcongr
    _ = 90 ^ N * (2 ^ p * 2 ^ 77) / 2 ^ 76 := by field_simp
    _ ≤ 90 ^ N * 2 ^ (4 * N) / 2 ^ 76 := by gcongr
    _ = 1440 ^ N / 2 ^ 76 := by rw [pow_mul, ← mul_pow]; norm_num
    _ ≤ _ := by rw [div_le_iff₀ (pow_two_pos 76)]; linarith

/-- The enclosure of `I0`, of small radius relative to its value. -/
theorem besselI0_within {p : Nat} (hp : 384 ≤ p) {u : Encl} {U : ℝ} (hU : 0 ≤ U) (hU' : U ≤ 90)
    (hu : u.Within p U (1801 * p * ulp p)) : (besselI0 p u).Within p (besselValue U) (2 * p ^ 4 * ulp p * besselValue U) := by
  have hul := ulp_pos p
  have hp' : (384 : ℝ) ≤ p := by exact_mod_cast hp
  have hK := one_le_besselValue hU
  set N := p / 4 + 20 with hN
  set κ := 2 * (1801 * p * ulp p + ulp p) with hκ
  have hN4 : (N : ℝ) ≤ p / 3 := by
    have : ((p / 4 : ℕ) : ℝ) ≤ (p : ℝ) / 4 := by exact_mod_cast Nat.cast_div_le (α := ℝ) (m := p) (n := 4)
    rw [hN]; push_cast; linarith
  have hκ1 : κ ≤ 3603 * (p * ulp p) := by
    have : 384 * ulp p ≤ p * ulp p := by gcongr
    rw [hκ]; linarith
  have hκ0 : 0 ≤ κ := by positivity
  have hNκ : N * κ ≤ 1 := by
    calc N * κ ≤ p / 3 * (3603 * (p * ulp p)) := by gcongr
      _ = 1201 * (p ^ 2 * ulp p) := by ring
      _ ≤ 1201 * (1 / (2 ^ 200 * 2 ^ 149)) := by gcongr; exact pow_mul_ulp hp (by decide)
      _ ≤ 1 := by norm_num
  have h1 : (Encl.ofInt p 1).Within p (besselTerm U 0) ((0 : ℕ) * κ * besselBound U 0) := by
    simpa [besselTerm] using within_ofInt (p := p) 1
  refine (besselTerms_within hu hU hU' (by omega) hκ hNκ N 0 (by omega) h1 (by simpa using within_zero)).mono ?_
  have hT := besselTerm_le_ulp (p := p) (N := N) hU hU' (by omega) (by omega)
  have h2 : 2 * besselTerm U N ≤ κ * besselValue U := by
    have : ulp p ≤ κ := by rw [hκ]; have : 0 ≤ 1801 * (p : ℝ) * ulp p := by positivity
                           linarith
    calc _ ≤ ulp p := hT
      _ ≤ κ * 1 := by linarith
      _ ≤ _ := by gcongr
  have h3 : ((N : ℝ) ^ 2 + 2 * N + 1) * κ ≤ 2 * p ^ 4 * ulp p := by
    calc ((N : ℝ) ^ 2 + 2 * N + 1) * κ ≤ ((p / 3) ^ 2 + 2 * (p / 3) + 1) * (3603 * (p * ulp p)) := by gcongr
      _ ≤ (p ^ 2 / 8) * (3603 * (p * ulp p)) := by gcongr; nlinarith
      _ = 3603 / 8 * (p ^ 3 * ulp p) := by ring
      _ ≤ 2 * p * (p ^ 3 * ulp p) := by gcongr; linarith
      _ = _ := by ring
  calc _ ≤ ((N : ℝ) ^ 2 + 2 * N + 1) * κ * besselValue U := by linarith
    _ ≤ _ := by gcongr

/-! ## The kernel of the KBD window (R162) -/

/-- The square of half the argument of `Wk(q)`'s numerator. -/
noncomputable def kbdSquare (N q : Nat) : ℝ :=
  Real.pi * Real.pi * ((kbdAlpha N ^ 2 * (8 * q * (N - 2 * q)) : ℕ) / (4 * N ^ 2 : ℕ))

theorem kbdAlpha_le (N : Nat) : kbdAlpha N ≤ 6 := by unfold kbdAlpha; split <;> decide

/-- The fraction of pi squared in it is at most 9. -/
theorem kbdFraction_le {N q : Nat} (hN : 0 < N) (hq : 2 * q ≤ N) :
    ((kbdAlpha N ^ 2 * (8 * q * (N - 2 * q)) : ℕ) : ℝ) / (4 * N ^ 2 : ℕ) ≤ 9 := by
  rw [div_le_iff₀ (by positivity)]
  have h1 : 8 * q * (N - 2 * q) ≤ N ^ 2 := by
    obtain ⟨m, rfl⟩ : ∃ m, N = 2 * q + m := ⟨N - 2 * q, by omega⟩
    rw [Nat.add_sub_cancel_left]
    nlinarith [sq_nonneg ((2 * q : ℤ) - m), mul_self_nonneg ((2 * q : ℤ) - m)]
  have h2 : kbdAlpha N ^ 2 ≤ 6 ^ 2 := Nat.pow_le_pow_left (kbdAlpha_le N) 2
  have h3 : kbdAlpha N ^ 2 * (8 * q * (N - 2 * q)) ≤ 9 * (4 * N ^ 2) :=
    (Nat.mul_le_mul h2 h1).trans (by omega)
  exact_mod_cast h3

theorem kbdSquare_bounds {N q : Nat} (hN : 0 < N) (hq : 2 * q ≤ N) : 0 ≤ kbdSquare N q ∧ kbdSquare N q ≤ 90 := by
  have hpi := Real.pi_lt_d2
  have hpi0 := Real.pi_pos
  have h := kbdFraction_le hN hq
  unfold kbdSquare
  refine ⟨by positivity, ?_⟩
  calc _ ≤ 3.15 * 3.15 * (9 : ℝ) := by gcongr
    _ ≤ 90 := by norm_num

theorem kbdKernel_within {p N q : Nat} (hp : 384 ≤ p) (hN : 0 < N) (hq : 2 * q ≤ N) :
    (kbdKernel p ((piEncl p).mul p (piEncl p)) N q).Within p (besselValue (kbdSquare N q))
      (2 * p ^ 4 * ulp p * besselValue (kbdSquare N q)) := by
  obtain ⟨h0, h1⟩ := kbdSquare_bounds hN hq
  have hul := ulp_pos p
  have hp' : (384 : ℝ) ≤ p := by exact_mod_cast hp
  have hpi := Real.pi_lt_d2
  have hpi0 := Real.pi_pos
  have hpu : (p : ℝ) * ulp p ≤ 1 / (2 ^ 200 * 2 ^ 149) := by simpa using pow_mul_ulp hp (k := 1) (by decide)
  have hpu0 : 0 < (p : ℝ) * ulp p := by positivity
  have hu' : 384 * ulp p ≤ p * ulp p := by gcongr
  have w1 : (piEncl p).Within p Real.pi (31 * (p * ulp p)) := (piEncl_within p).mono (by nlinarith)
  have w2 : ((piEncl p).mul p (piEncl p)).Within p (Real.pi * Real.pi) (200 * (p * ulp p)) := by
    refine (w1.mul w1).mono ?_
    rw [abs_of_pos hpi0]
    have s1 : Real.pi * (31 * (p * ulp p)) ≤ 3.15 * (31 * (p * ulp p)) := by gcongr
    have s2 : 31 * (p * ulp p) * (31 * (p * ulp p)) ≤ 1 * (p * ulp p) := by
      calc 31 * (p * ulp p) * (31 * (p * ulp p)) = (31 * 31 * (p * ulp p)) * (p * ulp p) := by ring
        _ ≤ (31 * 31 * (1 / (2 ^ 200 * 2 ^ 149))) * (p * ulp p) := by gcongr
        _ ≤ 1 * (p * ulp p) := by gcongr; norm_num
    norm_num at s1
    linarith
  refine besselI0_within hp h0 h1 ((w2.scale _ (by positivity)).mono ?_)
  have s3 : 200 * (p * ulp p) * (((kbdAlpha N ^ 2 * (8 * q * (N - 2 * q)) : ℕ) : ℝ) / (4 * N ^ 2 : ℕ)) ≤
      200 * (p * ulp p) * 9 := by
    gcongr
    exact kbdFraction_le hN hq
  linarith

/-- `Wk(q)` over the common factor it has. -/
theorem isKbdKernel_value {N q : Nat} (hN : 0 < N) (hq : 2 * q ≤ N) {r : ℝ} (h : IsKbdKernel N q r) :
    r = besselValue (kbdSquare N q) / besselValue ((Real.pi * (kbdAlpha N : ℝ) / 2) ^ 2) := by
  obtain ⟨num, den, hn, hd, rfl⟩ := h
  rw [isBesselI0_iff] at hn hd
  rw [hn, hd]
  congr 2
  have hN' : (0 : ℝ) < N := by exact_mod_cast hN
  have hq' : (2 * q : ℝ) ≤ N := by exact_mod_cast hq
  have e1 : 1 - (((q : ℝ) - N / 4) / (N / 4)) ^ 2 = 8 * q * (N - 2 * q) / N ^ 2 := by field_simp; ring
  have h0 : 0 ≤ 1 - (((q : ℝ) - N / 4) / (N / 4)) ^ 2 := by
    rw [e1]
    have : 0 ≤ (N : ℝ) - 2 * q := by linarith
    positivity
  rw [div_pow, mul_pow, Real.sq_sqrt h0, e1]
  unfold kbdSquare
  rw [Nat.cast_mul, Nat.cast_mul, Nat.cast_sub hq]
  push_cast
  field_simp
  ring

end Sys2Proof.Machine
end

section
/-! The window tables hold the exact windows (44_filterbank.md R161, R162; log 6). -/

namespace Sys2Proof.Machine

/-! ## Quotients and square roots -/

/-- The ends of a quotient of enclosures whose divisor is positive. -/
theorem divPos_ends {p : Nat} {x y : Encl} (hlo : (0 : ℝ) < y.lo) (hle : y.lo ≤ y.hi) :
    (((x.divPos p y).lo : ℝ) ≤ x.lo * 2 ^ p / y.hi ∧ (x.lo : ℝ) * 2 ^ p / y.hi - 1 ≤ (x.divPos p y).lo) ∧
      (x.hi : ℝ) * 2 ^ p / y.lo ≤ (x.divPos p y).hi ∧ ((x.divPos p y).hi : ℝ) ≤ x.hi * 2 ^ p / y.lo + 1 := by
  have nat : ∀ v : Int, 0 < v → ((v.toNat : ℕ) : ℝ) = v ∧ 0 < v.toNat := fun v hv => by
    refine ⟨?_, by omega⟩
    have : ((v.toNat : ℤ) : ℝ) = v := by rw [Int.toNat_of_nonneg hv.le]
    exact_mod_cast this
  have hlo' : 0 < y.lo := by exact_mod_cast hlo
  obtain ⟨nlo, plo⟩ := nat y.lo hlo'
  obtain ⟨nhi, phi⟩ := nat y.hi (by omega)
  have q1 := floorDiv_le (x.lo * 2 ^ p) phi
  have q2 := lt_floorDiv (x.lo * 2 ^ p) phi
  have q3 := le_ceilDiv (x.hi * 2 ^ p) plo
  have q4 := ceilDiv_lt (x.hi * 2 ^ p) plo
  rw [nhi] at q1 q2
  rw [nlo] at q3 q4
  push_cast at q1 q2 q3 q4
  exact ⟨⟨q1, q2⟩, q3, q4⟩

/-- A quotient of enclosures whose radii are small relative to their reals. -/
theorem divPos_within {p : Nat} {x y : Encl} {r s θ : ℝ} (hx : x.Within p r (θ * r)) (hy : y.Within p s (θ * s))
    (hr : 0 ≤ r) (hs : 0 < s) (h0 : 0 ≤ θ) (hθ : θ ≤ 1 / 3) : (x.divPos p y).Within p (r / s) (3 * θ * (r / s) + ulp p) := by
  have hP := pow_two_pos p
  have hu := ulp_mul_two_pow p
  have h1θ : 0 < 1 - θ := by linarith
  have xlo : (1 - θ) * r * 2 ^ p ≤ x.lo := by linarith [hx.lo]
  have xhi : (x.hi : ℝ) ≤ (1 + θ) * r * 2 ^ p := by linarith [hx.hi]
  have ylo : (1 - θ) * s * 2 ^ p ≤ y.lo := by linarith [hy.lo]
  have yhi : (y.hi : ℝ) ≤ (1 + θ) * s * 2 ^ p := by linarith [hy.hi]
  have hylo : (0 : ℝ) < y.lo := (by positivity : 0 < (1 - θ) * s * 2 ^ p).trans_le ylo
  have hyhi : (0 : ℝ) < y.hi := hylo.trans_le (by exact_mod_cast hy.holds.le)
  have hxlo : (0 : ℝ) ≤ x.lo := (by positivity : 0 ≤ (1 - θ) * r * 2 ^ p).trans xlo
  obtain ⟨⟨q1, q2⟩, q3, q4⟩ := divPos_ends (x := x) (p := p) hylo hy.holds.le
  refine ⟨⟨q1.trans ?_, le_trans ?_ q3⟩, ?_, ?_⟩
  · rw [div_mul_eq_mul_div, div_le_div_iff₀ hyhi hs]
    calc x.lo * 2 ^ p * s = x.lo * (s * 2 ^ p) := by ring
      _ ≤ r * 2 ^ p * y.hi := mul_le_mul hx.holds.1 hy.holds.2 (by positivity) (by positivity)
  · rw [div_mul_eq_mul_div, div_le_div_iff₀ hs hylo]
    calc r * 2 ^ p * y.lo ≤ x.hi * (s * 2 ^ p) :=
          mul_le_mul hx.holds.2 hy.holds.1 hylo.le (hxlo.trans (by exact_mod_cast hx.holds.le))
      _ = x.hi * 2 ^ p * s := by ring
  · have : (r / s - 3 * θ * (r / s)) * 2 ^ p ≤ x.lo * 2 ^ p / y.hi := by
      rw [le_div_iff₀ hyhi]
      calc (r / s - 3 * θ * (r / s)) * 2 ^ p * y.hi ≤ (1 - 2 * θ) * (r / s) * 2 ^ p * ((1 + θ) * s * 2 ^ p) := by
            refine mul_le_mul ?_ yhi hyhi.le ?_
            · have : 0 ≤ θ * (r / s) := by positivity
              gcongr
              linarith
            · have : 0 ≤ 1 - 2 * θ := by linarith
              positivity
        _ = (1 - 2 * θ) * (1 + θ) * r * 2 ^ p * 2 ^ p := by field_simp
        _ ≤ (1 - θ) * r * 2 ^ p * 2 ^ p := by
            gcongr
            nlinarith
        _ ≤ x.lo * 2 ^ p := by gcongr
    linarith
  · have : x.hi * 2 ^ p / y.lo ≤ (r / s + 3 * θ * (r / s)) * 2 ^ p := by
      rw [div_le_iff₀ hylo]
      calc x.hi * 2 ^ p ≤ (1 + θ) * r * 2 ^ p * 2 ^ p := by gcongr
        _ ≤ (1 + 3 * θ) * (1 - θ) * r * 2 ^ p * 2 ^ p := by
            gcongr
            nlinarith
        _ = (r / s + 3 * θ * (r / s)) * 2 ^ p * ((1 - θ) * s * 2 ^ p) := by field_simp
        _ ≤ _ := by gcongr
    linarith

/-- The integer square root and the real one. -/
theorem rootFloor_two_bounds (X : Nat) : (rootFloor 2 X : ℝ) ≤ Real.sqrt X ∧ Real.sqrt X ≤ rootFloor 2 X + 1 := by
  obtain ⟨h1, h2⟩ := rootFloor_spec (by decide : 0 < 2) X
  constructor
  · exact Real.le_sqrt_of_sq_le (by exact_mod_cast h1)
  · exact Real.sqrt_le_iff.mpr ⟨by positivity, by exact_mod_cast h2.le⟩

/-- The square root of a scaled real. -/
theorem sqrt_mul_two_pow {c : ℝ} (hc : 0 ≤ c) (p : Nat) : Real.sqrt (c * 2 ^ p * 2 ^ p) = Real.sqrt c * 2 ^ p := by
  rw [mul_assoc, Real.sqrt_mul hc, Real.sqrt_mul_self (pow_two_pos p).le]

/-- The ends of the square root of an enclosure that is not negative. -/
theorem sqrt_ends {p : Nat} {x : Encl} (hlo : (0 : ℝ) ≤ x.lo) (hhi : (0 : ℝ) ≤ x.hi) :
    (((x.sqrt p).lo : ℝ) ≤ Real.sqrt (x.lo * 2 ^ p) ∧ Real.sqrt (x.lo * 2 ^ p) ≤ (x.sqrt p).lo + 1) ∧
      Real.sqrt (x.hi * 2 ^ p) ≤ (x.sqrt p).hi ∧ ((x.sqrt p).hi : ℝ) ≤ Real.sqrt (x.hi * 2 ^ p) + 1 := by
  have nat : ∀ e : Int, (0 : ℝ) ≤ e → (((e * 2 ^ p).toNat : ℕ) : ℝ) = e * 2 ^ p := by
    intro e he
    have he' : 0 ≤ e := by exact_mod_cast he
    have : (((e * 2 ^ p).toNat : ℤ) : ℝ) = ((e * 2 ^ p : Int) : ℝ) := by rw [Int.toNat_of_nonneg (by positivity)]
    rw [Int.cast_natCast] at this
    rw [this]
    push_cast
    rfl
  obtain ⟨l1, l2⟩ := rootFloor_two_bounds (x.lo * 2 ^ p).toNat
  obtain ⟨u1, u2⟩ := rootFloor_two_bounds (x.hi * 2 ^ p).toNat
  rw [nat _ hlo] at l1 l2
  rw [nat _ hhi] at u1 u2
  have elo : ((x.sqrt p).lo : ℝ) = rootFloor 2 (x.lo * 2 ^ p).toNat := Int.cast_natCast _
  have ehi : ((x.sqrt p).hi : ℝ) = rootFloor 2 (x.hi * 2 ^ p).toNat + 1 := by
    show (((rootFloor 2 (x.hi * 2 ^ p).toNat : ℤ) + 1 : ℤ) : ℝ) = _
    push_cast
    rfl
  rw [elo, ehi]
  exact ⟨⟨l1, l2⟩, u2, by linarith⟩

/-- The square root of an enclosure whose radius is no more than its positive real. -/
theorem sqrt_within {p : Nat} {x : Encl} {v η : ℝ} (hx : x.Within p v η) (hv : 0 < v) (hη : η ≤ v) :
    (x.sqrt p).Within p (Real.sqrt v) (η / Real.sqrt v + ulp p) := by
  have hP := pow_two_pos p
  have hη0 := hx.nonneg
  have hr : 0 < Real.sqrt v := Real.sqrt_pos.mpr hv
  have hsq : Real.sqrt v * Real.sqrt v = v := Real.mul_self_sqrt hv.le
  have hu := ulp_mul_two_pow p
  have hlo0 : (0 : ℝ) ≤ x.lo := le_trans (mul_nonneg (by linarith) hP.le) hx.lo
  have hhi0 : (0 : ℝ) ≤ x.hi := hlo0.trans (by exact_mod_cast hx.holds.le)
  obtain ⟨⟨l1, l2⟩, u1, u2⟩ := sqrt_ends hlo0 hhi0
  have hq : η / Real.sqrt v ≤ Real.sqrt v := by rw [div_le_iff₀ hr, hsq]; exact hη
  have hq0 : 0 ≤ η / Real.sqrt v := by positivity
  have hqs : η / Real.sqrt v * Real.sqrt v = η := div_mul_cancel₀ _ hr.ne'
  refine ⟨⟨?_, ?_⟩, ?_, ?_⟩
  · rw [← sqrt_mul_two_pow hv.le]
    exact l1.trans (Real.sqrt_le_sqrt (by gcongr; exact hx.holds.1))
  · rw [← sqrt_mul_two_pow hv.le]
    exact (Real.sqrt_le_sqrt (by gcongr; exact hx.holds.2)).trans u1
  · have h1 : (Real.sqrt v - η / Real.sqrt v) * 2 ^ p ≤ Real.sqrt (x.lo * 2 ^ p) := by
      calc (Real.sqrt v - η / Real.sqrt v) * 2 ^ p ≤ Real.sqrt (v - η) * 2 ^ p := by
            gcongr
            exact Real.le_sqrt_of_sq_le (by nlinarith)
        _ = Real.sqrt ((v - η) * 2 ^ p * 2 ^ p) := (sqrt_mul_two_pow (by linarith) p).symm
        _ ≤ _ := Real.sqrt_le_sqrt (by gcongr; exact hx.lo)
    linarith
  · have h1 : Real.sqrt (x.hi * 2 ^ p) ≤ (Real.sqrt v + η / Real.sqrt v) * 2 ^ p := by
      calc Real.sqrt (x.hi * 2 ^ p) ≤ Real.sqrt ((v + η) * 2 ^ p * 2 ^ p) := Real.sqrt_le_sqrt (by gcongr; exact hx.hi)
        _ = Real.sqrt (v + η) * 2 ^ p := sqrt_mul_two_pow (by linarith) p
        _ ≤ _ := by
          gcongr
          exact Real.sqrt_le_iff.mpr ⟨by positivity, by nlinarith⟩
    linarith

/-! ## The KBD window (R162) -/

/-- Running sums of enclosures with one relative radius keep it. -/
theorem runningSums_within {p : Nat} {θ : ℝ} (xs : List Encl) {f : ℕ → ℝ} {acc : Encl} {s : ℝ}
    (hxs : ∀ i < xs.length, (xs.getD i (Encl.exact 0)).Within p (f i) (θ * f i)) (hacc : acc.Within p s (θ * s)) {i : ℕ}
    (hi : i < xs.length) (d : Encl) :
    ((runningSums xs acc).getD i d).Within p (s + ∑ k ∈ Finset.range (i + 1), f k)
      (θ * (s + ∑ k ∈ Finset.range (i + 1), f k)) := by
  induction xs generalizing f acc s i with
  | nil => simp at hi
  | cons x xs ih =>
    have h0 : (acc.add x).Within p (s + f 0) (θ * (s + f 0)) := by
      rw [mul_add]
      exact hacc.add (by simpa using hxs 0 (by simp))
    cases i with
    | zero => simpa [runningSums] using h0
    | succ i =>
      have h1 := ih (f := fun k => f (k + 1)) (fun k hk => by simpa using hxs (k + 1) (by simpa using hk)) h0
        (by simpa using hi)
      rw [Finset.sum_range_succ' f, add_comm (∑ k ∈ Finset.range (i + 1), f (k + 1)) (f 0), ← add_assoc]
      simpa [runningSums] using h1

theorem runningSums_length (xs : List Encl) (acc : Encl) : (runningSums xs acc).length = xs.length := by
  induction xs generalizing acc with
  | nil => rfl
  | cons x xs ih => simp [runningSums, ih]

/-- The sum of the kernels up to the one at `n`. -/
noncomputable def kbdSum (N n : Nat) : ℝ := ∑ q ∈ Finset.range (n + 1), besselValue (kbdSquare N q)

section
variable {N n : Nat}

theorem kbdSum_bounds (hN : 0 < N) (hn : 2 * n ≤ N) : (n + 1 : ℝ) ≤ kbdSum N n ∧ kbdSum N n ≤ (n + 1) * 2 ^ 31 := by
  have h : ∀ q ∈ Finset.range (n + 1), 1 ≤ besselValue (kbdSquare N q) ∧ besselValue (kbdSquare N q) ≤ 2 ^ 31 := by
    intro q hq
    have := Finset.mem_range.mp hq
    obtain ⟨h0, h1⟩ := kbdSquare_bounds hN (q := q) (by omega)
    exact ⟨one_le_besselValue h0, besselValue_le h0 h1⟩
  unfold kbdSum
  constructor
  · simpa using Finset.card_nsmul_le_sum _ _ _ fun q hq => (h q hq).1
  · simpa using Finset.sum_le_card_nsmul _ _ _ fun q hq => (h q hq).2

theorem kbdSum_mono (hN : 0 < N) {m : Nat} (hnm : n ≤ m) (hm : 2 * m ≤ N) : kbdSum N n ≤ kbdSum N m := by
  refine Finset.sum_le_sum_of_subset_of_nonneg (Finset.range_mono (by omega)) fun q hq _ => ?_
  have := Finset.mem_range.mp hq
  exact zero_le_one.trans (one_le_besselValue (kbdSquare_bounds hN (q := q) (by omega)).1)

/-- The exact KBD window as a quotient of sums of kernels. -/
theorem isWindow_kbd {shape : Nat} (hs : shape ≠ 0) (hN : 0 < N) (hn : n < N) {r : ℝ} (h : IsWindow shape N n r) :
    r = Real.sqrt (kbdSum N (if n < N / 2 then n else N - n - 1) / kbdSum N (N / 2)) := by
  unfold IsWindow at h
  rw [if_neg hs] at h
  obtain ⟨W, hW, rfl⟩ := h
  set D := besselValue ((Real.pi * (kbdAlpha N : ℝ) / 2) ^ 2) with hD
  have hD0 : D ≠ 0 := (zero_lt_one.trans_le (one_le_besselValue (sq_nonneg _))).ne'
  have sums : ∀ m ≤ N / 2, ∑ q ∈ Finset.range (m + 1), W q = kbdSum N m / D := by
    intro m hm
    unfold kbdSum
    rw [Finset.sum_div]
    refine Finset.sum_congr rfl fun q hq => ?_
    have := Finset.mem_range.mp hq
    exact isKbdKernel_value hN (by omega) (hW q (by omega))
  rw [sums _ (by split <;> omega), sums _ le_rfl, div_div_div_cancel_right₀ hD0]

end

/-- The enclosures of the sums of kernels (R162). -/
def kbdSums (p N : Nat) : List Encl :=
  runningSums ((List.range (N / 2 + 1)).map (kbdKernel p ((piEncl p).mul p (piEncl p)) N)) (Encl.exact 0)

theorem kbdSums_length (p N : Nat) : (kbdSums p N).length = N / 2 + 1 := by simp [kbdSums, runningSums_length]

/-- The entry of the table at `n` in its first half, and the one at the mirror image of `n`. -/
theorem kbdWindow_getD (p : Nat) {N n : Nat} (hn : n < N / 2) :
    (kbdWindow p N).getD n (Encl.exact 0) =
        (((kbdSums p N).getD n (Encl.exact 0)).divPos p ((kbdSums p N).getD (N / 2) (Encl.ofInt p 1))).sqrt p ∧
      (kbdWindow p N).getD (N / 2 + (N / 2 - 1 - n)) (Encl.exact 0) = (kbdWindow p N).getD n (Encl.exact 0) := by
  have hlen := kbdSums_length p N
  set half := ((kbdSums p N).take (N / 2)).map fun x => (x.divPos p ((kbdSums p N).getD (N / 2) (Encl.ofInt p 1))).sqrt p
    with hhalf
  have hhlen : half.length = N / 2 := by simp [hhalf, hlen]
  have htab : kbdWindow p N = half ++ half.reverse := rfl
  have hget : (kbdWindow p N).getD n (Encl.exact 0) = half.getD n (Encl.exact 0) := by
    rw [htab, List.getD_eq_getElem?_getD, List.getElem?_append_left (by omega), List.getD_eq_getElem?_getD]
  constructor
  · have hn' : n < (kbdSums p N).length := by omega
    rw [hget, hhalf]
    simp [List.getD_eq_getElem?_getD, hn, hn']
  · rw [hget, htab, List.getD_eq_getElem?_getD, List.getElem?_append_right (by omega), hhlen, Nat.add_sub_cancel_left,
      List.getElem?_reverse (by omega), hhlen, show N / 2 - 1 - (N / 2 - 1 - n) = n by omega, List.getD_eq_getElem?_getD]

/-- The relative radius of the kernels and their sums. -/
noncomputable def kbdRadius (p : Nat) : ℝ := 2 * p ^ 4 * ulp p

theorem kbdRadius_bounds {p : Nat} (hp : 384 ≤ p) : 2 ^ 21 * ulp p ≤ kbdRadius p ∧ kbdRadius p ≤ 1 / 2 ^ 45 := by
  have hul := ulp_pos p
  unfold kbdRadius
  constructor
  · have : (384 : ℝ) ^ 4 ≤ p ^ 4 := by gcongr; exact_mod_cast hp
    gcongr
    norm_num at this
    linarith
  · calc 2 * (p : ℝ) ^ 4 * ulp p = 2 * (p ^ 4 * ulp p) := by ring
      _ ≤ 2 * (1 / (2 ^ 200 * 2 ^ 149)) := by gcongr; exact pow_four_mul_ulp hp
      _ ≤ _ := by norm_num

theorem kbdSums_within {p N i : Nat} (hp : 384 ≤ p) (hN : 0 < N) (hi : i < N / 2 + 1) (d : Encl) :
    ((kbdSums p N).getD i d).Within p (kbdSum N i) (kbdRadius p * kbdSum N i) := by
  have h := runningSums_within (p := p) (θ := kbdRadius p)
    ((List.range (N / 2 + 1)).map (kbdKernel p ((piEncl p).mul p (piEncl p)) N)) (f := fun q => besselValue (kbdSquare N q))
    (acc := Encl.exact 0) (s := 0) (fun q hq => ?_) (by simpa using within_zero) (i := i) (by simpa using hi) d
  · simpa [kbdSum, kbdSums] using h
  · have hq' : q < N / 2 + 1 := by simpa using hq
    rw [List.getD_eq_getElem?_getD, List.getElem?_map, List.getElem?_range hq']
    exact kbdKernel_within hp hN (by omega)

/-- The square root of a quotient of relative radius `θ`, of a real that is not too small. -/
theorem sqrt_divPos_within {p : Nat} {x y : Encl} {r s θ : ℝ} (hx : x.Within p r (θ * r)) (hy : y.Within p s (θ * s))
    (hr : 0 < r) (hrs : r ≤ s) (hmin : 1 / 2 ^ 42 ≤ r / s) (hul : 2 ^ 21 * ulp p ≤ θ) (hθ : θ ≤ 1 / 2 ^ 45) :
    ((x.divPos p y).sqrt p).Within p (Real.sqrt (r / s)) (5 * θ) := by
  have hu := ulp_pos p
  have hθ0 : 0 ≤ θ := le_trans (by positivity) hul
  have hs : 0 < s := hr.trans_le hrs
  have hd := divPos_within hx hy hr.le hs hθ0 (hθ.trans (by norm_num))
  set v := r / s with hv
  have hv0 : 0 < v := by positivity
  have hv1 : v ≤ 1 := by rw [hv, div_le_one hs]; exact hrs
  have hroot : 1 / 2 ^ 21 ≤ Real.sqrt v := Real.le_sqrt_of_sq_le (le_trans (by norm_num) hmin)
  have hroot1 : Real.sqrt v ≤ 1 := Real.sqrt_le_one.mpr hv1
  have hroot0 : 0 < Real.sqrt v := Real.sqrt_pos.mpr hv0
  have hsmall : 3 * θ * v + ulp p ≤ v := by
    have h1 : 3 * θ * v ≤ 1 / 2 * v := by gcongr; linarith
    linarith
  refine (sqrt_within hd hv0 hsmall).mono ?_
  have h1 : 3 * θ * v ≤ 3 * θ * Real.sqrt v := by
    gcongr
    calc v = Real.sqrt v * Real.sqrt v := (Real.mul_self_sqrt hv0.le).symm
      _ ≤ 1 * Real.sqrt v := by gcongr
      _ = _ := one_mul _
  have h2 : ulp p ≤ θ * Real.sqrt v := by
    calc ulp p = 2 ^ 21 * ulp p * (1 / 2 ^ 21) := by field_simp
      _ ≤ θ * Real.sqrt v := by gcongr
  have h3 : (3 * θ * v + ulp p) / Real.sqrt v ≤ 4 * θ := by
    rw [div_le_iff₀ hroot0]
    linarith
  linarith

/-- The window's square is at least 2^-42. -/
theorem kbdQuotient_bound {N n : Nat} (hN : 0 < N) (hN' : N ≤ 2048) (hn : n < N / 2) :
    1 / 2 ^ 42 ≤ kbdSum N n / kbdSum N (N / 2) := by
  obtain ⟨hT1, hT2⟩ := kbdSum_bounds hN (n := N / 2) (by omega)
  obtain ⟨hS, -⟩ := kbdSum_bounds hN (n := n) (by omega)
  have hT0 : 0 < kbdSum N (N / 2) := lt_of_lt_of_le (by positivity) hT1
  have h1 : ((N / 2 : ℕ) : ℝ) + 1 ≤ 1025 := by exact_mod_cast (by omega : N / 2 + 1 ≤ 1025)
  rw [le_div_iff₀ hT0]
  calc 1 / 2 ^ 42 * kbdSum N (N / 2) ≤ 1 / 2 ^ 42 * (1025 * 2 ^ 31) := by
        gcongr
        exact hT2.trans (by gcongr)
    _ ≤ 1 := by norm_num
    _ ≤ n + 1 := by linarith [(Nat.cast_nonneg n : (0 : ℝ) ≤ n)]
    _ ≤ _ := hS

/-- An entry of the first half of the table. -/
theorem kbdHalf_within {p N n : Nat} (hp : 384 ≤ p) (hN : 0 < N) (hN' : N ≤ 2048) (hn : n < N / 2) :
    ((kbdWindow p N).getD n (Encl.exact 0)).Within p (Real.sqrt (kbdSum N n / kbdSum N (N / 2))) (10 * p ^ 4 * ulp p) := by
  have hS0 : 0 < kbdSum N n := lt_of_lt_of_le (by positivity) (kbdSum_bounds hN (n := n) (by omega)).1
  obtain ⟨hul, hθ⟩ := kbdRadius_bounds hp
  rw [(kbdWindow_getD p hn).1]
  refine (sqrt_divPos_within (kbdSums_within hp hN (by omega) _) (kbdSums_within hp hN (by omega) _) hS0
    (kbdSum_mono hN hn.le (by omega)) (kbdQuotient_bound hN hN' hn) hul hθ).mono (le_of_eq ?_)
  unfold kbdRadius
  ring

/-- The radius of the window tables. -/
theorem windowTable_within {p shape N n : Nat} {r : ℝ} (hp : 384 ≤ p) (hN : N ∈ [2048, 256, 1920, 240]) (hn : n < N)
    (h : IsWindow shape N n r) :
    ((windowTable (enclArith p) (kbdWindow p) shape N).getD n (Encl.exact 0)).Within p r (10 * p ^ 4 * ulp p) ∧ |r| ≤ 1 := by
  have hul := ulp_pos p
  have hp' : (384 : ℝ) ≤ p := by exact_mod_cast hp
  have hN0 : 0 < N := by omega
  have hNle : N ≤ 2048 ∧ N % 2 = 0 := by
    simp only [List.mem_cons, List.not_mem_nil, or_false] at hN
    omega
  unfold windowTable
  by_cases hs : shape = 0
  · rw [if_pos hs]
    unfold IsWindow at h
    rw [if_pos hs] at h
    have e : (sineWindow (enclArith p) N).getD n (Encl.exact 0) = (enclArith p).sinPi (2 * n + 1) (2 * N) := by
      simp [sineWindow, List.getD_eq_getElem?_getD, hn]
    rw [e]
    have h1 := sinPi_within hp (d := 2 * N) (by omega) (2 * n + 1)
    have e2 : Real.pi * ((2 * n + 1 : ℕ) : ℝ) / ((2 * N : ℕ) : ℝ) = Real.pi / N * (n + 1 / 2) := by
      have : (N : ℝ) ≠ 0 := by exact_mod_cast hN0.ne'
      push_cast; field_simp
    rw [e2, ← h] at h1
    refine ⟨h1.mono ?_, by rw [h]; exact Real.abs_sin_le_one _⟩
    have h2 : (2 : ℝ) ≤ p ^ 2 := by nlinarith
    have h3 : 18 * (p : ℝ) ^ 2 ≤ 10 * p ^ 4 := by nlinarith
    exact mul_le_mul_of_nonneg_right h3 hul.le
  · rw [if_neg hs]
    have hr := isWindow_kbd hs hN0 hn h
    have bound : ∀ m < N / 2, |Real.sqrt (kbdSum N m / kbdSum N (N / 2))| ≤ 1 := by
      intro m hm
      rw [abs_of_nonneg (Real.sqrt_nonneg _)]
      refine Real.sqrt_le_one.mpr ?_
      have hT0 : 0 < kbdSum N (N / 2) := lt_of_lt_of_le (by positivity) (kbdSum_bounds hN0 (n := N / 2) (by omega)).1
      rw [div_le_one hT0]
      exact kbdSum_mono hN0 hm.le (by omega)
    by_cases hh : n < N / 2
    · rw [if_pos hh] at hr
      rw [hr]
      exact ⟨kbdHalf_within hp hN0 hNle.1 hh, bound n hh⟩
    · rw [if_neg hh] at hr
      have h1 := kbdHalf_within hp hN0 hNle.1 (n := N - n - 1) (by omega)
      have h2 := (kbdWindow_getD p (n := N - n - 1) (by omega : N - n - 1 < N / 2)).2
      rw [show N / 2 + (N / 2 - 1 - (N - n - 1)) = n by omega] at h2
      rw [hr, h2]
      exact ⟨h1, bound _ (by omega)⟩

end Sys2Proof.Machine
end

section
/-! The elements of FB stand for their exact reals: the inverse transform and the windowed frame (44_filterbank.md R163 to R169;
log 6). -/

namespace Sys2Proof.Machine

/-! ## The inverse transform (R163) -/

/-- The sum of a list's terms at their positions. -/
theorem sum_zipIdx_within {p : Nat} {ε : ℝ} {f : Encl → Nat → Encl} (xs : List Encl) (j : Nat) {g : ℕ → ℝ}
    (h : ∀ i < xs.length, (f (xs.getD i (Encl.exact 0)) (j + i)).Within p (g i) ε) :
    ((enclArith p).sum ((xs.zipIdx j).map fun xk => f xk.1 xk.2)).Within p (∑ i ∈ Finset.range xs.length, g i)
      (xs.length * ε) := by
  induction xs generalizing j g with
  | nil => exact within_zero.mono (by simp)
  | cons x xs ih =>
    have h0 : (f x j).Within p (g 0) ε := by simpa using h 0 (by simp)
    have h1 := ih (j + 1) (g := fun i => g (i + 1)) fun i hi => by
      have := h (i + 1) (by simpa using hi)
      rwa [List.getD_cons_succ, show j + (i + 1) = j + 1 + i by ring] at this
    rw [List.length_cons, Finset.sum_range_succ', add_comm]
    refine (h0.add h1).mono (le_of_eq ?_)
    push_cast
    ring

/-- One product of the transform, none where the coefficient is plainly 0. -/
theorem imdctTerm_within {p N n k : Nat} {x : Encl} {r : ℝ} (hp : 384 ≤ p) (hN : 0 < N) (hx : x.Within p r 0)
    (hr : |r| ≤ 2 ^ 128) :
    (imdctTerm (enclArith p) N n k x).Within p
      (r * Real.cos (Real.pi * (((2 * n + N / 2 + 1) * (2 * k + 1) : ℕ) : ℝ) / ((2 * N : ℕ) : ℝ)))
      (2 ^ 128 * (18 * p ^ 2 * ulp p) + ulp p) := by
  have hu := ulp_pos p
  have hc := cosPi_within hp (d := 2 * N) (by omega) ((2 * n + N / 2 + 1) * (2 * k + 1))
  unfold imdctTerm
  split
  · rename_i hz
    have hz' : x = Encl.exact 0 := by simpa [enclArith] using hz
    have h0 : r = 0 := by
      have := (holds_exact_iff p).mp (hz' ▸ hx.holds)
      simpa using this
    rw [h0, zero_mul]
    exact within_zero.mono (by positivity)
  · refine (hx.mul hc).mono ?_
    have h1 : |r| * (18 * p ^ 2 * ulp p) ≤ 2 ^ 128 * (18 * p ^ 2 * ulp p) := by gcongr
    linarith

/-- The transform of an enclosed spectrum of exact coefficients. -/
theorem imdct_within {p N n : Nat} {xs : List Encl} {X : ℕ → ℝ} {r : ℝ} (hp : 384 ≤ p) (hN : N = 2 * xs.length)
    (hlen : 0 < xs.length) (hxs : ∀ k < xs.length, (xs.getD k (Encl.exact 0)).Within p (X k) 0 ∧ |X k| ≤ 2 ^ 128)
    (h : IsImdct N X n r) : (imdct (enclArith p) N xs n).Within p r (2 ^ 128 * (p ^ 4 * ulp p)) ∧ |r| ≤ 2 ^ 128 := by
  have hu := ulp_pos p
  have hp' : (384 : ℝ) ≤ p := by exact_mod_cast hp
  have hN0 : 0 < N := by omega
  have hM : (0 : ℝ) < xs.length := by exact_mod_cast hlen
  have hNr : (N : ℝ) = 2 * xs.length := by rw [hN]; push_cast; rfl
  set c : ℕ → ℝ := fun k => Real.cos (Real.pi * (((2 * n + N / 2 + 1) * (2 * k + 1) : ℕ) : ℝ) / ((2 * N : ℕ) : ℝ)) with hc
  have hr : r = (∑ k ∈ Finset.range xs.length, X k * c k) * ((2 : ℕ) / N) := by
    rw [h, show N / 2 = xs.length by omega, mul_comm]
    congr 1
    refine Finset.sum_congr rfl fun k _ => ?_
    rw [hc]
    congr 2
    rw [show N / 2 = xs.length by omega]
    push_cast
    rw [hNr]
    field_simp
    ring
  have hsum := sum_zipIdx_within xs 0 (f := fun x k => imdctTerm (enclArith p) N n k x) (g := fun k => X k * c k)
    fun k hk => by
      rw [Nat.zero_add]
      exact imdctTerm_within hp hN0 (hxs k hk).1 (hxs k hk).2
  constructor
  · rw [hr]
    refine (hsum.scale 2 hN0).mono ?_
    have e : (xs.length : ℝ) * (2 ^ 128 * (18 * p ^ 2 * ulp p) + ulp p) * ((2 : ℕ) / N) =
        2 ^ 128 * (18 * p ^ 2 * ulp p) + ulp p := by
      rw [hNr]; push_cast; field_simp
    rw [e]
    have h2 : (19 : ℝ) ≤ p ^ 2 := by nlinarith
    have h3 : 19 * (p : ℝ) ^ 2 ≤ p ^ 4 := by nlinarith
    have h4 : 19 * (p : ℝ) ^ 2 * ulp p ≤ p ^ 4 * ulp p := mul_le_mul_of_nonneg_right h3 hu.le
    have h5 : ulp p ≤ p ^ 2 * ulp p := le_mul_of_one_le_left hu.le (by linarith)
    linarith
  · have hb : |∑ k ∈ Finset.range xs.length, X k * c k| ≤ xs.length * 2 ^ 128 := by
      refine (Finset.abs_sum_le_sum_abs _ _).trans ?_
      have := Finset.sum_le_card_nsmul (Finset.range xs.length) (fun k => |X k * c k|) (2 ^ 128) fun k hk => by
        rw [abs_mul]
        calc |X k| * |c k| ≤ 2 ^ 128 * 1 :=
              mul_le_mul (hxs k (Finset.mem_range.mp hk)).2 (Real.abs_cos_le_one _) (abs_nonneg _) (by positivity)
          _ = 2 ^ 128 := mul_one _
      simpa using this
    rw [hr, abs_mul, hNr, abs_of_pos (by positivity : (0 : ℝ) < (2 : ℕ) / (2 * xs.length))]
    calc _ ≤ xs.length * 2 ^ 128 * (((2 : ℕ) : ℝ) / (2 * xs.length)) := by gcongr
      _ = 2 ^ 128 := by push_cast; field_simp

/-- A spectrum of finite words is known, each coefficient exactly. -/
theorem allKnown_words {p : Nat} (hp : 149 ≤ p) (words : List Word) {X : ℕ → ℝ}
    (h : ∀ k < words.length, IsF32 (words.getD k 0#32) (X k)) :
    ∃ ys, allKnown (words.map fun w => (f32Units w).map (enclArith p).ofUnits) = some ys ∧ ys.length = words.length ∧
      ∀ k < words.length, (ys.getD k (Encl.exact 0)).Within p (X k) 0 := by
  induction words generalizing X with
  | nil => exact ⟨[], rfl, rfl, by simp⟩
  | cons w ws ih =>
    obtain ⟨v, hv, hx⟩ : IsF32 w (X 0) := by simpa using h 0 (by simp)
    obtain ⟨ys, h1, h2, h3⟩ := ih (X := fun k => X (k + 1)) fun k hk => by simpa using h (k + 1) (by simpa using hk)
    refine ⟨(enclArith p).ofUnits v :: ys, by simp [allKnown, hv, h1], by simp [h2], fun k hk => ?_⟩
    cases k with
    | zero => simpa using within_ofUnits hp hx
    | succ k => simpa using h3 k (by simpa using hk)

/-- The radius every product of the windowed frame keeps. -/
noncomputable def frameRadius (p : Nat) : ℝ := 2 ^ 132 * (p ^ 4 * ulp p)

theorem frameRadius_nonneg (p : Nat) : 0 ≤ frameRadius p := by
  have := ulp_pos p
  unfold frameRadius
  positivity

/-- The transform of finite words. -/
theorem imdctAt_within {p N n : Nat} {words : List Word} {X : ℕ → ℝ} {r : ℝ} (hp : 384 ≤ p) (hN : N = 2 * words.length)
    (hlen : 0 < words.length) (hX : ∀ k < words.length, IsF32 (words.getD k 0#32) (X k)) (h : IsImdct N X n r) :
    ∃ x, imdctAt (enclArith p) N (words.map fun w => (f32Units w).map (enclArith p).ofUnits) n = some x ∧
      x.Within p r (2 ^ 128 * (p ^ 4 * ulp p)) ∧ |r| ≤ 2 ^ 128 := by
  obtain ⟨ys, h1, h2, h3⟩ := allKnown_words (by omega : 149 ≤ p) words hX
  refine ⟨_, by rw [imdctAt, h1]; rfl, imdct_within hp (by omega) (by omega) (fun k hk => ?_) h⟩
  rw [h2] at hk
  exact ⟨h3 k hk, (hX k hk).abs_lt.le⟩

/-- An output of the transform times a window value. -/
theorem windowed_within {p shape N m : Nat} {x : Encl} {r w : ℝ} (hp : 384 ≤ p) (hN : N ∈ [2048, 256, 1920, 240]) (hm : m < N)
    (hx : x.Within p r (2 ^ 128 * (p ^ 4 * ulp p))) (hr : |r| ≤ 2 ^ 128) (hw : IsWindow shape N m w) :
    ∃ z, windowed (enclArith p) (some x) (windowTable (enclArith p) (kbdWindow p) shape N) m = some z ∧
      z.Within p (r * w) (frameRadius p) := by
  obtain ⟨h1, h2⟩ := windowTable_within hp hN hm hw
  have hu := ulp_pos p
  refine ⟨_, rfl, (hx.mul h1).mono ?_⟩
  have hp4 := pow_four_mul_ulp hp
  set T := (p : ℝ) ^ 4 * ulp p with hT
  have hT0 : 0 ≤ T := by positivity
  have e : 10 * (p : ℝ) ^ 4 * ulp p = 10 * T := by rw [hT]; ring
  have hup : ulp p ≤ T := le_mul_of_one_le_left hu.le (one_le_pow₀ (by exact_mod_cast (by omega : 1 ≤ p)))
  rw [e]
  have s1 : |r| * (10 * T) ≤ 2 ^ 128 * (10 * T) := by gcongr
  have s2 : |w| * (2 ^ 128 * T) ≤ 1 * (2 ^ 128 * T) := by gcongr
  have s3 : 2 ^ 128 * T * (10 * T) ≤ 2 ^ 128 * T * 1 := by
    gcongr
    calc 10 * T ≤ 10 * (1 / (2 ^ 200 * 2 ^ 149)) := by gcongr
      _ ≤ 1 := by norm_num
  show _ ≤ 2 ^ 132 * T
  linarith

theorem imdctRadius_le {p : Nat} : 2 ^ 128 * (p ^ 4 * ulp p) ≤ frameRadius p := by
  have := ulp_pos p
  unfold frameRadius
  gcongr
  · norm_num
  · norm_num

/-! ## The windowed frame (R165 to R168) -/

/-- The long and the short window lengths of either frame length. -/
theorem windowLengths {L : Nat} (hL : L = 1024 ∨ L = 960) :
    2 * L ∈ [2048, 256, 1920, 240] ∧ 2 * (L / 8) ∈ [2048, 256, 1920, 240] := by
  rcases hL with rfl | rfl <;> decide

section
variable {p L sp shape n : Nat} {spec : List Word} {X : ℕ → ℝ} {z : ℝ}

/-- The long transform of a finite spectrum. -/
theorem longAt_within (hp : 384 ≤ p) (hL : L = 1024 ∨ L = 960) (hs : spec.length = L)
    (hX : ∀ k < L, IsF32 (spec.getD k 0#32) (X k)) {r : ℝ} (h : IsImdct (2 * L) X n r) :
    ∃ x, (enclFrame p L spec sp shape).longAt (enclArith p) n = some x ∧ x.Within p r (2 ^ 128 * (p ^ 4 * ulp p)) ∧
      |r| ≤ 2 ^ 128 :=
  imdctAt_within (N := 2 * L) hp (by rw [hs]) (by omega) (fun k hk => hX k (by omega)) h

/-- The long transform times a window value. -/
theorem windowedLong_within (hp : 384 ≤ p) (hL : L = 1024 ∨ L = 960) (hs : spec.length = L)
    (hX : ∀ k < L, IsF32 (spec.getD k 0#32) (X k)) {x' N m : Nat} {r w : ℝ} (hN : N ∈ [2048, 256, 1920, 240]) (hm : m < N)
    (h : IsImdct (2 * L) X n r) (hw : IsWindow x' N m w) :
    ∃ y, windowed (enclArith p) ((enclFrame p L spec sp shape).longAt (enclArith p) n)
        (windowTable (enclArith p) (kbdWindow p) x' N) m = some y ∧ y.Within p (r * w) (frameRadius p) := by
  obtain ⟨x, hx, hx', hr⟩ := longAt_within (sp := sp) (shape := shape) hp hL hs hX h
  rw [hx]
  exact windowed_within hp hN hm hx' hr hw

theorem zOnlyLong_within (hp : 384 ≤ p) (hL : L = 1024 ∨ L = 960) (hs : spec.length = L) (hn : n < 2 * L)
    (hX : ∀ k < L, IsF32 (spec.getD k 0#32) (X k)) (h : IsOnlyLong L sp shape X n z) :
    ∃ y, zOnlyLong (enclArith p) (enclFrame p L spec sp shape) n = some y ∧ y.Within p z (frameRadius p) := by
  obtain ⟨x, w, hx, hw, rfl⟩ := h
  unfold zOnlyLong
  by_cases hnL : n < L
  · rw [if_pos hnL] at hw
    rw [if_pos (show n < (enclFrame p L spec sp shape).L from hnL)]
    exact windowedLong_within hp hL hs hX (windowLengths hL).1 hn hx hw
  · rw [if_neg hnL] at hw
    rw [if_neg (show ¬n < (enclFrame p L spec sp shape).L from hnL)]
    exact windowedLong_within hp hL hs hX (windowLengths hL).1 hn hx hw

theorem zLongStart_within (hp : 384 ≤ p) (hL : L = 1024 ∨ L = 960) (hs : spec.length = L) (hn : n < 2 * L)
    (hX : n < 3 * L / 2 + L / 8 / 2 → ∀ k < L, IsF32 (spec.getD k 0#32) (X k)) (h : IsLongStart L sp shape X n z) :
    ∃ y, zLongStart (enclArith p) (enclFrame p L spec sp shape) n = some y ∧ y.Within p z (frameRadius p) := by
  show ∃ y, (if n < L then _ else if n < 3 * L / 2 - L / 8 / 2 then _ else if n < 3 * L / 2 + L / 8 / 2 then _ else _) =
    some y ∧ _
  unfold IsLongStart at h
  by_cases h1 : n < L
  · rw [if_pos h1] at h ⊢
    obtain ⟨x, w, hx, hw, rfl⟩ := h
    exact windowedLong_within hp hL hs (hX (by omega)) (windowLengths hL).1 hn hx hw
  rw [if_neg h1] at h ⊢
  by_cases h2 : n < 3 * L / 2 - L / 8 / 2
  · rw [if_pos h2] at h ⊢
    obtain ⟨x, hx, hx', _⟩ := longAt_within (sp := sp) (shape := shape) hp hL hs (hX (by omega)) h
    exact ⟨x, hx, hx'.mono imdctRadius_le⟩
  rw [if_neg h2] at h ⊢
  by_cases h3 : n < 3 * L / 2 + L / 8 / 2
  · rw [if_pos h3] at h ⊢
    obtain ⟨x, w, hx, hw, rfl⟩ := h
    exact windowedLong_within (m := n - (3 * L / 2 - L / 8 / 2) + L / 8) hp hL hs (hX h3) (windowLengths hL).2 (by omega) hx hw
  · rw [if_neg h3] at h ⊢
    exact ⟨_, rfl, h ▸ within_zero.mono (frameRadius_nonneg p)⟩

theorem zLongStop_within (hp : 384 ≤ p) (hL : L = 1024 ∨ L = 960) (hs : spec.length = L) (hn : n < 2 * L)
    (hX : L / 2 - L / 8 / 2 ≤ n → ∀ k < L, IsF32 (spec.getD k 0#32) (X k)) (h : IsLongStop L sp shape X n z) :
    ∃ y, zLongStop (enclArith p) (enclFrame p L spec sp shape) n = some y ∧ y.Within p z (frameRadius p) := by
  show ∃ y, (if n < L / 2 - L / 8 / 2 then _ else if n < L / 2 + L / 8 / 2 then _ else if n < L then _ else _) = some y ∧ _
  unfold IsLongStop at h
  by_cases h1 : n < L / 2 - L / 8 / 2
  · rw [if_pos h1] at h ⊢
    exact ⟨_, rfl, h ▸ within_zero.mono (frameRadius_nonneg p)⟩
  rw [if_neg h1] at h ⊢
  have hX := hX (by omega)
  by_cases h2 : n < L / 2 + L / 8 / 2
  · rw [if_pos h2] at h ⊢
    obtain ⟨x, w, hx, hw, rfl⟩ := h
    exact windowedLong_within (m := n - (L / 2 - L / 8 / 2)) hp hL hs hX (windowLengths hL).2 (by omega) hx hw
  rw [if_neg h2] at h ⊢
  by_cases h3 : n < L
  · rw [if_pos h3] at h ⊢
    obtain ⟨x, hx, hx', _⟩ := longAt_within (sp := sp) (shape := shape) hp hL hs hX h
    exact ⟨x, hx, hx'.mono imdctRadius_le⟩
  · rw [if_neg h3] at h ⊢
    obtain ⟨x, w, hx, hw, rfl⟩ := h
    exact windowedLong_within hp hL hs hX (windowLengths hL).1 hn hx hw

/-- A sum of known values over the windows that overlap, the others being 0. -/
theorem sumKnown_within {ε : ℝ} (hε : 0 ≤ ε) (js : List Nat) (c : Nat → Bool) {f : Nat → Option Encl} {t : ℕ → ℝ}
    (h : ∀ j ∈ js, if c j then ∃ x, f j = some x ∧ x.Within p (t j) ε else t j = 0) :
    ∃ y, sumKnown (enclArith p) ((js.filter c).map f) = some y ∧ y.Within p (js.map t).sum (js.length * ε) := by
  induction js with
  | nil => exact ⟨_, rfl, within_zero.mono (by simp)⟩
  | cons j js ih =>
    obtain ⟨y, hy, hw⟩ := ih fun i hi => h i (by simp [hi])
    have hj := h j (by simp)
    rw [List.map_cons, List.sum_cons, List.length_cons]
    by_cases hc : c j
    · rw [if_pos hc] at hj
      obtain ⟨x, hx, hxw⟩ := hj
      refine ⟨x.add y, by simp [hc, hx, sumKnown, hy]; rfl, (hxw.add hw).mono (le_of_eq ?_)⟩
      push_cast
      ring
    · rw [if_neg hc] at hj
      refine ⟨y, by simpa [hc] using hy, ?_⟩
      rw [hj, zero_add]
      refine hw.mono ?_
      push_cast
      linarith

/-- The term of short window `j`. -/
theorem shortTerm_within (hp : 384 ≤ p) (hL : L = 1024 ∨ L = 960) (hs : spec.length = L) {j : Nat} (hj : j < 8)
    (hX : ∀ k < L, FrameReads L 2 n k → IsF32 (spec.getD k 0#32) (X k))
    (hn : L / 2 - L / 8 / 2 + j * (L / 8) ≤ n ∧ n < L / 2 - L / 8 / 2 + j * (L / 8) + 2 * (L / 8)) {t : ℝ}
    (h : IsShortTerm L sp shape X n j t) :
    ∃ y, windowed (enclArith p) (imdctAt (enclArith p) (2 * (L / 8))
        ((((spec.map fun w => (f32Units w).map (enclArith p).ofUnits)).drop (j * (L / 8))).take (L / 8))
        (n - (L / 2 - L / 8 / 2) - j * (L / 8)))
      (windowTable (enclArith p) (kbdWindow p) (if j = 0 ∧ n - (L / 2 - L / 8 / 2) - j * (L / 8) < L / 8 then sp else shape)
        (2 * (L / 8))) (n - (L / 2 - L / 8 / 2) - j * (L / 8)) = some y ∧ y.Within p t (frameRadius p) := by
  unfold IsShortTerm at h
  simp only at h
  rw [if_pos hn] at h
  obtain ⟨x, w, hx, hw, rfl⟩ := h
  rw [← Nat.sub_sub] at hx hw
  have hS : 0 < L / 8 := by omega
  have hj8 : j * (L / 8) + L / 8 ≤ L := by
    have : (j + 1) * (L / 8) ≤ 8 * (L / 8) := Nat.mul_le_mul_right _ hj
    rw [Nat.add_mul, Nat.one_mul] at this
    omega
  have hlen : ((spec.drop (j * (L / 8))).take (L / 8)).length = L / 8 := by
    rw [List.length_take, List.length_drop]
    omega
  rw [← List.map_drop, ← List.map_take]
  obtain ⟨y, hy, hy', hr⟩ := imdctAt_within (words := (spec.drop (j * (L / 8))).take (L / 8)) hp (by rw [hlen]) (by omega)
    (X := fun k => X (j * (L / 8) + k)) (fun k hk => by
      rw [hlen] at hk
      have hdiv : (j * (L / 8) + k) / (L / 8) = j := by
        rw [Nat.mul_comm, Nat.mul_add_div hS, Nat.div_eq_of_lt hk, Nat.add_zero]
      have := hX (j * (L / 8) + k) (by omega) (by simp only [FrameReads, hdiv]; exact hn)
      rw [List.getD_eq_getElem?_getD] at this ⊢
      rwa [List.getElem?_take_of_lt hk, List.getElem?_drop]) hx
  rw [hy]
  exact windowed_within hp (windowLengths hL).2 (by omega) hy' hr hw

theorem zEightShort_within (hp : 384 ≤ p) (hL : L = 1024 ∨ L = 960) (hs : spec.length = L)
    (hX : ∀ k < L, FrameReads L 2 n k → IsF32 (spec.getD k 0#32) (X k)) (h : IsEightShort L sp shape X n z) :
    ∃ y, zEightShort (enclArith p) (enclFrame p L spec sp shape) n = some y ∧ y.Within p z (8 * frameRadius p) := by
  obtain ⟨t, ht, rfl⟩ := h
  have e : ∑ j ∈ Finset.range 8, t j = ((List.range 8).map t).sum := by
    simp [List.range_succ, Finset.sum_range_succ, add_assoc]
  obtain ⟨y, hy, hw⟩ := sumKnown_within (p := p) (frameRadius_nonneg p) (List.range 8)
    (fun j => L / 2 - L / 8 / 2 + j * (L / 8) ≤ n && n < L / 2 - L / 8 / 2 + j * (L / 8) + 2 * (L / 8))
    (f := fun j => windowed (enclArith p) (imdctAt (enclArith p) (2 * (L / 8))
        ((((spec.map fun w => (f32Units w).map (enclArith p).ofUnits)).drop (j * (L / 8))).take (L / 8))
        (n - (L / 2 - L / 8 / 2) - j * (L / 8)))
      (if j = 0 ∧ n - (L / 2 - L / 8 / 2) - j * (L / 8) < L / 8 then (enclFrame p L spec sp shape).prevShort
        else (enclFrame p L spec sp shape).curShort) (n - (L / 2 - L / 8 / 2) - j * (L / 8)))
    (t := t) fun j hj => by
      have hj8 := List.mem_range.mp hj
      have hj' := ht j hj8
      by_cases hn : L / 2 - L / 8 / 2 + j * (L / 8) ≤ n ∧ n < L / 2 - L / 8 / 2 + j * (L / 8) + 2 * (L / 8)
      · rw [if_pos (by simpa using hn)]
        have := shortTerm_within hp hL hs hj8 hX hn hj'
        rwa [apply_ite (fun sh => windowTable (enclArith p) (kbdWindow p) sh (2 * (L / 8)))] at this
      · rw [if_neg (by simpa using hn)]
        unfold IsShortTerm at hj'
        simp only at hj'
        rwa [if_neg hn] at hj'
  exact ⟨y, hy, e ▸ hw⟩

/-- The windowed frame of every window sequence. -/
theorem frame_within (hp : 384 ≤ p) (hL : L = 1024 ∨ L = 960) (hs : spec.length = L) (hn : n < 2 * L) {seq : Nat}
    (hX : ∀ k < L, FrameReads L seq n k → IsF32 (spec.getD k 0#32) (X k)) (h : IsFrame seq L sp shape X n z) :
    ∃ y, frameAt (enclArith p) seq (enclFrame p L spec sp shape) n = some y ∧ y.Within p z (8 * frameRadius p) := by
  have hr : frameRadius p ≤ 8 * frameRadius p := by linarith [frameRadius_nonneg p]
  have weaken : ∀ {o : Option Encl}, (∃ y, o = some y ∧ y.Within p z (frameRadius p)) →
      ∃ y, o = some y ∧ y.Within p z (8 * frameRadius p) := fun ⟨y, hy, hw⟩ => ⟨y, hy, hw.mono hr⟩
  match seq with
  | 0 => exact weaken (zOnlyLong_within hp hL hs hn (fun k hk => hX k hk trivial) h)
  | 1 => exact weaken (zLongStart_within hp hL hs hn (fun hA k hk => hX k hk hA) h)
  | 2 => exact zEightShort_within hp hL hs hX h
  | _ + 3 => exact weaken (zLongStop_within hp hL hs hn (fun hA k hk => hX k hk hA) h)

/-- The radius of a frame's value leaves it within 2^-200. -/
theorem frameRadius_le (hp : 384 ≤ p) : 8 * frameRadius p ≤ 1 / 2 ^ 201 := by
  have := pow_four_mul_ulp hp
  unfold frameRadius
  calc _ ≤ (8 : ℝ) * (2 ^ 132 * (1 / (2 ^ 200 * 2 ^ 149))) := by gcongr
    _ ≤ _ := by norm_num

end

/-! ## The stored elements (R169) -/

/-- An element of the frame stands for the real its formula has at every precision FB uses. -/
theorem frameElem_stands {x : Frame} {r : ℝ} (val : {R : Type} → Arith R → Nat → FrameInput R → Option R)
    (hb : x.base = x.finer prec)
    (h : ∀ p, 384 ≤ p → ∃ y, val (enclArith p) x.seq (x.finer p) = some y ∧ y.Within p r (8 * frameRadius p)) :
    (x.elem val).Stands r := by
  obtain ⟨y, hy, hw⟩ := h prec le_rfl
  unfold Frame.elem
  simp only [hb, hy]
  refine .enclosed (by decide) (hw.near (by decide) (frameRadius_le le_rfl)) fun q hq => ?_
  obtain ⟨z, hz, hzw⟩ := h q (le_trans (by decide) hq)
  rw [hz]
  exact hzw.holds

section
variable {L seq sp shape n : Nat} {spec : List Word} {X : ℕ → ℝ} {z : ℝ}

/-- `OVL[n]` (R169). -/
theorem ovlElem_stands (hL : L = 1024 ∨ L = 960) (hs : spec.length = L) (hn : n < L)
    (hX : ∀ k < L, FrameReads L seq (L + n) k → IsF32 (spec.getD k 0#32) (X k)) (h : IsFrame seq L sp shape X (L + n) z) :
    ((frameOf L seq spec sp shape).ovlElem n).Stands z :=
  frameElem_stands (fun o seq f => ovlReal o seq f n) rfl fun p hp =>
    frame_within hp hL hs (show L + n < 2 * L by omega) hX h

/-- `PCM[n]` (R169). -/
theorem pcmElem_stands (hL : L = 1024 ∨ L = 960) (hs : spec.length = L) (hn : n < L)
    (hX : ∀ k < L, FrameReads L seq n k → IsF32 (spec.getD k 0#32) (X k)) (h : IsFrame seq L sp shape X n z) {ovl : Word}
    {v : ℝ} (hv : IsF32 ovl v) : ((frameOf L seq spec sp shape).pcmElem n ovl).Stands (z + v) := by
  obtain ⟨u, hu, hv⟩ := hv
  refine frameElem_stands (fun o seq f => pcmReal o seq f n ovl) rfl fun p hp => ?_
  obtain ⟨y, hy, hw⟩ := frame_within hp hL hs (by omega) hX h
  refine ⟨y.add ((enclArith p).ofUnits u), ?_, (hw.add (within_ofUnits (by omega) hv)).mono (by simp)⟩
  show pcmReal (enclArith p) seq (enclFrame p L spec sp shape) n ovl = _
  simp only [pcmReal, hy, hu]
  rfl

end

end Sys2Proof.Machine
end

section
/-! How a command that completes stores its elements: the loops over bands and runs, the words a run reads and stores, and passes
over disjoint ranges (10_state.md R32, R47, R54, R55; 60_exceptions.md R200, R203). -/

namespace Sys2Proof.Machine

/-! ## Lists and loops -/

/-- What a completed check loop gives for the element at a position. -/
theorem checkAll_get {α β : Type} {f : α → Except Stop β} {xs : List α} {ys : List β} (h : checkAll f xs = .ok ys) {i : Nat}
    {x : α} (hx : xs[i]? = some x) : ∃ y, ys[i]? = some y ∧ f x = .ok y := by
  have h := checkAll_ok.mp h
  induction h generalizing i with
  | nil => simp at hx
  | cons h1 _ ih =>
    cases i with
    | zero => exact ⟨_, rfl, by simp at hx; exact hx ▸ h1⟩
    | succ i => simpa using ih (checkAll_ok.mpr ‹_›) (by simpa using hx)

/-- The elements of a completed check loop beside their results. -/
theorem checkAll_zip {α β : Type} {f : α → Except Stop β} {xs : List α} {ys : List β} (h : checkAll f xs = .ok ys) {x : α × β}
    (hx : x ∈ xs.zip ys) : x.1 ∈ xs ∧ f x.1 = .ok x.2 :=
  ⟨(List.of_mem_zip (a := x.1) (b := x.2) hx).1, List.forall₂_zip (checkAll_ok.mp h) hx⟩

theorem checkAll_congr {α β : Type} {f g : α → Except Stop β} {xs : List α} (h : ∀ x ∈ xs, f x = g x) :
    checkAll f xs = checkAll g xs := by
  induction xs with
  | nil => rfl
  | cons x xs ih =>
    unfold checkAll
    rw [h x (by simp), ih fun y hy => h y (by simp [hy])]

/-- The element at a position of a list mapped with its positions. -/
theorem getD_map_zipIdx {α β : Type} {xs : List α} {j : Nat} (hj : j < xs.length) (f : α × Nat → β) (d : α) (e : β) :
    (xs.zipIdx.map f).getD j e = f (xs.getD j d, j) := by
  simp [List.getD_eq_getElem?_getD, hj]

/-- Passes that own disjoint positions of a domain, each completing on any state that still has the positions it owns as they
were: each position holds what its owner gives it, and every other position of the domain is as it was. -/
theorem applyAll_writes {α σ ι κ : Type} {f : α → σ → Except Stop σ} {xs : List α} {P : σ → Prop} {val : σ → ι → κ}
    {own : α → ι → Prop} {dom : ι → Prop} {out : α → ι → κ} {s s0 : σ} (hs : P s)
    (hsame : ∀ x ∈ xs, ∀ i, own x i → val s i = val s0 i) (hdom : ∀ x ∈ xs, ∀ i, own x i → dom i)
    (apart : xs.Pairwise fun x y => ∀ i, own x i → ¬own y i)
    (hf : ∀ x ∈ xs, ∀ t, P t → (∀ i, own x i → val t i = val s0 i) → ∃ t', f x t = .ok t' ∧ P t' ∧
      (∀ i, own x i → val t' i = out x i) ∧ ∀ i, dom i → ¬own x i → val t' i = val t i) :
    ∃ t, applyAll f xs s = .ok t ∧ P t ∧ (∀ x ∈ xs, ∀ i, own x i → val t i = out x i) ∧
      ∀ i, dom i → (∀ x ∈ xs, ¬own x i) → val t i = val s i := by
  induction xs generalizing s with
  | nil => exact ⟨s, rfl, hs, by simp, fun _ _ _ => rfl⟩
  | cons x xs ih =>
    obtain ⟨hx, apart⟩ := List.pairwise_cons.mp apart
    obtain ⟨u, hu, hP, hout, hkeep⟩ := hf x (by simp) s hs (hsame x (by simp))
    have hdom' : ∀ y ∈ xs, ∀ i, own y i → dom i := fun y hy => hdom y (by simp [hy])
    have hsame' : ∀ y ∈ xs, ∀ i, own y i → val u i = val s0 i := fun y hy i hi => by
      rw [hkeep i (hdom' y hy i hi) fun h => hx y hy i h hi, hsame y (by simp [hy]) i hi]
    obtain ⟨t, ht, hP', hout', hkeep'⟩ := ih hP hsame' hdom' apart fun y hy => hf y (by simp [hy])
    refine ⟨t, by simp [applyAll, hu, ht], hP', fun y hy i hi => ?_, fun i hd hi => ?_⟩
    · rcases List.mem_cons.mp hy with rfl | hy
      · rw [hkeep' i (hdom y (by simp) i hi) fun z hz => hx z hz i hi, hout i hi]
      · exact hout' y hy i hi
    · rw [hkeep' i hd fun y hy => hi y (by simp [hy]), hkeep i hd (hi x (by simp))]

/-! ## Bands -/

theorem getElem?_bandList {G M g b : Nat} (hg : g < G) (hb : b < M) : (bandList G M)[g * M + b]? = some (g, b) := by
  have key : ∀ (n k : Nat), g < n → ((List.range' k n).flatMap fun g => (List.range M).map fun b => (g, b))[g * M + b]? =
      some (k + g, b) := by
    clear hg
    induction g with
    | zero =>
      intro n k hn
      obtain ⟨n, rfl⟩ : ∃ m, n = m + 1 := ⟨n - 1, by omega⟩
      rw [List.range'_succ, List.flatMap_cons, List.getElem?_append_left (by simp; omega)]
      simp [hb]
    | succ g ih =>
      intro n k hn
      obtain ⟨n, rfl⟩ : ∃ m, n = m + 1 := ⟨n - 1, by omega⟩
      rw [List.range'_succ, List.flatMap_cons, List.getElem?_append_right (by simp [Nat.add_mul]; omega)]
      have e : (g + 1) * M + b - ((List.range M).map fun b => (k, b)).length = g * M + b := by simp [Nat.add_mul]; omega
      rw [e, ih n (k + 1) (by omega)]
      congr 2
      omega
  have := key G 0 hg
  rwa [← List.range_eq_range', Nat.zero_add] at this

section
variable {s : State} {win : Windows} {ics : Ics} {swb : List Nat}

/-- The band of a bin (R55), on a band table that rises. -/
theorem bandOf_eq_some {k b : Nat} (hB : BandsGood win ics swb) :
    bandOf swb ics.maxSfb k = some b ↔ b < ics.maxSfb ∧ swb.getD b 0 ≤ k ∧ k < swb.getD (b + 1) 0 := by
  have hfew := hB.few
  unfold bandOf
  constructor
  · intro h
    have h1 := List.find?_some h
    have h2 := List.mem_of_find?_eq_some h
    simp only [Bool.and_eq_true, decide_eq_true_eq] at h1
    exact ⟨List.mem_range.mp h2, h1⟩
  · rintro ⟨hb, h1, h2⟩
    cases hf : (List.range ics.maxSfb).find? fun b => decide (swb.getD b 0 ≤ k) && decide (k < swb.getD (b + 1) 0) with
    | none =>
      rw [List.find?_eq_none] at hf
      exact absurd (by simp only [h1, h2, decide_true, Bool.and_self]) (hf b (List.mem_range.mpr hb))
    | some b' =>
      have h3 := List.find?_some hf
      have h4 := List.mem_range.mp (List.mem_of_find?_eq_some hf)
      simp only [Bool.and_eq_true, decide_eq_true_eq] at h3
      obtain ⟨h5, h6⟩ := h3
      rcases lt_trichotomy b b' with h | rfl | h
      · have := hB.mono (i := b + 1) (j := b') (by omega) (by omega)
        omega
      · rfl
      · have := hB.mono (i := b' + 1) (j := b) (by omega) (by omega)
        omega

/-- The group and the band of a bin below `max_sfb` are in range. -/
theorem BinBand.bounds {i g sfb : Nat} (h : BinBand win swb ics.maxSfb i g sfb) (hW : WindowsGood s win)
    (hB : BandsGood win ics swb) (hi : i < s.frameLen) : g < win.groups ∧ sfb < ics.maxSfb := by
  obtain ⟨hb, rfl⟩ := h
  refine ⟨groupOf_lt ?_, ((bandOf_eq_some hB).mp hb).1⟩
  rw [hW.sum]
  exact Nat.div_lt_of_lt_mul (by rw [Nat.mul_comm, hW.size]; exact hi)

/-- The runs of bins come in rising order. -/
theorem bandRuns_apart (hB : BandsGood win ics swb) :
    (bandRuns win swb ics.maxSfb).Pairwise fun r r' => r.first + r.len ≤ r'.first := by
  have hfew := hB.few
  unfold bandRuns
  rw [List.pairwise_flatMap]
  constructor
  · intro w _
    rw [List.pairwise_map]
    refine List.pairwise_lt_range.imp_of_mem fun {b b'} hb hb' h => ?_
    have hb' := List.mem_range.mp hb'
    have h1 := hB.mono (i := b) (j := b + 1) (by omega) (by omega)
    have h2 := hB.mono (i := b + 1) (j := b') (by omega) (by omega)
    simp only
    omega
  · refine List.pairwise_lt_range.imp fun {w w'} h => ?_
    simp only [List.mem_map, List.mem_range]
    rintro _ ⟨b, hb, rfl⟩ _ ⟨b', hb', rfl⟩
    have h1 := hB.le_len (i := b + 1) (by omega)
    have h2 := hB.mono (i := b) (j := b + 1) (by omega) (by omega)
    have h3 : (w + 1) * win.len ≤ w' * win.len := Nat.mul_le_mul_right _ h
    rw [Nat.add_mul, Nat.one_mul] at h3
    simp only
    omega

/-- Every bin of a run lies in its band. -/
theorem bandRuns_binBand (hB : BandsGood win ics swb) {r : Run} (hr : r ∈ bandRuns win swb ics.maxSfb) {i : Nat}
    (h1 : r.first ≤ i) (h2 : i < r.first + r.len) : BinBand win swb ics.maxSfb i r.g r.sfb := by
  have hfew := hB.few
  unfold bandRuns at hr
  simp only [List.mem_flatMap, List.mem_range, List.mem_map] at hr
  obtain ⟨w, hw, b, hb, rfl⟩ := hr
  simp only at h1 h2 ⊢
  have h3 := hB.le_len (i := b + 1) (by omega)
  obtain ⟨k, rfl⟩ : ∃ k, i = win.len * w + k := ⟨i - w * win.len, by rw [Nat.mul_comm]; omega⟩
  rw [Nat.mul_comm] at h1 h2
  have hk : k < win.len := by omega
  refine ⟨?_, ?_⟩
  · rw [Nat.mul_add_mod, Nat.mod_eq_of_lt hk, bandOf_eq_some hB]
    omega
  · rw [Nat.mul_add_div (by omega), Nat.div_eq_of_lt hk, Nat.add_zero]

/-- Every bin of a band below `max_sfb` lies in a run of it. -/
theorem BinBand.exists_run {i g sfb : Nat} (h : BinBand win swb ics.maxSfb i g sfb) (hW : WindowsGood s win)
    (hB : BandsGood win ics swb) (hi : i < s.frameLen) :
    ∃ r ∈ bandRuns win swb ics.maxSfb, r.g = g ∧ r.sfb = sfb ∧ r.first ≤ i ∧ i < r.first + r.len := by
  obtain ⟨hb, rfl⟩ := h
  obtain ⟨h1, h2, h3⟩ := (bandOf_eq_some hB).mp hb
  have hw : i / win.len < win.count := Nat.div_lt_of_lt_mul (by rw [Nat.mul_comm, hW.size]; exact hi)
  refine ⟨_, List.mem_flatMap.mpr ⟨i / win.len, List.mem_range.mpr hw, List.mem_map.mpr ⟨sfb, List.mem_range.mpr h1, rfl⟩⟩,
    rfl, rfl, ?_⟩
  have := Nat.div_add_mod' i win.len
  simp only
  omega

end

/-! ## The words of a run -/

section
variable {s t : State} {c first len : Nat} {ws : List Word}

theorem readSpecRun_congr (h : ∀ i, first ≤ i → i < first + len → t.item? c .spec i = s.item? c .spec i) :
    readSpecRun c first len t = readSpecRun c first len s := by
  refine checkAll_congr fun j hj => ?_
  have := List.mem_range.mp hj
  unfold State.readItem
  rw [h (first + j) (by omega) (by omega)]

theorem readSpecRun_total (h : ∀ i, first ≤ i → i < first + len → ∃ w, s.item? c .spec i = some w) :
    ∃ ws, readSpecRun c first len s = .ok ws := by
  refine checkAll_total fun j hj => ?_
  have := List.mem_range.mp hj
  obtain ⟨w, hw⟩ := h (first + j) (by omega) (by omega)
  exact ⟨w, readItem_ok.mpr hw⟩

/-- The words a run reads are the SPEC words at its bins. -/
theorem readSpecRun_item (h : readSpecRun c first len s = .ok ws) {i : Nat} (h1 : first ≤ i) (h2 : i < first + len) :
    s.item? c .spec i = some (ws.getD (i - first) 0#32) := by
  obtain ⟨w, hw, hr⟩ := checkAll_get h (List.getElem?_range (by omega : i - first < len))
  rw [show first + (i - first) = i by omega, readItem_ok] at hr
  rw [hr, List.getD_eq_getElem?_getD, hw]
  rfl

end

/-- An item that keeps all the bits of its words reads back as stored (R30). -/
theorem item_setItems_whole {s : State} {c : Nat} {it : Item} {i0 i : Nat} {ws : List Word} (hm : it.mask = 0xFFFFFFFF#32)
    (h0 : i0 ≤ i) (h1 : i < i0 + ws.length) : (s.setItems c it i0 ws).item? c it i = some (ws.getD (i - i0) 0#32) := by
  rw [item_setItems_same h0 h1, hm]
  congr 1
  exact BitVec.and_allOnes

/-- Words stored to SPEC leave the MS_USED bits as they were (R31, R43). -/
theorem SpecStores.msUsed {cs : List Nat} {s t : State} (h : SpecStores cs s t) {a mmp g sfb : Nat} (hg : g < 8)
    (hb : sfb < 64) : msUsedIfPerBand a mmp g sfb t = msUsedIfPerBand a mmp g sfb s := by
  unfold msUsedIfPerBand readMsUsed State.readItem
  rw [h.other (by simp only [Item.count]; omega) (by simp)]

/-! ## Completion -/

/-- Command `i`, run in `s`, completes and stores the element `e` as its element `idx`. -/
def StoresElem (i : Instr) (s : State) (idx : Nat) (e : Elem) : Prop :=
  ∃ t, exec i s = .next t ∧ t.mem.word? (resultAddr i idx) = some (storedWord s i idx e)

section
variable {s s' : State}

/-- A command that gets past the checks of R203 and whose body completes. -/
theorem runCommand_body {i : Instr} {fe : Bool} {bad : Option Nat} {body : Except Stop State} (hf : s.status.fatal = false)
    (hbad : bad = none) (hb : body = .ok s') : runCommand i fe bad body s = .next (complete s') := by
  rw [hbad, hb, runCommand_ok (by simp [hf])]

/-- No operand of an accepted command is refused (R203). -/
theorem badChannelC_none {c : Nat} (hc : c < s.params.nch) : badChannelC c s = none := if_neg (not_le.mpr hc)

theorem badChannelP_none {a b : Nat} (ha : a < s.params.nch) (hb : b < s.params.nch) (hab : a ≠ b) :
    badChannelP a b s = none := by
  rw [badChannelP, if_neg (not_le.mpr ha), if_neg (not_le.mpr hb), if_neg hab]

theorem exec_iq_ok {c : Nat} (h : Accepted (.iq c) s) (hb : iqBody c s = .ok s') : exec (.iq c) s = .next (complete s') :=
  runCommand_body h.1 (badChannelC_none h.2) hb

theorem exec_tns_ok {c : Nat} (h : Accepted (.tns c) s) (hb : tnsBody c s = .ok s') : exec (.tns c) s = .next (complete s') :=
  runCommand_body h.1 (badChannelC_none h.2) hb

theorem exec_fb_ok {c : Nat} (h : Accepted (.fb c) s) (hb : fbBody c s = .ok s') : exec (.fb c) s = .next (complete s') :=
  runCommand_body h.1 (badChannelC_none h.2) hb

theorem exec_ms_ok {a b : Nat} (h : Accepted (.ms a b) s) (hb : msBody a b s = .ok s') :
    exec (.ms a b) s = .next (complete s') := by
  obtain ⟨hf, ha, hb', hab⟩ := h
  exact runCommand_body hf (badChannelP_none ha hb' hab) hb

theorem exec_is_ok {a b : Nat} (h : Accepted (.is a b) s) (hb : isBody a b s = .ok s') :
    exec (.is a b) s = .next (complete s') := by
  obtain ⟨hf, ha, hb', hab⟩ := h
  exact runCommand_body hf (badChannelP_none ha hb' hab) hb

end

end Sys2Proof.Machine
end

section
/-! IQ completes on legal data and stores `dq(q, sf)` in the spectral bands (41_inverse_quant.md R105). -/

namespace Sys2Proof.Machine

section
variable {c : Nat} {s : State} {ics : Ics} {win : Windows} {swb : List Nat}

/-- R105's type check lets every legal type pass. -/
theorem iqTypeCheck_ok {gb : Nat × Nat} {t : Nat} (h : readBandType c gb.1 gb.2 s = .ok t) (hl : legalType t = true) :
    iqTypeCheck c s gb = .ok t := by
  have h1 : isIllegalType t = false := by
    unfold legalType at hl; unfold isIllegalType; simp only [Bool.or_eq_true, decide_eq_true_eq, beq_iff_eq] at hl
    simp only [Bool.or_eq_false_iff, beq_eq_false_iff_ne, decide_eq_false_iff_not]
    omega
  have h2 : isNoise t = false := by
    unfold legalType at hl; unfold isNoise; simp only [Bool.or_eq_true, decide_eq_true_eq, beq_iff_eq] at hl
    simp only [beq_eq_false_iff_ne]
    omega
  unfold iqTypeCheck
  rw [h]
  show (if _ then _ else if _ then _ else _) = _
  rw [if_neg (by simp [h1]), if_neg (by simp [h2])]
  rfl

/-- A type that passes is the one read. -/
theorem iqTypeCheck_read {gb : Nat × Nat} {t : Nat} (h : iqTypeCheck c s gb = .ok t) : readBandType c gb.1 gb.2 s = .ok t := by
  unfold iqTypeCheck at h
  obtain ⟨t', hr, h⟩ := except_bind_ok.mp h
  split at h
  · cases h
  · split at h
    · cases h
    · rwa [← except_pure_ok.mp h]

/-- The scalefactor a check leaves is that of a spectral band, in range. -/
theorem iqSfCheck_some {gb : Nat × Nat} {t : Nat} {sf : Int} :
    iqSfCheck c s (gb, t) = .ok (some sf) ↔
      isSpectral t = true ∧ readSf c gb.1 gb.2 s = .ok sf ∧ Config.sfMin ≤ sf ∧ sf ≤ Config.sfMax := by
  unfold iqSfCheck
  by_cases ht : isSpectral t = true
  · rw [if_pos ht]
    simp only [ht, true_and, except_bind_ok]
    constructor
    · rintro ⟨sf', hr, h⟩
      split at h
      · rename_i hs
        cases except_pure_ok.mp h
        exact ⟨hr, hs⟩
      · cases h
    · rintro ⟨hr, hs⟩
      exact ⟨sf, hr, by rw [if_pos hs]; rfl⟩
  · rw [if_neg ht]
    simp [ht]

variable {types : List Nat} {sfs : List (Option Int)}

/-- Where IQ looks the scalefactor of a bin up. -/
theorem iqBinSf_binBand {maxSfb i g sfb : Nat} (h : BinBand win swb maxSfb i g sfb) :
    iqBinSf win swb maxSfb sfs i = sfs.getD (g * maxSfb + sfb) none := by
  obtain ⟨hb, rfl⟩ := h
  rw [iqBinSf, hb]

theorem iqBinSf_noBand {maxSfb i : Nat} (h : NoBand win swb maxSfb i) : iqBinSf win swb maxSfb sfs i = none := by
  rw [iqBinSf, h]

/-- The scalefactor of a bin (R105): the one of the spectral band it lies in. -/
theorem iqBinSf_some (hside : SideInfo c s ics win swb)
    (htypes : checkAll (iqTypeCheck c s) (bandList win.groups ics.maxSfb) = .ok types)
    (hsfs : checkAll (iqSfCheck c s) ((bandList win.groups ics.maxSfb).zip types) = .ok sfs) {i : Nat} (hi : i < s.frameLen)
    {sf : Int} :
    iqBinSf win swb ics.maxSfb sfs i = some sf ↔ ∃ g sfb t, BinBand win swb ics.maxSfb i g sfb ∧
      readBandType c g sfb s = .ok t ∧ isSpectral t = true ∧ readSf c g sfb s = .ok sf ∧ Config.sfMin ≤ sf ∧
      sf ≤ Config.sfMax := by
  have hW := readWindows_good hside.windows
  have hB := readBands_good hside.bands
  have key : ∀ {g sfb}, BinBand win swb ics.maxSfb i g sfb → ∃ t, readBandType c g sfb s = .ok t ∧
      iqSfCheck c s ((g, sfb), t) = .ok (iqBinSf win swb ics.maxSfb sfs i) := by
    intro g sfb hb
    obtain ⟨hg, hsfb⟩ := hb.bounds hW hB hi
    have hband := getElem?_bandList hg hsfb
    obtain ⟨t, ht, htype⟩ := checkAll_get htypes hband
    have hzip : ((bandList win.groups ics.maxSfb).zip types)[g * ics.maxSfb + sfb]? = some ((g, sfb), t) := by
      rw [List.getElem?_zip_eq_some]
      exact ⟨hband, ht⟩
    obtain ⟨o, ho, hsf⟩ := checkAll_get hsfs hzip
    refine ⟨t, iqTypeCheck_read (gb := (g, sfb)) htype, ?_⟩
    rw [iqBinSf_binBand hb, List.getD_eq_getElem?_getD, ho]
    exact hsf
  constructor
  · intro h
    have hb : bandOf swb ics.maxSfb (i % win.len) ≠ none := fun hb => by
      rw [iqBinSf_noBand hb] at h
      cases h
    obtain ⟨b, hb⟩ := Option.ne_none_iff_exists'.mp hb
    obtain ⟨t, ht, hsf⟩ := key ⟨hb, rfl⟩
    rw [h, iqSfCheck_some] at hsf
    exact ⟨_, b, t, ⟨hb, rfl⟩, ht, hsf⟩
  · rintro ⟨g, sfb, t, hb, ht, hsf⟩
    obtain ⟨t', ht', h⟩ := key hb
    cases ht.symm.trans ht'
    exact Except.ok.inj (h.symm.trans (iqSfCheck_some.mpr hsf))

/-- IQ's body completes on legal data, each bin of a spectral band holding `dq(q, sf)` (R105). -/
theorem iqBody_legal (h : IqLegal c s ics win swb) :
    ∃ s', iqBody c s = .ok s' ∧ ∀ i < s.frameLen, ∀ g sfb t sf w, BinBand win swb ics.maxSfb i g sfb →
      readBandType c g sfb s = .ok t → isSpectral t = true → readSf c g sfb s = .ok sf → s.item? c .qspec i = some w →
      s'.item? c .spec i = some (storedWord s (.iq c) i (dqElem w.toInt sf)) := by
  have hside := h.side
  obtain ⟨types, htypes⟩ := checkAll_total (f := iqTypeCheck c s) (xs := bandList win.groups ics.maxSfb) fun gb hgb => by
    obtain ⟨hg, hb⟩ := mem_bandList.mp hgb
    obtain ⟨t, ht, hl⟩ := h.types _ hg _ hb
    exact ⟨t, iqTypeCheck_ok ht hl⟩
  obtain ⟨sfs, hsfs⟩ := checkAll_total (f := iqSfCheck c s) (xs := (bandList win.groups ics.maxSfb).zip types) fun x hx => by
    obtain ⟨hgb, ht⟩ := checkAll_zip htypes hx
    obtain ⟨hg, hb⟩ := mem_bandList.mp hgb
    by_cases hs : isSpectral x.2 = true
    · obtain ⟨sf, hsf⟩ := h.scalefactors _ hg _ hb _ (iqTypeCheck_read ht) hs
      exact ⟨some sf, iqSfCheck_some.mpr ⟨hs, hsf⟩⟩
    · exact ⟨none, by rw [iqSfCheck, if_neg hs]⟩
  have hbin : ∀ i < s.frameLen, ∀ sf, iqBinSf win swb ics.maxSfb sfs i = some sf →
      ∃ w, s.item? c .qspec i = some w ∧ w.toInt.natAbs ≤ Config.qMax := by
    intro i hi sf hsf
    obtain ⟨g, sfb, t, hb, ht, hs, _⟩ := (iqBinSf_some hside htypes hsfs hi).mp hsf
    exact h.bins i hi g sfb t hb ht hs
  obtain ⟨bins, hbins⟩ := checkAll_total (f := fun qi => iqRangeCheck c (iqBinSf win swb ics.maxSfb sfs qi.2) qi.1 qi.2)
      (xs := (s.array c .qspec s.frameLen).zipIdx) fun x hx => by
    obtain ⟨hi, hq⟩ := mem_array_zipIdx (frameLen_le s) hx
    simp only [hq]
    cases hsf : iqBinSf win swb ics.maxSfb sfs x.2 with
    | none => exact ⟨none, rfl⟩
    | some sf =>
      obtain ⟨w, hw, hm⟩ := hbin _ hi sf hsf
      exact ⟨some (w.toInt, sf), by rw [hw]; exact if_neg (not_lt.mpr hm)⟩
  have hlen : bins.length = s.frameLen := by
    have := checkAll_length hbins
    rwa [List.length_zipIdx, array_eq s c .qspec (frameLen_le s), List.length_map, List.length_range] at this
  refine ⟨s.setItems c .spec 0 (bins.zipIdx.map fun bi => iqWord s c bi.2 bi.1), ?_, ?_⟩
  · unfold iqBody
    simp only [except_bind_ok, except_pure_ok]
    exact ⟨ics, hside.header, win, hside.windows, swb, hside.bands, types, htypes, sfs, hsfs, bins, hbins, rfl⟩
  · intro i hi g sfb t sf w hb ht hs hr hw
    obtain ⟨hg, hsfb⟩ := hb.bounds (readWindows_good hside.windows) (readBands_good hside.bands) hi
    obtain ⟨sf', hr', hrange⟩ := h.scalefactors g hg sfb hsfb t ht hs
    cases hr.symm.trans hr'
    have hsf := (iqBinSf_some hside htypes hsfs hi).mpr ⟨g, sfb, t, hb, ht, hs, hr, hrange⟩
    obtain ⟨w', hw', hm⟩ := hbin i hi sf hsf
    cases hw.symm.trans hw'
    have harr : (s.array c .qspec s.frameLen).zipIdx[i]? = some (some w, i) := by
      rw [array_eq s c .qspec (frameLen_le s), List.getElem?_zipIdx, List.getElem?_map, List.getElem?_range hi]
      simp [hw]
    obtain ⟨o, ho, hcheck⟩ := checkAll_get hbins harr
    have e : o = some (w.toInt, sf) := by
      simp only [hsf] at hcheck
      exact (Except.ok.inj ((if_neg (not_lt.mpr hm)).symm.trans hcheck)).symm
    rw [item_setItems_whole rfl (Nat.zero_le i) (by simp; omega), Nat.sub_zero, getD_map_zipIdx (by omega) _ none,
      List.getD_eq_getElem?_getD, ho, e]
    rfl

/-- IQ stores `dq(q, sf)` in a bin of a spectral band. -/
theorem iq_stores (ha : Accepted (.iq c) s) (h : IqLegal c s ics win swb) {i g sfb t : Nat} {sf : Int} {w : Word}
    (hi : i < s.frameLen) (hb : BinBand win swb ics.maxSfb i g sfb) (ht : readBandType c g sfb s = .ok t)
    (hs : isSpectral t = true) (hr : readSf c g sfb s = .ok sf) (hw : s.item? c .qspec i = some w) :
    StoresElem (.iq c) s i (dqElem w.toInt sf) := by
  obtain ⟨s', hbody, hout⟩ := iqBody_legal h
  exact ⟨complete s', exec_iq_ok ha hbody, hout i hi g sfb t sf w hb ht hs hr hw⟩

end

end Sys2Proof.Machine
end

section
/-! MS and IS complete on legal pairs and store their elements in the bins they rewrite (42_stereo.md R122, R123, R127). -/

namespace Sys2Proof.Machine

section
variable {a b : Nat} {s : State} {ics : Ics} {win : Windows} {swb : List Nat} {mmp : Nat}

/-! ## The pair checks (R122) -/

/-- R122's type check lets a zero or spectral left type and a legal right type pass. -/
theorem pairTypeCheck_ok {gb : Nat × Nat} {tl tr : Nat} (hl : readBandType a gb.1 gb.2 s = .ok tl) (h11 : tl ≤ 11)
    (hr : readBandType b gb.1 gb.2 s = .ok tr) (hlegal : legalType tr = true) : pairTypeCheck a b s gb = .ok tr := by
  have h1 : isIllegalType tl = false ∧ isIntensity tl = false ∧ isNoise tl = false := by
    simp only [isIllegalType, isIntensity, isNoise, Bool.or_eq_false_iff, beq_eq_false_iff_ne, decide_eq_false_iff_not]
    omega
  have h2 : isIllegalType tr = false ∧ isNoise tr = false := by
    simp only [legalType, Bool.or_eq_true, decide_eq_true_eq, beq_iff_eq] at hlegal
    simp only [isIllegalType, isNoise, Bool.or_eq_false_iff, beq_eq_false_iff_ne, decide_eq_false_iff_not]
    omega
  obtain ⟨l1, l2, l3⟩ := h1
  obtain ⟨r1, r2⟩ := h2
  unfold pairTypeCheck
  rw [hl, hr]
  show (if _ then _ else if _ then _ else if _ then _ else if _ then _ else _) = _
  rw [if_neg (by simp [l1, l2]), if_neg (by simp [l3]), if_neg (by simp [r1]), if_neg (by simp [r2])]
  rfl

/-- The pair checks complete on a legal pair, and give the right slot's band types. -/
theorem pairChecks_legal (h : PairLegal a b s ics win swb mmp) :
    ∃ x : PairInfo, pairChecks a b s = .ok x ∧ x.win = win ∧ x.swb = swb ∧ x.maxSfb = ics.maxSfb ∧ x.mmp = mmp ∧
      ∀ g < win.groups, ∀ sfb < ics.maxSfb, readBandType b g sfb s = .ok (x.rightType g sfb) := by
  obtain ⟨ib, hib, hpair⟩ := h.pair
  obtain ⟨v, hv, hmask, hmmp⟩ := h.mask
  obtain ⟨types, htypes⟩ := checkAll_total (f := pairTypeCheck a b s) (xs := bandList win.groups ics.maxSfb) fun gb hgb => by
    obtain ⟨hg, hb⟩ := mem_bandList.mp hgb
    obtain ⟨tl, tr, h1, h2, h3, h4⟩ := h.types _ hg _ hb
    exact ⟨tr, pairTypeCheck_ok h1 h2 h3 h4⟩
  refine ⟨⟨win, swb, ics.maxSfb, mmp, types⟩, ?_, rfl, rfl, rfl, rfl, fun g hg sfb hb => ?_⟩
  · unfold pairChecks
    simp only [except_bind_ok]
    refine ⟨ics, h.side.header, ib, hib, true, hpair, ?_⟩
    rw [if_neg (by simp)]
    simp only [except_bind_ok]
    refine ⟨win, h.side.windows, swb, h.side.bands, v, readItem_ok.mpr hv, ?_⟩
    rw [hmask, if_neg hmmp]
    simp only [except_bind_ok, except_pure_ok]
    exact ⟨types, htypes, rfl⟩
  · obtain ⟨tl, tr, h1, h2, h3, h4⟩ := h.types g hg sfb hb
    obtain ⟨t, ht, hcheck⟩ := checkAll_get htypes (getElem?_bandList hg hb)
    cases (pairTypeCheck_ok (gb := (g, sfb)) h1 h2 h3 h4).symm.trans hcheck
    rw [h3, PairInfo.rightType, List.getD_eq_getElem?_getD, ht]
    rfl

/-- Whether a band is active (R121), read as the runs read it. -/
theorem msActive_iff {g sfb : Nat} {used : Bool} (h : msUsedIfPerBand a mmp g sfb s = .ok used) :
    MsActive a mmp g sfb s ↔ mmp = 2 ∨ (mmp = 1 ∧ used = true) := by
  unfold MsActive
  unfold msUsedIfPerBand at h
  split at h
  · rename_i h1
    rw [h]
    simp
  · rename_i h1
    simp [h1]

/-! ## MS (R123) -/

/-- MS rewrites the bins of run `r`. -/
def MsRuns (a : Nat) (s : State) (x : PairInfo) (r : Run) : Prop :=
  MsActive a x.mmp r.g r.sfb s ∧ isIntensity (x.rightType r.g r.sfb) = false

/-- The SPEC element `ci` lies in run `r`, which MS rewrites, in either slot. -/
def MsOwns (a b : Nat) (s : State) (x : PairInfo) (r : Run) (ci : Nat × Nat) : Prop :=
  MsRuns a s x r ∧ (ci.1 = a ∨ ci.1 = b) ∧ r.first ≤ ci.2 ∧ ci.2 < r.first + r.len

/-- What MS stores in the SPEC element `ci` of either slot. -/
def msWord (a b : Nat) (s : State) (ci : Nat × Nat) : Word :=
  let elems := msElems ((s.item? a .spec ci.2).getD 0#32) ((s.item? b .spec ci.2).getD 0#32)
  if ci.1 = a then storedWord s (.ms a b) ci.2 elems.1 else storedWord s (.ms a b) (1024 + ci.2) elems.2

/-- The words MS lays out for a run are its elements' words. -/
theorem getD_msElems {was wbs : List Word} {j : Nat} (h1 : j < was.length) (h2 : j < wbs.length)
    (f : (Elem × Elem) × Nat → Word) :
    ((List.zipWith msElems was wbs).zipIdx.map f).getD j 0#32 = f (msElems (was.getD j 0#32) (wbs.getD j 0#32), j) := by
  rw [getD_map_zipIdx (by simp; omega) f (.any, .any)]
  simp [List.getD_eq_getElem?_getD, h1, h2]

/-- A run of MS that is not active, or an intensity band of the right slot, changes nothing. -/
theorem msRun_idle {x : PairInfo} {r : Run} {t : State} {used : Bool} (hused : msUsedIfPerBand a x.mmp r.g r.sfb t = .ok used)
    (hidle : ¬((x.mmp = 2 ∨ (x.mmp = 1 ∧ used = true)) ∧ isIntensity (x.rightType r.g r.sfb) = false)) :
    msRun a b s x r t = .ok t := by
  unfold msRun
  rw [hused]
  exact if_neg hidle

/-- A run of MS that is active stores both outputs of its words. -/
theorem msRun_active {x : PairInfo} {r : Run} {t : State} {used : Bool} (hused : msUsedIfPerBand a x.mmp r.g r.sfb t = .ok used)
    (hactive : (x.mmp = 2 ∨ (x.mmp = 1 ∧ used = true)) ∧ isIntensity (x.rightType r.g r.sfb) = false) {was wbs : List Word}
    (hwas : readSpecRun a r.first r.len t = .ok was) (hwbs : readSpecRun b r.first r.len t = .ok wbs) :
    msRun a b s x r t = .ok ((t.setItems a .spec r.first ((List.zipWith msElems was wbs).zipIdx.map fun e =>
      storedWord s (.ms a b) (r.first + e.2) e.1.1)).setItems b .spec r.first ((List.zipWith msElems was wbs).zipIdx.map fun e =>
      storedWord s (.ms a b) (1024 + r.first + e.2) e.1.2)) := by
  unfold msRun
  rw [hused, hwas, hwbs]
  exact if_pos hactive

/-- One run of MS rewrites the bins it owns, from the words the command started with. -/
theorem msRun_writes (hab : a ≠ b) {x : PairInfo} {r : Run} {t : State} (hg : r.g < 8) (hsfb : r.sfb < 64)
    (hr : r.first + r.len ≤ s.frameLen) {used : Bool} (hused : msUsedIfPerBand a x.mmp r.g r.sfb s = .ok used)
    (hbins : ∀ i, MsOwns a b s x r (a, i) → ∃ wa wb, s.item? a .spec i = some wa ∧ s.item? b .spec i = some wb)
    (ht : SpecStores [a, b] s t) (hsame : ∀ ci, MsOwns a b s x r ci → t.item? ci.1 .spec ci.2 = s.item? ci.1 .spec ci.2) :
    ∃ t', msRun a b s x r t = .ok t' ∧ SpecStores [a, b] s t' ∧
      (∀ ci : Nat × Nat, MsOwns a b s x r ci → t'.item? ci.1 .spec ci.2 = some (msWord a b s ci)) ∧
      ∀ ci : Nat × Nat, ci.2 < s.frameLen → ¬MsOwns a b s x r ci → t'.item? ci.1 .spec ci.2 = t.item? ci.1 .spec ci.2 := by
  have hl := frameLen_le s
  have hused' := (ht.msUsed hg hsfb).trans hused
  by_cases hruns : MsRuns a s x r
  swap
  · refine ⟨t, msRun_idle hused' ?_, ht, fun ci h => absurd h.1 hruns, fun _ _ _ => rfl⟩
    rwa [← msActive_iff hused]
  have owns : ∀ {c i}, c = a ∨ c = b → r.first ≤ i → i < r.first + r.len → MsOwns a b s x r (c, i) :=
    fun hc h1 h2 => ⟨hruns, hc, h1, h2⟩
  obtain ⟨was, hwas⟩ : ∃ ws, readSpecRun a r.first r.len s = .ok ws := readSpecRun_total fun i h1 h2 => by
    obtain ⟨wa, _, h, _⟩ := hbins i (owns (.inl rfl) h1 h2)
    exact ⟨wa, h⟩
  obtain ⟨wbs, hwbs⟩ : ∃ ws, readSpecRun b r.first r.len s = .ok ws := readSpecRun_total fun i h1 h2 => by
    obtain ⟨_, wb, _, h⟩ := hbins i (owns (.inl rfl) h1 h2)
    exact ⟨wb, h⟩
  have la := readSpecRun_length hwas
  have lb := readSpecRun_length hwbs
  set elems := (List.zipWith msElems was wbs).zipIdx with helems
  set left := elems.map fun e => storedWord s (.ms a b) (r.first + e.2) e.1.1 with hleft
  set right := elems.map fun e => storedWord s (.ms a b) (1024 + r.first + e.2) e.1.2 with hright
  have ll : left.length = r.len := by simp [hleft, helems, la, lb]
  have lr : right.length = r.len := by simp [hright, helems, la, lb]
  have hrun : msRun a b s x r t = .ok ((t.setItems a .spec r.first left).setItems b .spec r.first right) := by
    refine msRun_active hused' ?_
      ((readSpecRun_congr fun i h1 h2 => hsame (a, i) (owns (.inl rfl) h1 h2)).trans hwas)
      ((readSpecRun_congr fun i h1 h2 => hsame (b, i) (owns (.inr rfl) h1 h2)).trans hwbs)
    rwa [← msActive_iff hused]
  refine ⟨_, hrun, msRun_ok hr ht hrun, ?_, ?_⟩
  · rintro ⟨c, i⟩ ⟨_, hc, h1, h2⟩
    simp only at hc h1 h2 ⊢
    have wa := readSpecRun_item hwas h1 h2
    have wb := readSpecRun_item hwbs h1 h2
    have hj : i - r.first < r.len := by omega
    unfold msWord
    simp only [wa, wb, Option.getD_some]
    rcases hc with rfl | rfl
    · rw [item_setItems_other (by simp only [Item.count]; omega) (by simp only [Item.count]; omega)
        (fun h => hab h.1.symm), item_setItems_whole rfl h1 (by omega), if_pos rfl, hleft, helems,
        getD_msElems (by omega) (by omega)]
      simp only
      rw [Nat.add_sub_cancel' h1]
    · rw [item_setItems_whole rfl h1 (by omega), if_neg hab.symm, hright, helems, getD_msElems (by omega) (by omega)]
      simp only
      rw [Nat.add_assoc, Nat.add_sub_cancel' h1]
  · rintro ⟨c, i⟩ hi hown
    have out : ∀ c', c' = a ∨ c' = b → ∀ ws : List Word, ws.length = r.len →
        ¬(c' = c ∧ Item.spec = Item.spec ∧ r.first ≤ i ∧ i < r.first + ws.length) :=
      fun c' hc' ws hl ⟨h0, _, h1, h2⟩ => hown ⟨hruns, h0 ▸ hc', h1, hl ▸ h2⟩
    rw [item_setItems_other (by simp only [Item.count]; omega) (by simp only [Item.count] at hi ⊢; omega)
        (out b (.inr rfl) right lr),
      item_setItems_other (by simp only [Item.count]; omega) (by simp only [Item.count] at hi ⊢; omega)
        (out a (.inl rfl) left ll)]

/-- MS's body completes on a legal pair, each bin it rewrites holding the sum or the difference of the words before (R123). -/
theorem msBody_legal (hab : a ≠ b) (h : MsLegal a b s ics win swb mmp) :
    ∃ s', msBody a b s = .ok s' ∧ ∀ i, MsTouches a b s ics win swb mmp i → ∀ c, c = a ∨ c = b →
      s'.item? c .spec i = some (msWord a b s (c, i)) := by
  have hW := readWindows_good h.pair.side.windows
  have hB := readBands_good h.pair.side.bands
  have hM := (readIcs_bounds h.pair.side.header).2.2.1
  obtain ⟨x, hx, hwin, hswb, hmax, hmmp, htypes⟩ := pairChecks_legal h.pair
  have hused : ∀ g < win.groups, ∀ sfb < ics.maxSfb, ∃ used, msUsedIfPerBand a mmp g sfb s = .ok used := by
    intro g hg sfb hb
    unfold msUsedIfPerBand
    split
    · exact h.used ‹_› g hg sfb hb
    · exact ⟨false, rfl⟩
  obtain ⟨s', hs', -, hout, -⟩ := applyAll_writes (f := msRun a b s x) (xs := bandRuns win swb ics.maxSfb)
    (P := SpecStores [a, b] s) (val := fun t (ci : Nat × Nat) => t.item? ci.1 .spec ci.2) (own := MsOwns a b s x)
    (dom := fun ci => ci.2 < s.frameLen) (out := fun _ ci => some (msWord a b s ci)) (s := s) (s0 := s) .refl
    (fun _ _ _ _ => rfl)
    (fun r hr ci hci => by
      have := (bandRuns_in hW hB hr).2.2.2
      obtain ⟨-, -, h1, h2⟩ := hci
      omega)
    ((bandRuns_apart hB).imp fun hrr ci hci hci' => by
      obtain ⟨-, -, h1, h2⟩ := hci
      obtain ⟨-, -, h3, h4⟩ := hci'
      omega)
    fun r hr t ht hsame => by
      obtain ⟨hg8, hg, hsfb, hr4⟩ := bandRuns_in hW hB hr
      obtain ⟨used, hu⟩ := hused r.g hg r.sfb hsfb
      refine msRun_writes hab hg8 (by omega) hr4 (hmmp ▸ hu) (fun i hi => ?_) ht hsame
      obtain ⟨⟨hact, hint⟩, -, h1, h2⟩ := hi
      exact h.bins i ⟨by omega, r.g, r.sfb, _, bandRuns_binBand hB hr h1 h2, hmmp ▸ hact, htypes _ hg _ hsfb, hint⟩
  refine ⟨s', ?_, fun i hi c hc => ?_⟩
  · unfold msBody
    rw [hx]
    show applyAll _ (bandRuns x.win x.swb x.maxSfb) s = _
    rw [hwin, hswb, hmax]
    exact hs'
  · obtain ⟨hiL, g, sfb, t, hb, hact, ht, hint⟩ := hi
    obtain ⟨hg, hsfb⟩ := hb.bounds hW hB hiL
    cases ht.symm.trans (htypes g hg sfb hsfb)
    obtain ⟨r, hr, rfl, rfl, h1, h2⟩ := hb.exists_run hW hB hiL
    exact hout r hr (c, i) ⟨⟨hmmp ▸ hact, hint⟩, hc, h1, h2⟩

/-- MS stores the sum in the left slot and the difference in the right one. -/
theorem ms_stores (ha : Accepted (.ms a b) s) (h : MsLegal a b s ics win swb mmp) {i : Nat}
    (hi : MsTouches a b s ics win swb mmp i) {wa wb : Word} (hwa : s.item? a .spec i = some wa)
    (hwb : s.item? b .spec i = some wb) :
    StoresElem (.ms a b) s i (msElems wa wb).1 ∧ StoresElem (.ms a b) s (1024 + i) (msElems wa wb).2 := by
  have hab : a ≠ b := ha.2.2.2
  obtain ⟨s', hbody, hout⟩ := msBody_legal hab h
  have hi' : i < 1024 := lt_of_lt_of_le hi.1 (frameLen_le s)
  have hl := hout i hi a (.inl rfl)
  have hr := hout i hi b (.inr rfl)
  simp only [msWord, hwa, hwb, Option.getD_some, if_true, if_neg hab.symm] at hl hr
  refine ⟨⟨complete s', exec_ms_ok ha hbody, ?_⟩, ⟨complete s', exec_ms_ok ha hbody, ?_⟩⟩
  · rw [resultAddr, if_pos hi']
    exact hl
  · rw [resultAddr, if_neg (by omega), Nat.add_sub_cancel_left]
    exact hr

/-! ## IS (R127) -/

/-- The position check leaves the positions of the intensity bands. -/
theorem isSfCheck_some {x : PairInfo} {gb : Nat × Nat} {p : Int} (ht : isIntensity (x.rightType gb.1 gb.2) = true)
    (hp : readSf b gb.1 gb.2 s = .ok p) (hrange : -255 ≤ p ∧ p ≤ 255) : isSfCheck b x s gb = .ok (some p) := by
  unfold isSfCheck
  rw [if_pos ht, hp]
  exact if_pos hrange

theorem isSfCheck_none {x : PairInfo} {gb : Nat × Nat} (ht : isIntensity (x.rightType gb.1 gb.2) = false) :
    isSfCheck b x s gb = .ok none := by
  unfold isSfCheck
  rw [if_neg (by simp [ht])]

/-- Run `r` is an intensity run whose bin `i` IS rewrites. -/
def IsOwns (x : PairInfo) (r : Run) (i : Nat) : Prop :=
  isIntensity (x.rightType r.g r.sfb) = true ∧ r.first ≤ i ∧ i < r.first + r.len

/-- What IS stores in bin `i` of run `r`. -/
def isWord (a b : Nat) (s : State) (x : PairInfo) (sfs : List (Option Int)) (r : Run) (i : Nat) : Word :=
  storedWord s (.is a b) i (isElem
    (isNegative (x.rightType r.g r.sfb) ((msUsedIfPerBand a x.mmp r.g r.sfb s).toOption.getD false))
    ((sfs.getD (r.g * x.maxSfb + r.sfb) none).getD 0) ((s.item? a .spec i).getD 0#32))

/-- One run of IS rewrites the bins it owns, from the left slot's words. -/
theorem isRun_writes (hab : a ≠ b) {x : PairInfo} {sfs : List (Option Int)} {r : Run} {t : State} (hg : r.g < 8)
    (hsfb : r.sfb < 64) (hr : r.first + r.len ≤ s.frameLen)
    (hnone : isIntensity (x.rightType r.g r.sfb) = false → sfs.getD (r.g * x.maxSfb + r.sfb) none = none)
    (hsome : isIntensity (x.rightType r.g r.sfb) = true → ∃ p used, sfs.getD (r.g * x.maxSfb + r.sfb) none = some p ∧
      msUsedIfPerBand a x.mmp r.g r.sfb s = .ok used)
    (hbins : ∀ i, IsOwns x r i → ∃ w, s.item? a .spec i = some w) (ht : SpecStores [b] s t) :
    ∃ t', isRun a b s x sfs r t = .ok t' ∧ SpecStores [b] s t' ∧
      (∀ i, IsOwns x r i → t'.item? b .spec i = some (isWord a b s x sfs r i)) ∧
      ∀ i, i < s.frameLen → ¬IsOwns x r i → t'.item? b .spec i = t.item? b .spec i := by
  have hl := frameLen_le s
  by_cases hint : isIntensity (x.rightType r.g r.sfb) = true
  swap
  · refine ⟨t, ?_, ht, fun i h => absurd h.1 hint, fun _ _ _ => rfl⟩
    unfold isRun
    rw [hnone (by simpa using hint)]
  obtain ⟨p, used, hp, hused⟩ := hsome hint
  obtain ⟨was, hwas⟩ : ∃ ws, readSpecRun a r.first r.len s = .ok ws := readSpecRun_total fun i h1 h2 => hbins i ⟨hint, h1, h2⟩
  have la := readSpecRun_length hwas
  set ws := was.zipIdx.map fun e => storedWord s (.is a b) (r.first + e.2) (isElem (isNegative (x.rightType r.g r.sfb) used) p
    e.1) with hws
  have lw : ws.length = r.len := by simp [hws, la]
  have hrun : isRun a b s x sfs r t = .ok (t.setItems b .spec r.first ws) := by
    unfold isRun
    rw [hp]
    simp only
    rw [ht.msUsed hg hsfb, hused, readSpecRun_congr (s := s) fun i h1 h2 => ht.other
      (by simp only [Item.count]; omega) (by simp [hab]), hwas]
    rfl
  refine ⟨_, hrun, isRun_ok hr ht hrun, ?_, ?_⟩
  · rintro i ⟨_, h1, h2⟩
    rw [item_setItems_whole rfl h1 (by omega), hws, getD_map_zipIdx (by omega) _ 0#32, isWord, hp, hused,
      readSpecRun_item hwas h1 h2]
    simp only [Nat.add_sub_cancel' h1]
    rfl
  · intro i hi hown
    exact item_setItems_other (by simp only [Item.count]; omega) (by simp only [Item.count] at hi ⊢; omega)
      fun ⟨_, _, h1, h2⟩ => hown ⟨hint, h1, lw ▸ h2⟩

/-- IS's body completes on a legal pair, each bin it rewrites holding the scaled left bin (R127). -/
theorem isBody_legal (hab : a ≠ b) (h : IsLegal a b s ics win swb mmp) :
    ∃ s', isBody a b s = .ok s' ∧ ∀ i t pos used w, IsTouches a b s ics win swb mmp i t pos used → s.item? a .spec i = some w →
      s'.item? b .spec i = some (storedWord s (.is a b) i (isElem (isNegative t used) pos w)) := by
  have hW := readWindows_good h.pair.side.windows
  have hB := readBands_good h.pair.side.bands
  have hM := (readIcs_bounds h.pair.side.header).2.2.1
  obtain ⟨x, hx, hwin, hswb, hmax, hmmp, htypes⟩ := pairChecks_legal h.pair
  obtain ⟨sfs, hsfs⟩ := checkAll_total (f := isSfCheck b x s) (xs := bandList win.groups ics.maxSfb) fun gb hgb => by
    obtain ⟨hg, hb⟩ := mem_bandList.mp hgb
    cases hint : isIntensity (x.rightType gb.1 gb.2) with
    | false => exact ⟨none, isSfCheck_none hint⟩
    | true =>
      obtain ⟨⟨p, hp, hrange⟩, -⟩ := h.bands _ hg _ hb _ (htypes _ hg _ hb) hint
      exact ⟨some p, isSfCheck_some hint hp hrange⟩
  have hsf : ∀ g < win.groups, ∀ sfb < ics.maxSfb, isSfCheck b x s (g, sfb) = .ok (sfs.getD (g * x.maxSfb + sfb) none) := by
    intro g hg sfb hb
    obtain ⟨o, ho, hcheck⟩ := checkAll_get hsfs (getElem?_bandList hg hb)
    rw [hmax, List.getD_eq_getElem?_getD, ho]
    exact hcheck
  have hpos : ∀ g < win.groups, ∀ sfb < ics.maxSfb, isIntensity (x.rightType g sfb) = true →
      ∃ p used, readSf b g sfb s = .ok p ∧ sfs.getD (g * x.maxSfb + sfb) none = some p ∧
        msUsedIfPerBand a x.mmp g sfb s = .ok used := by
    intro g hg sfb hb hint
    obtain ⟨⟨p, hp, hrange⟩, used, hused⟩ := h.bands g hg sfb hb _ (htypes g hg sfb hb) hint
    exact ⟨p, used, hp, Except.ok.inj ((hsf g hg sfb hb).symm.trans (isSfCheck_some (gb := (g, sfb)) hint hp hrange)),
      hmmp ▸ hused⟩
  obtain ⟨s', hs', -, hout, -⟩ := applyAll_writes (f := isRun a b s x sfs) (xs := bandRuns win swb ics.maxSfb)
    (P := SpecStores [b] s) (val := fun t i => t.item? b .spec i) (own := IsOwns x) (dom := fun i => i < s.frameLen)
    (out := fun r i => some (isWord a b s x sfs r i)) (s := s) (s0 := s) .refl (fun _ _ _ _ => rfl)
    (fun r hr i hi => by
      have := (bandRuns_in hW hB hr).2.2.2
      obtain ⟨-, h1, h2⟩ := hi
      omega)
    ((bandRuns_apart hB).imp fun hrr i hi hi' => by
      obtain ⟨-, h1, h2⟩ := hi
      obtain ⟨-, h3, h4⟩ := hi'
      omega)
    fun r hr t ht _ => by
      obtain ⟨hg8, hg, hsfb, hr4⟩ := bandRuns_in hW hB hr
      refine isRun_writes hab hg8 (by omega) hr4 (fun hint => ?_) (fun hint => ?_) (fun i hi => ?_) ht
      · exact Except.ok.inj ((hsf _ hg _ hsfb).symm.trans (isSfCheck_none (gb := (r.g, r.sfb)) hint))
      · obtain ⟨p, used, _, h1, h2⟩ := hpos _ hg _ hsfb hint
        exact ⟨p, used, h1, h2⟩
      · obtain ⟨hint, h1, h2⟩ := hi
        obtain ⟨p, used, h3, _, h4⟩ := hpos _ hg _ hsfb hint
        exact h.bins i _ p used ⟨by omega, r.g, r.sfb, bandRuns_binBand hB hr h1 h2, htypes _ hg _ hsfb, hint, h3, hmmp ▸ h4⟩
  refine ⟨s', ?_, fun i t pos used w hi hw => ?_⟩
  · unfold isBody
    rw [except_bind_ok]
    refine ⟨x, hx, ?_⟩
    rw [hwin, hswb, hmax, except_bind_ok]
    exact ⟨sfs, hsfs, hs'⟩
  · obtain ⟨hiL, g, sfb, hb, ht, hint, hp, hu⟩ := hi
    obtain ⟨hg, hsfb⟩ := hb.bounds hW hB hiL
    cases ht.symm.trans (htypes g hg sfb hsfb)
    obtain ⟨p, used', h3, h4, h5⟩ := hpos g hg sfb hsfb hint
    cases hp.symm.trans h3
    cases hu.symm.trans (hmmp ▸ h5)
    obtain ⟨r, hr, rfl, rfl, h1, h2⟩ := hb.exists_run hW hB hiL
    rw [hout r hr i ⟨hint, h1, h2⟩, isWord, h4, h5, hw]
    rfl

/-- IS stores the scaled left bin in the right slot. -/
theorem is_stores (ha : Accepted (.is a b) s) (h : IsLegal a b s ics win swb mmp) {i t : Nat} {pos : Int} {used : Bool}
    (hi : IsTouches a b s ics win swb mmp i t pos used) {w : Word} (hw : s.item? a .spec i = some w) :
    StoresElem (.is a b) s i (isElem (isNegative t used) pos w) := by
  obtain ⟨s', hbody, hout⟩ := isBody_legal ha.2.2.2 h
  exact ⟨complete s', exec_is_ok ha hbody, hout i t pos used w hi hw⟩

end

end Sys2Proof.Machine
end

section
/-! TNS completes on legal data and stores the outputs of every filter that runs (43_tns.md R146, R147, R148). -/

namespace Sys2Proof.Machine

section
variable {c : Nat} {s : State} {ctrl : TnsCtrl} {ics : Ics} {win : Windows} {swb : List Nat} {tw : Nat → TnsWindow}
  {filt : Nat → Nat → TnsFilter} {coef : Nat → Nat → Nat → Int}

/-! ## The passes (R146) -/

/-- Filter `f` of window `w` as TNS applies it. -/
def tnsPassOf (ctrl : TnsCtrl) (ics : Ics) (win : Windows) (swb : List Nat) (tw : Nat → TnsWindow)
    (filt : Nat → Nat → TnsFilter) (coef : Nat → Nat → Nat → Int) (w f : Nat) : FilterPass :=
  { w := w
    f := f
    first := w * win.len + tnsLo ctrl ics swb (filt w) f
    len := tnsHi ctrl ics swb (filt w) f - tnsLo ctrl ics swb (filt w) f
    coefRes := (tw w).coefRes
    coefs := if tnsLo ctrl ics swb (filt w) f < tnsHi ctrl ics swb (filt w) f then
      (List.range (tnsOrder ctrl (filt w f))).map (coef w f) else []
    down := (filt w f).down }

/-- The coefficients of a legal filter are read and checked. -/
theorem readPassCoefs_legal {w f : Nat} (h : TnsFilterLegal c s ctrl ics swb tw filt coef w f) :
    readPassCoefs c w f (tnsOrder ctrl (filt w f)) (coefWidth (tw w).coefRes (filt w f).compress) (tnsLo ctrl ics swb (filt w) f)
      (tnsHi ctrl ics swb (filt w) f) s = .ok (tnsPassOf ctrl ics win swb tw filt coef w f).coefs := by
  unfold readPassCoefs tnsPassOf
  simp only
  split
  · rename_i hr
    refine checkAll_map fun i hi => ?_
    obtain ⟨hread, hrange⟩ := h.coefs hr i (List.mem_range.mp hi)
    rw [hread]
    exact if_pos hrange
  · rfl

/-- The filters of a legal window from filter `f` on. -/
theorem windowPasses_legal {w : Nat} (n f : Nat)
    (h : ∀ g, f ≤ g → g < f + n → TnsFilterLegal c s ctrl ics swb tw filt coef w g) :
    windowPasses c w ctrl ics win swb (tw w) s n f (tnsTop ics.numSwb (fun g => (filt w g).length) f) =
      .ok ((List.range' f n).map (tnsPassOf ctrl ics win swb tw filt coef w)) := by
  induction n generalizing f with
  | zero => rfl
  | succ n ih =>
    have hf := h f le_rfl (by omega)
    obtain ⟨v, hv, hfields⟩ := hf.written
    have hlim : ¬(ics.isShort = true ∧ (15 < (filt w f).length ∨ 7 < (filt w f).order)) := fun ⟨hs, hx⟩ => by
      have := hf.limits hs
      omega
    unfold windowPasses
    simp only [except_bind_ok]
    refine ⟨v, readItem_ok.mpr hv, ?_⟩
    rw [hfields, if_neg hlim]
    simp only [except_bind_ok, except_pure_ok]
    exact ⟨_, readPassCoefs_legal (win := win) hf, _, ih (f + 1) fun g h1 h2 => h g (by omega) (by omega), rfl⟩

theorem tnsWindowCheck_legal {w : Nat} (h : TnsWindowLegal c s ctrl ics swb tw filt coef w) :
    tnsWindowCheck c ctrl ics win swb s w =
      .ok ((List.range (tw w).nfilt).map (tnsPassOf ctrl ics win swb tw filt coef w)) := by
  obtain ⟨v, hv, hfields⟩ := h.written
  have hfew : ¬(if ics.isShort = true then 1 else 3) < (tw w).nfilt := not_lt.mpr h.few
  unfold tnsWindowCheck
  rw [readItem_ok.mpr hv]
  show (if _ < (tnsWindowOfWord v).nfilt then _ else _) = _
  rw [hfields, if_neg hfew, List.range_eq_range']
  exact windowPasses_legal _ 0 fun g _ hg => h.filters g (by omega)

/-- Every pass of the command, window by window. -/
def tnsPassesOf (ctrl : TnsCtrl) (ics : Ics) (win : Windows) (swb : List Nat) (tw : Nat → TnsWindow)
    (filt : Nat → Nat → TnsFilter) (coef : Nat → Nat → Nat → Int) : List FilterPass :=
  (List.range win.count).flatMap fun w => (List.range (tw w).nfilt).map (tnsPassOf ctrl ics win swb tw filt coef w)

theorem mem_tnsPassesOf {x : FilterPass} :
    x ∈ tnsPassesOf ctrl ics win swb tw filt coef ↔
      ∃ w < win.count, ∃ f < (tw w).nfilt, x = tnsPassOf ctrl ics win swb tw filt coef w f := by
  simp only [tnsPassesOf, List.mem_flatMap, List.mem_range, List.mem_map, eq_comm]

/-! ## The ranges of the passes lie apart -/

theorem tnsTop_antitone (numSwb : Nat) (length : Nat → Nat) : Antitone (tnsTop numSwb length) :=
  antitone_nat_of_succ_le fun _ => Nat.sub_le _ _

theorem filterBin_mono (hB : BandsGood win ics swb) {m n : Nat} (h : m ≤ n) :
    filterBin ctrl ics.maxSfb swb m ≤ filterBin ctrl ics.maxSfb swb n := by
  have := hB.few
  exact hB.mono (by omega) (by omega)

/-- A filter's range lies in its window, below the range of the filter before it. -/
theorem tnsRange (hB : BandsGood win ics swb) (fs : Nat → TnsFilter) (f : Nat) :
    tnsLo ctrl ics swb fs f ≤ tnsHi ctrl ics swb fs f ∧ tnsHi ctrl ics swb fs f ≤ win.len ∧
      ∀ g, f < g → tnsHi ctrl ics swb fs g ≤ tnsLo ctrl ics swb fs f := by
  have hfew := hB.few
  exact ⟨filterBin_mono hB (tnsTop_antitone _ _ (Nat.le_succ f)), hB.le_len (by omega),
    fun g hg => filterBin_mono hB (tnsTop_antitone _ _ hg)⟩

/-- The ranges of two passes have no bin in common. -/
theorem tnsPassesOf_apart (hB : BandsGood win ics swb) :
    (tnsPassesOf ctrl ics win swb tw filt coef).Pairwise fun x y =>
      x.first + x.len ≤ y.first ∨ y.first + y.len ≤ x.first := by
  unfold tnsPassesOf
  rw [List.pairwise_flatMap]
  constructor
  · intro w _
    rw [List.pairwise_map]
    refine List.pairwise_lt_range.imp fun {f g} h => .inr ?_
    obtain ⟨-, -, h1⟩ := tnsRange (ctrl := ctrl) hB (filt w) f
    obtain ⟨h2, -, -⟩ := tnsRange (ctrl := ctrl) hB (filt w) g
    have := h1 g h
    simp only [tnsPassOf]
    omega
  · refine List.pairwise_lt_range.imp fun {w w'} h => ?_
    simp only [List.mem_map, List.mem_range]
    rintro _ ⟨f, -, rfl⟩ _ ⟨g, -, rfl⟩
    obtain ⟨h1, h2, -⟩ := tnsRange (ctrl := ctrl) hB (filt w) f
    have h3 : (w + 1) * win.len ≤ w' * win.len := Nat.mul_le_mul_right _ h
    rw [Nat.add_mul, Nat.one_mul] at h3
    simp only [tnsPassOf]
    omega

/-! ## The outputs (R147) -/

/-- Pass `x` runs and bin `i` lies in its range. -/
def TnsOwns (x : FilterPass) (i : Nat) : Prop := x.coefs ≠ [] ∧ x.first ≤ i ∧ i < x.first + x.len

/-- What pass `x` stores in bin `i`. -/
def tnsWord (c : Nat) (s : State) (x : FilterPass) (i : Nat) : Word :=
  storedWord s (.tns c) i ((filterElems x.coefRes x.coefs x.down
    ((readSpecRun c x.first x.len s).toOption.getD [])).getD (i - x.first) .any)

/-- One pass rewrites the bins it owns, from the words the command started with. -/
theorem tnsPass_writes {x : FilterPass} {t : State} (hx : x.first + x.len ≤ s.frameLen)
    (hread : x.coefs ≠ [] → ∃ words, readSpecRun c x.first x.len s = .ok words) (ht : SpecStores [c] s t)
    (hsame : ∀ i, TnsOwns x i → t.item? c .spec i = s.item? c .spec i) :
    ∃ t', tnsPass c s x t = .ok t' ∧ SpecStores [c] s t' ∧ (∀ i, TnsOwns x i → t'.item? c .spec i = some (tnsWord c s x i)) ∧
      ∀ i, i < s.frameLen → ¬TnsOwns x i → t'.item? c .spec i = t.item? c .spec i := by
  have hl := frameLen_le s
  by_cases hskip : x.coefs = [] ∨ x.len = 0
  · refine ⟨t, if_pos hskip, ht, fun i ⟨h1, h2, h3⟩ => ?_, fun _ _ _ => rfl⟩
    exact absurd hskip (by simp only [h1, false_or]; omega)
  have hcoefs : x.coefs ≠ [] := fun h => hskip (.inl h)
  obtain ⟨words, hwords⟩ := hread hcoefs
  have lw := readSpecRun_length hwords
  have lf := filterElems_length x.coefRes x.coefs x.down words
  have hrun : tnsPass c s x t = .ok (t.setItems c .spec x.first
      ((filterElems x.coefRes x.coefs x.down words).zipIdx.map fun e => storedWord s (.tns c) (x.first + e.2) e.1)) := by
    unfold tnsPass
    rw [if_neg hskip, readSpecRun_congr (s := s) fun i h1 h2 => hsame i ⟨hcoefs, h1, h2⟩, hwords]
    rfl
  refine ⟨_, hrun, tnsPass_ok hx ht hrun, fun i ⟨_, h1, h2⟩ => ?_, fun i hi hown => ?_⟩
  · rw [item_setItems_whole rfl h1 (by simp; omega), getD_map_zipIdx (by omega) _ .any, tnsWord, hwords]
    simp only [Nat.add_sub_cancel' h1]
    rfl
  · refine item_setItems_other (by simp [Item.count]; omega) (by simp only [Item.count]; omega) fun ⟨_, _, h1, h2⟩ => ?_
    simp only [List.length_map, List.length_zipIdx] at h2
    exact hown ⟨hcoefs, h1, by omega⟩

/-- TNS's body completes on legal data, each bin in the range of a filter that runs holding the filter's output (R147, R148). -/
theorem tnsBody_legal (h : TnsLegal c s ctrl ics win swb tw filt coef) :
    ∃ s', tnsBody c s = .ok s' ∧ ∀ w f words j, TnsRuns ctrl ics win swb tw filt w f →
      TnsReads c s ctrl ics win swb filt w f words → j < words.length →
      s'.item? c .spec (w * win.len + tnsLo ctrl ics swb (filt w) f + j) =
        some (storedWord s (.tns c) (w * win.len + tnsLo ctrl ics swb (filt w) f + j)
          ((filterElems (tw w).coefRes ((List.range (tnsOrder ctrl (filt w f))).map (coef w f)) (filt w f).down words).getD j
            .any)) := by
  obtain ⟨⟨v, hv, hctrl, hpresent⟩, hside⟩ := h.present
  have hW := readWindows_good hside.windows
  have hB := readBands_good hside.bands
  have hpasses : checkAll (tnsWindowCheck c ctrl ics win swb s) (List.range win.count) =
      .ok ((List.range win.count).map fun w => (List.range (tw w).nfilt).map (tnsPassOf ctrl ics win swb tw filt coef w)) :=
    checkAll_map fun w hw => tnsWindowCheck_legal (h.windows w (List.mem_range.mp hw))
  have hflat : ((List.range win.count).map fun w => (List.range (tw w).nfilt).map
      (tnsPassOf ctrl ics win swb tw filt coef w)).flatten = tnsPassesOf ctrl ics win swb tw filt coef := rfl
  have hin := tnsWindowCheck_ok hW hB hpasses
  rw [hflat] at hin
  obtain ⟨s', hs', -, hout, -⟩ := applyAll_writes (f := tnsPass c s) (xs := tnsPassesOf ctrl ics win swb tw filt coef)
    (P := SpecStores [c] s) (val := fun t i => t.item? c .spec i) (own := TnsOwns) (dom := fun i => i < s.frameLen)
    (out := fun x i => some (tnsWord c s x i)) (s := s) (s0 := s) .refl (fun _ _ _ _ => rfl)
    (fun x hx i ⟨_, _, h2⟩ => lt_of_lt_of_le h2 (hin x hx))
    ((tnsPassesOf_apart hB).imp fun hxy i ⟨_, h1, h2⟩ ⟨_, h3, h4⟩ => by omega)
    fun x hx t ht hsame => by
      refine tnsPass_writes (hin x hx) (fun hcoefs => ?_) ht hsame
      obtain ⟨w, hw, f, hf, rfl⟩ := mem_tnsPassesOf.mp hx
      simp only [tnsPassOf] at hcoefs
      split at hcoefs
      · rename_i hrange
        exact h.bins w f ⟨hw, hf, fun h0 => hcoefs (by rw [h0]; rfl), hrange⟩
      · exact absurd rfl hcoefs
  refine ⟨s', ?_, fun w f words j hruns hreads hj => ?_⟩
  · unfold tnsBody
    rw [readItem_ok.mpr hv]
    show (if (tnsCtrlOfWord v).present = true then tnsFilterBody c (tnsCtrlOfWord v) s else pure s) = _
    rw [hctrl, if_pos hpresent]
    unfold tnsFilterBody
    simp only [except_bind_ok]
    refine ⟨ics, hside.header, win, hside.windows, swb, hside.bands, ?_⟩
    have horder : ¬(if ics.isShort = true then Config.tnsOrderCapShort else Config.tnsOrderCapLong) < ctrl.maxOrder :=
      not_lt.mpr h.order
    rw [if_neg horder, except_bind_ok]
    exact ⟨_, hpasses, hs'⟩
  · obtain ⟨hw, hf, horder, hrange⟩ := hruns
    have hlen := readSpecRun_length hreads
    have hcoefs : (tnsPassOf ctrl ics win swb tw filt coef w f).coefs =
        (List.range (tnsOrder ctrl (filt w f))).map (coef w f) := if_pos hrange
    have hown : TnsOwns (tnsPassOf ctrl ics win swb tw filt coef w f) (w * win.len + tnsLo ctrl ics swb (filt w) f + j) := by
      refine ⟨?_, Nat.le_add_right _ _, ?_⟩
      · rw [hcoefs]
        simpa using horder
      · simp only [tnsPassOf]
        omega
    rw [hout _ (mem_tnsPassesOf.mpr ⟨w, hw, f, hf, rfl⟩) _ hown, tnsWord, hcoefs]
    simp only [tnsPassOf]
    rw [hreads, Nat.add_sub_cancel_left]
    rfl

/-- TNS stores the outputs of a filter that runs in its range. -/
theorem tns_stores (ha : Accepted (.tns c) s) (h : TnsLegal c s ctrl ics win swb tw filt coef) {w f j : Nat}
    {words : List Word} (hruns : TnsRuns ctrl ics win swb tw filt w f) (hreads : TnsReads c s ctrl ics win swb filt w f words)
    (hj : j < words.length) :
    StoresElem (.tns c) s (w * win.len + tnsLo ctrl ics swb (filt w) f + j)
      ((filterElems (tw w).coefRes ((List.range (tnsOrder ctrl (filt w f))).map (coef w f)) (filt w f).down words).getD j
        .any) := by
  obtain ⟨s', hbody, hout⟩ := tnsBody_legal h
  exact ⟨complete s', exec_tns_ok ha hbody, hout w f words j hruns hreads hj⟩

end

end Sys2Proof.Machine
end

section
/-! FB completes and stores its output and its new overlap (44_filterbank.md R169, R170). -/

namespace Sys2Proof.Machine

section
variable {c : Nat} {s : State} {ics : Ics} {spec ovl : List Word} {prev : Word}

/-- The old overlap always holds values (R31, R230). -/
theorem readFrame_ovl_total (c : Nat) (s : State) : ∃ ovl, readFrame c .ovl s = .ok ovl := by
  refine checkAll_total fun x hx => ?_
  obtain ⟨hi, hx⟩ := mem_array_zipIdx (frameLen_le s) hx
  have := frameLen_le s
  obtain ⟨w, hw⟩ := item_channelState s c (it := .ovl) (i := x.2) (by simp only [Item.count]; omega) rfl
  exact ⟨w, by rw [hx, hw]⟩

/-- The state with FB's three items stored (R170). -/
def fbItems (c : Nat) (s : State) (ics : Ics) (x : Frame) (ovl : List Word) : State :=
  ((s.setItems c .pcm 0 (pcmWords s c x ovl)).setItems c .ovl 0 (ovlWords s c x)).setItems c .chstate 0
    [chstateWord ics.seq ics.shape]

/-- The state FB's body leaves on written data. -/
def fbStored (c : Nat) (s : State) (ics : Ics) (prev : Word) (x : Frame) (ovl : List Word) : State :=
  { fbItems c s ics x ovl with
    status := { s.status with wt := s.status.wt || !legalTransition (bits 1 0 prev) ics.seq, started := true } }

/-- FB's body completes on written data (R170). -/
theorem fbBody_written (hics : readIcs c s = .ok ics) (hprev : s.item? c .chstate 0 = some prev)
    (hspec : readFrame c .spec s = .ok spec) (hovl : readFrame c .ovl s = .ok ovl) :
    fbBody c s = .ok (fbStored c s ics prev (frameOf s.frameLen ics.seq spec (bits 4 4 prev) ics.shape) ovl) := by
  unfold fbBody
  simp only [except_bind_ok, except_pure_ok]
  exact ⟨ics, hics, prev, readItem_ok.mpr hprev, spec, hspec, ovl, hovl, rfl⟩

/-- What FB leaves in PCM and OVL (R169). -/
theorem fbItems_item (x : Frame) (hovl : readFrame c .ovl s = .ok ovl) {n : Nat} (hn : n < s.frameLen) :
    (fbItems c s ics x ovl).item? c .pcm n = some (storedWord s (.fb c) n (x.pcmElem n (ovl.getD n 0#32))) ∧
      (fbItems c s ics x ovl).item? c .ovl n = some (storedWord s (.fb c) (1024 + n) (x.ovlElem n)) := by
  have hlen := readFrame_length hovl
  have hl := frameLen_le s
  have lp : (pcmWords s c x ovl).length = s.frameLen := by simp [pcmWords, hlen]
  have lo : (ovlWords s c x).length = s.frameLen := by simp [ovlWords]
  have hn' : n < 1024 := by omega
  unfold fbItems
  constructor
  · rw [item_setItems_other (by simp [Item.count]) hn' (by simp),
      item_setItems_other (by rw [lo, Nat.zero_add]; exact hl) hn' (by simp), item_setItems_whole rfl (Nat.zero_le n) (by omega), Nat.sub_zero, pcmWords, getD_map_zipIdx (by omega) _ 0#32]
  · rw [item_setItems_other (by simp [Item.count]) hn' (by simp), item_setItems_whole rfl (Nat.zero_le n) (by omega),
      Nat.sub_zero, ovlWords, List.getD_eq_getElem?_getD, List.getElem?_map, List.getElem?_range hn]
    rfl

/-- FB stores its output in PCM and its new overlap in OVL. -/
theorem fb_stores (ha : Accepted (.fb c) s) (hics : readIcs c s = .ok ics) (hprev : s.item? c .chstate 0 = some prev)
    (hspec : readFrame c .spec s = .ok spec) (hovl : readFrame c .ovl s = .ok ovl) {n : Nat} (hn : n < s.frameLen) :
    StoresElem (.fb c) s n ((frameOf s.frameLen ics.seq spec (bits 4 4 prev) ics.shape).pcmElem n (ovl.getD n 0#32)) ∧
      StoresElem (.fb c) s (1024 + n) ((frameOf s.frameLen ics.seq spec (bits 4 4 prev) ics.shape).ovlElem n) := by
  have hbody := fbBody_written hics hprev hspec hovl
  obtain ⟨hp, ho⟩ := fbItems_item (ics := ics) (frameOf s.frameLen ics.seq spec (bits 4 4 prev) ics.shape) hovl hn
  have hl := frameLen_le s
  refine ⟨⟨_, exec_fb_ok ha hbody, ?_⟩, ⟨_, exec_fb_ok ha hbody, ?_⟩⟩
  · rw [resultAddr, if_pos (by omega)]
    exact hp
  · rw [resultAddr, if_neg (by omega), Nat.add_sub_cancel_left]
    exact ho

end

end Sys2Proof.Machine
end

section
/-! What every accepted command stores for its exact results (00_scope.md R11, R12): O58 and O59. -/

namespace Sys2Proof.Machine

/-! ## The elements of the results -/

section
variable {s : State}

/-- IQ's element of a bin of a spectral band (R105). -/
theorem iq_result {c : Nat} {ics : Ics} {win : Windows} {swb : List Nat} {i g sfb t : Nat} {sf : Int} {w : Word} {r : ℝ}
    (legal : IqLegal c s ics win swb) (bin : i < s.frameLen) (band : BinBand win swb ics.maxSfb i g sfb)
    (type : readBandType c g sfb s = .ok t) (spectral : isSpectral t = true) (scale : readSf c g sfb s = .ok sf)
    (real : IsDq w.toInt sf r) : (dqElem w.toInt sf).Stands r := by
  obtain ⟨hg, hb⟩ := band.bounds (readWindows_good legal.side.windows) (readBands_good legal.side.bands) bin
  obtain ⟨sf', hsf, hmin, -⟩ := legal.scalefactors g hg sfb hb t type spectral
  cases scale.symm.trans hsf
  exact dqElem_stands hmin real

/-- IS's element of a bin of an intensity band (R127). -/
theorem is_result {a b : Nat} {ics : Ics} {win : Windows} {swb : List Nat} {mmp i t : Nat} {pos : Int} {used : Bool} {w : Word}
    {x r : ℝ} (legal : IsLegal a b s ics win swb mmp) (touched : IsTouches a b s ics win swb mmp i t pos used) (hx : IsF32 w x)
    (real : IsIntensity (isNegative t used) pos x r) : (isElem (isNegative t used) pos w).Stands r := by
  obtain ⟨hi, g, sfb, band, type, intensity, position, -⟩ := touched
  obtain ⟨hg, hb⟩ := band.bounds (readWindows_good legal.pair.side.windows) (readBands_good legal.pair.side.bands) hi
  obtain ⟨⟨p, hp, -, hmax⟩, -⟩ := legal.bands g hg sfb hb t type intensity
  cases position.symm.trans hp
  exact isElem_stands hmax hx real

/-- TNS's order is at most 20 (R7, R148). -/
theorem tnsOrder_le {ctrl : TnsCtrl} {ics : Ics} (h : ctrl.maxOrder ≤ tnsOrderCap ics) (fl : TnsFilter) :
    tnsOrder ctrl fl ≤ 20 := by
  refine (Nat.min_le_right _ _).trans (h.trans ?_)
  unfold tnsOrderCap
  split <;> decide

/-- Every exact result of an accepted command has an element that stands for it, and the command completes and stores that
element. -/
theorem result_stored {i : Instr} {idx : Nat} {r : ℝ} (ha : Accepted i s) (h : IsResult s i idx r) :
    ∃ e : Elem, e.Stands r ∧ StoresElem i s idx e := by
  cases h with
  | iq legal bin band type spectral scale quant real =>
    exact ⟨_, iq_result legal bin band type spectral scale real, iq_stores ha legal bin band type spectral scale quant⟩
  | msLeft legal touched left right hx hy => exact ⟨_, (msElems_stands hx hy).1, (ms_stores ha legal touched left right).1⟩
  | msRight legal touched left right hx hy => exact ⟨_, (msElems_stands hx hy).2, (ms_stores ha legal touched left right).2⟩
  | is legal touched left hx real => exact ⟨_, is_result legal touched hx real, is_stores ha legal touched left⟩
  | tns legal runs reads hk inputs coefs =>
    refine ⟨_, filterElems_stands ?_ hk inputs coefs, tns_stores ha legal runs reads ?_⟩
    · rw [List.length_map, List.length_range]
      exact tnsOrder_le legal.order _
    · split <;> omega
  | pcm header spectrum before overlap hn finite hv real =>
    exact ⟨_, pcmElem_stands (frameLen_cases s).symm (readFrame_length spectrum) hn finite real hv,
      (fb_stores ha header before spectrum overlap hn).1⟩
  | ovl header spectrum before hn finite real =>
    obtain ⟨ovl, overlap⟩ := readFrame_ovl_total _ s
    exact ⟨_, ovlElem_stands (frameLen_cases s).symm (readFrame_length spectrum) hn finite real,
      (fb_stores ha header before spectrum overlap hn).2⟩


/-- An implementation's NUM gives every element (R12; log 5). -/
theorem storedWord_implementation {id : Nat} (h : s.params.num = .implementation id) (i : Instr) (idx : Nat) (e : Elem) :
    storedWord s i idx e = Config.num id i (inputWords i s) idx := by
  rw [storedWord, h]

end

/-! ## The obligations -/

/-- Settles O58: an accepted command stores the word of the element that stands for each exact result; that word is NUM's, or
under the default ROUND the rounding of a real within 2^-200 of the result. -/
theorem numProperty : Obligations.NumProperty := by
  unfold Obligations.NumProperty
  intro i s ha
  refine ⟨fun id P hnum hP idx r hr => ?_, fun idx r hn hr hlt => ?_⟩
  · obtain ⟨e, -, t, ht, hw⟩ := result_stored ha hr
    rw [storedWord_implementation hnum] at hw
    exact ⟨t, _, ht, hw, hP idx r hr⟩
  · obtain ⟨e, hs, t, ht, hw⟩ := result_stored ha hr
    obtain ⟨u, hu, -, hround⟩ := storedWord_roundsTo (s := s) (i := i) (idx := idx) hn hs
    have hsmall : |u| < 2 ^ 128 - 2 ^ 103 := by
      have : |u| ≤ |r| + |u - r| := by simpa using abs_add_le r (u - r)
      linarith
    obtain ⟨hr, -⟩ := hround hsmall
    exact ⟨t, _, ht, hw, ⟨u, hu, hr.nearest⟩, hr.relativeError hu⟩

/-- Settles O59: the real the default ROUND rounds is the exact result itself where that is a multiple of 2^-150. -/
theorem exactTies : Obligations.ExactTies := by
  unfold Obligations.ExactTies
  intro i s idx r ha hn hr hgrid hlt
  obtain ⟨e, hs, t, ht, hw⟩ := result_stored ha hr
  obtain ⟨u, -, hexact, hround⟩ := storedWord_roundsTo (s := s) (i := i) (idx := idx) hn hs
  obtain rfl := hexact hgrid
  obtain ⟨hr, hzero⟩ := hround hlt
  exact ⟨t, _, ht, hw, hr.nearest, hzero⟩

end Sys2Proof.Machine
end

section
/-! Where an access goes: the location of an offset, and what a host access to it does (10_state.md R21, R30; 20_memory.md R60,
R62, R66). -/

namespace Sys2Proof.Machine

/-! ## Locations (R21, R30, R60) -/

theorem itemAt_bounds {o : Nat} {it : Item} (h : itemAt o = some it) : it.offset ≤ o ∧ o < it.offset + 4 * it.count := by
  simpa using List.find?_some h

/-- An element's offset names it. -/
theorem locOfOffset_item (c : Nat) {it : Item} {i : Nat} (hi : i < it.count) :
    locOfOffset (itemAddr c it i) = some (.item c it i) := by
  have e := item_end it
  have haddr : itemAddr c it 0 + 4 * i = itemAddr c it i := by unfold itemAddr; omega
  have hat := itemAt_itemAddr c it (k := 4 * i) (by omega)
  rw [haddr] at hat
  have hslot : itemAddr c it i = 0x10000 * (c + 1) + (it.offset + 4 * i) := by unfold itemAddr slotBase; omega
  unfold locOfOffset
  rw [if_neg (by omega), hat, Option.map_some, Option.some.injEq, Loc.item.injEq]
  exact ⟨by omega, rfl, by omega⟩

/-- A register's offset names it. -/
theorem locOfOffset_reg (r : GlobalReg) : locOfOffset r.offset = some (.reg r) := by cases r <;> rfl

/-- An offset that names an element lies in its slot, and the element exists. -/
theorem item_of_locOfOffset {off c i : Nat} {it : Item} (h : locOfOffset off = some (.item c it i)) :
    0x10000 * (c + 1) ≤ off ∧ i < it.count := by
  unfold locOfOffset at h
  split at h
  · simp at h
  · obtain ⟨it', hat, h⟩ := Option.map_eq_some_iff.mp h
    obtain ⟨rfl, rfl, rfl⟩ := Loc.item.inj h
    have := itemAt_bounds hat
    omega

/-- An aligned word access inside the block's span goes where its offset says (R60, R62). -/
theorem locate_ok {p : Params} {off : Nat} {l : Loc} (hp : p.valid = true) (ha : off % 4 = 0)
    (hs : off < 0x10000 * (p.nch + 1)) (hl : locOfOffset off = some l) : locate p (p.base + off) 4 = .ok l := by
  unfold Params.valid at hp
  simp only [Bool.and_eq_true, decide_eq_true_eq, beq_iff_eq] at hp
  unfold locate
  rw [if_neg (by omega), if_neg (by omega), if_neg (by omega), Nat.add_sub_cancel_left, hl]

theorem locate_reg {p : Params} (hp : p.valid = true) (r : GlobalReg) : locate p (p.base + r.offset) 4 = .ok (.reg r) := by
  have hr : r.offset % 4 = 0 ∧ r.offset < 0x10000 := by cases r <;> decide
  exact locate_ok hp hr.1 (by omega) (locOfOffset_reg r)

theorem locate_item {p : Params} (hp : p.valid = true) {c i : Nat} {it : Item} (hc : c < p.nch) (hi : i < it.count) :
    locate p (p.base + itemAddr c it i) 4 = .ok (.item c it i) := by
  have e := item_end it
  have ha := item_aligned it
  exact locate_ok hp (by unfold itemAddr slotBase; omega) (by unfold itemAddr slotBase; omega) (locOfOffset_item c hi)

/-- An access reaches elements of existing slots only. -/
theorem item_of_locate {p : Params} {addr size c i : Nat} {it : Item} (h : locate p addr size = .ok (.item c it i)) :
    c < p.nch ∧ i < it.count := by
  unfold locate at h
  split_ifs at h with h1 h2 h3
  split at h
  · cases h
  · rename_i l hl
    cases h
    obtain ⟨hoff, hi⟩ := item_of_locOfOffset hl
    exact ⟨by omega, hi⟩

/-! ## Accesses (R62, R66) -/

section
variable {s : State} {addr size : Nat} {v : Word} {l : Loc}

theorem hostRead_ok (h : locate s.params addr size = .ok l) :
    hostRead addr size s = .next { s with reads := readLoc s l :: s.reads } := by
  unfold hostRead; rw [h]

theorem hostWrite_ok (h : locate s.params addr size = .ok l) : hostWrite addr size v s = .next (writeLoc l v s) := by
  unfold hostWrite; rw [h]

/-- A read that is answered changes nothing but the answers. -/
theorem hostRead_next {t : State} (h : hostRead addr size s = .next t) : ∃ r, t = { s with reads := r :: s.reads } := by
  unfold hostRead at h
  split at h
  · cases h
  · exact ⟨_, (Host.Outcome.next.inj h).symm⟩

theorem hostWrite_next {t : State} (h : hostWrite addr size v s = .next t) :
    ∃ l, locate s.params addr size = .ok l ∧ t = writeLoc l v s := by
  unfold hostWrite at h
  split at h
  · cases h
  · exact ⟨_, ‹_›, (Host.Outcome.next.inj h).symm⟩

theorem writeLoc_idle (h : s.status.busy = false) : writeLoc l v s = storeLoc l v s := by
  unfold writeLoc; simp [h]

theorem writeLoc_status : writeLoc (.reg .status) v s = writeStatus v s := by
  unfold writeLoc; simp [storeLoc]

/-- While BUSY = 1 a write to anything but STATUS is dropped (R66). -/
theorem writeLoc_busy (h : s.status.busy = true) (hl : l ≠ .reg .status) :
    writeLoc l v s = { s with status := { s.status with ovr := true } } := by
  unfold writeLoc; simp [h, hl]

/-- While BUSY = 0 no location reads as a draw for a command's sake (R66). -/
theorem readLoc_idle (h : s.status.busy = false) : readLoc s l = currentValue s l := by
  unfold readLoc State.inFlight; simp [h]

theorem readStatus_idle (h : s.status.busy = false) : readStatus s = s.status.toWord := by
  unfold readStatus State.inFlight; simp [h]

end

/-! ## CFG and STATUS writes (R23, R24) -/

section
variable (v : Word) (s : State)

/-- A CFG write either takes all three fields, or, where it would change FL960 of a started stream, the enables alone with the
error of R204. -/
theorem writeCfg_cases :
    (¬(s.status.started = true ∧ bit 0 v ≠ s.cfg.fl960) ∧
      writeCfg v s = { s with cfg := { fl960 := bit 0 v, ieDone := bit 8 v, ieErr := bit 9 v } }) ∨
    (s.status.started = true ∧ bit 0 v ≠ s.cfg.fl960 ∧ ∃ u : State,
      u = recordError .config 0 0 { s with cfg := { s.cfg with ieDone := bit 8 v, ieErr := bit 9 v } } ∧
      writeCfg v s = { u with status := { u.status with fatal := true } }) := by
  unfold writeCfg
  by_cases h : s.status.started = true ∧ bit 0 v ≠ s.cfg.fl960
  · exact .inr ⟨h.1, h.2, _, rfl, if_pos (by simpa using h)⟩
  · exact .inl ⟨h, if_neg (by simpa using h)⟩

/-- What a STATUS write leaves (R24). -/
theorem writeStatus_eq : writeStatus v s =
    { s with
      status := { s.status with
        done := s.status.done && !bit 1 v
        err := s.status.err && !bit 2 v
        ovr := s.status.ovr && !bit 5 v
        wt := s.status.wt && !bit 6 v
        errcode := if bit 2 v then .none else s.status.errcode }
      errinfo := if bit 2 v then ErrInfo.reset else s.errinfo } := by
  unfold writeStatus clearError
  cases bit 1 v <;> cases bit 2 v <;> cases bit 5 v <;> cases bit 6 v <;> simp

end

end Sys2Proof.Machine
end

section
/-! What one step can do, said once: the completion of the command in flight, or one event of the host (20_memory.md R62, R66, R67;
60_exceptions.md R200 to R203). The whole-machine rules are read off its cases. -/

namespace Sys2Proof.Machine

/-! ## What a command can do -/

/-- The writes of command `i` when it meets no error, before it completes (R105, R123, R127, R148, R170, R190 to R192). -/
inductive CommandWrites (s : State) : Instr → State → Prop
  | spectrum {i : Instr} {cs : List Nat} {t : State} (fend : i ≠ .fend) (srst : i ≠ .srst) (slots : ∀ c ∈ cs, c < s.params.nch)
      (stores : SpecStores cs s t) : CommandWrites s i t
  | fb {c : Nat} {pcm ovl chstate : List Word} {wt : Bool} (slot : c < s.params.nch) (pcmLength : pcm.length = s.frameLen)
      (ovlLength : ovl.length = s.frameLen) (chstateLength : chstate.length = 1) :
      CommandWrites s (.fb c) { ((s.setItems c .pcm 0 pcm).setItems c .ovl 0 ovl).setItems c .chstate 0 chstate with
        status := { s.status with wt := s.status.wt || wt, started := true } }
  | fend : CommandWrites s .fend { s with framecnt := s.framecnt + 1#32 }
  | srst : CommandWrites s .srst (softReset s)

/-- How a command that goes on ends (R200, R201): after its writes, or with an error and no write. FEND and SRST meet no error. -/
inductive CommandEnds (s : State) (i : Instr) : State → Prop
  | completed {t : State} (writes : CommandWrites s i t) : CommandEnds s i (complete t)
  | raised {e : ErrCode} {ch d : Nat} (code : e ≠ .none) (fend : i ≠ .fend) (srst : i ≠ .srst) :
      CommandEnds s i (complete (recordError e ch d s))

section
variable {s t : State} {i : Instr}

/-- A command of the common shape that takes BAD_CHANNEL's check and FATAL's: what its body does decides. -/
theorem runCommand_ends {bad : Option Nat} {body : Except Stop State} {items : List (Nat × Item)} (fend : i ≠ .fend)
    (srst : i ≠ .srst) (hok : ∀ t, bad = none → body = .ok t → CommandWrites s i t)
    (hstop : ∀ e, body = .error e → StopIn items s e) (h : runCommand i false bad body s = .next t) : CommandEnds s i t := by
  rcases runCommand_cases (i := i) (fe := false) (bad := bad) (body := body) (s := s) with
    ⟨-, -, hr⟩ | ⟨-, ⟨x, -, hr⟩ | ⟨hbad, ⟨t', hb, hr⟩ | ⟨e, ch, d, hb, hr⟩ | ⟨a, -, hr⟩⟩⟩ <;> cases hr.symm.trans h
  · exact .raised (by decide) fend srst
  · exact .raised (by decide) fend srst
  · exact .completed (hok t' hbad hb)
  · exact .raised (hstop _ hb) fend srst

theorem lt_of_badChannelC {c : Nat} (h : badChannelC c s = none) : c < s.params.nch := by
  by_contra hc
  simp [badChannelC, not_lt.mp hc] at h

theorem lt_of_badChannelP {a b : Nat} (h : badChannelP a b s = none) : a < s.params.nch ∧ b < s.params.nch ∧ a ≠ b := by
  unfold badChannelP at h
  split_ifs at h
  exact ⟨by omega, by omega, ‹_›⟩

/-- How a command that goes on ends. -/
theorem exec_ends (h : exec i s = .next t) : CommandEnds s i t := by
  cases i with
  | nop =>
    refine runCommand_ends (bad := none) (body := .ok s) (items := []) (by simp) (by simp) (fun t _ hb => ?_) (by simp) h
    cases hb
    exact .spectrum (cs := []) (by simp) (by simp) (by simp) .refl
  | iq c =>
    exact runCommand_ends (by simp) (by simp) (fun t hc hb => .spectrum (by simp) (by simp)
      (by simpa using lt_of_badChannelC hc) (iqBody_ok hb)) (fun e => iqBody_stop) h
  | ms a b =>
    refine runCommand_ends (by simp) (by simp) (fun t hc hb => .spectrum (by simp) (by simp) ?_ (msBody_ok hb))
      (fun e => msBody_stop) h
    obtain ⟨ha, hb, -⟩ := lt_of_badChannelP hc
    simp [ha, hb]
  | is a b =>
    exact runCommand_ends (by simp) (by simp) (fun t hc hb => .spectrum (by simp) (by simp)
      (by simpa using (lt_of_badChannelP hc).2.1) (isBody_ok hb)) (fun e => isBody_stop) h
  | tns c =>
    exact runCommand_ends (by simp) (by simp) (fun t hc hb => .spectrum (by simp) (by simp)
      (by simpa using lt_of_badChannelC hc) (tnsBody_ok hb)) (fun e => tnsBody_stop) h
  | fb c =>
    refine runCommand_ends (by simp) (by simp) (fun t hc hb => ?_) (fun e => fbBody_stop) h
    obtain ⟨pcm, ovl, chstate, wt, hp, ho, hs, rfl⟩ := fbBody_ok hb
    exact .fb (lt_of_badChannelC hc) hp ho hs
  | fend =>
    cases (runCommand_ok (i := .fend) (fe := true) (by simp)).symm.trans h
    exact .completed .fend
  | srst =>
    cases (runCommand_ok (i := .srst) (fe := true) (by simp)).symm.trans h
    exact .completed .srst

end

/-! ## What the host can do -/

/-- The host takes its next event off its queue; `rest` is left of it. -/
def State.popped (s : State) (rest : List HostOp) : State := { s with pending := rest, draws := s.draws + 1 }

section
variable (s : State) (rest : List HostOp)

@[simp] theorem popped_params : (s.popped rest).params = s.params := rfl
@[simp] theorem popped_cfg : (s.popped rest).cfg = s.cfg := rfl
@[simp] theorem popped_status : (s.popped rest).status = s.status := rfl
@[simp] theorem popped_framecnt : (s.popped rest).framecnt = s.framecnt := rfl
@[simp] theorem popped_errinfo : (s.popped rest).errinfo = s.errinfo := rfl
@[simp] theorem popped_latch : (s.popped rest).latch = s.latch := rfl
@[simp] theorem popped_mem : (s.popped rest).mem = s.mem := rfl

end

/-- The next step is the host's, and no power-on reset. -/
def HostAccesses (s : State) : Prop := HostActs s ∧ ¬PowersOn s

theorem HostActs.not_executes {s : State} (h : HostActs s) (i : Instr) : ¬Executes s i := by
  rintro ⟨hb, ht, -⟩
  rcases h with h | h
  · simp [hb] at h
  · simp [ht] at h

theorem HostAccesses.not_resets {s : State} (h : HostAccesses s) : ¬Resets s := by
  rintro (hx | hp)
  · exact h.1.not_executes _ hx
  · exact h.2 hp

theorem Executes.not_resets {s : State} {i : Instr} (h : Executes s i) (hi : i ≠ .srst) : ¬Resets s := by
  rintro (⟨-, -, hd⟩ | hp)
  · exact hi (Except.ok.inj (h.2.2.symm.trans hd))
  · exact hp.1.not_executes i h

theorem Executes.unique {s : State} {i j : Instr} (h : Executes s i) (h' : Executes s j) : i = j :=
  Except.ok.inj (h.2.2.symm.trans h'.2.2)

/-! ## What a step can do -/

/-- Everything a step that goes on can do. -/
inductive StepTo (s : State) : State → Prop
  /-- The command in flight is legal. -/
  | ran {i : Instr} {t : State} (run : Executes s i) (ends : CommandEnds s i t) : StepTo s t
  /-- The latched word is illegal (R84). -/
  | illegal {op : Nat} (none : ∀ i, ¬Executes s i) (busy : ¬HostActs s) :
      StepTo s (complete (recordError .illegalCmd 0 op s))
  /-- The host has no event left. -/
  | idle (host : HostAccesses s) : StepTo s s
  /-- A read, a wait, or a write that is ignored (R29). -/
  | listened {rest : List HostOp} {reads : List Word} (host : HostAccesses s) : StepTo s { s.popped rest with reads := reads }
  | poweredOn {rest : List HostOp} (power : PowersOn s) : StepTo s (powerOnReset (s.popped rest))
  /-- A write that is dropped while BUSY = 1 (R66). -/
  | dropped {rest : List HostOp} (host : HostAccesses s) :
      StepTo s { s.popped rest with status := { s.status with ovr := true } }
  | wroteStatus {rest : List HostOp} {v : Word} (host : HostAccesses s) (writes : WritesReg s .status v) :
      StepTo s (writeStatus v (s.popped rest))
  | wroteCfg {rest : List HostOp} {v : Word} (host : HostAccesses s) (writes : WritesReg s .cfg v) :
      StepTo s (writeCfg v (s.popped rest))
  | issued {rest : List HostOp} {v : Word} (host : HostAccesses s) (writes : WritesReg s .cmd v) :
      StepTo s (issue v (s.popped rest))
  | wroteItem {rest : List HostOp} {v : Word} {c i : Nat} {it : Item} (host : HostAccesses s) (writable : it.hostWritable = true)
      (slot : c < s.params.nch) (element : i < it.count) : StepTo s ((s.popped rest).setItems c it i [v])

/-- A host write that is answered. -/
theorem writeLoc_stepTo {s : State} {rest : List HostOp} {addr size : Nat} {v : Word} {l : Loc} (host : HostActs s)
    (hp : s.pending = .write addr size v :: rest) (hl : locate s.params addr size = .ok l) :
    StepTo s (writeLoc l v (s.popped rest)) := by
  have hacc : HostAccesses s := ⟨host, fun ⟨_, r, h⟩ => by rw [hp] at h; cases h⟩
  have hreg : ∀ r, l = .reg r → WritesReg s r v := fun r h => ⟨host, addr, size, rest, hp, h ▸ hl⟩
  by_cases hs : l = .reg .status
  · rw [hs, writeLoc_status]
    exact .wroteStatus hacc (hreg _ hs)
  cases hb : s.status.busy with
  | true =>
    rw [writeLoc_busy (s := s.popped rest) hb hs]
    exact .dropped hacc
  | false =>
    rw [writeLoc_idle (s := s.popped rest) hb]
    cases l with
    | item c it i =>
      obtain ⟨hc, hi⟩ := item_of_locate hl
      cases hw : it.hostWritable with
      | true =>
        rw [storeLoc, if_pos hw]
        exact .wroteItem hacc hw hc hi
      | false =>
        rw [storeLoc, if_neg (by simp [hw])]
        exact .listened hacc
    | reg r =>
      cases r with
      | cfg => exact .wroteCfg hacc (hreg _ rfl)
      | cmd => exact .issued hacc (hreg _ rfl)
      | status => exact absurd rfl hs
      | id => exact .listened hacc
      | version => exact .listened hacc
      | framecnt => exact .listened hacc
      | errinfo => exact .listened hacc
      | nchreg => exact .listened hacc

theorem hostStep_stepTo {s t : State} (host : HostActs s) (h : hostStep s = .next t) : StepTo s t := by
  unfold hostStep at h
  split at h
  · rename_i hp
    cases h
    exact .idle ⟨host, fun ⟨_, r, hr⟩ => by rw [hp] at hr; cases hr⟩
  · rename_i op rest hp
    have hacc : op ≠ .powerOn → HostAccesses s := fun hop => ⟨host, fun ⟨_, r, hr⟩ => by
      rw [hp] at hr; exact hop (List.cons.inj hr).1⟩
    cases op with
    | read addr size =>
      obtain ⟨r, rfl⟩ := hostRead_next h
      exact .listened (hacc (by simp))
    | write addr size v =>
      obtain ⟨l, hl, rfl⟩ := hostWrite_next h
      exact writeLoc_stepTo host hp hl
    | wait =>
      cases h
      exact .listened (hacc (by simp))
    | powerOn =>
      cases h
      exact .poweredOn ⟨host, rest, hp⟩

/-- Everything a step that goes on can do. -/
theorem step_cases {s t : State} (h : step s = .next t) : StepTo s t := by
  unfold step at h
  split at h
  · rename_i hturn
    simp only [Bool.and_eq_true] at hturn
    unfold sequencerStep at h
    split at h
    · exact .ran ⟨hturn.1, hturn.2, ‹_›⟩ (exec_ends h)
    · rename_i e hd
      cases h
      refine .illegal (fun i hx => ?_) (fun hh => ?_)
      · rw [hx.2.2] at hd; cases hd
      · rcases hh with hh | hh <;> simp [hturn] at hh
  · rename_i hturn
    refine hostStep_stepTo ?_ h
    rwa [Bool.and_eq_true, not_and_or, Bool.not_eq_true, Bool.not_eq_true] at hturn

end Sys2Proof.Machine
end

section
/-! The whole-machine rules: what every step keeps (10_state.md R23, R24, R26, R27, R30, R31; 20_memory.md R60, R63; 60_exceptions.md
R202, R204): O9, O17, O18 and O19. -/

namespace Sys2Proof.Machine

/-! ## Good memory -/

theorem word_isSome_iff (m : Mem) (a : Nat) : (m.word? a).isSome = true ↔ ∀ k < 4, (m.byte? (a + k)).isSome = true := by
  unfold Mem.word?
  constructor
  · intro h k hk
    split at h
    · rename_i h0 h1 h2 h3
      obtain rfl | rfl | rfl | rfl : k = 0 ∨ k = 1 ∨ k = 2 ∨ k = 3 := by omega
      · rw [Nat.add_zero, h0]; rfl
      · rw [h1]; rfl
      · rw [h2]; rfl
      · rw [h3]; rfl
    · cases h
  · intro h
    obtain ⟨b0, h0⟩ := Option.isSome_iff_exists.mp (h 0 (by decide))
    obtain ⟨b1, h1⟩ := Option.isSome_iff_exists.mp (h 1 (by decide))
    obtain ⟨b2, h2⟩ := Option.isSome_iff_exists.mp (h 2 (by decide))
    obtain ⟨b3, h3⟩ := Option.isSome_iff_exists.mp (h 3 (by decide))
    rw [Nat.add_zero] at h0
    rw [h0, h1, h2, h3]
    rfl

/-- The soft reset keeps memory good: a word of ChannelState reads 0 again, whichever of its bytes were listed (R230). -/
theorem softReset_good {nch : Nat} {s : State} (h : Mem.Good nch s.mem) : Mem.Good nch (softReset s).mem := by
  obtain ⟨hwf, hslots, hmasked, hwhole⟩ := h
  have hsub : ∀ x ∈ (softReset s).mem, x ∈ s.mem := fun x hx => (List.mem_filter.mp hx).1
  unfold Mem.inSlots at hslots
  unfold Mem.masked at hmasked
  unfold Mem.whole at hwhole
  rw [List.all_eq_true] at hslots hmasked hwhole
  refine ⟨filter_wf hwf _, ?_, ?_, ?_⟩
  · exact List.all_eq_true.mpr fun x hx => hslots x (hsub x hx)
  · exact List.all_eq_true.mpr fun x hx => hmasked x (hsub x hx)
  · refine List.all_eq_true.mpr fun x hx => (word_isSome_iff _ _).mpr fun k hk => ?_
    rw [byte_softReset]
    split
    · rfl
    · exact (word_isSome_iff _ _).mp (hwhole x (hsub x hx)) k hk

theorem nil_good (nch : Nat) : Mem.Good nch [] := ⟨rfl, rfl, rfl, rfl⟩

/-- A command's writes keep memory good (R30, R60, R63). -/
theorem CommandWrites.good {s t : State} {i : Instr} (h : CommandWrites s i t) (hg : Mem.Good s.params.nch s.mem) :
    Mem.Good s.params.nch t.mem := by
  have hL := frameLen_le s
  cases h with
  | spectrum _ _ slots stores => exact stores.good slots hg
  | fb slot hp ho hc =>
    exact setItems_good (setItems_good (setItems_good hg slot (by simp only [Item.count]; omega)) slot
      (by simp only [Item.count]; omega)) slot (by simp only [Item.count]; omega)
  | fend => exact hg
  | srst => exact softReset_good hg

/-! ## The invariant -/

section
variable {s t : State}

theorem recordError_recordGood {e : ErrCode} {ch d : Nat} (he : e ≠ .none) (h : s.ErrorRecordGood) :
    (recordError e ch d s).ErrorRecordGood := by
  cases hs : s.status.err with
  | true => rwa [recordError_of_err hs]
  | false =>
    rw [recordError_of_noErr hs]
    exact ⟨by simp, fun _ => he⟩

theorem recordError_inv {e : ErrCode} {ch d : Nat} (he : e ≠ .none) (h : s.Inv) : (recordError e ch d s).Inv := by
  obtain ⟨hp, hm, hr, hf⟩ := h
  exact ⟨by simpa using hp, by simpa using hm, recordError_recordGood he hr, by simpa [State.FatalGood] using hf⟩

/-- DONE, BUSY and the draw counter are no part of the invariant. -/
theorem complete_inv (h : s.Inv) : (complete s).Inv := h

theorem CommandWrites.inv {i : Instr} (h : CommandWrites s i t) (hi : s.Inv) : t.Inv := by
  have hg := h.good hi.2.1
  obtain ⟨hp, -, hr, hf⟩ := hi
  cases h with
  | spectrum _ _ _ stores =>
    obtain ⟨e1, -, e3, -, e5, -⟩ := stores.fields
    unfold State.Inv State.ErrorRecordGood State.FatalGood
    rw [e1, e3, e5]
    exact ⟨hp, hg, hr, hf⟩
  | fb => exact ⟨hp, hg, hr, fun _ => rfl⟩
  | fend => exact ⟨hp, hg, hr, hf⟩
  | srst => exact ⟨hp, hg, ⟨fun _ => ⟨rfl, rfl⟩, fun h => by cases h⟩, fun h => by cases h⟩

theorem writeStatus_inv (v : Word) (h : s.Inv) : (writeStatus v s).Inv := by
  obtain ⟨hp, hm, ⟨hr0, hr1⟩, hf⟩ := h
  rw [writeStatus_eq]
  refine ⟨hp, hm, ⟨fun he => ?_, fun he => ?_⟩, hf⟩
  · cases hb : bit 2 v with
    | true => simp
    | false => simpa [hb] using hr0 (by simpa [hb] using he)
  · obtain ⟨he, hb⟩ : s.status.err = true ∧ bit 2 v = false := by simpa using he
    simpa [hb] using hr1 he

theorem writeCfg_inv (v : Word) (h : s.Inv) : (writeCfg v s).Inv := by
  rcases writeCfg_cases v s with ⟨-, hw⟩ | ⟨hs, -, u, rfl, hw⟩ <;> rw [hw]
  · exact h
  · obtain ⟨hp, hm, hr, -⟩ := recordError_inv (e := .config) (ch := 0) (d := 0) (by decide)
      (s := { s with cfg := { s.cfg with ieDone := bit 8 v, ieErr := bit 9 v } }) h
    exact ⟨hp, hm, hr, fun _ => by simpa using hs⟩

end

/-- Settles O9, by cases on what a step can do (`step_cases`). -/
theorem stepKeepsInv : Obligations.StepKeepsInv := by
  unfold Obligations.StepKeepsInv
  intro s t hinv hstep
  cases step_cases hstep with
  | ran _ ends =>
    cases ends with
    | completed writes => exact complete_inv (writes.inv hinv)
    | raised code _ _ => exact complete_inv (recordError_inv code hinv)
  | illegal _ _ => exact complete_inv (recordError_inv (by decide) hinv)
  | idle _ => exact hinv
  | listened _ => exact hinv
  | poweredOn _ => exact ⟨hinv.1, nil_good _, ⟨fun _ => ⟨rfl, rfl⟩, fun h => by cases h⟩, fun h => by cases h⟩
  | dropped _ => exact hinv
  | wroteStatus _ _ => exact writeStatus_inv _ hinv
  | wroteCfg _ _ => exact writeCfg_inv _ hinv
  | issued _ _ => exact hinv
  | wroteItem _ _ slot element =>
    obtain ⟨hp, hm, hr, hf⟩ := hinv
    exact ⟨hp, setItems_good hm slot element, hr, hf⟩

/-! ## ChannelState (R31) -/

/-- No byte of ChannelState lies in another item. -/
theorem outsideItem_of_inChannelState {x : Nat} (h : inChannelState x = true) (c : Nat) {it : Item} {n : Nat}
    (hit : it.isChannelState = false) (hn : n ≤ it.count) : OutsideItem c it n x := by
  by_contra hc
  unfold OutsideItem at hc
  have hx := inChannelState_itemAddr c it (k := x - itemAddr c it 0) (by omega)
  rw [Nat.add_sub_cancel' (by omega), h, hit] at hx
  cases hx

/-- No item of another slot holds the byte. -/
theorem outsideItem_of_slot {c x : Nat} (h : x / 0x10000 ≠ c + 1) (it : Item) {n : Nat} (hn : n ≤ it.count) :
    OutsideItem c it n x := by
  have e := item_end it
  unfold OutsideItem itemAddr slotBase
  omega

theorem byte_setItems_outside {s : State} {c i x : Nat} {it : Item} {ws : List Word}
    (h : OutsideItem c it (i + ws.length) x) : (s.setItems c it i ws).mem.byte? x = s.mem.byte? x := by
  rw [setItems_mem, byte_store_outside]
  rw [List.length_map]
  unfold OutsideItem itemAddr at *
  omega

/-- A command's writes leave ChannelState as it was, but for FB's own slot and SRST (R31). -/
theorem CommandWrites.channelState {s t : State} {i : Instr} (h : CommandWrites s i t) {x : Nat}
    (hx : inChannelState x = true) (hfb : ∀ c, i = .fb c → x / 0x10000 ≠ c + 1) (hi : i ≠ .srst) :
    t.mem.byte? x = s.mem.byte? x := by
  have hL := frameLen_le s
  cases h with
  | spectrum _ _ _ stores => exact stores.byte fun c _ => outsideItem_of_inChannelState hx c rfl hL
  | @fb c _ _ _ _ _ hp ho hc =>
    have hc' := hfb c rfl
    refine (byte_setItems_outside (outsideItem_of_slot hc' _ ?_)).trans
      ((byte_setItems_outside (outsideItem_of_slot hc' _ ?_)).trans (byte_setItems_outside (outsideItem_of_slot hc' _ ?_))) <;>
      simp only [Item.count] <;> omega
  | fend => rfl
  | srst => exact absurd rfl hi

theorem not_channelState_of_hostWritable {it : Item} (h : it.hostWritable = true) : it.isChannelState = false := by
  cases it <;> simp_all [Item.hostWritable, Item.isChannelState]

@[simp] theorem writeStatus_mem (v : Word) (s : State) : (writeStatus v s).mem = s.mem := by rw [writeStatus_eq]
@[simp] theorem writeCfg_mem (v : Word) (s : State) : (writeCfg v s).mem = s.mem := by
  rcases writeCfg_cases v s with ⟨-, hw⟩ | ⟨-, -, u, rfl, hw⟩ <;> rw [hw]
  simp

/-- Settles O17: of all a step can do, only FB on its own slot and the resets store to ChannelState. -/
theorem channelStateOwner : Obligations.ChannelStateOwner := by
  unfold Obligations.ChannelStateOwner
  intro s t hstep hreset x hx hfb
  cases step_cases hstep with
  | @ran i _ run ends =>
    cases ends with
    | completed writes =>
      exact writes.channelState hx (fun c hi => hfb c (hi ▸ run)) fun hi => hreset (.inl (hi ▸ run))
    | raised _ _ _ => simp
  | illegal _ _ => simp
  | idle _ => rfl
  | listened _ => rfl
  | poweredOn power => exact absurd (.inr power) hreset
  | dropped _ => rfl
  | wroteStatus _ _ => simp
  | wroteCfg _ _ => simp
  | issued _ _ => rfl
  | wroteItem _ writable _ element =>
    exact byte_setItems_outside (outsideItem_of_inChannelState hx _ (not_channelState_of_hostWritable writable) element)

/-! ## FRAMECNT (R26) -/

@[simp] theorem writeStatus_framecnt (v : Word) (s : State) : (writeStatus v s).framecnt = s.framecnt := by rw [writeStatus_eq]
@[simp] theorem writeCfg_framecnt (v : Word) (s : State) : (writeCfg v s).framecnt = s.framecnt := by
  rcases writeCfg_cases v s with ⟨-, hw⟩ | ⟨-, -, u, rfl, hw⟩ <;> rw [hw]
  simp

/-- A command's writes leave FRAMECNT as it was, but for FEND and SRST. -/
theorem CommandWrites.framecnt {s t : State} {i : Instr} (h : CommandWrites s i t) :
    t.framecnt = if i = .fend then s.framecnt + 1#32 else if i = .srst then 0#32 else s.framecnt := by
  cases h with
  | spectrum fend srst _ stores => rw [if_neg fend, if_neg srst]; exact stores.fields.2.2.2.1
  | fb => rfl
  | fend => rfl
  | srst => rfl

/-- A step that is the host's access leaves FRAMECNT as it was, and so meets R26. -/
theorem frameCounter_of_same {s t : State} (fend : ¬Executes s .fend) (reset : ¬Resets s) (h : t.framecnt = s.framecnt) :
    (Executes s .fend → t.framecnt = s.framecnt + 1#32) ∧ (Resets s → t.framecnt = 0#32) ∧
      (¬Executes s .fend → ¬Resets s → t.framecnt = s.framecnt) :=
  ⟨fun hx => absurd hx fend, fun hx => absurd hx reset, fun _ _ => h⟩

/-- Settles O18, by cases on what a step can do. -/
theorem frameCounter : Obligations.FrameCounter := by
  unfold Obligations.FrameCounter
  intro s t hstep
  have hhost : HostAccesses s → t.framecnt = s.framecnt → _ := fun hh =>
    frameCounter_of_same (s := s) (t := t) (hh.1.not_executes _) hh.not_resets
  cases step_cases hstep with
  | @ran i _ run ends =>
    cases ends with
    | completed writes =>
      have hw := writes.framecnt
      refine ⟨fun hx => ?_, fun hx => ?_, fun hfend hreset => ?_⟩
      · obtain rfl := run.unique hx
        exact hw
      · by_cases hi : i = .srst
        · subst hi; exact hw
        · exact absurd hx (run.not_resets hi)
      · rwa [if_neg (fun hi : i = .fend => hfend (hi ▸ run)), if_neg (fun hi : i = .srst => hreset (.inl (hi ▸ run)))] at hw
    | raised _ fend srst =>
      exact frameCounter_of_same (fun hx => fend (run.unique hx)) (run.not_resets srst) (by simp)
  | illegal none busy =>
    refine frameCounter_of_same (none _) ?_ (by simp)
    rintro (hx | hp)
    · exact none _ hx
    · exact busy hp.1
  | poweredOn power =>
    exact ⟨fun hx => absurd hx (power.1.not_executes _), fun _ => rfl, fun _ hr => absurd (.inr power) hr⟩
  | idle host => exact hhost host rfl
  | listened host => exact hhost host rfl
  | dropped host => exact hhost host rfl
  | wroteStatus host _ => exact hhost host (by simp)
  | wroteCfg host _ => exact hhost host (by simp)
  | issued host _ => exact hhost host rfl
  | wroteItem host _ _ _ => exact hhost host rfl

/-! ## STARTED, FATAL and FL960 (R23, R24, R204) -/

/-- The flags of a started stream: STARTED, FATAL and FL960. -/
def State.streamFlags (s : State) : Bool × Bool × Bool := (s.status.started, s.status.fatal, s.cfg.fl960)

/-- What R23 and R24 let a step do to the flags of the stream. -/
def StreamLockKept (s t : State) : Prop :=
  (s.status.started = true → t.status.started = false → Resets s) ∧
    (s.status.started = false → t.status.started = true → ∃ c, Executes s (.fb c)) ∧
    (s.status.fatal = false → t.status.fatal = true → ∃ v, WritesReg s .cfg v) ∧
    (s.status.started = true → t.cfg.fl960 ≠ s.cfg.fl960 → Resets s)

section
variable {s t : State}

theorem streamLockKept_of_same (h : t.streamFlags = s.streamFlags) : StreamLockKept s t := by
  obtain ⟨h1, h2, h3⟩ : t.status.started = s.status.started ∧ t.status.fatal = s.status.fatal ∧ t.cfg.fl960 = s.cfg.fl960 := by
    simpa [State.streamFlags] using h
  refine ⟨fun a b => ?_, fun a b => ?_, fun a b => ?_, fun _ b => absurd h3 b⟩
  · simp [h1, a] at b
  · simp [h1, a] at b
  · simp [h2, a] at b

/-- A reset may change every flag, but sets none. -/
theorem streamLockKept_of_reset (h : Resets s) (hs : t.status.started = false ∧ t.status.fatal = false) :
    StreamLockKept s t := by
  refine ⟨fun _ _ => h, fun _ b => ?_, fun _ b => ?_, fun _ _ => h⟩
  · simp [hs.1] at b
  · simp [hs.2] at b

@[simp] theorem complete_streamFlags : (complete s).streamFlags = s.streamFlags := rfl

@[simp] theorem recordError_streamFlags {e : ErrCode} {ch d : Nat} : (recordError e ch d s).streamFlags = s.streamFlags := by
  simp [State.streamFlags]

theorem writeStatus_streamFlags (v : Word) (s : State) : (writeStatus v s).streamFlags = s.streamFlags := by
  rw [writeStatus_eq]; rfl

/-- What completes keeps the flags, but for FB, which starts the stream, and SRST. -/
theorem CommandWrites.streamLock {i : Instr} (run : Executes s i) (h : CommandWrites s i t) : StreamLockKept s (complete t) := by
  cases h with
  | spectrum _ _ _ stores =>
    refine streamLockKept_of_same ?_
    obtain ⟨-, hcfg, hstatus, -⟩ := stores.fields
    simp [State.streamFlags, hcfg, hstatus]
  | @fb c =>
    refine ⟨fun _ b => by simp at b, fun _ _ => ⟨c, run⟩, fun a b => ?_, fun _ b => absurd rfl b⟩
    simp [a] at b
  | fend => exact streamLockKept_of_same rfl
  | srst => exact streamLockKept_of_reset (.inl run) ⟨rfl, rfl⟩

/-- A CFG write changes FL960 only before the stream has started, and sets FATAL only after (R23, R204). -/
theorem writeCfg_streamLock {rest : List HostOp} {v : Word} (writes : WritesReg s .cfg v) :
    StreamLockKept s (writeCfg v (s.popped rest)) := by
  rcases writeCfg_cases v (s.popped rest) with ⟨hc, hw⟩ | ⟨-, -, u, rfl, hw⟩ <;> rw [hw]
  · refine ⟨fun a b => ?_, fun a b => ?_, fun _ _ => ⟨v, writes⟩, fun a b => absurd ⟨a, b⟩ hc⟩
    · simp [a] at b
    · simp [a] at b
  · refine ⟨fun a b => ?_, fun a b => ?_, fun _ _ => ⟨v, writes⟩, fun _ b => absurd (by simp) b⟩
    · simp [a] at b
    · simp [a] at b

end

/-- Settles O19, by cases on what a step can do. -/
theorem streamLock : Obligations.StreamLock := by
  unfold Obligations.StreamLock
  intro s t hstep
  change StreamLockKept s t
  cases step_cases hstep with
  | ran run ends =>
    cases ends with
    | completed writes => exact writes.streamLock run
    | raised _ _ _ => exact streamLockKept_of_same (by simp)
  | illegal _ _ => exact streamLockKept_of_same (by simp)
  | idle _ => exact streamLockKept_of_same rfl
  | listened _ => exact streamLockKept_of_same rfl
  | poweredOn power => exact streamLockKept_of_reset (.inr power) ⟨rfl, rfl⟩
  | dropped _ => exact streamLockKept_of_same rfl
  | wroteStatus _ _ => exact streamLockKept_of_same (writeStatus_streamFlags _ _)
  | wroteCfg _ writes => exact writeCfg_streamLock writes
  | issued _ _ => exact streamLockKept_of_same rfl
  | wroteItem _ _ _ _ => exact streamLockKept_of_same rfl

end Sys2Proof.Machine
end

section
/-! The host's accesses to registers and items, and the places of the fields (10_state.md R21 to R30, R35 to R46, R51): O8, O20, O21,
O22, O24, O28 and O29. -/

namespace Sys2Proof.Machine

/-! ## Bits and fields of a word (R8) -/

theorem bits_eq_extractLsb' (hi lo : Nat) (v : Word) : bits hi lo v = (v.extractLsb' lo (hi + 1 - lo)).toNat := by
  simp [bits, Nat.shiftRight_eq_div_pow]

theorem bit_eq_getLsbD (b : Nat) (v : Word) : bit b v = v.getLsbD b := by
  rw [← BitVec.testBit_toNat, Nat.testBit_eq_decide_div_mod_eq, Bool.eq_iff_iff]
  simp [bit, bits]

theorem getLsbD_bitWord {b : Nat} (hb : b < 32) (x : Bool) (i : Nat) : (bitWord b x).getLsbD i = (x && decide (i = b)) := by
  unfold bitWord
  cases x with
  | false => simp
  | true =>
    rw [if_pos rfl, BitVec.getLsbD_ofNat, Nat.testBit_two_pow, Bool.true_and]
    rw [Bool.eq_iff_iff]
    simp only [Bool.and_eq_true, decide_eq_true_eq]
    omega

/-- A word is 0 under a mask when each of its bits in the mask is. -/
theorem and_eq_zero {r m : Word} (h : ∀ i < 32, m.getLsbD i = true → r.getLsbD i = false) : r &&& m = 0#32 := by
  refine BitVec.eq_of_getLsbD_eq fun i hi => ?_
  rw [BitVec.getLsbD_and, BitVec.getLsbD_zero, Bool.and_eq_false_iff]
  cases hm : m.getLsbD i with
  | false => exact .inr rfl
  | true => exact .inl (h i hi hm)

/-! ## The registers as words (R23, R24, R27) -/

theorem getLsbD_cfg (c : Cfg) (i : Nat) :
    c.toWord.getLsbD i = ((c.fl960 && decide (i = 0)) || (c.ieDone && decide (i = 8)) || (c.ieErr && decide (i = 9))) := by
  unfold Cfg.toWord
  rw [BitVec.getLsbD_or, BitVec.getLsbD_or, getLsbD_bitWord (by decide), getLsbD_bitWord (by decide),
    getLsbD_bitWord (by decide)]

theorem code_lt (e : ErrCode) : e.code < 2 ^ 8 := by cases e <;> decide

theorem getLsbD_code (e : ErrCode) (i : Nat) :
    (BitVec.ofNat 32 (e.code * 2 ^ 8)).getLsbD i = (decide (8 ≤ i) && e.code.testBit (i - 8)) := by
  rw [BitVec.getLsbD_ofNat, Nat.testBit_mul_two_pow, Bool.eq_iff_iff]
  simp only [Bool.and_eq_true, decide_eq_true_eq]
  refine and_iff_right_of_imp fun ⟨_, h⟩ => ?_
  by_contra hi
  rw [Nat.testBit_lt_two_pow (lt_of_lt_of_le (code_lt e) (Nat.pow_le_pow_right (by decide) (by omega)))] at h
  cases h

/-- STATUS's bits (R24). -/
theorem getLsbD_status (t : Status) (i : Nat) :
    t.toWord.getLsbD i = ((t.busy && decide (i = 0)) || (t.done && decide (i = 1)) || (t.err && decide (i = 2)) ||
      (t.started && decide (i = 3)) || (t.fatal && decide (i = 4)) || (t.ovr && decide (i = 5)) ||
      (t.wt && decide (i = 6)) || (decide (8 ≤ i) && t.errcode.code.testBit (i - 8))) := by
  unfold Status.toWord
  simp only [BitVec.getLsbD_or, getLsbD_code]
  rw [getLsbD_bitWord (by decide), getLsbD_bitWord (by decide), getLsbD_bitWord (by decide), getLsbD_bitWord (by decide),
    getLsbD_bitWord (by decide), getLsbD_bitWord (by decide), getLsbD_bitWord (by decide)]

/-- ERRCODE as a field of STATUS. -/
theorem errcode_status (t : Status) : (t.toWord.extractLsb' 8 8).toNat = t.errcode.code := by
  refine Nat.eq_of_testBit_eq fun i => ?_
  rw [BitVec.testBit_toNat, BitVec.getLsbD_extractLsb', getLsbD_status]
  by_cases hi : i < 8
  · simp [hi, show ∀ b, b < 8 → 8 + i ≠ b by omega]
  · rw [Nat.testBit_lt_two_pow (x := t.errcode.code) (lt_of_lt_of_le (code_lt _) (Nat.pow_le_pow_right (by decide)
      (by omega : 8 ≤ i)))]
    simp [hi]

theorem reserved_status (t : Status) : t.toWord &&& 0xFFFF0080#32 = 0#32 := by
  refine and_eq_zero fun i hi hm => ?_
  have hi' : i = 7 ∨ 16 ≤ i := by
    by_contra hc
    have hn : i = 0 ∨ i = 1 ∨ i = 2 ∨ i = 3 ∨ i = 4 ∨ i = 5 ∨ i = 6 ∨ i = 8 ∨ i = 9 ∨ i = 10 ∨ i = 11 ∨ i = 12 ∨ i = 13 ∨
      i = 14 ∨ i = 15 := by omega
    rcases hn with rfl | rfl | rfl | rfl | rfl | rfl | rfl | rfl | rfl | rfl | rfl | rfl | rfl | rfl | rfl <;> cases hm
  have hcode : (decide (8 ≤ i) && t.errcode.code.testBit (i - 8)) = false := by
    rcases hi' with rfl | hi'
    · rfl
    · rw [Nat.testBit_lt_two_pow (lt_of_lt_of_le (code_lt _) (Nat.pow_le_pow_right (by decide) (by omega))), Bool.and_false]
  rw [getLsbD_status, hcode]
  simp [show ∀ b, b < 7 → i ≠ b by omega]

theorem reserved_cfg (c : Cfg) : c.toWord &&& 0xFFFFFCFE#32 = 0#32 := by
  refine and_eq_zero fun i hi hm => ?_
  rw [getLsbD_cfg]
  have h0 : i ≠ 0 := by rintro rfl; cases hm
  have h8 : i ≠ 8 := by rintro rfl; cases hm
  have h9 : i ≠ 9 := by rintro rfl; cases hm
  simp [h0, h8, h9]

/-- ERRINFO's fields (R27). -/
theorem fields_errinfo (e : ErrInfo) : e.toWord.extractLsb' 0 4 = e.ch ∧ e.toWord.extractLsb' 16 16 = e.detail ∧
    e.toWord &&& 0x0000FFF0#32 = 0#32 := by
  have h1 := e.ch.isLt
  have h2 := e.detail.isLt
  have hw : e.toWord.toNat = e.detail.toNat * 65536 + e.ch.toNat := by
    simp only [ErrInfo.toWord, BitVec.toNat_ofNat]; omega
  refine ⟨?_, ?_, ?_⟩
  · apply BitVec.eq_of_toNat_eq
    rw [BitVec.extractLsb'_toNat, hw, Nat.shiftRight_eq_div_pow]
    omega
  · apply BitVec.eq_of_toNat_eq
    rw [BitVec.extractLsb'_toNat, hw, Nat.shiftRight_eq_div_pow]
    omega
  · refine and_eq_zero fun i hi hm => ?_
    have hi' : 4 ≤ i ∧ i < 16 := by
      rw [← BitVec.testBit_toNat, show (0x0000FFF0#32).toNat = 2 ^ 4 * 0xFFF from rfl, Nat.testBit_two_pow_mul] at hm
      simp only [Bool.and_eq_true, decide_eq_true_eq] at hm
      refine ⟨hm.1, ?_⟩
      by_contra hc
      rw [Nat.testBit_lt_two_pow (lt_of_lt_of_le (by decide : 0xFFF < 2 ^ 12) (Nat.pow_le_pow_right (by decide) (by omega)))]
        at hm
      exact Bool.false_ne_true hm.2
    rw [← BitVec.testBit_toNat, hw, show e.detail.toNat * 65536 + e.ch.toNat = 2 ^ 16 * e.detail.toNat + e.ch.toNat by omega,
      Nat.testBit_two_pow_mul_add _ (by omega), if_pos hi'.2]
    exact Nat.testBit_lt_two_pow (lt_of_lt_of_le h1 (Nat.pow_le_pow_right (by decide) hi'.1))

/-! ## Register accesses -/

section
variable {s : State} {v : Word}

theorem hostWrite_reg (hp : s.params.valid = true) (r : GlobalReg) :
    hostWrite (s.params.base + r.offset) 4 v s = .next (writeLoc (.reg r) v s) := hostWrite_ok (locate_reg hp r)

theorem hostRead_reg (hp : s.params.valid = true) (r : GlobalReg) :
    hostRead (s.params.base + r.offset) 4 s = .next { s with reads := readLoc s (.reg r) :: s.reads } :=
  hostRead_ok (locate_reg hp r)

/-- A register that is in no command's write set, and that no command changes, reads as its value, BUSY or not (R66). -/
theorem readLoc_reg {r : GlobalReg} (hr : r ≠ .cfg ∧ r ≠ .framecnt ∧ r ≠ .errinfo) :
    readLoc s (.reg r) = currentValue s (.reg r) := by
  have h : ∀ i, inWriteSet i s (.reg r) = false := by
    intro i
    cases i <;> simp [inWriteSet, isFrameOf, isChannelStateLoc, hr]
  unfold readLoc
  split
  · rw [h]; rfl
  · rfl

end

/-- Settles O8. -/
theorem commandPort : Obligations.CommandPort := by
  unfold Obligations.CommandPort
  intro s v hp
  refine ⟨fun hb => ?_, fun hb => ?_, ?_⟩
  · rw [show s.params.base + 0x010 = s.params.base + GlobalReg.offset .cmd from rfl, hostWrite_reg hp, writeLoc_idle hb]
    rfl
  · rw [show s.params.base + 0x010 = s.params.base + GlobalReg.offset .cmd from rfl, hostWrite_reg hp,
      writeLoc_busy hb (by simp)]
  · rw [show s.params.base + 0x010 = s.params.base + GlobalReg.offset .cmd from rfl, hostRead_reg hp,
      readLoc_reg (by simp)]
    rfl

theorem CommandWrites.params {s t : State} {i : Instr} (h : CommandWrites s i t) : t.params = s.params := by
  cases h with
  | spectrum _ _ _ stores => exact stores.fields.1
  | fb => rfl
  | fend => rfl
  | srst => rfl

/-- No step changes the parameters (R7, R28). -/
theorem step_params {s t : State} (h : step s = .next t) : t.params = s.params := by
  cases step_cases h with
  | ran _ ends =>
    cases ends with
    | completed writes => exact writes.params
    | raised _ _ _ => simp
  | illegal _ _ => simp
  | idle _ => rfl
  | listened _ => rfl
  | poweredOn _ => rfl
  | dropped _ => rfl
  | wroteStatus _ _ => rw [writeStatus_eq]; rfl
  | wroteCfg _ _ =>
    rcases writeCfg_cases _ (s.popped _) with ⟨-, hw⟩ | ⟨-, -, u, rfl, hw⟩ <;> rw [hw]
    · rfl
    · simp
  | issued _ _ => rfl
  | wroteItem _ _ _ _ => rfl

/-- Settles O20. -/
theorem readOnlyRegisters : Obligations.ReadOnlyRegisters := by
  unfold Obligations.ReadOnlyRegisters
  refine ⟨fun s hp => ⟨?_, ?_, ?_⟩, fun s t h => step_params h, fun s v hp => ⟨fun hb off hoff => ?_, ?_⟩⟩
  · exact (hostRead_reg hp .id).trans (by rw [readLoc_reg (by simp)]; rfl)
  · exact (hostRead_reg hp .version).trans (by rw [readLoc_reg (by simp)]; rfl)
  · exact (hostRead_reg hp .nchreg).trans (by rw [readLoc_reg (by simp)]; rfl)
  · have key : ∀ r ∈ [GlobalReg.id, .version, .framecnt, .errinfo, .nchreg],
        hostWrite (s.params.base + r.offset) 4 v s = .next s := by
      intro r hr
      rw [hostWrite_reg hp, writeLoc_idle hb]
      simp only [List.mem_cons, List.not_mem_nil, or_false] at hr
      rcases hr with rfl | rfl | rfl | rfl | rfl <;> rfl
    obtain ⟨r, hr, rfl⟩ := List.mem_map.mp
      (show off ∈ [GlobalReg.id, .version, .framecnt, .errinfo, .nchreg].map GlobalReg.offset from hoff)
    exact key r hr
  · refine ⟨_, hostWrite_reg hp .status, ?_⟩
    rw [writeLoc_status, writeStatus_eq]
    exact ⟨rfl, rfl, rfl, fun hb => by simp [hb]⟩

/-- Settles O21. -/
theorem registerReads : Obligations.RegisterReads := by
  unfold Obligations.RegisterReads
  intro s hp hb
  refine ⟨⟨s.status.toWord, ?_, ?_⟩, ?_, s.errinfo.toWord, ?_, fields_errinfo s.errinfo⟩
  · rw [← readStatus_idle hb]
    exact (hostRead_reg hp .status).trans (by rw [readLoc_idle hb]; rfl)
  · simp only [getLsbD_status, hb]
    refine ⟨by simp, by simp, by simp, by simp, by simp, by simp, by simp, errcode_status _, reserved_status _⟩
  · exact (hostRead_reg hp .framecnt).trans (by rw [readLoc_idle hb]; rfl)
  · exact (hostRead_reg hp .errinfo).trans (by rw [readLoc_idle hb]; rfl)

/-- Settles O22, by the two cases of a CFG write. -/
theorem cfgWrite : Obligations.CfgWrite := by
  unfold Obligations.CfgWrite
  intro s v hp hb
  have hwrite : hostWrite (s.params.base + 0x008) 4 v s = .next (writeCfg v s) := by
    rw [show s.params.base + 0x008 = s.params.base + GlobalReg.offset .cfg from rfl, hostWrite_reg hp, writeLoc_idle hb]
    rfl
  rw [hwrite]
  refine ⟨fun hs => ?_, fun hs hv => ?_, fun hs hv => ⟨_, rfl, ?_⟩, s.cfg.toWord, ?_, ?_⟩
  · rcases writeCfg_cases v s with ⟨-, hw⟩ | ⟨hs', -⟩
    · rw [hw]
    · simp [hs] at hs'
  · rcases writeCfg_cases v s with ⟨-, hw⟩ | ⟨-, hv', -⟩
    · rw [hw, hv]
    · exact absurd hv hv'
  · rcases writeCfg_cases v s with ⟨hc, -⟩ | ⟨-, -, u, rfl, hw⟩
    · exact absurd ⟨hs, hv⟩ hc
    · rw [hw]
      simp
  · exact (hostRead_reg hp .cfg).trans (by rw [readLoc_idle hb]; rfl)
  · simp only [bit_eq_getLsbD, getLsbD_cfg]
    exact ⟨by simp, by simp, by simp, reserved_cfg _⟩

/-- Settles O24. -/
theorem statusWriteOneToClear : Obligations.StatusWriteOneToClear := by
  unfold Obligations.StatusWriteOneToClear
  intro s v hp
  rw [show s.params.base + 0x00C = s.params.base + GlobalReg.offset .status from rfl, hostWrite_reg hp, writeLoc_status,
    writeStatus_eq]
  rfl

/-! ## Item accesses (R30, R51) -/

/-- Settles O28. -/
theorem itemAccess : Obligations.ItemAccess := by
  unfold Obligations.ItemAccess
  intro s c it i v hp hb hc hi
  have hl := locate_item hp hc hi
  refine ⟨fun hw => ⟨(s.setItems c it i [v]).mem, ?_, ?_, fun x hx => ?_⟩, fun hw => ?_, fun w hw => ?_, fun hn => ?_⟩
  · rw [hostWrite_ok hl, writeLoc_idle hb, storeLoc, if_pos hw]
    rfl
  · have h := item_setItems_same (s := s) (c := c) (it := it) (i0 := i) (ws := [v]) le_rfl (by simp)
    rwa [Nat.sub_self] at h
  · exact byte_store_outside hx
  · rw [hostWrite_ok hl, writeLoc_idle hb, storeLoc, if_neg (by simp [hw])]
  · rw [hostRead_ok hl, readLoc_idle hb, currentValue, hw]
  · rw [hostRead_ok hl, readLoc_idle hb, currentValue, hn]
    rfl

/-! ## The places of the fields (R30, R35 to R46) -/

/-- Where the fields of the register items lie. -/
theorem fields_places (v : Word) :
    icsOfWord v = { seq := (v.extractLsb' 0 2).toNat, shape := (v.extractLsb' 4 1).toNat,
                    maxSfb := (v.extractLsb' 8 6).toNat, numSwb := (v.extractLsb' 16 6).toNat,
                    ngroups := (v.extractLsb' 24 4).toNat } ∧
    (∀ g < 8, groupLenField g v = (v.extractLsb' (4 * g) 4).toNat) ∧
    tnsCtrlOfWord v = { present := v.getLsbD 0, maxOrder := (v.extractLsb' 8 5).toNat,
                        maxBands := (v.extractLsb' 16 6).toNat } ∧
    tnsWindowOfWord v = { nfilt := (v.extractLsb' 0 2).toNat, coefRes := (v.extractLsb' 4 1).toNat } ∧
    tnsFilterOfWord v = { length := (v.extractLsb' 0 6).toNat, order := (v.extractLsb' 8 5).toNat, down := v.getLsbD 16,
                          compress := (v.extractLsb' 17 1).toNat } := by
  unfold icsOfWord groupLenField tnsCtrlOfWord tnsWindowOfWord tnsFilterOfWord
  simp only [bits_eq_extractLsb', bit_eq_getLsbD, true_and, and_true]
  intro g _
  rw [show 4 * g + 3 + 1 - 4 * g = 4 by omega]

theorem readBandType_ok {c g sfb : Nat} {s : State} {t : Nat} :
    readBandType c g sfb s = .ok t ↔ ∃ v, s.item? c .bandType (64 * g + sfb) = some v ∧ v.toNat = t := by
  unfold readBandType Config.sfbCap
  simp only [except_bind_ok, readItem_ok, except_pure_ok, Nat.mul_comm g]

theorem readSf_ok {c g sfb : Nat} {s : State} {p : Int} :
    readSf c g sfb s = .ok p ↔ ∃ v, s.item? c .sf (64 * g + sfb) = some v ∧ v.toInt = p := by
  unfold readSf Config.sfbCap
  simp only [except_bind_ok, readItem_ok, except_pure_ok, Nat.mul_comm g]

theorem readMsUsed_ok {a g sfb : Nat} {s : State} {u : Bool} :
    readMsUsed a g sfb s = .ok u ↔ ∃ v, s.item? a .msUsed (2 * g + sfb / 32) = some v ∧ bit (sfb % 32) v = u := by
  unfold readMsUsed
  simp only [except_bind_ok, readItem_ok, except_pure_ok]

theorem readCoef_ok {c w f i : Nat} {s : State} {ci : Int} :
    readCoef c w f i s = .ok ci ↔ ∃ v, s.item? c .tnsCoef ((4 * w + f) * 32 + i) = some v ∧ v.toInt = ci := by
  unfold readCoef
  simp only [except_bind_ok, readItem_ok, except_pure_ok]

@[simp] theorem isShort_iff (ics : Ics) : ics.isShort = true ↔ ics.seq = 2 := by simp [Ics.isShort]

theorem coefInRange_iff (n : Nat) (ci : Int) :
    coefInRange n ci = true ↔ -(2 ^ (n - 1) : Int) ≤ ci ∧ ci ≤ 2 ^ (n - 1) - 1 := by simp [coefInRange]

/-- Settles O29. -/
theorem fieldLayout : Obligations.FieldLayout := by
  unfold Obligations.FieldLayout
  refine ⟨rfl, fields_places, fun s c v => ⟨fun h => ?_, fun g sfb h => ?_, fun g sfb h => ?_, fun g h j hh hj hw => ?_,
    fun w f i h => ?_⟩, fun ics => ⟨?_, ?_, fun fl => ?_⟩, fun ci => ⟨?_, ?_, ?_, ?_⟩⟩
  · exact readIcs_ok.mpr ⟨v, h, rfl⟩
  · exact readBandType_ok.mpr ⟨v, h, rfl⟩
  · exact readSf_ok.mpr ⟨v, h, rfl⟩
  · have e1 : (32 * h + j) / 32 = h := by omega
    have e2 : (32 * h + j) % 32 = j := by omega
    exact readMsUsed_ok.mpr ⟨v, by rw [e1]; exact hw, by rw [e2, bit_eq_getLsbD]⟩
  · exact readCoef_ok.mpr ⟨v, by rw [Nat.mul_comm (4 * w + f)]; exact h, rfl⟩
  · simp only [tnsOrderCap, isShort_iff, Config.tnsOrderCapShort, Config.tnsOrderCapLong]
  · simp only [tnsFilterCap, isShort_iff]
  · simp only [TnsLimits, isShort_iff]
  · exact coefInRange_iff 3 ci
  · exact coefInRange_iff 2 ci
  · exact coefInRange_iff 4 ci
  · exact coefInRange_iff 3 ci

end Sys2Proof.Machine
end

section
/-! What an accepted command does, by its body: the stops it can meet and what they make of it (60_exceptions.md R200, R201, R203;
10_state.md R51). -/

namespace Sys2Proof.Machine

/-! ## Sequencing of checks -/

@[simp] theorem except_ok_bind {ε α β : Type} (a : α) (f : α → Except ε β) : ((.ok a : Except ε α) >>= f) = f a := rfl

/-! ## The body of a command -/

/-- What command `i` does once it is past the checks of R203 and R205. -/
def commandBody (i : Instr) (s : State) : Except Stop State :=
  match i with
  | .nop => .ok s
  | .iq c => iqBody c s
  | .ms a b => msBody a b s
  | .is a b => isBody a b s
  | .tns c => tnsBody c s
  | .fb c => fbBody c s
  | .fend => .ok { s with framecnt := s.framecnt + 1#32 }
  | .srst => .ok (softReset s)

section
variable {i : Instr} {s : State}

theorem badChannelC_eq_none {c : Nat} : badChannelC c s = none ↔ c < s.params.nch := ⟨lt_of_badChannelC, badChannelC_none⟩

theorem badChannelP_eq_none {a b : Nat} : badChannelP a b s = none ↔ a < s.params.nch ∧ b < s.params.nch ∧ a ≠ b :=
  ⟨lt_of_badChannelP, fun ⟨ha, hb, hab⟩ => badChannelP_none ha hb hab⟩

/-- Every command is its body in the common shape (R203); FEND and SRST, which alone are exempt from FATAL (R205), meet no stop. -/
theorem exec_eq_runCommand (i : Instr) (s : State) :
    ∃ fe bad, exec i s = runCommand i fe bad (commandBody i s) s ∧ (fe = true → ∃ t, commandBody i s = .ok t) ∧
      (s.status.fatal = false → (bad = none ↔ Accepted i s)) := by
  have accepted : ∀ {p q : Prop}, (p ↔ q) → s.status.fatal = false → (p ↔ s.status.fatal = false ∧ q) :=
    fun h hf => h.trans (iff_and_self.mpr fun _ => hf)
  cases i with
  | nop => exact ⟨false, none, rfl, fun h => (by simp at h), accepted (iff_of_true rfl trivial)⟩
  | iq c => exact ⟨false, badChannelC c s, rfl, fun h => (by simp at h), accepted badChannelC_eq_none⟩
  | ms a b => exact ⟨false, badChannelP a b s, rfl, fun h => (by simp at h), accepted badChannelP_eq_none⟩
  | is a b => exact ⟨false, badChannelP a b s, rfl, fun h => (by simp at h), accepted badChannelP_eq_none⟩
  | tns c => exact ⟨false, badChannelC c s, rfl, fun h => (by simp at h), accepted badChannelC_eq_none⟩
  | fb c => exact ⟨false, badChannelC c s, rfl, fun h => (by simp at h), accepted badChannelC_eq_none⟩
  | fend => exact ⟨true, none, rfl, fun _ => ⟨_, rfl⟩, accepted (iff_of_true rfl trivial)⟩
  | srst => exact ⟨true, none, rfl, fun _ => ⟨_, rfl⟩, accepted (iff_of_true rfl trivial)⟩

theorem exec_accepted (h : Accepted i s) : ∃ fe, exec i s = runCommand i fe none (commandBody i s) s := by
  obtain ⟨fe, bad, hx, -, hbad⟩ := exec_eq_runCommand i s
  obtain rfl := (hbad h.1).mpr h
  exact ⟨fe, hx⟩

theorem exec_raised (h : Accepted i s) {e : ErrCode} {ch d : Nat} (hb : commandBody i s = .error (.raise e ch d)) :
    exec i s = raised e ch d s := by
  obtain ⟨fe, hx⟩ := exec_accepted h
  rw [hx, hb, runCommand_raise (by simp [h.1])]
  rfl

theorem exec_unwritten (h : Accepted i s) {a : Nat} (hb : commandBody i s = .error (.unwritten a)) :
    exec i s = .fault (.unwrittenRead i a) := by
  obtain ⟨fe, hx⟩ := exec_accepted h
  rw [hx, hb, runCommand, if_neg (by simp [h.1])]

/-- A fault is that of an accepted command whose body meets a never-written word (R51). -/
theorem exec_fault {x : Fault} (h : exec i s = .fault x) :
    Accepted i s ∧ ∃ a, commandBody i s = .error (.unwritten a) ∧ x = .unwrittenRead i a := by
  obtain ⟨fe, bad, hx, hexempt, hbad⟩ := exec_eq_runCommand i s
  rcases runCommand_cases (i := i) (fe := fe) (bad := bad) (body := commandBody i s) (s := s) with
    ⟨-, -, hr⟩ | ⟨hf, ⟨y, -, hr⟩ | ⟨hnone, ⟨t', -, hr⟩ | ⟨e, ch, d, -, hr⟩ | ⟨a, hb, hr⟩⟩⟩ <;>
    cases hr.symm.trans (hx.symm.trans h)
  have hfe : fe = false := by
    by_contra hc
    obtain ⟨t, ht⟩ := hexempt (by simpa using hc)
    rw [ht] at hb
    cases hb
  exact ⟨(hbad (by simpa [hfe] using hf)).mp hnone, a, hb, rfl⟩

/-- No command is refused. -/
theorem exec_next_or_fault (i : Instr) (s : State) : (∃ t, exec i s = .next t) ∨ ∃ x, exec i s = .fault x := by
  obtain ⟨fe, bad, hx, -⟩ := exec_eq_runCommand i s
  rw [hx]
  rcases runCommand_cases (i := i) (fe := fe) (bad := bad) (body := commandBody i s) (s := s) with
    ⟨-, -, hr⟩ | ⟨-, ⟨y, -, hr⟩ | ⟨-, ⟨t', -, hr⟩ | ⟨e, ch, d, -, hr⟩ | ⟨a, -, hr⟩⟩⟩ <;> rw [hr]
  · exact .inl ⟨_, rfl⟩
  · exact .inl ⟨_, rfl⟩
  · exact .inl ⟨_, rfl⟩
  · exact .inl ⟨_, rfl⟩
  · exact .inr ⟨_, rfl⟩

/-- How the body of a command stops: with an error, or at a never-written word of an item its rule reads. -/
theorem commandBody_stop {e : Stop} (h : commandBody i s = .error e) : StopIn (Instr.readItems i) s e := by
  cases i with
  | nop => cases h
  | iq c => exact iqBody_stop h
  | ms a b => exact msBody_stop h
  | is a b => exact isBody_stop h
  | tns c => exact tnsBody_stop h
  | fb c => exact fbBody_stop h
  | fend => cases h
  | srst => cases h

end

end Sys2Proof.Machine
end

section
/-! The predicates on side information: windows, band tables and pairs, and the errors they raise (10_state.md R47, R53 to R56;
42_stereo.md R122; 43_tns.md R148): O35 to O38. -/

namespace Sys2Proof.Machine

/-! ## Windows (R47, R53) -/

/-- The group lengths a command takes from a written GROUP_LEN: of the groups there are, and no more than eight. -/
theorem readGroupLens_glenIs {c : Nat} {s : State} {glen : Nat → Nat} (h : GlenIs c s glen) (n : Nat) :
    readGroupLens c n s = .ok ((List.range (min n 8)).map glen) := by
  obtain ⟨w, hw, hg⟩ := h
  unfold readGroupLens
  split
  · rename_i hn
    rw [hn]
    rfl
  · rw [readItem_ok.mpr hw]
    exact congrArg (Except.ok <| List.map · (List.range (min n 8))) (funext hg)

/-- The test of a command on the group lengths is `window_ok`. -/
theorem groupingOk_iff (n : Nat) (glen : Nat → Nat) :
    groupingOk n ((List.range (min n 8)).map glen) = true ↔
      1 ≤ n ∧ n ≤ 8 ∧ (∀ g < n, 1 ≤ glen g) ∧ ((List.range n).map glen).sum = 8 := by
  unfold groupingOk
  simp only [Bool.and_eq_true, decide_eq_true_eq, List.all_eq_true, List.mem_map, List.mem_range, forall_exists_index,
    and_imp, forall_apply_eq_imp_iff₂, beq_iff_eq, and_assoc]
  refine and_congr_right fun _ => and_congr_right fun h8 => ?_
  rw [min_eq_left h8]

theorem readWindows_long {c : Nat} {s : State} {ics : Ics} (h : ics.seq ≠ 2) :
    readWindows c ics s = .ok { len := s.frameLen, count := 1, glen := [1] } := by
  unfold readWindows
  rw [if_neg (by simpa using h)]

section
variable {c : Nat} {s : State} {ics : Ics} {glen : Nat → Nat}

theorem readWindows_short (h : GlenIs c s glen) (hs : ics.seq = 2) :
    (WindowOk ics glen → readWindows c ics s =
      .ok { len := s.frameLen / 8, count := 8, glen := (List.range ics.ngroups).map glen }) ∧
    (¬WindowOk ics glen → readWindows c ics s = .error (.raise .badWindow c 0)) := by
  have hok : WindowOk ics glen ↔ groupingOk ics.ngroups ((List.range (min ics.ngroups 8)).map glen) = true := by
    rw [groupingOk_iff]
    exact or_iff_right (not_not_intro hs)
  unfold readWindows
  rw [if_pos (by simpa using hs), readGroupLens_glenIs h, except_ok_bind]
  refine ⟨fun hw => ?_, fun hw => if_neg (hok.not.mp hw)⟩
  have hg := hok.mp hw
  rw [if_pos hg, min_eq_left ((groupingOk_iff _ _).mp hg).2.1]
  rfl

theorem readWindows_badWindow (h : GlenIs c s glen) (hw : ¬WindowOk ics glen) :
    readWindows c ics s = .error (.raise .badWindow c 0) :=
  (readWindows_short h (not_not.mp fun hs => hw (.inl hs))).2 hw

end

/-- Settles O35. -/
theorem windowPredicate : Obligations.WindowPredicate := by
  unfold Obligations.WindowPredicate
  exact fun c s ics => ⟨readWindows_long, fun glen h hs => readWindows_short h hs⟩

/-! ## Band tables (R54, R55) -/

theorem getD_map_range (f : Nat → Nat) {n i : Nat} (h : i < n) : ((List.range n).map f).getD i 0 = f i := by
  rw [List.getD_eq_getElem?_getD, List.getElem?_map, List.getElem?_range h]
  rfl

theorem readSwb_swbIs {c n : Nat} {s : State} {swb : Nat → Nat} (h : SwbIs c n s swb) :
    readSwb c n s = .ok ((List.range (n + 1)).map swb) := by
  refine checkAll_map fun i hi => ?_
  obtain ⟨w, hw, he⟩ := h i (Nat.lt_succ_iff.mp (List.mem_range.mp hi))
  rw [readItem_ok.mpr hw, ← he]
  rfl

/-- The test of a command on the band table is `sfb_ok`. -/
theorem sfbOk_iff (ics : Ics) (winLen : Nat) (swb : Nat → Nat) :
    sfbOk ics.maxSfb ics.numSwb winLen ((List.range (ics.numSwb + 1)).map swb) = true ↔ SfbOk ics winLen swb := by
  unfold sfbOk SfbOk
  simp only [Bool.and_eq_true, decide_eq_true_eq, beq_iff_eq, List.all_eq_true, List.mem_range, and_assoc]
  rw [getD_map_range swb (by omega), getD_map_range swb (by omega)]
  refine and_congr_right fun _ => and_congr_right fun _ => and_congr_left fun _ => forall₂_congr fun i hi => ?_
  rw [getD_map_range swb (by omega), getD_map_range swb (by omega)]

theorem readBands_swbIs {c : Nat} {s : State} {ics : Ics} {win : Windows} {swb : Nat → Nat}
    (h : SwbIs c ics.numSwb s swb) :
    (SfbOk ics win.len swb → readBands c ics win s = .ok ((List.range (ics.numSwb + 1)).map swb)) ∧
    (¬SfbOk ics win.len swb → readBands c ics win s = .error (.raise .badSfb c 0)) := by
  unfold readBands
  rw [readSwb_swbIs h, except_ok_bind, ← sfbOk_iff]
  exact ⟨fun hs => if_pos hs, fun hs => if_neg hs⟩

section
variable {ics : Ics} {winLen k : Nat} {swb : List Nat}

/-- A table that `sfb_ok` holds of, cut to the elements that are read, is a legal one (R54). -/
theorem bandsGood_of_sfbOk (h : SfbOk ics winLen fun i => swb.getD i 0) :
    BandsGood { len := winLen, count := 1, glen := [1] } ics ((List.range (ics.numSwb + 1)).map fun i => swb.getD i 0) := by
  obtain ⟨hfew, hzero, hrising, hlast⟩ := h
  refine ⟨by simp, hfew, ?_, fun i hi => ?_, ?_⟩
  · rw [getD_map_range _ (by omega)]; exact hzero
  · rw [getD_map_range _ (by omega), getD_map_range _ (by omega)]; exact hrising i hi
  · rw [getD_map_range _ (by omega)]; exact hlast

/-- The band of a bin depends on the elements up to `max_sfb` only. -/
theorem bandOf_cut {maxSfb n : Nat} (h : maxSfb < n) :
    bandOf ((List.range n).map fun i => swb.getD i 0) maxSfb k = bandOf swb maxSfb k := by
  unfold bandOf
  refine List.find?_congr fun b hb => ?_
  have hb := List.mem_range.mp hb
  rw [getD_map_range _ (by omega), getD_map_range _ (by omega)]

/-- The bins below the table's element `max_sfb` are those of its bands (R55). -/
theorem bandOf_eq_none {win : Windows} (h : BandsGood win ics swb) :
    bandOf swb ics.maxSfb k = none ↔ swb.getD ics.maxSfb 0 ≤ k := by
  have hfew := h.few
  have hnone : bandOf swb ics.maxSfb k = none ↔ ∀ b < ics.maxSfb, swb.getD b 0 ≤ k → swb.getD (b + 1) 0 ≤ k := by
    unfold bandOf
    simp only [List.find?_eq_none, List.mem_range, Bool.and_eq_true, decide_eq_true_eq, not_and, not_lt]
  rw [hnone]
  constructor
  · intro hb
    have key : ∀ m ≤ ics.maxSfb, swb.getD m 0 ≤ k := by
      intro m
      induction m with
      | zero => intro _; rw [h.zero]; exact Nat.zero_le k
      | succ m ih => exact fun hm => hb m hm (ih (by omega))
    exact key _ le_rfl
  · exact fun hk b hb _ => le_trans (h.mono hb hfew) hk

end

/-- Settles O36. -/
theorem bandTable : Obligations.BandTable := by
  unfold Obligations.BandTable
  refine ⟨fun c s ics win swb h => readBands_swbIs h, fun ics winLen swb k h => ?_⟩
  have hgood := bandsGood_of_sfbOk h
  have hfew := h.1
  rw [← bandOf_cut (swb := swb) (show ics.maxSfb < ics.numSwb + 1 by omega)]
  refine ⟨fun sfb => ?_, ?_⟩
  · rw [bandOf_eq_some hgood]
    refine and_congr_right fun hb => ?_
    rw [getD_map_range _ (by omega), getD_map_range _ (by omega)]
  · rw [bandOf_eq_none hgood, getD_map_range _ (by omega)]

/-! ## Pairs (R56) -/

/-- A field of GROUP_LEN past the eighth reads 0: R36 has no such field (log 24). -/
theorem groupLenField_of_eight_le {g : Nat} (hg : 8 ≤ g) (w : Word) : groupLenField g w = 0 := by
  unfold groupLenField bits
  rw [Nat.div_eq_of_lt, Nat.zero_mod]
  exact lt_of_lt_of_le w.isLt (Nat.pow_le_pow_right (by decide) (by omega))

theorem map_range_eq_iff (f g : Nat → Nat) (n : Nat) : (List.range n).map f = (List.range n).map g ↔ ∀ i < n, f i = g i := by
  simp only [List.map_inj_left, List.mem_range]

section
variable {a b : Nat} {s : State} {ia ib : Ics} {swbA swbB glenA glenB : Nat → Nat}

/-- Group lengths that agree in the fields there are agree. -/
theorem glenIs_agree {n : Nat} (ha : GlenIs a s glenA) (hb : GlenIs b s glenB) :
    (∀ g < min n 8, glenA g = glenB g) ↔ ∀ g < n, glenA g = glenB g := by
  obtain ⟨wa, -, ha⟩ := ha
  obtain ⟨wb, -, hb⟩ := hb
  refine ⟨fun h g hg => ?_, fun h g hg => h g (by omega)⟩
  by_cases h8 : g < 8
  · exact h g (by omega)
  · rw [← ha, ← hb, groupLenField_of_eight_le (by omega), groupLenField_of_eight_le (by omega)]

/-- The test of a command on a pair is `pair_ok`. -/
theorem readPairOk_eq (hta : SwbIs a ia.numSwb s swbA) (htb : SwbIs b ib.numSwb s swbB)
    (hga : ia.seq = 2 → GlenIs a s glenA) (hgb : ib.seq = 2 → GlenIs b s glenB) :
    ∃ ok : Bool, readPairOk a b ia ib s = .ok ok ∧ (ok = true ↔ PairOk ia ib swbA swbB glenA glenB) := by
  unfold readPairOk PairOk
  by_cases hh : ia.seq = ib.seq ∧ ia.maxSfb = ib.maxSfb ∧ ia.numSwb = ib.numSwb
  swap
  · exact ⟨false, if_neg hh, ⟨fun h => by simp at h, fun ⟨h1, h2, h3, _⟩ => absurd ⟨h1, h2, h3⟩ hh⟩⟩
  obtain ⟨hseq, hmax, hnum⟩ := hh
  have htab : (∀ i ≤ ia.numSwb, swbA i = swbB i) ↔
      (List.range (ia.numSwb + 1)).map swbA = (List.range (ia.numSwb + 1)).map swbB := by
    simp only [map_range_eq_iff, Nat.lt_succ_iff]
  rw [if_pos ⟨hseq, hmax, hnum⟩, readSwb_swbIs hta, readSwb_swbIs htb, except_ok_bind, except_ok_bind, ← hnum]
  by_cases hs : ia.seq = 2
  swap
  · rw [if_neg (by simpa using hs)]
    refine ⟨_, rfl, ?_⟩
    rw [beq_iff_eq, ← htab]
    exact ⟨fun h => ⟨hseq, hmax, rfl, h, fun h2 => absurd h2 hs⟩, fun ⟨_, _, _, h, _⟩ => h⟩
  rw [if_pos (by simpa using hs)]
  have ha := hga hs
  have hb := hgb (hseq ▸ hs)
  by_cases hn : ia.ngroups = ib.ngroups
  swap
  · rw [if_neg hn]
    exact ⟨false, rfl, by simp [hs, hn]⟩
  rw [if_pos hn, readGroupLens_glenIs ha, readGroupLens_glenIs hb, except_ok_bind, except_ok_bind, ← hn]
  refine ⟨_, rfl, ?_⟩
  rw [Bool.and_eq_true, beq_iff_eq, beq_iff_eq, ← htab, map_range_eq_iff, glenIs_agree ha hb]
  exact ⟨fun ⟨h1, h2⟩ => ⟨hseq, hmax, rfl, h1, fun _ => ⟨rfl, h2⟩⟩, fun ⟨_, _, _, h1, h2⟩ => ⟨h1, (h2 hs).2⟩⟩

end

/-! ## The errors they raise (R53, R54, R56, R122, R148) -/

section
variable {a b c : Nat} {s : State} {e : Stop}

/-- A stop of the pair checks is one of MS and of IS. -/
theorem msBody_of_pairChecks (h : pairChecks a b s = .error e) : msBody a b s = .error e := by
  rw [msBody, h]; rfl

theorem isBody_of_pairChecks (h : pairChecks a b s = .error e) : isBody a b s = .error e := by
  rw [isBody, h]; rfl

/-- TNS with TNS data present is its checks and writes. -/
theorem tnsBody_present {v : Word} (hv : s.item? c .tnsCtrl 0 = some v) (hp : (tnsCtrlOfWord v).present = true) :
    tnsBody c s = tnsFilterBody c (tnsCtrlOfWord v) s := by
  rw [tnsBody, readItem_ok.mpr hv, except_ok_bind, if_pos hp]

/-- The checks of slot `c`'s windows and band table, which IQ, TNS and, on the left slot, the pair checks begin with, stop with `e`
(R105, R122, R148). -/
def SideStops (c : Nat) (ics : Ics) (s : State) (e : Stop) : Prop :=
  (readWindows c ics s >>= fun win => readBands c ics win s) = .error e

theorem sideStops_iff {ics : Ics} : SideStops c ics s e ↔ readWindows c ics s = .error e ∨
    ∃ win, readWindows c ics s = .ok win ∧ readBands c ics win s = .error e := except_bind_error

theorem iqBody_of_sideStops {ics : Ics} (hi : readIcs c s = .ok ics) (h : SideStops c ics s e) : iqBody c s = .error e := by
  rw [iqBody, hi, except_ok_bind]
  rcases sideStops_iff.mp h with h | ⟨win, hw, h⟩
  · rw [h]; rfl
  · rw [hw, except_ok_bind, h]; rfl

theorem tnsFilterBody_of_sideStops {ics : Ics} (ctrl : TnsCtrl) (hi : readIcs c s = .ok ics) (h : SideStops c ics s e) :
    tnsFilterBody c ctrl s = .error e := by
  rw [tnsFilterBody, hi, except_ok_bind]
  rcases sideStops_iff.mp h with h | ⟨win, hw, h⟩
  · rw [h]; rfl
  · rw [hw, except_ok_bind, h]; rfl

theorem pairChecks_of_sideStops {ia ib : Ics} (hia : readIcs a s = .ok ia) (hib : readIcs b s = .ok ib)
    (hp : readPairOk a b ia ib s = .ok true) (h : SideStops a ia s e) : pairChecks a b s = .error e := by
  rw [pairChecks, hia, except_ok_bind, hib, except_ok_bind, hp, except_ok_bind, if_neg (by simp)]
  rcases sideStops_iff.mp h with h | ⟨win, hw, h⟩
  · rw [h]; rfl
  · rw [hw, except_ok_bind, h]; rfl

/-- What stops at the windows or the band table with an error makes IQ, TNS, MS and IS raise it. -/
theorem raised_of_sideStops {ics : Ics} {code : ErrCode} (hf : s.status.fatal = false) (hc : c < s.params.nch)
    (hi : readIcs c s = .ok ics) (h : SideStops c ics s (.raise code c 0)) :
    exec (.iq c) s = raised code c 0 s ∧
    (∀ v, s.item? c .tnsCtrl 0 = some v → (tnsCtrlOfWord v).present = true → exec (.tns c) s = raised code c 0 s) ∧
    ∀ (b : Nat) (ib : Ics), b < s.params.nch → c ≠ b → readIcs b s = .ok ib → readPairOk c b ics ib s = .ok true →
      exec (.ms c b) s = raised code c 0 s ∧ exec (.is c b) s = raised code c 0 s := by
  refine ⟨exec_raised (i := .iq c) ⟨hf, hc⟩ (iqBody_of_sideStops hi h),
    fun v hv hp => exec_raised (i := .tns c) ⟨hf, hc⟩ ?_,
    fun b ib hb hne hib hp => ?_⟩
  · exact (tnsBody_present hv hp).trans (tnsFilterBody_of_sideStops _ hi h)
  · have hpair := pairChecks_of_sideStops hi hib hp h
    exact ⟨exec_raised (i := .ms c b) ⟨hf, hc, hb, hne⟩ (msBody_of_pairChecks hpair),
      exec_raised (i := .is c b) ⟨hf, hc, hb, hne⟩ (isBody_of_pairChecks hpair)⟩

end

/-- Settles O37: the test on a pair is `pair_ok`, and where it fails the pair checks stop with BAD_PAIR. -/
theorem pairPredicate : Obligations.PairPredicate := by
  unfold Obligations.PairPredicate
  intro a b s ia ib swbA swbB glenA glenB hia hib hta htb hga hgb
  obtain ⟨ok, hread, hok⟩ := readPairOk_eq hta htb hga hgb
  refine ⟨fun hp => by rw [hread, hok.mpr hp], fun hp => ?_⟩
  obtain rfl : ok = false := by simpa using hok.not.mpr hp
  refine ⟨hread, fun hf ha hb hab => ?_⟩
  have hpair : pairChecks a b s = .error (.raise .badPair a 0) := by
    rw [pairChecks, hia, except_ok_bind, hib, except_ok_bind, hread]
    rfl
  exact ⟨exec_raised (i := .ms a b) ⟨hf, ha, hb, hab⟩ (msBody_of_pairChecks hpair),
    exec_raised (i := .is a b) ⟨hf, ha, hb, hab⟩ (isBody_of_pairChecks hpair)⟩

/-- Settles O38. -/
theorem sideInfoErrorsRaised : Obligations.SideInfoErrorsRaised := by
  unfold Obligations.SideInfoErrorsRaised
  intro s c ics hf hc hi
  exact ⟨fun glen hg hw => raised_of_sideStops hf hc hi (sideStops_iff.mpr (.inl (readWindows_badWindow hg hw))),
    fun win swb hw ht hs => raised_of_sideStops hf hc hi (sideStops_iff.mpr (.inr ⟨win, hw, (readBands_swbIs ht).2 hs⟩))⟩

end Sys2Proof.Machine
end

section
/-! Where a check loop stops, and which stops are reads of never-written words (00_scope.md R10; 10_state.md R51). -/

namespace Sys2Proof.Machine

/-! ## Loops in order -/

section
variable {α β γ : Type} {f : α → Except Stop β} {xs : List α} {e : Stop}

/-- A loop stops at the element that stops, when every element before it in the loop's order passes. -/
theorem checkAll_stops {R : α → α → Prop} {x : α} (hR : xs.Pairwise R) (hx : x ∈ xs)
    (hbefore : ∀ y ∈ xs, R y x → ∃ z, f y = .ok z) (he : f x = .error e) : checkAll f xs = .error e := by
  obtain ⟨pre, post, rfl⟩ := List.append_of_mem hx
  rw [List.pairwise_append] at hR
  exact checkAll_first (fun y hy => hbefore y (by simp [hy]) (hR.2.2 y hy x (by simp))) he

/-- The element a loop stops at, every element before it in the loop's order having passed. -/
theorem checkAll_stops_at {R : α → α → Prop} (hR : xs.Pairwise R) (hasymm : ∀ x y, R x y → ¬R y x)
    (h : checkAll f xs = .error e) : ∃ x ∈ xs, f x = .error e ∧ ∀ y ∈ xs, R y x → ∃ z, f y = .ok z := by
  induction xs with
  | nil => cases h
  | cons x xs ih =>
    obtain ⟨hx, hR⟩ := List.pairwise_cons.mp hR
    cases hfx : f x with
    | error e' =>
      obtain rfl : e' = e := by simpa [checkAll, hfx] using h
      refine ⟨x, by simp, hfx, fun y hy hyx => ?_⟩
      rcases List.mem_cons.mp hy with rfl | hy
      · exact absurd hyx (hasymm _ _ hyx)
      · exact absurd hyx (hasymm _ _ (hx y hy))
    | ok z =>
      have h' : checkAll f xs = .error e := by
        cases hxs : checkAll f xs with
        | error e' => simpa [checkAll, hfx, hxs] using h
        | ok zs => simp [checkAll, hfx, hxs] at h
      obtain ⟨y, hy, hfy, hbefore⟩ := ih hR h'
      refine ⟨y, by simp [hy], hfy, fun u hu huy => ?_⟩
      rcases List.mem_cons.mp hu with rfl | hu
      · exact ⟨z, hfx⟩
      · exact hbefore u hu huy

theorem checkAll_map_list (g : γ → α) (ys : List γ) : checkAll f (ys.map g) = checkAll (fun y => f (g y)) ys := by
  induction ys with
  | nil => rfl
  | cons y ys ih => simp only [List.map_cons, checkAll, ih]

end

/-- The elements of an item with their positions (R33). -/
theorem array_zipIdx (s : State) (c : Nat) (it : Item) {n : Nat} (hn : n ≤ 1024) :
    (s.array c it n).zipIdx = (List.range n).map fun i => (s.item? c it i, i) := by
  rw [array_eq s c it hn, List.zipIdx_map]
  rw [show (List.range n).zipIdx = (List.range n).map fun i => (i, i) from
    List.ext_getElem (by simp) fun i h1 h2 => by simp]
  rw [List.map_map]
  rfl

/-- A frame is read element by element. -/
theorem readFrame_eq (c : Nat) (it : Item) (s : State) :
    readFrame c it s = checkAll (fun i => s.readItem c it i) (List.range s.frameLen) := by
  unfold readFrame
  rw [array_zipIdx s c it (frameLen_le s), checkAll_map_list]
  rfl

/-! ## Bands in order -/

theorem BandBefore.asymm {g sfb g' sfb' : Nat} (h : BandBefore g sfb g' sfb') : ¬BandBefore g' sfb' g sfb := by
  unfold BandBefore at *
  omega

/-- The bands come in g-major, sfb-minor order (R105). -/
theorem bandList_pairwise (groups maxSfb : Nat) :
    (bandList groups maxSfb).Pairwise fun x y => BandBefore x.1 x.2 y.1 y.2 := by
  unfold bandList
  rw [List.pairwise_flatMap]
  constructor
  · intro g _
    rw [List.pairwise_map]
    exact List.pairwise_lt_range.imp fun h => .inr ⟨rfl, h⟩
  · refine List.pairwise_lt_range.imp fun {g g'} h => ?_
    simp only [List.mem_map]
    rintro _ ⟨b, -, rfl⟩ _ ⟨b', -, rfl⟩
    exact .inl h

/-- So they do beside what a loop made of them. -/
theorem pairwise_zip {α β : Type} {R : α → α → Prop} {xs : List α} {ys : List β} (h : xs.Pairwise R)
    (hl : xs.length ≤ ys.length) : (xs.zip ys).Pairwise fun x y => R x.1 y.1 := by
  rw [← List.map_fst_zip hl, List.pairwise_map] at h
  exact h

/-! ## Stops at never-written words -/

section
variable {α β : Type}

/-- The check meets a never-written word. -/
def Faults (r : Except Stop α) : Prop := ∃ a, r = .error (.unwritten a)

/-- The check raises no error of the spec. -/
def Quiet (r : Except Stop α) : Prop := ∀ e ch d, r ≠ .error (.raise e ch d)

theorem quiet_ok (x : α) : Quiet (.ok x : Except Stop α) := fun _ _ _ h => by cases h

theorem Quiet.cases {r : Except Stop α} (h : Quiet r) : Faults r ∨ ∃ x, r = .ok x := by
  cases r with
  | ok x => exact .inr ⟨x, rfl⟩
  | error e =>
    cases e with
    | raise e ch d => exact absurd rfl (h e ch d)
    | unwritten a => exact .inl ⟨a, rfl⟩

theorem Faults.quiet {r : Except Stop α} (h : Faults r) : Quiet r := by
  obtain ⟨a, rfl⟩ := h
  intro _ _ _ h
  cases h

theorem Faults.bind {r : Except Stop α} (h : Faults r) (f : α → Except Stop β) : Faults (r >>= f) := by
  obtain ⟨a, rfl⟩ := h
  exact ⟨a, rfl⟩

/-- What reads on after a check that raises nothing meets a never-written word, if not in the check then after it. -/
theorem Quiet.faults_bind {r : Except Stop α} (h : Quiet r) {f : α → Except Stop β} (hf : ∀ x, r = .ok x → Faults (f x)) :
    Faults (r >>= f) := by
  rcases h.cases with h | ⟨x, rfl⟩
  · exact h.bind f
  · exact hf x rfl

theorem Quiet.bind {r : Except Stop α} (h : Quiet r) {f : α → Except Stop β} (hf : ∀ x, r = .ok x → Quiet (f x)) :
    Quiet (r >>= f) := by
  rcases h.cases with h | ⟨x, rfl⟩
  · exact (h.bind f).quiet
  · exact hf x rfl

theorem quiet_checkAll {f : α → Except Stop β} {xs : List α} (h : ∀ x ∈ xs, Quiet (f x)) : Quiet (checkAll f xs) := by
  intro e ch d he
  obtain ⟨x, hx, hfx⟩ := checkAll_error he
  exact h x hx e ch d hfx

/-- A loop in which no element before the unread one raises an error meets a never-written word. -/
theorem faults_checkAll {f : α → Except Stop β} {xs : List α} {R : α → α → Prop} {x : α} (hR : xs.Pairwise R) (hx : x ∈ xs)
    (hbefore : ∀ y ∈ xs, R y x → Quiet (f y)) (hf : Faults (f x)) : Faults (checkAll f xs) := by
  induction xs with
  | nil => simp at hx
  | cons y ys ih =>
    obtain ⟨hy, hR⟩ := List.pairwise_cons.mp hR
    have hquiet : Quiet (f y) := by
      rcases List.mem_cons.mp hx with rfl | hx
      · exact hf.quiet
      · exact hbefore y (by simp) (hy x hx)
    rcases hquiet.cases with ⟨a, ha⟩ | ⟨z, hz⟩
    · exact ⟨a, by simp [checkAll, ha]⟩
    · rcases List.mem_cons.mp hx with rfl | hx
      · obtain ⟨a, ha⟩ := hf
        rw [hz] at ha
        cases ha
      · obtain ⟨a, ha⟩ := ih hR hx fun u hu => hbefore u (by simp [hu])
        exact ⟨a, by simp [checkAll, hz, ha]⟩

/-- Passes none of which raises an error, on the states they lead through, one of which meets a never-written word there. -/
theorem faults_applyAll {σ : Type} {f : α → σ → Except Stop σ} {xs : List α} {Q : σ → Prop} {s : σ} {x : α}
    (hquiet : ∀ y ∈ xs, ∀ t, Q t → Quiet (f y t)) (hkeep : ∀ y ∈ xs, ∀ t t', Q t → f y t = .ok t' → Q t') (hs : Q s)
    (hx : x ∈ xs) (hf : ∀ t, Q t → Faults (f x t)) : Faults (applyAll f xs s) := by
  induction xs generalizing s with
  | nil => simp at hx
  | cons y ys ih =>
    rcases (hquiet y (by simp) s hs).cases with ⟨a, ha⟩ | ⟨t, ht⟩
    · exact ⟨a, by simp [applyAll, ha]⟩
    · rcases List.mem_cons.mp hx with rfl | hx
      · obtain ⟨a, ha⟩ := hf s hs
        rw [ht] at ha
        cases ha
      · obtain ⟨a, ha⟩ := ih (fun u hu => hquiet u (by simp [hu])) (fun u hu => hkeep u (by simp [hu]))
          (hkeep y (by simp) s t hs ht) hx
        exact ⟨a, by simp [applyAll, ht, ha]⟩

end

/-! ## The reads -/

/-- A relation on the words of memory holds of a never-written one, at byte offset `a`. -/
def UnwrittenIn (R : Nat → Item → Nat → Prop) (s : State) (a : Nat) : Prop :=
  ∃ c it k, R c it k ∧ s.item? c it k = none ∧ a = itemAddr c it k

theorem UnwrittenIn.imp {R R' : Nat → Item → Nat → Prop} {s : State} {a : Nat} (h : UnwrittenIn R s a)
    (hR : ∀ c it k, R c it k → R' c it k) : UnwrittenIn R' s a := by
  obtain ⟨c, it, k, hr, hn⟩ := h
  exact ⟨c, it, k, hR c it k hr, hn⟩

section
variable {s : State} {c : Nat} {it : Item} {k : Nat}

theorem readItem_unwritten (h : s.item? c it k = none) : s.readItem c it k = .error (.unwritten (itemAddr c it k)) :=
  readItem_error.mpr ⟨rfl, h⟩

theorem readItem_quiet (c : Nat) (it : Item) (k : Nat) (s : State) : Quiet (s.readItem c it k) := fun e ch d h => by
  cases (readItem_error.mp h).1

/-- A value made of one word is unread exactly where the word is. -/
theorem readItem_bind_error {α : Type} {f : Word → α} {e : Stop} :
    (s.readItem c it k >>= fun w => pure (f w)) = .error e ↔ e = .unwritten (itemAddr c it k) ∧ s.item? c it k = none := by
  rw [except_bind_error, readItem_error]
  exact or_iff_left fun ⟨_, _, h⟩ => except_pure_error h

theorem readItem_bind_quiet {α : Type} (f : Word → α) : Quiet (s.readItem c it k >>= fun w => pure (f w)) :=
  (readItem_quiet c it k s).bind fun _ _ => quiet_ok _

theorem readIcs_error {e : Stop} : readIcs c s = .error e ↔ e = .unwritten (itemAddr c .icsInfo 0) ∧ s.item? c .icsInfo 0 = none :=
  readItem_bind_error

theorem readIcs_quiet (c : Nat) (s : State) : Quiet (readIcs c s) := readItem_bind_quiet _

variable {g sfb : Nat}

theorem readBandType_error {e : Stop} : readBandType c g sfb s = .error e ↔
    e = .unwritten (itemAddr c .bandType (64 * g + sfb)) ∧ s.item? c .bandType (64 * g + sfb) = none := by
  unfold readBandType Config.sfbCap
  rw [readItem_bind_error, Nat.mul_comm]

theorem readSf_error {e : Stop} : readSf c g sfb s = .error e ↔
    e = .unwritten (itemAddr c .sf (64 * g + sfb)) ∧ s.item? c .sf (64 * g + sfb) = none := by
  unfold readSf Config.sfbCap
  rw [readItem_bind_error, Nat.mul_comm]

theorem readBandType_quiet (c g sfb : Nat) (s : State) : Quiet (readBandType c g sfb s) := readItem_bind_quiet _

theorem msUsedIfPerBand_error {mmp : Nat} {e : Stop} : msUsedIfPerBand c mmp g sfb s = .error e ↔
    mmp = 1 ∧ e = .unwritten (itemAddr c .msUsed (2 * g + sfb / 32)) ∧ s.item? c .msUsed (2 * g + sfb / 32) = none := by
  unfold msUsedIfPerBand
  split
  · rename_i h
    unfold readMsUsed
    rw [readItem_bind_error]
    exact (and_iff_right h).symm
  · rename_i h
    exact ⟨fun h' => (by cases h'), fun h' => absurd h'.1 h⟩

theorem msUsedIfPerBand_quiet (c mmp g sfb : Nat) (s : State) : Quiet (msUsedIfPerBand c mmp g sfb s) := fun e ch d h => by
  cases (msUsedIfPerBand_error.mp h).2.1

variable {first len : Nat}

theorem readSpecRun_error {e : Stop} (h : readSpecRun c first len s = .error e) :
    ∃ i, first ≤ i ∧ i < first + len ∧ e = .unwritten (itemAddr c .spec i) ∧ s.item? c .spec i = none := by
  obtain ⟨j, hj, h⟩ := checkAll_error h
  have := List.mem_range.mp hj
  exact ⟨first + j, by omega, by omega, readItem_error.mp h⟩

theorem readSpecRun_quiet (c first len : Nat) (s : State) : Quiet (readSpecRun c first len s) :=
  quiet_checkAll fun _ _ => readItem_quiet _ _ _ _

theorem readSpecRun_faults {i : Nat} (h1 : first ≤ i) (h2 : i < first + len) (hn : s.item? c .spec i = none) :
    Faults (readSpecRun c first len s) := by
  rcases (readSpecRun_quiet c first len s).cases with h | ⟨ws, h⟩
  · exact h
  · cases (readSpecRun_item h h1 h2).symm.trans hn

end

/-! ## The header of a slot (R35, R36, R40) -/

section
variable {c : Nat} {s : State} {ics : Ics}

theorem readGroupLens_error {n : Nat} {e : Stop} : readGroupLens c n s = .error e ↔
    n ≠ 0 ∧ e = .unwritten (itemAddr c .groupLen 0) ∧ s.item? c .groupLen 0 = none := by
  unfold readGroupLens
  split
  · rename_i h
    exact ⟨fun h' => (by cases h'), fun h' => absurd h h'.1⟩
  · rename_i h
    rw [readItem_bind_error]
    exact (and_iff_right h).symm

theorem readGroupLens_quiet (c n : Nat) (s : State) : Quiet (readGroupLens c n s) := fun e ch d h => by
  cases (readGroupLens_error.mp h).2.1

theorem readSwb_error {n : Nat} {e : Stop} (h : readSwb c n s = .error e) :
    ∃ k ≤ n, e = .unwritten (itemAddr c .swbOffset k) ∧ s.item? c .swbOffset k = none := by
  obtain ⟨k, hk, h⟩ := checkAll_error h
  exact ⟨k, Nat.lt_succ_iff.mp (List.mem_range.mp hk), readItem_bind_error.mp h⟩

theorem readSwb_quiet (c n : Nat) (s : State) : Quiet (readSwb c n s) := quiet_checkAll fun _ _ => readItem_bind_quiet _

theorem readSwb_faults {n k : Nat} (hk : k ≤ n) (hn : s.item? c .swbOffset k = none) : Faults (readSwb c n s) :=
  faults_checkAll List.pairwise_lt_range (List.mem_range.mpr (Nat.lt_succ_iff.mpr hk)) (fun _ _ _ => readItem_bind_quiet _)
    ⟨_, readItem_bind_error.mpr ⟨rfl, hn⟩⟩

theorem readWindows_unwritten {a : Nat} : readWindows c ics s = .error (.unwritten a) ↔
    ics.seq = 2 ∧ ics.ngroups ≠ 0 ∧ a = itemAddr c .groupLen 0 ∧ s.item? c .groupLen 0 = none := by
  unfold readWindows
  by_cases hs : ics.seq = 2
  swap
  · rw [if_neg (by simpa using hs)]
    exact ⟨fun h => (by cases h), fun h => absurd h.1 hs⟩
  rw [if_pos (by simpa using hs), except_bind_error, readGroupLens_error, Stop.unwritten.injEq, and_iff_right hs]
  refine or_iff_left fun ⟨g, _, h⟩ => ?_
  split at h <;> cases h

theorem readBands_unwritten {win : Windows} {a : Nat} (h : readBands c ics win s = .error (.unwritten a)) :
    ∃ k ≤ ics.numSwb, a = itemAddr c .swbOffset k ∧ s.item? c .swbOffset k = none := by
  rcases except_bind_error.mp h with h | ⟨swb, _, h⟩
  · obtain ⟨k, hk, ha, hn⟩ := readSwb_error h
    exact ⟨k, hk, Stop.unwritten.inj ha, hn⟩
  · split at h <;> cases h

/-- A never-written word that the header's checks meet is one they read. -/
theorem readsHeader_of_readIcs {a : Nat} (h : readIcs c s = .error (.unwritten a)) :
    ∃ it k, ReadsHeader c s it k ∧ s.item? c it k = none ∧ a = itemAddr c it k := by
  obtain ⟨ha, hn⟩ := readIcs_error.mp h
  exact ⟨_, _, .info, hn, Stop.unwritten.inj ha⟩

theorem readsHeader_of_sideStops {a : Nat} (hi : readIcs c s = .ok ics) (h : SideStops c ics s (.unwritten a)) :
    ∃ it k, ReadsHeader c s it k ∧ s.item? c it k = none ∧ a = itemAddr c it k := by
  rcases sideStops_iff.mp h with h | ⟨win, hw, h⟩
  · obtain ⟨hs, hg, ha, hn⟩ := readWindows_unwritten.mp h
    exact ⟨_, _, .groups hi hs hg, hn, ha⟩
  · obtain ⟨k, hk, ha, hn⟩ := readBands_unwritten h
    exact ⟨_, _, .table hi hw hk, hn, ha⟩

/-- The header's checks meet every never-written word they come to read. -/
theorem header_faults {it : Item} {k : Nat} (h : ReadsHeader c s it k) (hn : s.item? c it k = none) :
    Faults (readIcs c s) ∨ ∃ ics a, readIcs c s = .ok ics ∧ SideStops c ics s (.unwritten a) := by
  cases h with
  | info => exact .inl ⟨_, readIcs_error.mpr ⟨rfl, hn⟩⟩
  | groups header short some =>
    exact .inr ⟨_, _, header, sideStops_iff.mpr (.inl (readWindows_unwritten.mpr ⟨short, some, rfl, hn⟩))⟩
  | table header windows hk =>
    obtain ⟨a, ha⟩ := (readSwb_faults hk hn).bind _
    exact .inr ⟨_, a, header, sideStops_iff.mpr (.inr ⟨_, windows, ha⟩)⟩

end

end Sys2Proof.Machine
end

section
/-! Which words IQ comes to read, and that it faults at each of them that was never written (41_inverse_quant.md R105; 10_state.md R51;
log 10). -/

namespace Sys2Proof.Machine

/-! ## Band types (R101, R105) -/

/-- The band types IQ accepts. -/
theorem typeError_eq_none {t : Nat} : typeError t = none ↔ legalType t = true := by
  unfold typeError legalType
  simp only [Bool.or_eq_true, decide_eq_true_eq, beq_iff_eq]
  split_ifs <;> simp <;> omega

section
variable {c : Nat} {s : State} {g sfb : Nat}

/-- IQ's type check lets the band types pass that have no error. -/
theorem iqTypeCheck_iff {t : Nat} : iqTypeCheck c s (g, sfb) = .ok t ↔ readBandType c g sfb s = .ok t ∧ typeError t = none := by
  rw [typeError_eq_none]
  refine ⟨fun h => ⟨iqTypeCheck_read (gb := (g, sfb)) h, ?_⟩, fun ⟨h, hl⟩ => iqTypeCheck_ok (gb := (g, sfb)) h hl⟩
  unfold iqTypeCheck at h
  obtain ⟨t', -, h⟩ := except_bind_ok.mp h
  split at h
  · cases h
  rename_i h1
  split at h
  · cases h
  rename_i h2
  cases except_pure_ok.mp h
  simp only [isIllegalType, isNoise, Bool.or_eq_true, beq_iff_eq, decide_eq_true_eq] at h1 h2
  simp only [legalType, Bool.or_eq_true, decide_eq_true_eq, beq_iff_eq]
  omega

theorem iqTypeCheck_unwritten {a : Nat} : iqTypeCheck c s (g, sfb) = .error (.unwritten a) ↔
    a = itemAddr c .bandType (64 * g + sfb) ∧ s.item? c .bandType (64 * g + sfb) = none := by
  unfold iqTypeCheck
  rw [except_bind_error, readBandType_error, Stop.unwritten.injEq]
  refine or_iff_left fun ⟨t, _, h⟩ => ?_
  split at h
  · cases h
  · split at h <;> cases h

theorem iqSfCheck_unwritten {t a : Nat} : iqSfCheck c s ((g, sfb), t) = .error (.unwritten a) ↔
    isSpectral t = true ∧ a = itemAddr c .sf (64 * g + sfb) ∧ s.item? c .sf (64 * g + sfb) = none := by
  unfold iqSfCheck
  by_cases ht : isSpectral t = true
  swap
  · rw [if_neg ht]
    exact ⟨fun h => (by cases h), fun h => absurd h.1 ht⟩
  rw [if_pos ht, except_bind_error, readSf_error, Stop.unwritten.injEq, and_iff_right ht]
  refine or_iff_left fun ⟨sf, _, h⟩ => ?_
  split at h <;> cases h

end

/-! ## IQ's checks in order (R105) -/

/-- Every spectral band has a scalefactor in range (R103). -/
def ScalesLegal (c : Nat) (s : State) (ics : Ics) (win : Windows) : Prop :=
  ∀ g < win.groups, ∀ sfb < ics.maxSfb, ∀ t, readBandType c g sfb s = .ok t → isSpectral t = true →
    ∃ sf, readSf c g sfb s = .ok sf ∧ 0 ≤ sf ∧ sf ≤ 255

/-- IQ's range check of one element. -/
def iqBinCheck (c : Nat) (s : State) (win : Windows) (swb : List Nat) (maxSfb : Nat) (sfs : List (Option Int)) (i : Nat) :
    Except Stop (Option (Int × Int)) :=
  iqRangeCheck c (iqBinSf win swb maxSfb sfs i) (s.item? c .qspec i) i

section
variable {c : Nat} {s : State} {ics : Ics} {win : Windows} {swb types : List Nat} {sfs : List (Option Int)} {e : Stop}

theorem iqTypes_legal : TypesLegal c s ics win ↔ ∃ types, checkAll (iqTypeCheck c s) (bandList win.groups ics.maxSfb) = .ok types := by
  constructor
  · refine fun h => checkAll_total fun gb hgb => ?_
    obtain ⟨hg, hb⟩ := mem_bandList.mp hgb
    obtain ⟨t, ht⟩ := h _ hg _ hb
    exact ⟨t, iqTypeCheck_iff.mpr ht⟩
  · rintro ⟨types, h⟩ g hg sfb hb
    obtain ⟨t, -, ht⟩ := checkAll_get h (getElem?_bandList hg hb)
    exact ⟨t, iqTypeCheck_iff.mp ht⟩

/-- The type the loop over the types found in a band. -/
theorem mem_zip_types (htypes : checkAll (iqTypeCheck c s) (bandList win.groups ics.maxSfb) = .ok types) {g sfb t : Nat} :
    ((g, sfb), t) ∈ (bandList win.groups ics.maxSfb).zip types ↔
      g < win.groups ∧ sfb < ics.maxSfb ∧ readBandType c g sfb s = .ok t := by
  constructor
  · intro h
    obtain ⟨hgb, ht⟩ := checkAll_zip htypes h
    obtain ⟨hg, hb⟩ := mem_bandList.mp hgb
    exact ⟨hg, hb, (iqTypeCheck_iff.mp ht).1⟩
  · rintro ⟨hg, hb, ht⟩
    obtain ⟨t', hget, ht'⟩ := checkAll_get htypes (getElem?_bandList hg hb)
    cases ht.symm.trans (iqTypeCheck_iff.mp ht').1
    exact List.mem_of_getElem? (List.getElem?_zip_eq_some.mpr ⟨getElem?_bandList hg hb, hget⟩)

/-- The scalefactor check of a band that is legal, or not spectral. -/
theorem iqSfCheck_total {g sfb t : Nat} (h : isSpectral t = true → ∃ sf, readSf c g sfb s = .ok sf ∧ 0 ≤ sf ∧ sf ≤ 255) :
    ∃ o, iqSfCheck c s ((g, sfb), t) = .ok o := by
  by_cases ht : isSpectral t = true
  · obtain ⟨sf, hsf⟩ := h ht
    exact ⟨some sf, iqSfCheck_some.mpr ⟨ht, hsf⟩⟩
  · exact ⟨none, by rw [iqSfCheck, if_neg ht]⟩

/-- A spectral band whose scalefactor passes has one in range. -/
theorem iqSfCheck_scale {g sfb t : Nat} (ht : isSpectral t = true) {o : Option Int}
    (h : iqSfCheck c s ((g, sfb), t) = .ok o) : ∃ sf, readSf c g sfb s = .ok sf ∧ 0 ≤ sf ∧ sf ≤ 255 := by
  cases o with
  | some sf => exact ⟨sf, (iqSfCheck_some.mp h).2⟩
  | none =>
    unfold iqSfCheck at h
    rw [if_pos ht] at h
    obtain ⟨sf, -, h⟩ := except_bind_ok.mp h
    split at h <;> cases h

theorem iqScales_legal (htypes : checkAll (iqTypeCheck c s) (bandList win.groups ics.maxSfb) = .ok types) :
    ScalesLegal c s ics win ↔ ∃ sfs, checkAll (iqSfCheck c s) ((bandList win.groups ics.maxSfb).zip types) = .ok sfs := by
  constructor
  · refine fun h => checkAll_total fun x hx => ?_
    obtain ⟨hg, hb, ht⟩ := (mem_zip_types htypes).mp hx
    exact iqSfCheck_total (h _ hg _ hb _ ht)
  · rintro ⟨sfs, h⟩ g hg sfb hb t ht hs
    obtain ⟨i, hi⟩ := List.mem_iff_getElem?.mp ((mem_zip_types htypes).mpr ⟨hg, hb, ht⟩)
    obtain ⟨o, -, ho⟩ := checkAll_get h hi
    exact iqSfCheck_scale hs ho

/-- IQ's body up to its writes, past the header. -/
theorem iqBody_eq (hside : SideInfo c s ics win swb) : iqBody c s = (do
    let types ← checkAll (iqTypeCheck c s) (bandList win.groups ics.maxSfb)
    let sfs ← checkAll (iqSfCheck c s) ((bandList win.groups ics.maxSfb).zip types)
    let bins ← checkAll (iqBinCheck c s win swb ics.maxSfb sfs) (List.range s.frameLen)
    return s.setItems c .spec 0 (bins.zipIdx.map fun bi => iqWord s c bi.2 bi.1)) := by
  unfold iqBody
  rw [hside.header, except_ok_bind, hside.windows, except_ok_bind, hside.bands, except_ok_bind,
    array_zipIdx s c .qspec (frameLen_le s)]
  simp only [checkAll_map_list]
  rfl

/-- IQ stops where its check of the bins does, on legal types and scalefactors. -/
theorem iqBody_of_bins (hside : SideInfo c s ics win swb)
    (htypes : checkAll (iqTypeCheck c s) (bandList win.groups ics.maxSfb) = .ok types)
    (hsfs : checkAll (iqSfCheck c s) ((bandList win.groups ics.maxSfb).zip types) = .ok sfs)
    (h : checkAll (iqBinCheck c s win swb ics.maxSfb sfs) (List.range s.frameLen) = .error e) : iqBody c s = .error e := by
  rw [iqBody_eq hside, htypes, except_ok_bind, hsfs, except_ok_bind, h]
  rfl

/-- A bin of a spectral band that was never written. -/
theorem iqBinCheck_unwritten (hside : SideInfo c s ics win swb)
    (htypes : checkAll (iqTypeCheck c s) (bandList win.groups ics.maxSfb) = .ok types)
    (hsfs : checkAll (iqSfCheck c s) ((bandList win.groups ics.maxSfb).zip types) = .ok sfs) {i : Nat} (hi : i < s.frameLen)
    {a : Nat} : iqBinCheck c s win swb ics.maxSfb sfs i = .error (.unwritten a) ↔
      (∃ g sfb t, BinBand win swb ics.maxSfb i g sfb ∧ readBandType c g sfb s = .ok t ∧ isSpectral t = true) ∧
        a = itemAddr c .qspec i ∧ s.item? c .qspec i = none := by
  unfold iqBinCheck iqRangeCheck
  constructor
  · intro h
    split at h
    · cases h
    · rename_i sf hsf
      obtain ⟨g, sfb, t, hb, ht, hs, -⟩ := (iqBinSf_some hside htypes hsfs hi).mp hsf
      split at h
      · exact ⟨⟨g, sfb, t, hb, ht, hs⟩, (Stop.unwritten.inj (Except.error.inj h)).symm, ‹_›⟩
      · split at h <;> cases h
  · rintro ⟨⟨g, sfb, t, hb, ht, hs⟩, rfl, hn⟩
    obtain ⟨hg, hsfb⟩ := hb.bounds (readWindows_good hside.windows) (readBands_good hside.bands) hi
    obtain ⟨sf, hsf⟩ := (iqScales_legal htypes).mpr ⟨sfs, hsfs⟩ g hg sfb hsfb t ht hs
    rw [(iqBinSf_some hside htypes hsfs hi).mpr ⟨g, sfb, t, hb, ht, hs, hsf⟩, hn]

/-- A bin that lies in no spectral band, or is written and in range, passes. -/
theorem iqBinCheck_total (hside : SideInfo c s ics win swb)
    (htypes : checkAll (iqTypeCheck c s) (bandList win.groups ics.maxSfb) = .ok types)
    (hsfs : checkAll (iqSfCheck c s) ((bandList win.groups ics.maxSfb).zip types) = .ok sfs) {i : Nat} (hi : i < s.frameLen) :
    (∃ o, iqBinCheck c s win swb ics.maxSfb sfs i = .ok o) ↔
      ∀ g sfb t, BinBand win swb ics.maxSfb i g sfb → readBandType c g sfb s = .ok t → isSpectral t = true →
        ∃ w, s.item? c .qspec i = some w ∧ w.toInt.natAbs ≤ 8191 := by
  unfold iqBinCheck iqRangeCheck
  cases hsf : iqBinSf win swb ics.maxSfb sfs i with
  | none =>
    refine iff_of_true ⟨none, rfl⟩ fun g sfb t hb ht hs => ?_
    obtain ⟨hg, hsfb⟩ := hb.bounds (readWindows_good hside.windows) (readBands_good hside.bands) hi
    obtain ⟨sf, hsc⟩ := (iqScales_legal htypes).mpr ⟨sfs, hsfs⟩ g hg sfb hsfb t ht hs
    cases hsf.symm.trans ((iqBinSf_some hside htypes hsfs hi).mpr ⟨g, sfb, t, hb, ht, hs, hsc⟩)
  | some sf =>
    obtain ⟨g, sfb, t, hb, ht, hs, -⟩ := (iqBinSf_some hside htypes hsfs hi).mp hsf
    constructor
    · rintro ⟨o, h⟩ _ _ _ _ _ _
      cases hq : s.item? c .qspec i with
      | none => rw [hq] at h; cases h
      | some w =>
        refine ⟨w, rfl, ?_⟩
        by_contra hc
        rw [hq] at h
        cases (if_pos (not_le.mp hc)).symm.trans h
    · intro h
      obtain ⟨w, hw, hr⟩ := h g sfb t hb ht hs
      rw [hw]
      exact ⟨_, if_neg (not_lt.mpr hr)⟩

/-! ## The words IQ reads -/

/-- A never-written word IQ stops at is one it comes to read. -/
theorem iqBody_reads {a : Nat} (h : iqBody c s = .error (.unwritten a)) : UnwrittenIn (ReadsWord s (.iq c)) s a := by
  cases hics : readIcs c s with
  | error e =>
    obtain rfl : e = .unwritten a := by rw [iqBody, hics] at h; exact Except.error.inj h
    obtain ⟨it, k, hr, hn⟩ := readsHeader_of_readIcs hics
    exact ⟨c, it, k, .iqHeader hr, hn⟩
  | ok ics =>
  cases hside : (readWindows c ics s >>= fun win => readBands c ics win s) with
  | error e =>
    obtain rfl : e = .unwritten a := Except.error.inj ((iqBody_of_sideStops hics hside).symm.trans h)
    obtain ⟨it, k, hr, hn⟩ := readsHeader_of_sideStops hics hside
    exact ⟨c, it, k, .iqHeader hr, hn⟩
  | ok swb =>
  obtain ⟨win, hwin, hswb⟩ := except_bind_ok.mp hside
  have side : SideInfo c s ics win swb := ⟨hics, hwin, hswb⟩
  rw [iqBody_eq side, except_bind_error] at h
  rcases h with h | ⟨types, htypes, h⟩
  · obtain ⟨gb, hgb, hstop, hbefore⟩ := checkAll_stops_at (bandList_pairwise _ _) (fun _ _ => BandBefore.asymm) h
    obtain ⟨hg, hb⟩ := mem_bandList.mp hgb
    obtain ⟨ha, hn⟩ := iqTypeCheck_unwritten.mp hstop
    refine ⟨c, _, _, .iqType side hg hb fun g' sfb' hg' hb' hlt => ?_, hn, ha⟩
    obtain ⟨t, ht⟩ := hbefore (g', sfb') (mem_bandList.mpr ⟨hg', hb'⟩) hlt
    exact ⟨t, iqTypeCheck_iff.mp ht⟩
  have legal := iqTypes_legal.mpr ⟨types, htypes⟩
  rcases except_bind_error.mp h with h | ⟨sfs, hsfs, h⟩
  · obtain ⟨⟨⟨g, sfb⟩, t⟩, hx, hstop, hbefore⟩ := checkAll_stops_at
      (pairwise_zip (bandList_pairwise _ _) (checkAll_length htypes).ge) (fun _ _ => BandBefore.asymm) h
    obtain ⟨hg, hb, ht⟩ := (mem_zip_types htypes).mp hx
    obtain ⟨hs, ha, hn⟩ := iqSfCheck_unwritten.mp hstop
    refine ⟨c, _, _, .iqSf side legal hg hb ht hs fun g' sfb' t' hg' hb' hlt ht' hs' => ?_, hn, ha⟩
    obtain ⟨o, ho⟩ := hbefore ((g', sfb'), t') ((mem_zip_types htypes).mpr ⟨hg', hb', ht'⟩) hlt
    exact iqSfCheck_scale hs' ho
  rcases except_bind_error.mp h with h | ⟨bins, -, h⟩
  · obtain ⟨i, hi, hstop, hbefore⟩ := checkAll_stops_at List.pairwise_lt_range (fun _ _ => Nat.lt_asymm) h
    have hi := List.mem_range.mp hi
    obtain ⟨⟨g, sfb, t, hb, ht, hs⟩, ha, hn⟩ := (iqBinCheck_unwritten side htypes hsfs hi).mp hstop
    refine ⟨c, _, _, .iqBin side legal ((iqScales_legal htypes).mpr ⟨sfs, hsfs⟩) hi hb ht hs fun j hj => ?_, hn, ha⟩
    have hj' : j < s.frameLen := lt_trans hj hi
    exact (iqBinCheck_total side htypes hsfs hj').mp (hbefore j (List.mem_range.mpr hj') hj)
  · exact absurd h except_pure_error

/-- IQ faults when a word it comes to read was never written. -/
theorem iqBody_faults {c' : Nat} {it : Item} {k : Nat} (h : ReadsWord s (.iq c) c' it k) (hn : s.item? c' it k = none) :
    Faults (iqBody c s) := by
  cases h with
  | iqHeader header =>
    rcases header_faults header hn with ⟨a, ha⟩ | ⟨ics, a, hi, ha⟩
    · exact ⟨a, by rw [iqBody, ha]; rfl⟩
    · exact ⟨a, iqBody_of_sideStops hi ha⟩
  | @iqType _ ics win swb g sfb side hg hb before =>
    rw [iqBody_eq side]
    refine Faults.bind (faults_checkAll (x := (g, sfb)) (bandList_pairwise _ _) (mem_bandList.mpr ⟨hg, hb⟩)
      (fun y hy hlt => ?_) ⟨_, iqTypeCheck_unwritten.mpr ⟨rfl, hn⟩⟩) _
    obtain ⟨hg', hb'⟩ := mem_bandList.mp hy
    obtain ⟨t, ht⟩ := before _ _ hg' hb' hlt
    rw [iqTypeCheck_iff.mpr ht]
    exact quiet_ok t
  | @iqSf _ ics win swb g sfb t side legal hg hb type spectral before =>
    obtain ⟨types, htypes⟩ := iqTypes_legal.mp legal
    rw [iqBody_eq side, htypes, except_ok_bind]
    refine Faults.bind (faults_checkAll (x := ((g, sfb), t)) (pairwise_zip (bandList_pairwise _ _) (checkAll_length htypes).ge)
      ((mem_zip_types htypes).mpr ⟨hg, hb, type⟩) (fun y hy hlt => ?_)
      ⟨_, iqSfCheck_unwritten.mpr ⟨spectral, rfl, hn⟩⟩) _
    obtain ⟨hg', hb', ht'⟩ := (mem_zip_types htypes).mp hy
    obtain ⟨o, ho⟩ := iqSfCheck_total (before _ _ _ hg' hb' hlt ht')
    rw [ho]
    exact quiet_ok o
  | @iqBin _ ics win swb _ g sfb t side legal scales hi band type spectral before =>
    obtain ⟨types, htypes⟩ := iqTypes_legal.mp legal
    obtain ⟨sfs, hsfs⟩ := (iqScales_legal htypes).mp scales
    rw [iqBody_eq side, htypes, except_ok_bind, hsfs, except_ok_bind]
    refine Faults.bind (faults_checkAll (x := k) List.pairwise_lt_range (List.mem_range.mpr hi) (fun j hj hlt => ?_)
      ⟨_, (iqBinCheck_unwritten side htypes hsfs hi).mpr ⟨⟨g, sfb, t, band, type, spectral⟩, rfl, hn⟩⟩) _
    obtain ⟨o, ho⟩ := (iqBinCheck_total side htypes hsfs (List.mem_range.mp hj)).mpr (before j hlt)
    rw [ho]
    exact quiet_ok o

end

/-! ## O13 -/

section
variable {c : Nat} {s : State}

/-- FB stops at the first unread word of its spectrum (R170). -/
theorem fbBody_spectrum {k : Nat} (hi : s.item? c .icsInfo 0 ≠ none) (hk : k < s.frameLen)
    (hbefore : ∀ j < k, s.item? c .spec j ≠ none) (hn : s.item? c .spec k = none) :
    fbBody c s = .error (.unwritten (itemAddr c .spec k)) := by
  obtain ⟨v, hv⟩ := Option.ne_none_iff_exists'.mp hi
  obtain ⟨prev, hprev⟩ := item_channelState s c (it := .chstate) (i := 0) (by decide) rfl
  have hspec : readFrame c .spec s = .error (.unwritten (itemAddr c .spec k)) := by
    rw [readFrame_eq]
    refine checkAll_stops List.pairwise_lt_range (List.mem_range.mpr hk) (fun j _ hj => ?_) (readItem_unwritten hn)
    obtain ⟨w, hw⟩ := Option.ne_none_iff_exists'.mp (hbefore j hj)
    exact ⟨w, readItem_ok.mpr hw⟩
  rw [fbBody, readIcs_ok.mpr ⟨v, hv, rfl⟩, except_ok_bind, readItem_ok.mpr hprev, except_ok_bind, hspec]
  rfl

/-- Every command that begins with its slot's ICS_INFO stops there when it was never written. -/
theorem commandBody_icsInfo {i : Instr} (hn : s.item? c .icsInfo 0 = none)
    (h : i = .iq c ∨ i = .fb c ∨ (∃ b, i = .ms c b ∨ i = .is c b) ∨
      (i = .tns c ∧ ∃ v, s.item? c .tnsCtrl 0 = some v ∧ v.getLsbD 0 = true)) :
    commandBody i s = .error (.unwritten (itemAddr c .icsInfo 0)) := by
  have hics : readIcs c s = .error (.unwritten (itemAddr c .icsInfo 0)) := readIcs_error.mpr ⟨rfl, hn⟩
  have hpair : ∀ b, pairChecks c b s = .error (.unwritten (itemAddr c .icsInfo 0)) := fun b => by rw [pairChecks, hics]; rfl
  rcases h with rfl | rfl | ⟨b, rfl | rfl⟩ | ⟨rfl, v, hv, hp⟩
  · rw [commandBody, iqBody, hics]; rfl
  · rw [commandBody, fbBody, hics]; rfl
  · exact msBody_of_pairChecks (hpair b)
  · exact isBody_of_pairChecks (hpair b)
  · rw [commandBody, tnsBody_present hv ((bit_eq_getLsbD 0 v).trans hp), tnsFilterBody, hics]; rfl

end

/-- Settles O13: every stop of a body at a never-written word is one of its items; and the words named are the first ones read. -/
theorem faultsOnlyUnwritten : Obligations.FaultsOnlyUnwritten := by
  unfold Obligations.FaultsOnlyUnwritten
  refine ⟨fun i s => ?_, fun i s c ha hn h => exec_unwritten ha (commandBody_icsInfo hn h), fun s c ha hn => ?_,
    fun s c k ha hi hk hbefore hn => exec_unwritten ha (fbBody_spectrum hi hk hbefore hn), ?_⟩
  · rcases exec_next_or_fault i s with h | ⟨x, h⟩
    · exact .inl h
    · obtain ⟨-, a, hb, rfl⟩ := exec_fault h
      obtain ⟨⟨c, it⟩, hm, k, hk, rfl, hn⟩ := commandBody_stop hb
      exact .inr ⟨c, it, k, hm, hk, hn, h⟩
  · refine exec_unwritten ha ?_
    rw [commandBody, tnsBody, readItem_unwritten hn]
    rfl
  · intro s c ics win swb k g sfb t ha side hlegal hk hb ht hs hbefore hn
    obtain ⟨types, htypes⟩ := iqTypes_legal.mp fun g hg sfb hb => by
      obtain ⟨t, ht, he, -⟩ := hlegal g hg sfb hb
      exact ⟨t, ht, he⟩
    obtain ⟨sfs, hsfs⟩ := (iqScales_legal htypes).mp fun g hg sfb hb t ht hs => by
      obtain ⟨t', ht', -, hsf⟩ := hlegal g hg sfb hb
      cases ht.symm.trans ht'
      exact hsf hs
    refine exec_unwritten ha (iqBody_of_bins side htypes hsfs ?_)
    refine checkAll_stops List.pairwise_lt_range (List.mem_range.mpr hk) (fun j hj hlt => ?_)
      ((iqBinCheck_unwritten side htypes hsfs hk).mpr ⟨⟨g, sfb, t, hb, ht, hs⟩, rfl, hn⟩)
    exact (iqBinCheck_total side htypes hsfs (List.mem_range.mp hj)).mpr (hbefore j hlt)

end Sys2Proof.Machine
end

section
/-! Which words the pair checks, MS and IS come to read, and that they fault at each of them that was never written (42_stereo.md R122,
R123, R127; 10_state.md R51, R56; log 10, log 23). -/

namespace Sys2Proof.Machine

/-! ## Band types of a pair (R122) -/

/-- The pairs of band types that MS and IS accept. -/
theorem pairTypeError_eq_none {a b tl tr : Nat} : pairTypeError a b tl tr = none ↔ tl ≤ 11 ∧ legalType tr = true := by
  unfold pairTypeError legalType
  simp only [Bool.or_eq_true, decide_eq_true_eq, beq_iff_eq]
  split_ifs <;> simp <;> omega

section
variable {a b g sfb : Nat} {s : State}

theorem pairTypeCheck_iff {tr : Nat} : pairTypeCheck a b s (g, sfb) = .ok tr ↔
    ∃ tl, readBandType a g sfb s = .ok tl ∧ readBandType b g sfb s = .ok tr ∧ pairTypeError a b tl tr = none := by
  simp only [pairTypeError_eq_none]
  refine ⟨fun h => ?_, fun ⟨tl, hl, hr, h11, hlegal⟩ => pairTypeCheck_ok (gb := (g, sfb)) hl h11 hr hlegal⟩
  unfold pairTypeCheck at h
  obtain ⟨tl, hl, h⟩ := except_bind_ok.mp h
  obtain ⟨tr', hr, h⟩ := except_bind_ok.mp h
  split at h
  · cases h
  rename_i h1
  split at h
  · cases h
  rename_i h2
  split at h
  · cases h
  rename_i h3
  split at h
  · cases h
  rename_i h4
  cases except_pure_ok.mp h
  refine ⟨tl, hl, hr, ?_⟩
  simp only [isIllegalType, isIntensity, isNoise, Bool.or_eq_true, beq_iff_eq, decide_eq_true_eq] at h1 h2 h3 h4
  simp only [legalType, Bool.or_eq_true, decide_eq_true_eq, beq_iff_eq]
  omega

/-- The type check reads both slots' types before it judges either. -/
theorem pairTypeCheck_unwritten {y : Nat} (h : pairTypeCheck a b s (g, sfb) = .error (.unwritten y)) :
    ∃ c, (c = a ∨ c = b) ∧ s.item? c .bandType (64 * g + sfb) = none ∧ y = itemAddr c .bandType (64 * g + sfb) := by
  unfold pairTypeCheck at h
  rcases except_bind_error.mp h with h | ⟨tl, -, h⟩
  · obtain ⟨hy, hn⟩ := readBandType_error.mp h
    exact ⟨a, .inl rfl, hn, Stop.unwritten.inj hy⟩
  rcases except_bind_error.mp h with h | ⟨tr, -, h⟩
  · obtain ⟨hy, hn⟩ := readBandType_error.mp h
    exact ⟨b, .inr rfl, hn, Stop.unwritten.inj hy⟩
  · split_ifs at h <;> cases h

theorem pairTypeCheck_faults {c : Nat} (hc : c = a ∨ c = b) (hn : s.item? c .bandType (64 * g + sfb) = none) :
    Faults (pairTypeCheck a b s (g, sfb)) := by
  have hread : Faults (readBandType c g sfb s) := ⟨_, readBandType_error.mpr ⟨rfl, hn⟩⟩
  rcases hc with rfl | rfl
  · exact hread.bind _
  · exact (readBandType_quiet _ _ _ _).faults_bind fun _ _ => hread.bind _

end

/-! ## The pair checks in order (R56, R122) -/

section
variable {a b : Nat} {s : State} {ia ib : Ics} {win : Windows} {swb : List Nat}

/-- Headers that agree, as far as `pair_ok` reads on. -/
theorem readPairOk_true (h : readPairOk a b ia ib s = .ok true) :
    ia.seq = ib.seq ∧ ia.maxSfb = ib.maxSfb ∧ ia.numSwb = ib.numSwb ∧ (ia.seq = 2 → ia.ngroups = ib.ngroups) := by
  unfold readPairOk at h
  split at h
  · rename_i hh
    refine ⟨hh.1, hh.2.1, hh.2.2, fun hs => ?_⟩
    obtain ⟨ta, -, h⟩ := except_bind_ok.mp h
    obtain ⟨tb, -, h⟩ := except_bind_ok.mp h
    rw [if_pos (by simpa using hs)] at h
    split at h
    · assumption
    · cases h
  · cases h

theorem readPairOk_reads (hia : readIcs a s = .ok ia) (hib : readIcs b s = .ok ib) {y : Nat}
    (h : readPairOk a b ia ib s = .error (.unwritten y)) : UnwrittenIn (ReadsPair a b s) s y := by
  unfold readPairOk at h
  split at h
  swap
  · cases h
  rename_i hh
  obtain ⟨hseq, hmax, hnum⟩ := hh
  rcases except_bind_error.mp h with h | ⟨ta, -, h⟩
  · obtain ⟨k, hk, hy, hn⟩ := readSwb_error h
    exact ⟨a, _, k, .table hia hib hseq hmax hnum hk (.inl rfl), hn, Stop.unwritten.inj hy⟩
  rcases except_bind_error.mp h with h | ⟨tb, -, h⟩
  · obtain ⟨k, hk, hy, hn⟩ := readSwb_error h
    exact ⟨b, _, k, .table hia hib hseq hmax hnum (hnum ▸ hk) (.inr rfl), hn, Stop.unwritten.inj hy⟩
  split at h
  swap
  · cases h
  rename_i hs
  have hs := (isShort_iff ia).mp hs
  split at h
  swap
  · cases h
  rename_i hng
  rcases except_bind_error.mp h with h | ⟨ga, -, h⟩
  · obtain ⟨hne, hy, hn⟩ := readGroupLens_error.mp h
    exact ⟨a, _, _, .groups hia hib hseq hmax hnum hs hng hne (.inl rfl), hn, Stop.unwritten.inj hy⟩
  rcases except_bind_error.mp h with h | ⟨gb, -, h⟩
  · obtain ⟨hne, hy, hn⟩ := readGroupLens_error.mp h
    exact ⟨b, _, _, .groups hia hib hseq hmax hnum hs hng (hng ▸ hne) (.inr rfl), hn, Stop.unwritten.inj hy⟩
  · cases h

/-- What the left slot's header reads is among what the pair checks read, once the headers agree. -/
theorem ReadsHeader.readsPair {it : Item} {k : Nat} (h : ReadsHeader a s it k) (hia : readIcs a s = .ok ia)
    (hib : readIcs b s = .ok ib) (hp : readPairOk a b ia ib s = .ok true) : ReadsPair a b s a it k := by
  obtain ⟨hseq, hmax, hnum, hng⟩ := readPairOk_true hp
  cases h with
  | info => exact .info (.inl rfl)
  | groups header short some =>
    cases hia.symm.trans header
    exact .groups hia hib hseq hmax hnum short (hng short) some (.inl rfl)
  | table header windows hk =>
    cases hia.symm.trans header
    exact .table hia hib hseq hmax hnum hk (.inl rfl)

/-- The pair checks past both headers. -/
theorem pairChecks_eq (side : SideInfo a s ia win swb) (hib : readIcs b s = .ok ib)
    (hp : readPairOk a b ia ib s = .ok true) : pairChecks a b s = (do
      let ctrl ← s.readItem a .msCtrl 0
      if bits 1 0 ctrl = 3 then .error (.raise .badMs a 0)
      else do
        let types ← checkAll (pairTypeCheck a b s) (bandList win.groups ia.maxSfb)
        return { win := win, swb := swb, maxSfb := ia.maxSfb, mmp := bits 1 0 ctrl, rightTypes := types }) := by
  rw [pairChecks, side.header, except_ok_bind, hib, except_ok_bind, hp, except_ok_bind, if_neg (by simp), side.windows,
    except_ok_bind, side.bands, except_ok_bind]

/-- A never-written word the pair checks stop at is one they come to read. -/
theorem pairChecks_reads {y : Nat} (h : pairChecks a b s = .error (.unwritten y)) : UnwrittenIn (ReadsPair a b s) s y := by
  cases hia : readIcs a s with
  | error e =>
    obtain rfl : e = .unwritten y := by rw [pairChecks, hia] at h; exact Except.error.inj h
    obtain ⟨hy, hn⟩ := readIcs_error.mp hia
    exact ⟨a, _, _, .info (.inl rfl), hn, Stop.unwritten.inj hy⟩
  | ok ia =>
  cases hib : readIcs b s with
  | error e =>
    obtain rfl : e = .unwritten y := by rw [pairChecks, hia, except_ok_bind, hib] at h; exact Except.error.inj h
    obtain ⟨hy, hn⟩ := readIcs_error.mp hib
    exact ⟨b, _, _, .info (.inr rfl), hn, Stop.unwritten.inj hy⟩
  | ok ib =>
  cases hp : readPairOk a b ia ib s with
  | error e =>
    obtain rfl : e = .unwritten y := by
      rw [pairChecks, hia, except_ok_bind, hib, except_ok_bind, hp] at h; exact Except.error.inj h
    exact readPairOk_reads hia hib hp
  | ok ok =>
  cases ok with
  | false =>
    rw [pairChecks, hia, except_ok_bind, hib, except_ok_bind, hp] at h
    cases h
  | true =>
  cases hside : (readWindows a ia s >>= fun win => readBands a ia win s) with
  | error e =>
    obtain rfl : e = .unwritten y := Except.error.inj ((pairChecks_of_sideStops hia hib hp hside).symm.trans h)
    obtain ⟨it, k, hr, hn⟩ := readsHeader_of_sideStops hia hside
    exact ⟨a, it, k, hr.readsPair hia hib hp, hn⟩
  | ok swb =>
  obtain ⟨win, hwin, hswb⟩ := except_bind_ok.mp hside
  have side : SideInfo a s ia win swb := ⟨hia, hwin, hswb⟩
  rw [pairChecks_eq side hib hp, except_bind_error] at h
  rcases h with h | ⟨v, hv, h⟩
  · obtain ⟨hy, hn⟩ := readItem_error.mp h
    exact ⟨a, _, _, .mask side hib hp, hn, Stop.unwritten.inj hy⟩
  split at h
  · cases h
  rename_i hlegal
  rcases except_bind_error.mp h with h | ⟨types, -, h⟩
  · obtain ⟨⟨g, sfb⟩, hgb, hstop, hbefore⟩ := checkAll_stops_at (bandList_pairwise _ _) (fun _ _ => BandBefore.asymm) h
    obtain ⟨hg, hb⟩ := mem_bandList.mp hgb
    obtain ⟨c, hc, hn, hy⟩ := pairTypeCheck_unwritten hstop
    refine ⟨c, _, _, .type side hib hp (readItem_ok.mp hv) hlegal hg hb (fun g' sfb' hg' hb' hlt => ?_) hc, hn, hy⟩
    obtain ⟨tr, htr⟩ := hbefore (g', sfb') (mem_bandList.mpr ⟨hg', hb'⟩) hlt
    obtain ⟨tl, ht⟩ := pairTypeCheck_iff.mp htr
    exact ⟨tl, tr, ht⟩
  · cases h

theorem readPairOk_faults_table {c k : Nat} (hseq : ia.seq = ib.seq) (hmax : ia.maxSfb = ib.maxSfb)
    (hnum : ia.numSwb = ib.numSwb) (hk : k ≤ ia.numSwb) (hc : c = a ∨ c = b) (hn : s.item? c .swbOffset k = none) :
    Faults (readPairOk a b ia ib s) := by
  unfold readPairOk
  rw [if_pos ⟨hseq, hmax, hnum⟩]
  rcases hc with rfl | rfl
  · exact (readSwb_faults hk hn).bind _
  · exact (readSwb_quiet _ _ _).faults_bind fun _ _ => (readSwb_faults (hnum ▸ hk) hn).bind _

theorem readPairOk_faults_groups {c : Nat} (hseq : ia.seq = ib.seq) (hmax : ia.maxSfb = ib.maxSfb)
    (hnum : ia.numSwb = ib.numSwb) (hs : ia.seq = 2) (hng : ia.ngroups = ib.ngroups) (hne : ia.ngroups ≠ 0) (hc : c = a ∨ c = b)
    (hn : s.item? c .groupLen 0 = none) : Faults (readPairOk a b ia ib s) := by
  unfold readPairOk
  rw [if_pos ⟨hseq, hmax, hnum⟩]
  refine (readSwb_quiet _ _ _).faults_bind fun _ _ => (readSwb_quiet _ _ _).faults_bind fun _ _ => ?_
  rw [if_pos (by simpa using hs), if_pos hng]
  have hread : ∀ n, n ≠ 0 → Faults (readGroupLens c n s) := fun n hn0 => ⟨_, readGroupLens_error.mpr ⟨hn0, rfl, hn⟩⟩
  rcases hc with rfl | rfl
  · exact (hread _ hne).bind _
  · exact (readGroupLens_quiet _ _ _).faults_bind fun _ _ => (hread _ (hng ▸ hne)).bind _

/-- The pair checks meet every never-written word they come to read. -/
theorem pairChecks_faults {c : Nat} {it : Item} {k : Nat} (h : ReadsPair a b s c it k) (hn : s.item? c it k = none) :
    Faults (pairChecks a b s) := by
  cases h with
  | info hc =>
    have hread : Faults (readIcs c s) := ⟨_, readIcs_error.mpr ⟨rfl, hn⟩⟩
    rcases hc with rfl | rfl
    · exact hread.bind _
    · exact (readIcs_quiet _ _).faults_bind fun _ _ => hread.bind _
  | table left right seq maxSfb numSwb hk hc =>
    rw [pairChecks, left, except_ok_bind, right, except_ok_bind]
    exact (readPairOk_faults_table seq maxSfb numSwb hk hc hn).bind _
  | groups left right seq maxSfb numSwb short same some hc =>
    rw [pairChecks, left, except_ok_bind, right, except_ok_bind]
    exact (readPairOk_faults_groups seq maxSfb numSwb short same some hc hn).bind _
  | mask side right pair =>
    rw [pairChecks_eq side right pair, readItem_unwritten hn]
    exact ⟨_, rfl⟩
  | @type _ _ _ _ v _ g sfb side right pair mask legal hg hb before hc =>
    rw [pairChecks_eq side right pair, readItem_ok.mpr mask, except_ok_bind, if_neg legal]
    refine Faults.bind (faults_checkAll (x := (g, sfb)) (bandList_pairwise _ _) (mem_bandList.mpr ⟨hg, hb⟩)
      (fun y hy hlt => ?_) (pairTypeCheck_faults hc hn)) _
    obtain ⟨hg', hb'⟩ := mem_bandList.mp hy
    obtain ⟨tl, tr, ht⟩ := before _ _ hg' hb' hlt
    have hok : pairTypeCheck a b s y = .ok tr := pairTypeCheck_iff.mpr ⟨tl, ht⟩
    rw [hok]
    exact quiet_ok tr

/-- Pair checks that complete are those of a legal pair (R122), and leave the right slot's types. -/
theorem pairLegal_of_pairChecks {x : PairInfo} (h : pairChecks a b s = .ok x) :
    ∃ ics, PairLegal a b s ics x.win x.swb x.mmp ∧ x.maxSfb = ics.maxSfb ∧
      ∀ g < x.win.groups, ∀ sfb < ics.maxSfb, readBandType b g sfb s = .ok (x.rightType g sfb) := by
  have hx := h
  unfold pairChecks at h
  obtain ⟨ia, hia, h⟩ := except_bind_ok.mp h
  obtain ⟨ib, hib, h⟩ := except_bind_ok.mp h
  obtain ⟨ok, hp, h⟩ := except_bind_ok.mp h
  cases ok with
  | false => cases h
  | true =>
  obtain ⟨win, hwin, h⟩ := except_bind_ok.mp h
  obtain ⟨swb, hswb, h⟩ := except_bind_ok.mp h
  obtain ⟨v, hv, h⟩ := except_bind_ok.mp h
  dsimp only at h
  split at h
  · cases h
  rename_i hmask
  obtain ⟨types, htypes, h⟩ := except_bind_ok.mp h
  cases except_pure_ok.mp h
  have legal : PairLegal a b s ia win swb (bits 1 0 v) :=
    { side := ⟨hia, hwin, hswb⟩
      pair := ⟨ib, hib, hp⟩
      mask := ⟨v, readItem_ok.mp hv, rfl, hmask⟩
      types := fun g hg sfb hb => by
        obtain ⟨tr, -, htr⟩ := checkAll_get htypes (getElem?_bandList hg hb)
        obtain ⟨tl, hl, hr, he⟩ := pairTypeCheck_iff.mp htr
        obtain ⟨h11, hlegal⟩ := pairTypeError_eq_none.mp he
        exact ⟨tl, tr, hl, h11, hr, hlegal⟩ }
  refine ⟨ia, legal, rfl, ?_⟩
  obtain ⟨x', hx', -, -, -, -, ht⟩ := pairChecks_legal legal
  cases hx.symm.trans hx'
  exact ht

end

/-! ## Runs of bins (R47) -/

/-- Every group has a window. -/
theorem exists_groupOf {glen : List Nat} {g : Nat} (hpos : ∀ l ∈ glen, 1 ≤ l) (hg : g < glen.length) :
    ∃ w < glen.sum, groupOf glen w = g := by
  induction glen generalizing g with
  | nil => simp at hg
  | cons l ls ih =>
    have hl := hpos l (by simp)
    cases g with
    | zero => exact ⟨0, by simp; omega, if_pos (by omega)⟩
    | succ g =>
      obtain ⟨w, hw, he⟩ := ih (fun l hl => hpos l (by simp [hl])) (by simpa using hg)
      refine ⟨l + w, by simpa using hw, ?_⟩
      rw [groupOf, if_neg (by omega), Nat.add_sub_cancel_left, he]

theorem exists_run {s : State} {win : Windows} {swb : List Nat} {maxSfb g sfb : Nat} (hW : WindowsGood s win) (hg : g < win.groups)
    (hb : sfb < maxSfb) : ∃ r ∈ bandRuns win swb maxSfb, r.g = g ∧ r.sfb = sfb := by
  obtain ⟨w, hw, he⟩ := exists_groupOf hW.nonempty hg
  exact ⟨_, List.mem_flatMap.mpr ⟨w, List.mem_range.mpr (hW.sum ▸ hw), List.mem_map.mpr ⟨sfb, List.mem_range.mpr hb, rfl⟩⟩, he, rfl⟩

/-! ## MS (R123) -/

section
variable {a b : Nat} {s s0 t t' : State} {x : PairInfo} {r : Run}

theorem msRun_quiet (a b : Nat) (s0 : State) (x : PairInfo) (r : Run) (t : State) : Quiet (msRun a b s0 x r t) := by
  unfold msRun
  refine (msUsedIfPerBand_quiet _ _ _ _ _).bind fun used _ => ?_
  split
  · exact (readSpecRun_quiet _ _ _ _).bind fun _ _ => (readSpecRun_quiet _ _ _ _).bind fun _ _ => quiet_ok _
  · exact quiet_ok _

/-- The word a run of MS stops at: its MS_USED word, or a word of its bins where it is active. -/
theorem msRun_unwritten {y : Nat} (h : msRun a b s0 x r t = .error (.unwritten y)) :
    (x.mmp = 1 ∧ y = itemAddr a .msUsed (2 * r.g + r.sfb / 32) ∧ t.item? a .msUsed (2 * r.g + r.sfb / 32) = none) ∨
    (∃ used, msUsedIfPerBand a x.mmp r.g r.sfb t = .ok used ∧ (x.mmp = 2 ∨ (x.mmp = 1 ∧ used = true)) ∧
      isIntensity (x.rightType r.g r.sfb) = false ∧ ∃ c i, (c = a ∨ c = b) ∧ r.first ≤ i ∧ i < r.first + r.len ∧
        y = itemAddr c .spec i ∧ t.item? c .spec i = none) := by
  unfold msRun at h
  rcases except_bind_error.mp h with h | ⟨used, hu, h⟩
  · obtain ⟨hm, hy, hn⟩ := msUsedIfPerBand_error.mp h
    exact .inl ⟨hm, Stop.unwritten.inj hy, hn⟩
  split at h
  swap
  · cases h
  rename_i hact
  refine .inr ⟨used, hu, hact.1, hact.2, ?_⟩
  rcases except_bind_error.mp h with h | ⟨was, -, h⟩
  · obtain ⟨i, h1, h2, hy, hn⟩ := readSpecRun_error h
    exact ⟨a, i, .inl rfl, h1, h2, Stop.unwritten.inj hy, hn⟩
  rcases except_bind_error.mp h with h | ⟨wbs, -, h⟩
  · obtain ⟨i, h1, h2, hy, hn⟩ := readSpecRun_error h
    exact ⟨b, i, .inr rfl, h1, h2, Stop.unwritten.inj hy, hn⟩
  · cases h

/-- A run of MS that completes writes no SPEC word that it found unwritten: it reads whatever it rewrites. -/
theorem msRun_keeps_unwritten {c i : Nat} (hc : c = a ∨ c = b) (hi : i < 1024) (hr : r.first + r.len ≤ 1024)
    (hn : t.item? c .spec i = none) (h : msRun a b s0 x r t = .ok t') : t'.item? c .spec i = none := by
  unfold msRun at h
  obtain ⟨used, -, h⟩ := except_bind_ok.mp h
  split at h
  swap
  · cases except_pure_ok.mp h; exact hn
  obtain ⟨was, hwas, h⟩ := except_bind_ok.mp h
  obtain ⟨wbs, hwbs, h⟩ := except_bind_ok.mp h
  cases except_pure_ok.mp h
  have la := readSpecRun_length hwas
  have lb := readSpecRun_length hwbs
  have hout : ¬(r.first ≤ i ∧ i < r.first + r.len) := by
    rintro ⟨h1, h2⟩
    rcases hc with rfl | rfl
    · cases (readSpecRun_item hwas h1 h2).symm.trans hn
    · cases (readSpecRun_item hwbs h1 h2).symm.trans hn
  rw [item_setItems_other (by simp [la, lb, Item.count]; omega) (by simpa [Item.count] using hi)
      (fun ⟨_, _, h1, h2⟩ => hout ⟨h1, by simpa [la, lb] using h2⟩),
    item_setItems_other (by simp [la, lb, Item.count]; omega) (by simpa [Item.count] using hi)
      (fun ⟨_, _, h1, h2⟩ => hout ⟨h1, by simpa [la, lb] using h2⟩), hn]

end

section
variable {a b : Nat} {s : State}

/-- A never-written word MS stops at is one it comes to read. -/
theorem msBody_reads {y : Nat} (h : msBody a b s = .error (.unwritten y)) : UnwrittenIn (ReadsWord s (.ms a b)) s y := by
  unfold msBody at h
  rcases except_bind_error.mp h with h | ⟨x, hx, h⟩
  · exact (pairChecks_reads h).imp fun _ _ _ => .msPair
  obtain ⟨ics, legal, hmax, htypes⟩ := pairLegal_of_pairChecks hx
  have hW := readWindows_good legal.side.windows
  have hB := readBands_good legal.side.bands
  have hM := (readIcs_bounds legal.side.header).2.2.1
  have hL := frameLen_le s
  rw [hmax] at h
  obtain ⟨r, hr, t, ht, hstop⟩ := applyAll_error (P := SpecStores [a, b] s)
    (fun r hr t t' ht h => msRun_ok (bandRuns_in hW hB hr).2.2.2 ht h) .refl h
  obtain ⟨hg8, hg, hsfb, hin⟩ := bandRuns_in hW hB hr
  rcases msRun_unwritten hstop with ⟨hm, hy, hn⟩ | ⟨used, hu, hact, hint, c, i, hc, h1, h2, hy, hn⟩
  · exact ⟨a, _, _, .msUsed (hm ▸ legal) hg hsfb, ht.none (by simp only [Item.count]; omega) hn, hy⟩
  · rw [ht.msUsed hg8 (by omega)] at hu
    refine ⟨c, _, _, .msBin legal ⟨by omega, r.g, r.sfb, _, bandRuns_binBand hB hr h1 h2, (msActive_iff hu).mpr hact,
      htypes _ hg _ hsfb, hint⟩ hc, ht.none (by simp only [Item.count]; omega) hn, hy⟩

/-- The runs of a legal pair raise nothing, so a run that meets a never-written word makes MS meet one. -/
theorem msBody_faults_of_run {ics : Ics} {win : Windows} {swb : List Nat} {mmp : Nat} (Q : State → Prop)
    (legal : PairLegal a b s ics win swb mmp) (hs : Q s)
    (hkeep : ∀ x : PairInfo, ∀ r ∈ bandRuns win swb ics.maxSfb, ∀ t t', Q t → msRun a b s x r t = .ok t' → Q t')
    (hf : ∀ x : PairInfo, x.mmp = mmp →
      (∀ g < win.groups, ∀ sfb < ics.maxSfb, readBandType b g sfb s = .ok (x.rightType g sfb)) →
      ∃ r ∈ bandRuns win swb ics.maxSfb, ∀ t, Q t → Faults (msRun a b s x r t)) : Faults (msBody a b s) := by
  obtain ⟨x, hx, rfl, rfl, hmax, hmmp, htypes⟩ := pairChecks_legal legal
  obtain ⟨r, hr, hf⟩ := hf x hmmp htypes
  rw [msBody, hx, except_ok_bind, hmax]
  exact faults_applyAll (fun _ _ _ _ => msRun_quiet _ _ _ _ _ _) (hkeep x) hs hr hf

/-- MS faults when a word it comes to read was never written. -/
theorem msBody_faults {c : Nat} {it : Item} {k : Nat} (h : ReadsWord s (.ms a b) c it k) (hn : s.item? c it k = none) :
    Faults (msBody a b s) := by
  cases h with
  | msPair pair => exact (pairChecks_faults pair hn).bind _
  | @msUsed _ _ ics win swb g sfb legal hg hb =>
    have hW := readWindows_good legal.side.windows
    have hB := readBands_good legal.side.bands
    have hM := (readIcs_bounds legal.side.header).2.2.1
    refine msBody_faults_of_run (SpecStores [a, b] s) legal .refl (fun x r hr t t' ht h => msRun_ok (bandRuns_in hW hB hr).2.2.2 ht h)
      fun x hmmp _ => ?_
    obtain ⟨r, hr, rfl, rfl⟩ := exists_run (swb := swb) hW hg hb
    refine ⟨r, hr, fun t ht => Faults.bind ?_ _⟩
    rw [ht.msUsed (bandRuns_in hW hB hr).1 (by omega)]
    exact ⟨_, msUsedIfPerBand_error.mpr ⟨hmmp, rfl, hn⟩⟩
  | @msBin _ _ ics win swb mmp _ i legal touched hc =>
    have hW := readWindows_good legal.side.windows
    have hB := readBands_good legal.side.bands
    have hM := (readIcs_bounds legal.side.header).2.2.1
    have hL := frameLen_le s
    obtain ⟨hi, g, sfb, ty, hbin, hact, hty, hint⟩ := touched
    refine msBody_faults_of_run (fun t => SpecStores [a, b] s t ∧ t.item? c .spec k = none) legal ⟨.refl, hn⟩
      (fun x r hr t t' ⟨ht, hnt⟩ h => ?_) fun x hmmp htypes => ?_
    · have hin := (bandRuns_in hW hB hr).2.2.2
      exact ⟨msRun_ok hin ht h, msRun_keeps_unwritten hc (by omega) (by omega) hnt h⟩
    · obtain ⟨hg, hsfb⟩ := hbin.bounds hW hB hi
      cases hty.symm.trans (htypes g hg sfb hsfb)
      obtain ⟨r, hr, rfl, rfl, h1, h2⟩ := hbin.exists_run hW hB hi
      refine ⟨r, hr, fun t ⟨ht, hnt⟩ => (msUsedIfPerBand_quiet _ _ _ _ _).faults_bind fun used hu => ?_⟩
      rw [ht.msUsed (bandRuns_in hW hB hr).1 (by omega), hmmp] at hu
      rw [hmmp, if_pos ⟨(msActive_iff hu).mp hact, hint⟩]
      rcases hc with rfl | rfl
      · exact (readSpecRun_faults h1 h2 hnt).bind _
      · exact (readSpecRun_quiet _ _ _ _).faults_bind fun _ _ => (readSpecRun_faults h1 h2 hnt).bind _

end

/-! ## IS (R127) -/

section
variable {a b : Nat} {s : State} {x : PairInfo} {g sfb : Nat}

theorem isSfCheck_unwritten {y : Nat} : isSfCheck b x s (g, sfb) = .error (.unwritten y) ↔
    isIntensity (x.rightType g sfb) = true ∧ y = itemAddr b .sf (64 * g + sfb) ∧ s.item? b .sf (64 * g + sfb) = none := by
  unfold isSfCheck
  by_cases ht : isIntensity (x.rightType g sfb) = true
  swap
  · rw [if_neg ht]
    exact ⟨fun h => (by cases h), fun h => absurd h.1 ht⟩
  rw [if_pos ht, except_bind_error, readSf_error, Stop.unwritten.injEq, and_iff_right ht]
  refine or_iff_left fun ⟨p, _, h⟩ => ?_
  split at h <;> cases h

/-- The position check of a band that is legal, or no intensity band. -/
theorem isSfCheck_total : (∃ o, isSfCheck b x s (g, sfb) = .ok o) ↔
    (isIntensity (x.rightType g sfb) = true → ∃ p, readSf b g sfb s = .ok p ∧ -255 ≤ p ∧ p ≤ 255) := by
  cases ht : isIntensity (x.rightType g sfb) with
  | false => exact iff_of_true ⟨none, isSfCheck_none (gb := (g, sfb)) ht⟩ fun h => (by cases h)
  | true =>
    refine ⟨fun ⟨o, h⟩ _ => ?_, fun h => ?_⟩
    · unfold isSfCheck at h
      rw [if_pos ht] at h
      obtain ⟨p, hp, h⟩ := except_bind_ok.mp h
      split at h
      · exact ⟨p, hp, ‹_›⟩
      · cases h
    · obtain ⟨p, hp, hrange⟩ := h rfl
      exact ⟨some p, isSfCheck_some (gb := (g, sfb)) ht hp hrange⟩

variable {ics : Ics} {win : Windows}

theorem isPositions_legal
    (htypes : ∀ g < win.groups, ∀ sfb < ics.maxSfb, readBandType b g sfb s = .ok (x.rightType g sfb)) :
    PositionsLegal b s ics win ↔ ∃ sfs, checkAll (isSfCheck b x s) (bandList win.groups ics.maxSfb) = .ok sfs := by
  constructor
  · refine fun h => checkAll_total fun gb hgb => ?_
    obtain ⟨hg, hb⟩ := mem_bandList.mp hgb
    exact isSfCheck_total.mpr (h _ hg _ hb _ (htypes _ hg _ hb))
  · rintro ⟨sfs, h⟩ g hg sfb hb t ht hint
    cases ht.symm.trans (htypes g hg sfb hb)
    obtain ⟨o, -, ho⟩ := checkAll_get h (getElem?_bandList hg hb)
    exact isSfCheck_total.mp ⟨o, ho⟩ hint

/-- IS has a position for a run exactly where it is one of an intensity band. -/
theorem isSfs_getD {sfs : List (Option Int)} (hsfs : checkAll (isSfCheck b x s) (bandList win.groups ics.maxSfb) = .ok sfs)
    (hmax : x.maxSfb = ics.maxSfb) (hg : g < win.groups) (hb : sfb < ics.maxSfb) :
    (∃ p, sfs.getD (g * x.maxSfb + sfb) none = some p) ↔ isIntensity (x.rightType g sfb) = true := by
  obtain ⟨o, ho, hcheck⟩ := checkAll_get hsfs (getElem?_bandList hg hb)
  rw [hmax, List.getD_eq_getElem?_getD, ho, Option.getD_some]
  cases ht : isIntensity (x.rightType g sfb) with
  | false =>
    cases hcheck.symm.trans (isSfCheck_none (gb := (g, sfb)) ht)
    exact iff_of_false (fun ⟨p, h⟩ => by cases h) (by simp)
  | true =>
    obtain ⟨p, hp, hrange⟩ := isSfCheck_total.mp ⟨o, hcheck⟩ ht
    cases hcheck.symm.trans (isSfCheck_some (gb := (g, sfb)) ht hp hrange)
    exact iff_of_true ⟨p, rfl⟩ rfl

end

section
variable {a b : Nat} {s0 t : State} {x : PairInfo} {sfs : List (Option Int)} {r : Run}

theorem isRun_quiet (a b : Nat) (s0 : State) (x : PairInfo) (sfs : List (Option Int)) (r : Run) (t : State) :
    Quiet (isRun a b s0 x sfs r t) := by
  unfold isRun
  split
  · exact quiet_ok _
  · exact (msUsedIfPerBand_quiet _ _ _ _ _).bind fun _ _ => (readSpecRun_quiet _ _ _ _).bind fun _ _ => quiet_ok _

/-- The word a run of IS stops at, in an intensity band: its MS_USED word, or a word of the left slot's bins. -/
theorem isRun_unwritten {y : Nat} (h : isRun a b s0 x sfs r t = .error (.unwritten y)) :
    (∃ p, sfs.getD (r.g * x.maxSfb + r.sfb) none = some p) ∧
      ((x.mmp = 1 ∧ y = itemAddr a .msUsed (2 * r.g + r.sfb / 32) ∧ t.item? a .msUsed (2 * r.g + r.sfb / 32) = none) ∨
        ∃ i, r.first ≤ i ∧ i < r.first + r.len ∧ y = itemAddr a .spec i ∧ t.item? a .spec i = none) := by
  unfold isRun at h
  split at h
  · cases h
  rename_i p hp
  refine ⟨⟨p, hp⟩, ?_⟩
  rcases except_bind_error.mp h with h | ⟨used, -, h⟩
  · obtain ⟨hm, hy, hn⟩ := msUsedIfPerBand_error.mp h
    exact .inl ⟨hm, Stop.unwritten.inj hy, hn⟩
  rcases except_bind_error.mp h with h | ⟨was, -, h⟩
  · obtain ⟨i, h1, h2, hy, hn⟩ := readSpecRun_error h
    exact .inr ⟨i, h1, h2, Stop.unwritten.inj hy, hn⟩
  · cases h

/-- A run of IS in an intensity band reads its MS_USED word, and then the left slot's bins. -/
theorem isRun_faults (hp : ∃ p, sfs.getD (r.g * x.maxSfb + r.sfb) none = some p)
    (h : Faults (msUsedIfPerBand a x.mmp r.g r.sfb t) ∨ Faults (readSpecRun a r.first r.len t)) :
    Faults (isRun a b s0 x sfs r t) := by
  obtain ⟨p, hp⟩ := hp
  unfold isRun
  rw [hp]
  rcases h with h | h
  · exact h.bind _
  · exact (msUsedIfPerBand_quiet _ _ _ _ _).faults_bind fun _ _ => h.bind _

end

section
variable {a b : Nat} {s : State}

/-- A never-written word IS stops at is one it comes to read. -/
theorem isBody_reads {y : Nat} (h : isBody a b s = .error (.unwritten y)) : UnwrittenIn (ReadsWord s (.is a b)) s y := by
  unfold isBody at h
  rcases except_bind_error.mp h with h | ⟨x, hx, h⟩
  · exact (pairChecks_reads h).imp fun _ _ _ => .isPair
  obtain ⟨ics, legal, hmax, htypes⟩ := pairLegal_of_pairChecks hx
  have hW := readWindows_good legal.side.windows
  have hB := readBands_good legal.side.bands
  have hM := (readIcs_bounds legal.side.header).2.2.1
  have hL := frameLen_le s
  rw [hmax] at h
  rcases except_bind_error.mp h with h | ⟨sfs, hsfs, h⟩
  · obtain ⟨⟨g, sfb⟩, hgb, hstop, hbefore⟩ := checkAll_stops_at (bandList_pairwise _ _) (fun _ _ => BandBefore.asymm) h
    obtain ⟨hg, hb⟩ := mem_bandList.mp hgb
    obtain ⟨hint, hy, hn⟩ := isSfCheck_unwritten.mp hstop
    refine ⟨b, _, _, .isSf legal hg hb (htypes g hg sfb hb) hint fun g' sfb' t' hg' hb' hlt ht' hint' => ?_, hn, hy⟩
    cases ht'.symm.trans (htypes g' hg' sfb' hb')
    exact isSfCheck_total.mp (hbefore (g', sfb') (mem_bandList.mpr ⟨hg', hb'⟩) hlt) hint'
  · obtain ⟨r, hr, t, ht, hstop⟩ := applyAll_error (P := SpecStores [b] s)
      (fun r hr t t' ht h => isRun_ok (bandRuns_in hW hB hr).2.2.2 ht h) .refl h
    obtain ⟨hg8, hg, hsfb, hin⟩ := bandRuns_in hW hB hr
    have positions := (isPositions_legal htypes).mpr ⟨sfs, hsfs⟩
    obtain ⟨hp, hword⟩ := isRun_unwritten hstop
    have hint := (isSfs_getD hsfs hmax hg hsfb).mp hp
    rcases hword with ⟨hm, hy, hn⟩ | ⟨i, h1, h2, hy, hn⟩
    · exact ⟨a, _, _, .isUsed (hm ▸ legal) positions hg hsfb (htypes _ hg _ hsfb) hint,
        ht.none (by simp only [Item.count]; omega) hn, hy⟩
    · exact ⟨a, _, _, .isBin legal positions (by omega) (bandRuns_binBand hB hr h1 h2) (htypes _ hg _ hsfb) hint,
        ht.none (by simp only [Item.count]; omega) hn, hy⟩

/-- Past legal positions only the runs are left, and they raise nothing: a run of an intensity band that meets a never-written word
makes IS meet one. -/
theorem isBody_faults_of_run {ics : Ics} {win : Windows} {swb : List Nat} {mmp ty : Nat} {r : Run}
    (legal : PairLegal a b s ics win swb mmp) (positions : PositionsLegal b s ics win) (hr : r ∈ bandRuns win swb ics.maxSfb)
    (type : readBandType b r.g r.sfb s = .ok ty) (intensity : isIntensity ty = true)
    (hf : ∀ t, SpecStores [b] s t → Faults (msUsedIfPerBand a mmp r.g r.sfb t) ∨ Faults (readSpecRun a r.first r.len t)) :
    Faults (isBody a b s) := by
  have hW := readWindows_good legal.side.windows
  have hB := readBands_good legal.side.bands
  obtain ⟨-, hg, hb, -⟩ := bandRuns_in hW hB hr
  obtain ⟨x, hx, rfl, rfl, hmax, rfl, htypes⟩ := pairChecks_legal legal
  cases type.symm.trans (htypes _ hg _ hb)
  obtain ⟨sfs, hsfs⟩ := (isPositions_legal htypes).mp positions
  rw [isBody, hx, except_ok_bind, hmax, hsfs, except_ok_bind]
  exact faults_applyAll (Q := SpecStores [b] s) (fun _ _ _ _ => isRun_quiet _ _ _ _ _ _ _)
    (fun r hr t t' ht h => isRun_ok (bandRuns_in hW hB hr).2.2.2 ht h) .refl hr
    fun t ht => isRun_faults ((isSfs_getD hsfs hmax hg hb).mpr intensity) (hf t ht)

/-- IS faults when a word it comes to read was never written. -/
theorem isBody_faults (hab : a ≠ b) {c : Nat} {it : Item} {k : Nat} (h : ReadsWord s (.is a b) c it k)
    (hn : s.item? c it k = none) : Faults (isBody a b s) := by
  cases h with
  | isPair pair => exact (pairChecks_faults pair hn).bind _
  | @isSf _ _ ics win swb mmp g sfb t legal hg hb type intensity before =>
    obtain ⟨x, hx, rfl, rfl, hmax, hmmp, htypes⟩ := pairChecks_legal legal
    cases type.symm.trans (htypes g hg sfb hb)
    rw [isBody, hx, except_ok_bind, hmax]
    refine Faults.bind (faults_checkAll (x := (g, sfb)) (bandList_pairwise _ _) (mem_bandList.mpr ⟨hg, hb⟩)
      (fun y hy hlt => ?_) ⟨_, isSfCheck_unwritten.mpr ⟨intensity, rfl, hn⟩⟩) _
    obtain ⟨hg', hb'⟩ := mem_bandList.mp hy
    obtain ⟨o, ho⟩ : ∃ o, isSfCheck b x s y = .ok o := isSfCheck_total.mpr (before _ _ _ hg' hb' hlt (htypes _ hg' _ hb'))
    rw [ho]
    exact quiet_ok o
  | @isUsed _ _ ics win swb g sfb t legal positions hg hb type intensity =>
    have hW := readWindows_good legal.side.windows
    have hB := readBands_good legal.side.bands
    have hM := (readIcs_bounds legal.side.header).2.2.1
    obtain ⟨r, hr, rfl, rfl⟩ := exists_run (swb := swb) hW hg hb
    refine isBody_faults_of_run legal positions hr type intensity fun t ht => .inl ?_
    rw [ht.msUsed (bandRuns_in hW hB hr).1 (by omega)]
    exact ⟨_, msUsedIfPerBand_error.mpr ⟨rfl, rfl, hn⟩⟩
  | @isBin _ _ ics win swb mmp i g sfb t legal positions hi band type intensity =>
    have hW := readWindows_good legal.side.windows
    have hB := readBands_good legal.side.bands
    have hL := frameLen_le s
    obtain ⟨r, hr, rfl, rfl, h1, h2⟩ := band.exists_run hW hB hi
    refine isBody_faults_of_run legal positions hr type intensity fun t ht => .inr (readSpecRun_faults h1 h2 ?_)
    rw [ht.other (by simp only [Item.count]; omega) (by simp [hab]), hn]

end

end Sys2Proof.Machine
end

section
/-! Which words TNS comes to read, and that it faults at each of them that was never written (43_tns.md R143, R146, R148; 10_state.md
R51). -/

namespace Sys2Proof.Machine

/-! ## Coefficients (R143) -/

/-- R148's check of one coefficient. -/
def tnsCoefCheck (c w f nbits : Nat) (s : State) (i : Nat) : Except Stop Int := do
  let ci ← readCoef c w f i s
  if coefInRange nbits ci then return ci else .error (.raise .badTns c (bandDetail w f))

section
variable {c w f i nbits : Nat} {s : State}

theorem tnsCoefCheck_ok {ci : Int} :
    tnsCoefCheck c w f nbits s i = .ok ci ↔ readCoef c w f i s = .ok ci ∧ coefInRange nbits ci = true := by
  unfold tnsCoefCheck
  constructor
  · intro h
    obtain ⟨ci', hread, h⟩ := except_bind_ok.mp h
    split at h
    · cases h
      exact ⟨hread, ‹_›⟩
    · cases h
  · rintro ⟨hread, hrange⟩
    rw [hread, except_ok_bind, if_pos hrange]
    rfl

theorem tnsCoefCheck_unwritten {y : Nat} : tnsCoefCheck c w f nbits s i = .error (.unwritten y) ↔
    s.item? c .tnsCoef ((4 * w + f) * 32 + i) = none ∧ y = itemAddr c .tnsCoef ((4 * w + f) * 32 + i) := by
  unfold tnsCoefCheck readCoef
  rw [except_bind_error, readItem_bind_error, Stop.unwritten.injEq, and_comm]
  refine or_iff_left fun ⟨ci, _, h⟩ => ?_
  split at h <;> cases h

end

/-! ## What memory holds (R44, R45, R46) -/

/-- The fields of TNS_WIN of window `w`, where it was written. -/
def tnsWindowAt (c : Nat) (s : State) (w : Nat) : TnsWindow := tnsWindowOfWord ((s.item? c .tnsWin w).getD 0#32)

/-- The fields of TNS_FILT of filter `f` of window `w`, where it was written. -/
def tnsFilterAt (c : Nat) (s : State) (w f : Nat) : TnsFilter := tnsFilterOfWord ((s.item? c .tnsFilt (4 * w + f)).getD 0#32)

/-- The `i`-th coefficient index of filter `f` of window `w`, where it was written. -/
def tnsCoefAt (c : Nat) (s : State) (w f i : Nat) : Int := ((s.item? c .tnsCoef ((4 * w + f) * 32 + i)).getD 0#32).toInt

section
variable {c w f i : Nat} {s : State} {v : Word}

theorem tnsWindowIs_at (h : s.item? c .tnsWin w = some v) : TnsWindowIs c s (tnsWindowAt c s) w :=
  ⟨v, h, by rw [tnsWindowAt, h, Option.getD_some]⟩

theorem tnsFilterIs_at (h : s.item? c .tnsFilt (4 * w + f) = some v) : TnsFilterIs c s (tnsFilterAt c s) w f :=
  ⟨v, h, by rw [tnsFilterAt, h, Option.getD_some]⟩

theorem tnsCoefLegal_at {tw : Nat → TnsWindow} {filt : Nat → Nat → TnsFilter} {ci : Int}
    (h : tnsCoefCheck c w f (coefWidth (tw w).coefRes (filt w f).compress) s i = .ok ci) :
    TnsCoefLegal c s tw filt (tnsCoefAt c s) w f i := by
  obtain ⟨hread, hrange⟩ := tnsCoefCheck_ok.mp h
  obtain ⟨v, hv, rfl⟩ := readCoef_ok.mp hread
  have hat : tnsCoefAt c s w f i = v.toInt := by rw [tnsCoefAt, hv, Option.getD_some]
  exact ⟨hat ▸ hread, hat ▸ hrange⟩

end

/-! ## One filter (R146, R148) -/

/-- R148's checks of filter `f` of window `w`, which starts from band `top`: its fields and the coefficients it uses. -/
def tnsFilterCheck (c w : Nat) (ctrl : TnsCtrl) (ics : Ics) (swb : List Nat) (tw : TnsWindow) (s : State) (f top : Nat) :
    Except Stop (TnsFilter × List Int) := do
  let v ← s.readItem c .tnsFilt (4 * w + f)
  let fl := tnsFilterOfWord v
  if ics.isShort = true ∧ (15 < fl.length ∨ 7 < fl.order) then .error (.raise .badTns c (bandDetail w f))
  else do
    let coefs ← readPassCoefs c w f (tnsOrder ctrl fl) (coefWidth tw.coefRes fl.compress)
      (filterBin ctrl ics.maxSfb swb (top - fl.length)) (filterBin ctrl ics.maxSfb swb top) s
    return (fl, coefs)

/-- A window's checks are those of its filters, from the top band down. -/
theorem windowPasses_succ (c w : Nat) (ctrl : TnsCtrl) (ics : Ics) (win : Windows) (swb : List Nat) (tw : TnsWindow) (s : State)
    (n f top : Nat) : windowPasses c w ctrl ics win swb tw s (n + 1) f top = (do
      let x ← tnsFilterCheck c w ctrl ics swb tw s f top
      let rest ← windowPasses c w ctrl ics win swb tw s n (f + 1) (top - x.1.length)
      return { w := w, f := f, first := w * win.len + filterBin ctrl ics.maxSfb swb (top - x.1.length),
               len := filterBin ctrl ics.maxSfb swb top - filterBin ctrl ics.maxSfb swb (top - x.1.length),
               coefRes := tw.coefRes, coefs := x.2, down := x.1.down } :: rest) := by
  rw [windowPasses, tnsFilterCheck, bind_assoc]
  congr 1
  funext v
  dsimp only
  split
  · rfl
  · rw [bind_assoc]
    rfl

section
variable {c : Nat} {s : State} {ctrl : TnsCtrl} {ics : Ics} {win : Windows} {swb : List Nat} {tw : Nat → TnsWindow}
  {filt : Nat → Nat → TnsFilter} {coef : Nat → Nat → Nat → Int} {w f : Nat}

/-- The checks of filter `f` of window `w`, from the band the filters before it leave it. -/
def tnsFilterRead (c : Nat) (s : State) (ctrl : TnsCtrl) (ics : Ics) (swb : List Nat) (tw : Nat → TnsWindow)
    (filt : Nat → Nat → TnsFilter) (w f : Nat) : Except Stop (TnsFilter × List Int) :=
  tnsFilterCheck c w ctrl ics swb (tw w) s f (tnsTop ics.numSwb (fun h => (filt w h).length) f)

theorem tnsLimits_iff {fl : TnsFilter} : TnsLimits ics fl ↔ ¬(ics.isShort = true ∧ (15 < fl.length ∨ 7 < fl.order)) := by
  simp only [TnsLimits, not_and, not_or, not_lt]

/-- A written filter within the limits is checked coefficient by coefficient, if its range is not empty. -/
theorem tnsFilterRead_eq (hfilt : TnsFilterIs c s filt w f) (hlim : TnsLimits ics (filt w f)) :
    tnsFilterRead c s ctrl ics swb tw filt w f =
      (if tnsLo ctrl ics swb (filt w) f < tnsHi ctrl ics swb (filt w) f then
          checkAll (tnsCoefCheck c w f (coefWidth (tw w).coefRes (filt w f).compress) s) (List.range (tnsOrder ctrl (filt w f)))
        else .ok []) >>= fun coefs => pure (filt w f, coefs) := by
  obtain ⟨v, hv, hfields⟩ := hfilt
  rw [tnsFilterRead, tnsFilterCheck, readItem_ok.mpr hv, except_ok_bind]
  dsimp only
  rw [hfields, if_neg (tnsLimits_iff.mp hlim)]
  rfl

theorem tnsFilterRead_legal (h : TnsFilterLegal c s ctrl ics swb tw filt coef w f) :
    ∃ coefs, tnsFilterRead c s ctrl ics swb tw filt w f = .ok (filt w f, coefs) := by
  rw [tnsFilterRead_eq h.written h.limits]
  split
  · rename_i hrange
    obtain ⟨coefs, hcoefs⟩ := checkAll_total fun i hi => ⟨_, tnsCoefCheck_ok.mpr (h.coefs hrange i (List.mem_range.mp hi))⟩
    exact ⟨coefs, by rw [hcoefs]; rfl⟩
  · exact ⟨[], rfl⟩

/-- A filter's checks meet an unread coefficient that they come to. -/
theorem tnsFilterRead_faults {i : Nat} (hfilt : TnsFilterIs c s filt w f) (hlim : TnsLimits ics (filt w f))
    (hrange : tnsLo ctrl ics swb (filt w) f < tnsHi ctrl ics swb (filt w) f) (hi : i < tnsOrder ctrl (filt w f))
    (hbefore : ∀ i' < i, TnsCoefLegal c s tw filt coef w f i') (hn : s.item? c .tnsCoef ((4 * w + f) * 32 + i) = none) :
    Faults (tnsFilterRead c s ctrl ics swb tw filt w f) := by
  rw [tnsFilterRead_eq hfilt hlim, if_pos hrange]
  refine Faults.bind (faults_checkAll List.pairwise_lt_range (List.mem_range.mpr hi) (fun j _ hj => ?_)
    ⟨_, tnsCoefCheck_unwritten.mpr ⟨hn, rfl⟩⟩) _
  rw [tnsCoefCheck_ok.mpr (hbefore j hj)]
  exact quiet_ok _

/-- Filter `f` of window `w` stops at a never-written word: its TNS_FILT, or the first unread coefficient that it uses. -/
def TnsFilterUnread (c : Nat) (s : State) (ctrl : TnsCtrl) (ics : Ics) (swb : List Nat) (tw : Nat → TnsWindow)
    (filt : Nat → Nat → TnsFilter) (coef : Nat → Nat → Nat → Int) (w f y : Nat) : Prop :=
  (s.item? c .tnsFilt (4 * w + f) = none ∧ y = itemAddr c .tnsFilt (4 * w + f)) ∨
    (TnsFilterIs c s filt w f ∧ TnsLimits ics (filt w f) ∧ tnsLo ctrl ics swb (filt w) f < tnsHi ctrl ics swb (filt w) f ∧
      ∃ i < tnsOrder ctrl (filt w f), (∀ i' < i, TnsCoefLegal c s tw filt coef w f i') ∧
        s.item? c .tnsCoef ((4 * w + f) * 32 + i) = none ∧ y = itemAddr c .tnsCoef ((4 * w + f) * 32 + i))

/-- A filter that does not raise BAD_TNS for its fields is written and within the limits, if it is read at all. -/
theorem tnsFilterRead_fields :
    (s.item? c .tnsFilt (4 * w + f) = none ∧
      tnsFilterRead c s ctrl ics swb tw (tnsFilterAt c s) w f = .error (.unwritten (itemAddr c .tnsFilt (4 * w + f)))) ∨
    (∃ e ch d, tnsFilterRead c s ctrl ics swb tw (tnsFilterAt c s) w f = .error (.raise e ch d)) ∨
    (TnsFilterIs c s (tnsFilterAt c s) w f ∧ TnsLimits ics (tnsFilterAt c s w f)) := by
  cases hv : s.item? c .tnsFilt (4 * w + f) with
  | none => exact .inl ⟨rfl, by rw [tnsFilterRead, tnsFilterCheck, readItem_unwritten hv]; rfl⟩
  | some v =>
    by_cases hlim : TnsLimits ics (tnsFilterAt c s w f)
    · exact .inr (.inr ⟨tnsFilterIs_at hv, hlim⟩)
    · have hat : tnsFilterAt c s w f = tnsFilterOfWord v := by rw [tnsFilterAt, hv, Option.getD_some]
      rw [tnsLimits_iff, not_not, hat] at hlim
      refine .inr (.inl ⟨.badTns, c, bandDetail w f, ?_⟩)
      rw [tnsFilterRead, tnsFilterCheck, readItem_ok.mpr hv, except_ok_bind]
      exact if_pos hlim

theorem tnsFilterRead_ok {x : TnsFilter × List Int} (h : tnsFilterRead c s ctrl ics swb tw (tnsFilterAt c s) w f = .ok x) :
    x.1 = tnsFilterAt c s w f ∧ TnsFilterLegal c s ctrl ics swb tw (tnsFilterAt c s) (tnsCoefAt c s) w f := by
  rcases tnsFilterRead_fields (c := c) (s := s) (ctrl := ctrl) (ics := ics) (swb := swb) (tw := tw) (w := w) (f := f)
    with ⟨-, h'⟩ | ⟨_, _, _, h'⟩ | ⟨hfilt, hlim⟩
  · cases h.symm.trans h'
  · cases h.symm.trans h'
  rw [tnsFilterRead_eq hfilt hlim] at h
  obtain ⟨coefs, hcoefs, h⟩ := except_bind_ok.mp h
  cases except_pure_ok.mp h
  refine ⟨rfl, hfilt, hlim, fun hrange i hi => ?_⟩
  rw [if_pos hrange] at hcoefs
  obtain ⟨ci, -, hci⟩ := checkAll_get hcoefs (List.getElem?_range hi)
  exact tnsCoefLegal_at hci

theorem tnsFilterRead_unwritten {y : Nat}
    (h : tnsFilterRead c s ctrl ics swb tw (tnsFilterAt c s) w f = .error (.unwritten y)) :
    TnsFilterUnread c s ctrl ics swb tw (tnsFilterAt c s) (tnsCoefAt c s) w f y := by
  rcases tnsFilterRead_fields (c := c) (s := s) (ctrl := ctrl) (ics := ics) (swb := swb) (tw := tw) (w := w) (f := f)
    with ⟨hn, h'⟩ | ⟨_, _, _, h'⟩ | ⟨hfilt, hlim⟩
  · cases h.symm.trans h'
    exact .inl ⟨hn, rfl⟩
  · cases h.symm.trans h'
  rw [tnsFilterRead_eq hfilt hlim] at h
  rcases except_bind_error.mp h with h | ⟨_, -, h⟩
  swap
  · cases h
  split at h
  swap
  · cases h
  rename_i hrange
  obtain ⟨i, hi, hstop, hbefore⟩ := checkAll_stops_at List.pairwise_lt_range (fun _ _ => Nat.lt_asymm) h
  have hi := List.mem_range.mp hi
  refine .inr ⟨hfilt, hlim, hrange, i, hi, fun j hj => ?_, tnsCoefCheck_unwritten.mp hstop⟩
  obtain ⟨ci, hci⟩ := hbefore j (List.mem_range.mpr (hj.trans hi)) hj
  exact tnsCoefLegal_at hci

/-! ## The filters of a window -/

/-- The checks of a window's filters from filter `f` on. -/
def tnsFiltersRead (c : Nat) (s : State) (ctrl : TnsCtrl) (ics : Ics) (win : Windows) (swb : List Nat) (tw : Nat → TnsWindow)
    (filt : Nat → Nat → TnsFilter) (w n f : Nat) : Except Stop (List FilterPass) :=
  windowPasses c w ctrl ics win swb (tw w) s n f (tnsTop ics.numSwb (fun h => (filt w h).length) f)

/-- A filter that passes hands the band it ends at to the next. -/
theorem tnsFiltersRead_succ {n : Nat} {coefs : List Int} (h : tnsFilterRead c s ctrl ics swb tw filt w f = .ok (filt w f, coefs)) :
    ∃ x : FilterPass, tnsFiltersRead c s ctrl ics win swb tw filt w (n + 1) f =
      (tnsFiltersRead c s ctrl ics win swb tw filt w n (f + 1) >>= fun rest => pure (x :: rest)) := by
  unfold tnsFilterRead at h
  rw [tnsFiltersRead, windowPasses_succ, h]
  exact ⟨_, rfl⟩

theorem tnsFiltersRead_stops {n : Nat} {e : Stop} (h : tnsFilterRead c s ctrl ics swb tw filt w f = .error e) :
    tnsFiltersRead c s ctrl ics win swb tw filt w (n + 1) f = .error e := by
  unfold tnsFilterRead at h
  rw [tnsFiltersRead, windowPasses_succ, h]
  rfl

/-- The filters of a window meet a never-written word if filter `f` does and those before it are legal. -/
theorem tnsFiltersRead_faults {n f0 : Nat} (h0 : f0 ≤ f) (hn : f < f0 + n)
    (hbefore : ∀ f' < f, TnsFilterLegal c s ctrl ics swb tw filt coef w f')
    (hf : Faults (tnsFilterRead c s ctrl ics swb tw filt w f)) :
    Faults (tnsFiltersRead c s ctrl ics win swb tw filt w n f0) := by
  induction n generalizing f0 with
  | zero => omega
  | succ n ih =>
    rcases Nat.eq_or_lt_of_le h0 with rfl | hlt
    · obtain ⟨y, hy⟩ := hf
      exact ⟨y, tnsFiltersRead_stops hy⟩
    · obtain ⟨coefs, hcoefs⟩ := tnsFilterRead_legal (hbefore f0 hlt)
      obtain ⟨x, hx⟩ := tnsFiltersRead_succ (win := win) (n := n) hcoefs
      rw [hx]
      exact (ih hlt (by omega)).bind _

theorem tnsFiltersRead_ok {n : Nat} {ps : List FilterPass}
    (h : tnsFiltersRead c s ctrl ics win swb tw (tnsFilterAt c s) w n f = .ok ps) :
    ∀ g, f ≤ g → g < f + n → TnsFilterLegal c s ctrl ics swb tw (tnsFilterAt c s) (tnsCoefAt c s) w g := by
  induction n generalizing f ps with
  | zero => intro g h1 h2; omega
  | succ n ih =>
    cases hf : tnsFilterRead c s ctrl ics swb tw (tnsFilterAt c s) w f with
    | error e => cases h.symm.trans (tnsFiltersRead_stops hf)
    | ok x =>
      obtain ⟨hfields, hlegal⟩ := tnsFilterRead_ok hf
      obtain ⟨_, coefs⟩ := x
      cases hfields
      obtain ⟨x, hx⟩ := tnsFiltersRead_succ (win := win) (n := n) hf
      rw [hx] at h
      obtain ⟨rest, hrest, -⟩ := except_bind_ok.mp h
      intro g h1 h2
      rcases Nat.eq_or_lt_of_le h1 with rfl | hlt
      · exact hlegal
      · exact ih hrest g hlt (by omega)

theorem tnsFiltersRead_unwritten {n y : Nat}
    (h : tnsFiltersRead c s ctrl ics win swb tw (tnsFilterAt c s) w n f = .error (.unwritten y)) :
    ∃ g, f ≤ g ∧ g < f + n ∧
      (∀ g', f ≤ g' → g' < g → TnsFilterLegal c s ctrl ics swb tw (tnsFilterAt c s) (tnsCoefAt c s) w g') ∧
      TnsFilterUnread c s ctrl ics swb tw (tnsFilterAt c s) (tnsCoefAt c s) w g y := by
  induction n generalizing f with
  | zero => cases h
  | succ n ih =>
    cases hf : tnsFilterRead c s ctrl ics swb tw (tnsFilterAt c s) w f with
    | error e =>
      cases h.symm.trans (tnsFiltersRead_stops hf)
      exact ⟨f, le_rfl, by omega, fun g' h1 h2 => absurd h1 (by omega), tnsFilterRead_unwritten hf⟩
    | ok x =>
      obtain ⟨hfields, hlegal⟩ := tnsFilterRead_ok hf
      obtain ⟨_, coefs⟩ := x
      cases hfields
      obtain ⟨x, hx⟩ := tnsFiltersRead_succ (win := win) (n := n) hf
      rw [hx] at h
      rcases except_bind_error.mp h with h | ⟨_, -, h⟩
      swap
      · cases h
      obtain ⟨g, h1, h2, hbefore, hstop⟩ := ih h
      refine ⟨g, by omega, by omega, fun g' h3 h4 => ?_, hstop⟩
      rcases Nat.eq_or_lt_of_le h3 with rfl | hlt
      · exact hlegal
      · exact hbefore g' hlt h4

/-! ## The windows (R148) -/

theorem tnsWindowCheck_eq (hwin : TnsWindowIs c s tw w) (hfew : (tw w).nfilt ≤ tnsFilterCap ics) :
    tnsWindowCheck c ctrl ics win swb s w = tnsFiltersRead c s ctrl ics win swb tw filt w (tw w).nfilt 0 := by
  obtain ⟨v, hv, hfields⟩ := hwin
  rw [tnsWindowCheck, readItem_ok.mpr hv, except_ok_bind]
  dsimp only
  rw [hfields]
  exact if_neg (not_lt.mpr hfew)

/-- A window's TNS_WIN is unread, or it raises BAD_TNS for too many filters, or its filters are checked. -/
theorem tnsWindowCheck_fields :
    (s.item? c .tnsWin w = none ∧ tnsWindowCheck c ctrl ics win swb s w = .error (.unwritten (itemAddr c .tnsWin w))) ∨
    (∃ e ch d, tnsWindowCheck c ctrl ics win swb s w = .error (.raise e ch d)) ∨
    (TnsWindowIs c s (tnsWindowAt c s) w ∧ (tnsWindowAt c s w).nfilt ≤ tnsFilterCap ics) := by
  cases hv : s.item? c .tnsWin w with
  | none => exact .inl ⟨rfl, by rw [tnsWindowCheck, readItem_unwritten hv]; rfl⟩
  | some v =>
    by_cases hfew : (tnsWindowAt c s w).nfilt ≤ tnsFilterCap ics
    · exact .inr (.inr ⟨tnsWindowIs_at hv, hfew⟩)
    · have hat : tnsWindowAt c s w = tnsWindowOfWord v := by rw [tnsWindowAt, hv, Option.getD_some]
      rw [not_le, hat] at hfew
      refine .inr (.inl ⟨.badTns, c, bandDetail w 0xFF, ?_⟩)
      rw [tnsWindowCheck, readItem_ok.mpr hv, except_ok_bind]
      exact if_pos hfew

theorem tnsWindowLegal_at {ps : List FilterPass} (h : tnsWindowCheck c ctrl ics win swb s w = .ok ps) :
    TnsWindowLegal c s ctrl ics swb (tnsWindowAt c s) (tnsFilterAt c s) (tnsCoefAt c s) w := by
  rcases tnsWindowCheck_fields (c := c) (s := s) (ctrl := ctrl) (ics := ics) (win := win) (swb := swb) (w := w)
    with ⟨-, h'⟩ | ⟨_, _, _, h'⟩ | ⟨hwin, hfew⟩
  · cases h.symm.trans h'
  · cases h.symm.trans h'
  rw [tnsWindowCheck_eq hwin hfew] at h
  exact ⟨hwin, hfew, fun f hf => tnsFiltersRead_ok h f (Nat.zero_le f) (by omega)⟩

theorem tnsWindowCheck_unwritten {y : Nat} (h : tnsWindowCheck c ctrl ics win swb s w = .error (.unwritten y)) :
    (s.item? c .tnsWin w = none ∧ y = itemAddr c .tnsWin w) ∨
      (TnsWindowIs c s (tnsWindowAt c s) w ∧ (tnsWindowAt c s w).nfilt ≤ tnsFilterCap ics ∧
        ∃ f < (tnsWindowAt c s w).nfilt,
          (∀ f' < f, TnsFilterLegal c s ctrl ics swb (tnsWindowAt c s) (tnsFilterAt c s) (tnsCoefAt c s) w f') ∧
          TnsFilterUnread c s ctrl ics swb (tnsWindowAt c s) (tnsFilterAt c s) (tnsCoefAt c s) w f y) := by
  rcases tnsWindowCheck_fields (c := c) (s := s) (ctrl := ctrl) (ics := ics) (win := win) (swb := swb) (w := w)
    with ⟨hn, h'⟩ | ⟨_, _, _, h'⟩ | ⟨hwin, hfew⟩
  · cases h.symm.trans h'
    exact .inl ⟨hn, rfl⟩
  · cases h.symm.trans h'
  rw [tnsWindowCheck_eq hwin hfew] at h
  obtain ⟨f, -, hf, hbefore, hstop⟩ := tnsFiltersRead_unwritten h
  exact .inr ⟨hwin, hfew, f, by omega, fun f' hf' => hbefore f' (Nat.zero_le f') hf', hstop⟩

theorem tnsWindowCheck_faults (hwin : TnsWindowIs c s tw w) (hfew : (tw w).nfilt ≤ tnsFilterCap ics) (hf : f < (tw w).nfilt)
    (hbefore : ∀ f' < f, TnsFilterLegal c s ctrl ics swb tw filt coef w f')
    (hstop : Faults (tnsFilterRead c s ctrl ics swb tw filt w f)) : Faults (tnsWindowCheck c ctrl ics win swb s w) := by
  rw [tnsWindowCheck_eq (filt := filt) hwin hfew]
  exact tnsFiltersRead_faults (Nat.zero_le f) (by omega) hbefore hstop

/-! ## The passes (R147) -/

theorem tnsPass_quiet (c : Nat) (s0 : State) (x : FilterPass) (t : State) : Quiet (tnsPass c s0 x t) := by
  unfold tnsPass
  split
  · exact quiet_ok _
  · exact (readSpecRun_quiet _ _ _ _).bind fun _ _ => quiet_ok _

theorem tnsPass_unwritten {s0 t : State} {x : FilterPass} {y : Nat} (h : tnsPass c s0 x t = .error (.unwritten y)) :
    x.coefs ≠ [] ∧ ∃ i, x.first ≤ i ∧ i < x.first + x.len ∧ t.item? c .spec i = none ∧ y = itemAddr c .spec i := by
  unfold tnsPass at h
  split at h
  · cases h
  rename_i hruns
  rcases except_bind_error.mp h with h | ⟨_, -, h⟩
  · obtain ⟨i, h1, h2, hy, hn⟩ := readSpecRun_error h
    exact ⟨fun h0 => hruns (.inl h0), i, h1, h2, hn, Stop.unwritten.inj hy⟩
  · cases h

/-- A pass reads every word it rewrites, so it leaves the unread ones unread. -/
theorem tnsPass_keeps_unwritten {s0 t t' : State} {x : FilterPass} {i : Nat} (hi : i < 1024) (hx : x.first + x.len ≤ 1024)
    (hn : t.item? c .spec i = none) (h : tnsPass c s0 x t = .ok t') : t'.item? c .spec i = none := by
  unfold tnsPass at h
  split at h
  · cases h; exact hn
  obtain ⟨words, hwords, h⟩ := except_bind_ok.mp h
  cases except_pure_ok.mp h
  have lw := readSpecRun_length hwords
  rw [item_setItems_other (by simp [filterElems_length, lw, Item.count]; omega) (by simpa [Item.count] using hi), hn]
  rintro ⟨-, -, h1, h2⟩
  cases (readSpecRun_item hwords h1 (by simpa [filterElems_length, lw] using h2)).symm.trans hn

/-- The pass of a filter reads bins exactly if the filter runs. -/
theorem tnsPassOf_coefs : (tnsPassOf ctrl ics win swb tw filt coef w f).coefs ≠ [] ↔
    tnsOrder ctrl (filt w f) ≠ 0 ∧ tnsLo ctrl ics swb (filt w) f < tnsHi ctrl ics swb (filt w) f := by
  simp only [tnsPassOf]
  split
  · rename_i hrange
    simp [hrange]
  · rename_i hrange
    simp [hrange]

/-! ## The words TNS reads -/

/-- TNS's body past the header and MAX_ORDER. -/
theorem tnsBody_eq (present : TnsPresent c s ctrl ics win swb) (order : ctrl.maxOrder ≤ tnsOrderCap ics) : tnsBody c s = (do
    let passes ← checkAll (tnsWindowCheck c ctrl ics win swb s) (List.range win.count)
    applyAll (tnsPass c s) passes.flatten s) := by
  obtain ⟨⟨v, hv, rfl, hp⟩, side⟩ := present
  rw [tnsBody_present hv hp, tnsFilterBody, side.header, except_ok_bind, side.windows, except_ok_bind, side.bands, except_ok_bind]
  exact if_neg (not_lt.mpr order)

/-- On legal windows TNS's body is its passes. -/
theorem tnsBody_passes (present : TnsPresent c s ctrl ics win swb) (order : ctrl.maxOrder ≤ tnsOrderCap ics)
    (windows : ∀ w < win.count, TnsWindowLegal c s ctrl ics swb tw filt coef w) :
    tnsBody c s = applyAll (tnsPass c s) (tnsPassesOf ctrl ics win swb tw filt coef) s ∧
      ∀ x ∈ tnsPassesOf ctrl ics win swb tw filt coef, x.first + x.len ≤ s.frameLen := by
  have hpasses : checkAll (tnsWindowCheck c ctrl ics win swb s) (List.range win.count) =
      .ok ((List.range win.count).map fun w => (List.range (tw w).nfilt).map (tnsPassOf ctrl ics win swb tw filt coef w)) :=
    checkAll_map fun w hw => tnsWindowCheck_legal (windows w (List.mem_range.mp hw))
  refine ⟨by rw [tnsBody_eq present order, hpasses]; rfl, ?_⟩
  exact tnsWindowCheck_ok (readWindows_good present.side.windows) (readBands_good present.side.bands) hpasses

end

section
variable {c : Nat} {s : State}

/-- A never-written word the windows or the passes of TNS stop at is one it comes to read. -/
theorem tnsBody_reads_windows {ctrl : TnsCtrl} {ics : Ics} {win : Windows} {swb : List Nat}
    (present : TnsPresent c s ctrl ics win swb) (order : ctrl.maxOrder ≤ tnsOrderCap ics) {y : Nat}
    (h : tnsBody c s = .error (.unwritten y)) : UnwrittenIn (ReadsWord s (.tns c)) s y := by
  have hbody := h
  rw [tnsBody_eq present order] at h
  rcases except_bind_error.mp h with h | ⟨passes, hpasses, -⟩
  · obtain ⟨w, hw, hstop, hbefore⟩ := checkAll_stops_at List.pairwise_lt_range (fun _ _ => Nat.lt_asymm) h
    have hw := List.mem_range.mp hw
    have before : ∀ w' < w, TnsWindowLegal c s ctrl ics swb (tnsWindowAt c s) (tnsFilterAt c s) (tnsCoefAt c s) w' :=
      fun w' hw' => (hbefore w' (List.mem_range.mpr (hw'.trans hw)) hw').elim fun _ => tnsWindowLegal_at
    rcases tnsWindowCheck_unwritten hstop with ⟨hn, hy⟩ | ⟨window, few, f, hf, filters, ⟨hn, hy⟩ | hcoef⟩
    · exact ⟨c, _, _, .tnsWindow present order hw before, hn, hy⟩
    · exact ⟨c, _, _, .tnsFilter present order hw before window few hf filters, hn, hy⟩
    · obtain ⟨filter, limits, range, i, hi, coefs, hn, hy⟩ := hcoef
      exact ⟨c, _, _, .tnsCoef present order hw before window few hf filters filter limits range hi coefs, hn, hy⟩
  · have windows : ∀ w < win.count, TnsWindowLegal c s ctrl ics swb (tnsWindowAt c s) (tnsFilterAt c s) (tnsCoefAt c s) w :=
      fun w hw => (checkAll_get hpasses (List.getElem?_range hw)).elim fun _ hx => tnsWindowLegal_at hx.2
    obtain ⟨heq, hin⟩ := tnsBody_passes present order windows
    obtain ⟨x, hx, t, ht, hstop⟩ := applyAll_error (P := SpecStores [c] s) (fun x hx t t' ht h => tnsPass_ok (hin x hx) ht h) .refl
      (heq.symm.trans hbody)
    obtain ⟨hcoefs, i, h1, h2, hn, hy⟩ := tnsPass_unwritten hstop
    have hi := hin x hx
    have hl := frameLen_le s
    obtain ⟨w, hw, f, hf, rfl⟩ := mem_tnsPassesOf.mp hx
    obtain ⟨horder, hrange⟩ := tnsPassOf_coefs.mp hcoefs
    have hnone : s.item? c .spec i = none := ht.none (by simp only [Item.count]; omega) hn
    simp only [tnsPassOf] at h1 h2
    obtain ⟨k, rfl⟩ : ∃ k, i = w * win.len + k := ⟨i - w * win.len, by omega⟩
    exact ⟨c, _, _, .tnsBin present order windows ⟨hw, hf, horder, hrange⟩ (by omega) (by omega), hnone, hy⟩

/-- A never-written word TNS stops at is one it comes to read. -/
theorem tnsBody_reads {y : Nat} (h : tnsBody c s = .error (.unwritten y)) : UnwrittenIn (ReadsWord s (.tns c)) s y := by
  have hbody := h
  unfold tnsBody at h
  rcases except_bind_error.mp h with h | ⟨v, hv, h⟩
  · obtain ⟨hy, hn⟩ := readItem_error.mp h
    exact ⟨c, _, _, .tnsControl, hn, Stop.unwritten.inj hy⟩
  split at h
  swap
  · cases h
  rename_i hp
  have hv := readItem_ok.mp hv
  cases hics : readIcs c s with
  | error e =>
    obtain rfl : e = .unwritten y := by rw [tnsFilterBody, hics] at h; exact Except.error.inj h
    obtain ⟨it, k, hr, hn⟩ := readsHeader_of_readIcs hics
    exact ⟨c, it, k, .tnsHeader hv hp hr, hn⟩
  | ok ics =>
  cases hside : (readWindows c ics s >>= fun win => readBands c ics win s) with
  | error e =>
    obtain rfl : e = .unwritten y := Except.error.inj ((tnsFilterBody_of_sideStops _ hics hside).symm.trans h)
    obtain ⟨it, k, hr, hn⟩ := readsHeader_of_sideStops hics hside
    exact ⟨c, it, k, .tnsHeader hv hp hr, hn⟩
  | ok swb =>
  obtain ⟨win, hwin, hswb⟩ := except_bind_ok.mp hside
  have side : SideInfo c s ics win swb := ⟨hics, hwin, hswb⟩
  refine tnsBody_reads_windows ⟨⟨v, hv, rfl, hp⟩, side⟩ (not_lt.mp fun horder => ?_) hbody
  rw [tnsFilterBody, hics, except_ok_bind, hwin, except_ok_bind, hswb, except_ok_bind] at h
  cases (if_pos horder).symm.trans h

/-- Past the header and MAX_ORDER, TNS meets a never-written word if a window's checks do and the windows before it are legal. -/
theorem tnsBody_faults_of_window {ctrl : TnsCtrl} {ics : Ics} {win : Windows} {swb : List Nat} {tw : Nat → TnsWindow}
    {filt : Nat → Nat → TnsFilter} {coef : Nat → Nat → Nat → Int} {w : Nat} (present : TnsPresent c s ctrl ics win swb)
    (order : ctrl.maxOrder ≤ tnsOrderCap ics) (hw : w < win.count)
    (before : ∀ w' < w, TnsWindowLegal c s ctrl ics swb tw filt coef w')
    (hf : Faults (tnsWindowCheck c ctrl ics win swb s w)) : Faults (tnsBody c s) := by
  rw [tnsBody_eq present order]
  refine Faults.bind (faults_checkAll List.pairwise_lt_range (List.mem_range.mpr hw) (fun w' _ hlt => ?_) hf) _
  rw [tnsWindowCheck_legal (before w' hlt)]
  exact quiet_ok _

/-- TNS faults when a word it comes to read was never written. -/
theorem tnsBody_faults {c' : Nat} {it : Item} {k : Nat} (h : ReadsWord s (.tns c) c' it k) (hn : s.item? c' it k = none) :
    Faults (tnsBody c s) := by
  cases h with
  | tnsControl => exact ⟨_, by rw [tnsBody, readItem_unwritten hn]; rfl⟩
  | tnsHeader control present header =>
    rw [tnsBody_present control present]
    rcases header_faults header hn with ⟨y, hy⟩ | ⟨ics, y, hi, hy⟩
    · exact ⟨y, by rw [tnsFilterBody, hy]; rfl⟩
    · exact ⟨y, tnsFilterBody_of_sideStops _ hi hy⟩
  | tnsWindow present order hw before =>
    exact tnsBody_faults_of_window present order hw before ⟨_, by rw [tnsWindowCheck, readItem_unwritten hn]; rfl⟩
  | @tnsFilter _ ctrl ics win swb tw filt coef w f present order hw before window few hf filters =>
    have hread : Faults (tnsFilterRead c s ctrl ics swb tw filt w f) :=
      ⟨_, by rw [tnsFilterRead, tnsFilterCheck, readItem_unwritten hn]; rfl⟩
    exact tnsBody_faults_of_window present order hw before (tnsWindowCheck_faults window few hf filters hread)
  | tnsCoef present order hw before window few hf filters filter limits range hi coefs =>
    exact tnsBody_faults_of_window present order hw before (tnsWindowCheck_faults window few hf filters
      (tnsFilterRead_faults filter limits range hi coefs hn))
  | @tnsBin _ ctrl ics win swb tw filt coef w f k present order legal runs lo hi =>
    obtain ⟨hw, hf, horder, hrange⟩ := runs
    obtain ⟨heq, hin⟩ := tnsBody_passes present order legal
    have hx : tnsPassOf ctrl ics win swb tw filt coef w f ∈ tnsPassesOf ctrl ics win swb tw filt coef :=
      mem_tnsPassesOf.mpr ⟨w, hw, f, hf, rfl⟩
    have hcoefs := (tnsPassOf_coefs (win := win) (tw := tw) (coef := coef)).mpr ⟨horder, hrange⟩
    have hl := frameLen_le s
    have hend := hin _ hx
    rw [heq]
    refine faults_applyAll (Q := fun t => t.item? c .spec (w * win.len + k) = none) (fun x _ t _ => tnsPass_quiet c s x t)
      (fun x hx' t t' ht h => ?_) hn hx fun t ht => ?_
    · have := hin x hx'
      refine tnsPass_keeps_unwritten ?_ (by omega) ht h
      simp only [tnsPassOf] at hend
      omega
    · rw [tnsPass, if_neg]
      · refine Faults.bind (readSpecRun_faults ?_ ?_ ht) _ <;> simp only [tnsPassOf] <;> omega
      · rintro (h | h)
        · exact hcoefs h
        · simp only [tnsPassOf] at h
          omega

end

end Sys2Proof.Machine
end

section
/-! A command faults exactly at the never-written words it comes to read (10_state.md R51; 44_filter_bank.md R170). -/

namespace Sys2Proof.Machine

section
variable {c : Nat} {s : State}

/-! ## FB (R170) -/

theorem readFrame_quiet (c : Nat) (it : Item) (s : State) : Quiet (readFrame c it s) := by
  rw [readFrame_eq]
  exact quiet_checkAll fun _ _ => readItem_quiet _ _ _ _

theorem readFrame_unwritten {it : Item} {y : Nat} (h : readFrame c it s = .error (.unwritten y)) :
    ∃ k < s.frameLen, s.item? c it k = none ∧ y = itemAddr c it k := by
  rw [readFrame_eq] at h
  obtain ⟨k, hk, h⟩ := checkAll_error h
  obtain ⟨hy, hn⟩ := readItem_error.mp h
  exact ⟨k, List.mem_range.mp hk, hn, Stop.unwritten.inj hy⟩

theorem readFrame_faults {it : Item} {k : Nat} (hk : k < s.frameLen) (hn : s.item? c it k = none) :
    Faults (readFrame c it s) := by
  rw [readFrame_eq]
  exact faults_checkAll List.pairwise_lt_range (List.mem_range.mpr hk) (fun _ _ _ => readItem_quiet _ _ _ _)
    ⟨_, readItem_unwritten hn⟩

/-- A never-written word FB stops at is one it comes to read. -/
theorem fbBody_reads {y : Nat} (h : fbBody c s = .error (.unwritten y)) : UnwrittenIn (ReadsWord s (.fb c)) s y := by
  unfold fbBody at h
  rcases except_bind_error.mp h with h | ⟨ics, -, h⟩
  · obtain ⟨hy, hn⟩ := readIcs_error.mp h
    exact ⟨c, _, _, .fbHeader, hn, Stop.unwritten.inj hy⟩
  rcases except_bind_error.mp h with h | ⟨prev, -, h⟩
  · obtain ⟨hy, hn⟩ := readItem_error.mp h
    exact ⟨c, _, _, .fbState, hn, Stop.unwritten.inj hy⟩
  rcases except_bind_error.mp h with h | ⟨spec, -, h⟩
  · obtain ⟨k, hk, hn, hy⟩ := readFrame_unwritten h
    exact ⟨c, _, _, .fbBin hk, hn, hy⟩
  rcases except_bind_error.mp h with h | ⟨ovl, -, h⟩
  · obtain ⟨k, hk, hn, hy⟩ := readFrame_unwritten h
    exact ⟨c, _, _, .fbOverlap hk, hn, hy⟩
  · cases h

/-- FB faults when a word it comes to read was never written. -/
theorem fbBody_faults {c' : Nat} {it : Item} {k : Nat} (h : ReadsWord s (.fb c) c' it k) (hn : s.item? c' it k = none) :
    Faults (fbBody c s) := by
  unfold fbBody
  cases h with
  | fbHeader => exact Faults.bind ⟨_, readIcs_error.mpr ⟨rfl, hn⟩⟩ _
  | fbState => exact (readIcs_quiet _ _).faults_bind fun _ _ => Faults.bind ⟨_, readItem_unwritten hn⟩ _
  | fbBin hk =>
    exact (readIcs_quiet _ _).faults_bind fun _ _ => (readItem_quiet _ _ _ _).faults_bind fun _ _ => (readFrame_faults hk hn).bind _
  | fbOverlap hk =>
    exact (readIcs_quiet _ _).faults_bind fun _ _ => (readItem_quiet _ _ _ _).faults_bind fun _ _ =>
      (readFrame_quiet _ _ _).faults_bind fun _ _ => (readFrame_faults hk hn).bind _

end

/-! ## O14 -/

section
variable {i : Instr} {s : State}

/-- A never-written word a command stops at is one it comes to read. -/
theorem commandBody_reads {y : Nat} (h : commandBody i s = .error (.unwritten y)) : UnwrittenIn (ReadsWord s i) s y := by
  cases i with
  | nop => cases h
  | iq c => exact iqBody_reads h
  | ms a b => exact msBody_reads h
  | is a b => exact isBody_reads h
  | tns c => exact tnsBody_reads h
  | fb c => exact fbBody_reads h
  | fend => cases h
  | srst => cases h

/-- A command past R203's and R205's checks faults when a word it comes to read was never written. -/
theorem commandBody_faults (ha : Accepted i s) {c : Nat} {it : Item} {k : Nat} (h : ReadsWord s i c it k)
    (hn : s.item? c it k = none) : Faults (commandBody i s) := by
  cases i with
  | nop => cases h
  | iq c => exact iqBody_faults h hn
  | ms a b => exact msBody_faults h hn
  | is a b =>
    obtain ⟨-, -, -, hab⟩ := ha
    exact isBody_faults hab h hn
  | tns c => exact tnsBody_faults h hn
  | fb c => exact fbBody_faults h hn
  | fend => cases h
  | srst => cases h

end

/-- Settles O14: a command's body meets a never-written word exactly when it comes to read one, and stops at such a word. -/
theorem unwrittenReadFaults : Obligations.UnwrittenReadFaults := by
  unfold Obligations.UnwrittenReadFaults
  intro i s
  constructor
  · rintro ha ⟨c, it, k, hread, hn⟩
    obtain ⟨y, hy⟩ := commandBody_faults ha hread hn
    obtain ⟨c', it', k', hread', hn', rfl⟩ := commandBody_reads hy
    exact ⟨c', it', k', hread', hn', exec_unwritten ha hy⟩
  · intro x hx
    obtain ⟨ha, y, hy, rfl⟩ := exec_fault hx
    obtain ⟨c, it, k, hread, hn, rfl⟩ := commandBody_reads hy
    exact ⟨ha, c, it, k, hread, hn, rfl⟩

end Sys2Proof.Machine
end

section
/-! On the host's turn a step is the host's next event, and a command in flight gets its turn (20_memory.md R62, R67;
70_reset_and_hazards.md R231, R247): O6 and O7. -/

namespace Sys2Proof.Machine

/-! ## The host's turn (R67) -/

section
variable {s : State} {op : HostOp} {rest : List HostOp}

theorem HostActs.step_eq (h : HostActs s) : step s = hostStep s := by
  unfold step
  rw [if_neg]
  rcases h with h | h <;> simp [h]

theorem hostStep_nil (h : s.pending = []) : hostStep s = .next s := by unfold hostStep; rw [h]

theorem hostStep_cons (h : s.pending = op :: rest) : hostStep s = hostEvent op (s.popped rest) := by
  unfold hostStep; rw [h]; rfl

/-- On the host's turn a step is its next event. -/
theorem HostActs.step_cons (h : HostActs s) (hp : s.pending = op :: rest) : step s = hostEvent op (s.popped rest) :=
  h.step_eq.trans (hostStep_cons hp)

/-- A host with no event left lets the command in flight complete (log 2). -/
theorem sequencerTurn_nil (h : s.pending = []) : sequencerTurn s = true := by unfold sequencerTurn; rw [h]

/-- A host that waits lets the command in flight complete (log 2). -/
theorem sequencerTurn_wait (h : s.pending = .wait :: rest) : sequencerTurn s = true := by unfold sequencerTurn; rw [h]

end

/-- Settles O6: on the host's turn a step is `hostStep`, which is its next event. -/
theorem hostTurn : Obligations.HostTurn := by
  unfold Obligations.HostTurn
  refine ⟨fun s h hp => h.step_eq.trans (hostStep_nil hp), fun s rest h => ⟨fun addr size hp => ?_, fun addr size v hp => ?_,
    fun hp => ?_, fun hp => ?_⟩, fun s => sequencerTurn_nil, fun s rest => sequencerTurn_wait⟩
  · exact h.step_cons hp
  · exact h.step_cons hp
  · exact h.step_cons hp
  · exact h.step_cons hp

/-! ## The command in flight while the host acts (R66, R67) -/

/-- The block answers the event, and it is no power-on reset. -/
def Answered (p : Params) : HostOp → Prop
  | .read addr size => ∃ l, locate p addr size = .ok l
  | .write addr size _ => ∃ l, locate p addr size = .ok l
  | .wait => True
  | .powerOn => False

/-- `t` has the command in flight of `s`, with all that the command can read. -/
def KeepsCommand (s t : State) : Prop :=
  t.status.busy = s.status.busy ∧ t.latch = s.latch ∧ t.mem = s.mem ∧ t.params = s.params ∧ t.cfg = s.cfg

theorem KeepsCommand.trans {s t u : State} (h : KeepsCommand s t) (h' : KeepsCommand t u) : KeepsCommand s u := by
  obtain ⟨hb, hl, hm, hp, hc⟩ := h
  obtain ⟨hb', hl', hm', hp', hc'⟩ := h'
  exact ⟨hb'.trans hb, hl'.trans hl, hm'.trans hm, hp'.trans hp, hc'.trans hc⟩

section
variable {s : State}

/-- While BUSY = 1 no write reaches the command: a STATUS write clears flags only, any other is dropped (R66). -/
theorem writeLoc_keepsCommand (hb : s.status.busy = true) (l : Loc) (v : Word) :
    KeepsCommand s (writeLoc l v s) ∧ (writeLoc l v s).pending = s.pending := by
  by_cases hl : l = .reg .status
  · rw [hl, writeLoc_status, writeStatus_eq]
    exact ⟨⟨rfl, rfl, rfl, rfl, rfl⟩, rfl⟩
  · rw [writeLoc_busy hb hl]
    exact ⟨⟨rfl, rfl, rfl, rfl, rfl⟩, rfl⟩

/-- While BUSY = 1 an event that is answered keeps the command in flight. -/
theorem hostEvent_keepsCommand (hb : s.status.busy = true) {op : HostOp} (hop : Answered s.params op) :
    ∃ t, hostEvent op s = .next t ∧ KeepsCommand s t ∧ t.pending = s.pending := by
  cases op with
  | read addr size =>
    obtain ⟨l, hl⟩ := hop
    exact ⟨_, hostRead_ok hl, ⟨rfl, rfl, rfl, rfl, rfl⟩, rfl⟩
  | write addr size v =>
    obtain ⟨l, hl⟩ := hop
    exact ⟨_, hostWrite_ok hl, writeLoc_keepsCommand hb l v⟩
  | wait => exact ⟨s, rfl, ⟨rfl, rfl, rfl, rfl, rfl⟩, rfl⟩
  | powerOn => exact hop.elim

theorem core_run_succ {M : Host.Core} {x y : M.State} (h : M.step x = .next y) (k : Nat) : M.run (k + 1) x = M.run k y := by
  simp only [Host.Core.run, h]

theorem runFor_succ {t : State} (h : step s = .next t) (k : Nat) : runFor (k + 1) s = runFor k t :=
  core_run_succ (M := core) h k

/-- The sequencer's turn comes, by induction on the host's queue: each event before it is answered and leaves a shorter queue. -/
theorem sequencerTurn_reached {events : List HostOp} (hp : s.pending = events) (hb : s.status.busy = true)
    (hops : ∀ op ∈ events, Answered s.params op) :
    ∃ k t, k ≤ events.length ∧ runFor k s = .next t ∧ sequencerTurn t = true ∧ KeepsCommand s t := by
  induction events generalizing s with
  | nil => exact ⟨0, s, le_rfl, rfl, sequencerTurn_nil hp, rfl, rfl, rfl, rfl, rfl⟩
  | cons op rest ih =>
    cases hturn : sequencerTurn s with
    | true => exact ⟨0, s, Nat.zero_le _, rfl, hturn, rfl, rfl, rfl, rfl, rfl⟩
    | false =>
      obtain ⟨t, ht, kept, htp⟩ := hostEvent_keepsCommand (s := s.popped rest) hb (hops op List.mem_cons_self)
      have hstep : step s = .next t := (HostActs.step_cons (.inr hturn) hp).trans ht
      have keptS : KeepsCommand s t := kept
      have ⟨tb, _, _, tp, _⟩ := keptS
      obtain ⟨k, u, hk, hrun, hu, keptT⟩ := ih htp (tb.trans hb)
        (fun o ho => tp.symm ▸ hops o (List.mem_cons_of_mem _ ho))
      exact ⟨k + 1, u, Nat.succ_le_succ hk, (runFor_succ hstep k).trans hrun, hu, keptS.trans keptT⟩

end

/-- Settles O7: while the host acts its events keep the command in flight and are used up. -/
theorem commandGetsItsTurn : Obligations.CommandGetsItsTurn := by
  unfold Obligations.CommandGetsItsTurn
  intro s hb hops
  have hans : ∀ op ∈ s.pending, Answered s.params op := hops
  obtain ⟨k, t, hk, hrun, hturn, kb, kl, km, kp, kc⟩ := sequencerTurn_reached rfl hb hans
  exact ⟨k, t, hk, hrun, kb.trans hb, hturn, kl, km, kp, kc⟩

end Sys2Proof.Machine
end

section
/-! Which host accesses get a bus error, and what the others do while a command is in flight (20_memory.md R60 to R68): O25, O26 and
O27. -/

namespace Sys2Proof.Machine

/-! ## Bus errors (R60 to R62) -/

section
variable {s : State} {p : Params} {addr size off : Nat} {v : Word} {why : BusError}

theorem hostRead_error (h : locate s.params addr size = .error why) :
    hostRead addr size s = .fault (.busError why addr) := by
  unfold hostRead; rw [h]

theorem hostWrite_error (h : locate s.params addr size = .error why) :
    hostWrite addr size v s = .fault (.busError why addr) := by
  unfold hostWrite; rw [h]

/-- Only aligned word accesses are answered (R62). -/
theorem locate_badAccess (h : size ≠ 4 ∨ addr % 4 ≠ 0) : ∃ why, locate p addr size = .error why := by
  unfold locate
  by_cases hs : size ≠ 4
  · exact ⟨_, if_pos hs⟩
  · exact ⟨_, (if_neg hs).trans (if_pos (h.resolve_left hs))⟩

theorem locate_unmapped (hp : p.valid = true) (ha : off % 4 = 0) (hs : off < 0x10000 * (p.nch + 1))
    (hl : locOfOffset off = none) : locate p (p.base + off) 4 = .error .unmapped := by
  unfold Params.valid at hp
  simp only [Bool.and_eq_true, decide_eq_true_eq, beq_iff_eq] at hp
  unfold locate
  rw [if_neg (by omega), if_neg (by omega), if_neg (by omega), Nat.add_sub_cancel_left, hl]

/-- The gaps between the items of a slot (R30, R60). -/
theorem itemAt_eq_none {o : Nat} : itemAt o = none ↔
    (0x4014 ≤ o ∧ o ≤ 0x40FF) ∨ (0x5240 ≤ o ∧ o ≤ 0x52FF) ∨ (0x5320 ≤ o ∧ o ≤ 0x53FF) ∨ (0x5480 ≤ o ∧ o ≤ 0x5FFF) ∨
      0x7000 ≤ o := by
  have h : itemAt o = none ↔ ∀ it ∈ Item.all, ¬(it.offset ≤ o ∧ o < it.offset + 4 * it.count) := by
    simp [itemAt, List.find?_eq_none]
  rw [h]
  simp only [Item.all, List.forall_mem_cons, Item.offset, Item.count, List.not_mem_nil, false_imp_iff, implies_true,
    and_true]
  omega

/-- The registers fill the word offsets up to 0x1C (R21). -/
theorem regAt_eq_none (ha : off % 4 = 0) : (GlobalReg.all.find? fun r => r.offset == off) = none ↔ 0x20 ≤ off := by
  simp only [List.find?_eq_none, GlobalReg.all, List.forall_mem_cons, GlobalReg.offset, beq_iff_eq]
  simp only [List.not_mem_nil, false_imp_iff, implies_true, and_true]
  omega

/-- The word offsets no location has are the unmapped ones (R60). -/
theorem locOfOffset_eq_none (ha : off % 4 = 0) : locOfOffset off = none ↔ Unmapped off := by
  unfold locOfOffset Unmapped
  by_cases h : off < 0x10000
  · rw [if_pos h, Option.map_eq_none_iff, regAt_eq_none ha]
    omega
  · rw [if_neg h, Option.map_eq_none_iff, itemAt_eq_none]
    omega

end

/-- Settles O25. -/
theorem accessWidth : Obligations.AccessWidth := by
  unfold Obligations.AccessWidth
  refine ⟨fun s addr size v h => ?_, fun s t addr size => hostRead_next⟩
  obtain ⟨why, hl⟩ := locate_badAccess (p := s.params) h
  exact ⟨why, hostRead_error hl, hostWrite_error hl⟩

/-- Settles O26: the word offsets without a location are the unmapped ones. -/
theorem unmappedOffsets : Obligations.UnmappedOffsets := by
  unfold Obligations.UnmappedOffsets
  intro s off v hp ha hs
  refine ⟨fun hu => ?_, fun hu => ?_⟩
  · have hl := locate_unmapped hp ha hs ((locOfOffset_eq_none ha).mpr hu)
    exact ⟨hostRead_error hl, hostWrite_error hl⟩
  · obtain ⟨l, hloc⟩ := Option.ne_none_iff_exists'.mp (mt (locOfOffset_eq_none ha).mp hu)
    have hl := locate_ok hp ha hs hloc
    exact ⟨⟨_, hostRead_ok hl⟩, _, hostWrite_ok hl⟩

/-! ## Write sets (R48, R66) -/

section
variable {s : State} {l : Loc}

theorem isFrameOf_iff {c : Nat} {it : Item} : isFrameOf c it s l = true ↔ ∃ k < s.frameLen, l = .item c it k := by
  cases l with
  | reg r => simp [isFrameOf]
  | item c' it' k =>
    simp only [isFrameOf, Bool.and_eq_true, beq_iff_eq, decide_eq_true_eq, Loc.item.injEq]
    constructor
    · rintro ⟨⟨rfl, rfl⟩, hk⟩
      exact ⟨k, hk, rfl, rfl, rfl⟩
    · rintro ⟨_, hk, rfl, rfl, rfl⟩
      exact ⟨⟨rfl, rfl⟩, hk⟩

theorem isChannelStateLoc_iff : isChannelStateLoc l = true ↔ ∃ c k, l = .item c .ovl k ∨ l = .item c .chstate k := by
  cases l with
  | reg r => simp [isChannelStateLoc]
  | item c it k => cases it <;> simp [isChannelStateLoc, Item.isChannelState]

/-- The frames of two items together. -/
theorem isFrameOf_or_iff {c c' : Nat} {it it' : Item} :
    (isFrameOf c it s l || isFrameOf c' it' s l) = true ↔ ∃ k < s.frameLen, l = .item c it k ∨ l = .item c' it' k := by
  simp only [Bool.or_eq_true, isFrameOf_iff, and_or_left, exists_or]

end

/-! ## Reads while a command is in flight (R66, R68) -/

section
variable {s : State} {l : Loc} {i : Instr}

/-- A legal word is in flight while BUSY = 1 (R48). -/
theorem inFlight_eq_some (hb : s.status.busy = true) : s.inFlight = some i ↔ decode s.latch = .ok i := by
  unfold State.inFlight
  rw [if_pos hb]
  cases decode s.latch with
  | ok j => simp
  | error e => simp

/-- A location of the write set in flight reads as a draw (R66). -/
theorem readLoc_inWriteSet (hb : s.status.busy = true) (hd : decode s.latch = .ok i) (hw : inWriteSet i s l = true) :
    readLoc s l = drawnRead s l := by
  unfold readLoc
  rw [(inFlight_eq_some hb).mpr hd]
  exact if_pos hw

/-- Any other location reads as its value (R66). -/
theorem readLoc_not_inWriteSet (hb : s.status.busy = true) (hw : ∀ i, decode s.latch = .ok i → inWriteSet i s l = false) :
    readLoc s l = currentValue s l := by
  unfold readLoc
  cases hf : s.inFlight with
  | none => rfl
  | some i => exact if_neg (by simp [hw i ((inFlight_eq_some hb).mp hf)])

/-- FB in flight: STARTED and WT read as a draw (log 13). -/
theorem readStatus_fb {c : Nat} (hb : s.status.busy = true) (hd : decode s.latch = .ok (.fb c)) : readStatus s =
    ({ s.status with started := bit 3 (Config.freeRead s.draws), wt := bit 6 (Config.freeRead s.draws) } : Status).toWord := by
  unfold readStatus
  rw [(inFlight_eq_some hb).mpr hd]

/-- SRST in flight: every field but BUSY reads as a draw (log 13). -/
theorem readStatus_srst (hb : s.status.busy = true) (hd : decode s.latch = .ok .srst) :
    readStatus s = Config.freeRead s.draws &&& 0x0000FF7E#32 ||| 0x00000001#32 := by
  unfold readStatus
  rw [(inFlight_eq_some hb).mpr hd]

/-- Any other word in flight: STATUS reads as it is (log 13). -/
theorem readStatus_other (hb : s.status.busy = true) (hfb : ∀ c, decode s.latch ≠ .ok (.fb c))
    (hsrst : decode s.latch ≠ .ok .srst) : readStatus s = s.status.toWord := by
  unfold readStatus
  split
  · rename_i c hf
    exact absurd ((inFlight_eq_some hb).mp hf) (hfb c)
  · rename_i hf
    exact absurd ((inFlight_eq_some hb).mp hf) hsrst
  · rfl

/-- Two words agree under a mask when they agree on each bit in it. -/
theorem and_congr_mask {r r' m : Word} (h : ∀ i < 32, m.getLsbD i = true → r.getLsbD i = r'.getLsbD i) :
    r &&& m = r' &&& m := by
  refine BitVec.eq_of_getLsbD_eq fun i hi => ?_
  rw [BitVec.getLsbD_and, BitVec.getLsbD_and]
  cases hm : m.getLsbD i with
  | false => rw [Bool.and_false, Bool.and_false]
  | true => rw [h i hi hm]

/-- STATUS with other STARTED and WT bits differs in bits 3 and 6 only. -/
theorem status_startedWt (t : Status) (r : Word) :
    ({ t with started := bit 3 r, wt := bit 6 r } : Status).toWord &&& 0xFFFFFFB7#32 = t.toWord &&& 0xFFFFFFB7#32 ∧
      ({ t with started := bit 3 r, wt := bit 6 r } : Status).toWord &&& 0x00000048#32 = r &&& 0x00000048#32 := by
  constructor
  · refine and_congr_mask fun i hi hm => ?_
    have h3 : i ≠ 3 := by rintro rfl; cases hm
    have h6 : i ≠ 6 := by rintro rfl; cases hm
    simp [getLsbD_status, h3, h6]
  · refine and_congr_mask fun i hi hm => ?_
    have hbits : ∀ i < 32, (0x00000048#32).getLsbD i = true → i = 3 ∨ i = 6 := by decide
    rcases hbits i hi hm with rfl | rfl
    · rw [getLsbD_status]; simp [bit_eq_getLsbD]
    · rw [getLsbD_status]; simp [bit_eq_getLsbD]

/-- A STATUS read while a command is in flight shows BUSY, by which the host observes completion (R68). -/
theorem readStatus_busy (hb : s.status.busy = true) : (readStatus s).getLsbD 0 = true := by
  unfold readStatus
  split
  · simp [getLsbD_status, hb]
  · simp
  · simp [getLsbD_status, hb]

end

/-- Settles O27: the write sets by their iff lemmas, then the four accesses. -/
theorem busyAccesses : Obligations.BusyAccesses := by
  unfold Obligations.BusyAccesses
  refine ⟨?_, fun s addr l hb hl => ⟨fun hs v => ?_, fun i hd hw => ?_, fun _ hw => ?_, ?_⟩⟩
  · rintro s l L rfl
    refine ⟨rfl, fun c => isFrameOf_iff, fun a b => isFrameOf_or_iff, fun a b => isFrameOf_iff, fun c => isFrameOf_iff,
      fun c => ?_, beq_iff_eq, ?_⟩
    · rw [inWriteSet, Bool.or_eq_true, isFrameOf_or_iff, beq_iff_eq]
      rfl
    · simp only [inWriteSet, Bool.or_eq_true, beq_iff_eq, isChannelStateLoc_iff, or_assoc]
  · rw [hostWrite_ok hl, writeLoc_busy hb hs]
  · rw [hostRead_ok hl, readLoc_inWriteSet hb hd hw, drawnRead]
  · rw [hostRead_ok hl, readLoc_not_inWriteSet hb hw]
  · rintro rfl
    refine ⟨readStatus s, ?_, readStatus_busy hb, fun c hd => ?_, fun hd => ?_, readStatus_other hb⟩
    · rw [hostRead_ok hl, readLoc_reg (by simp), currentValue]
    · rw [readStatus_fb hb hd]
      exact status_startedWt s.status (Config.freeRead s.draws)
    · rw [readStatus_srst hb hd, BitVec.and_or_distrib_right, BitVec.and_assoc,
        show 0x0000FF7E#32 &&& 0xFFFFFFFE#32 = 0x0000FF7E#32 from rfl,
        show 0x00000001#32 &&& 0xFFFFFFFE#32 = 0x00000000#32 from rfl, BitVec.or_zero]

end Sys2Proof.Machine
end

section
/-! Decoding and encoding are inverse, and R82's match and mask list decides which words are legal (30_encoding.md R80 to R86): O1,
O2 and O3. -/

namespace Sys2Proof

open Machine

/-! ## A word is its four fields (R80) -/

section
variable {w w' : Word}

theorem word_toNat_eq_fields (w : Word) :
    w.toNat = opField w * 2 ^ 24 + caField w * 2 ^ 20 + cbField w * 2 ^ 16 + rsvField w := by
  have := w.isLt
  simp only [opField, caField, cbField, rsvField, bits]
  omega

theorem word_eq_iff_fields : w = w' ↔
    opField w = opField w' ∧ caField w = caField w' ∧ cbField w = cbField w' ∧ rsvField w = rsvField w' := by
  constructor
  · rintro rfl
    exact ⟨rfl, rfl, rfl, rfl⟩
  · rintro ⟨hop, hca, hcb, hrsv⟩
    exact BitVec.eq_of_toNat_eq (by rw [word_toNat_eq_fields, word_toNat_eq_fields w', hop, hca, hcb, hrsv])

theorem bits_and (hi lo : Nat) (w m : Word) : bits hi lo (w &&& m) = bits hi lo w &&& bits hi lo m := by
  simp only [bits_eq_extractLsb', BitVec.extractLsb'_and, BitVec.toNat_and]

/-- A field under a mask that covers it where `p` holds and leaves it out where not. -/
theorem field_and_mask {x k : Nat} (hx : x < 2 ^ k) (p : Prop) [Decidable p] :
    x &&& (if p then 2 ^ k - 1 else 0) = 0 ↔ (p → x = 0) := by
  by_cases hp : p
  · rw [if_pos hp, Nat.and_two_pow_sub_one_of_lt_two_pow hx]
    exact ⟨fun h _ => h, fun h => h hp⟩
  · simp [hp]

end

/-! ## Operation codes and operands (R81, R82) -/

/-- The code in OP (R82). -/
def Instr.opcode : Instr → Nat
  | .nop => 0x00
  | .iq _ => 0x01
  | .ms _ _ => 0x02
  | .is _ _ => 0x03
  | .tns _ => 0x04
  | .fb _ => 0x05
  | .fend => 0x10
  | .srst => 0x11

section
variable {i j : Instr} {w : Word}

theorem opcode_lt (i : Instr) : i.opcode < 256 := by cases i <;> simp [Instr.opcode]

theorem encode_eq_commandWord (i : Instr) :
    encode i = commandWord i.opcode (i.channels.getD 0 0) (i.channels.getD 1 0) := by
  cases i <;> rfl

/-- A command is well-formed when what stands in CA and CB fits (R81, R86). -/
theorem wellFormed_iff_operands : i.WellFormed ↔ i.channels.getD 0 0 < 16 ∧ i.channels.getD 1 0 < 16 := by
  cases i <;> simp [wellFormed_iff, Instr.channels]

/-! ## Decoding (R81, R84) -/

theorem decodeN_eq_ok : decodeN i w = .ok j ↔ i = j ∧ caField w = 0 ∧ cbField w = 0 ∧ rsvField w = 0 := by
  unfold decodeN
  split <;> simp [*]

theorem decodeC_eq_ok {f : Nat → Instr} :
    decodeC f w = .ok j ↔ f (caField w) = j ∧ cbField w = 0 ∧ rsvField w = 0 := by
  unfold decodeC
  split <;> simp [*]

theorem decodeP_eq_ok {f : Nat → Nat → Instr} :
    decodeP f w = .ok j ↔ f (caField w) (cbField w) = j ∧ rsvField w = 0 := by
  unfold decodeP
  split <;> simp [*]

/-- A word decodes to the command whose code stands in OP and whose operands stand in CA and CB, the other fields being 0. -/
theorem decode_eq_ok : decode w = .ok i ↔
    opField w = i.opcode ∧ caField w = i.channels.getD 0 0 ∧ cbField w = i.channels.getD 1 0 ∧ rsvField w = 0 := by
  constructor
  · intro h
    unfold decode at h
    split at h
    case h_9 => cases h
    case h_1 hop | h_7 hop | h_8 hop =>
      obtain ⟨rfl, hca, hcb, hrsv⟩ := decodeN_eq_ok.mp h
      exact ⟨hop, hca, hcb, hrsv⟩
    case h_2 hop | h_5 hop | h_6 hop =>
      obtain ⟨rfl, hcb, hrsv⟩ := decodeC_eq_ok.mp h
      exact ⟨hop, rfl, hcb, hrsv⟩
    case h_3 hop | h_4 hop =>
      obtain ⟨rfl, hrsv⟩ := decodeP_eq_ok.mp h
      exact ⟨hop, rfl, rfl, hrsv⟩
  · rintro ⟨hop, hca, hcb, hrsv⟩
    unfold decode
    rw [hop]
    cases i with
    | nop | fend | srst => exact decodeN_eq_ok.mpr ⟨rfl, hca, hcb, hrsv⟩
    | iq c | tns c | fb c => exact decodeC_eq_ok.mpr ⟨by rw [hca]; rfl, hcb, hrsv⟩
    | ms a b | is a b => exact decodeP_eq_ok.mpr ⟨by rw [hca, hcb]; rfl, hrsv⟩

theorem decode_wellFormed (h : decode w = .ok i) : i.WellFormed := by
  obtain ⟨-, hca, hcb, -⟩ := decode_eq_ok.mp h
  exact wellFormed_iff_operands.mpr ⟨hca ▸ bits_lt 23 20 w, hcb ▸ bits_lt 19 16 w⟩

/-- The encoding of a well-formed command is the one word that decodes to it: both have the same four fields. -/
theorem decode_eq_ok_iff_eq_encode (hi : i.WellFormed) : decode w = .ok i ↔ w = encode i := by
  obtain ⟨ha, hb⟩ := wellFormed_iff_operands.mp hi
  obtain ⟨hop, hca, hcb, hrsv⟩ := commandWord_fields (opcode_lt i) ha hb
  rw [decode_eq_ok, encode_eq_commandWord, word_eq_iff_fields, hop, hca, hcb, hrsv]

theorem decode_encode (hi : i.WellFormed) : decode (encode i) = .ok i := (decode_eq_ok_iff_eq_encode hi).mpr rfl

end

/-- Settles O1: a word is its four fields, and decoding reads the fields that encoding writes. -/
theorem decodeEncodeAgree : Obligations.DecodeEncodeAgree := by
  unfold Obligations.DecodeEncodeAgree
  exact ⟨fun i hi w => decode_eq_ok_iff_eq_encode hi, fun w i => decode_wellFormed⟩

/-! ## The match and mask list (R82) -/

/-- The mask of a format with `n` operands: the fields it fixes. -/
def formatMask : Nat → Word
  | 0 => 0xFFFFFFFF#32
  | 1 => 0xFF0FFFFF#32
  | _ => 0xFF00FFFF#32

/-- A command's row of the match and mask list. -/
def Instr.row (i : Instr) : OpcodeRow := ⟨i.mnemonic, commandWord i.opcode 0 0, formatMask i.channels.length⟩

section
variable {i : Instr} {r : OpcodeRow} {w : Word}

theorem formatMask_fields (n : Nat) : opField (formatMask n) = 2 ^ 8 - 1 ∧
    caField (formatMask n) = (if n ≤ 0 then 2 ^ 4 - 1 else 0) ∧ cbField (formatMask n) = (if n ≤ 1 then 2 ^ 4 - 1 else 0) ∧
      rsvField (formatMask n) = 2 ^ 16 - 1 := by
  match n with
  | 0 => decide
  | 1 => decide
  | n + 2 =>
    have mask : formatMask (n + 2) = 0xFF00FFFF#32 := rfl
    rw [mask, if_neg (by omega), if_neg (by omega)]
    decide

/-- The list is made of the commands' rows. -/
theorem mem_opcodeTable : r ∈ opcodeTable ↔ ∃ i : Instr, r = i.row := by
  have table : opcodeTable =
      [Instr.nop, .iq 0, .ms 0 0, .is 0 0, .tns 0, .fb 0, .fend, .srst].map Instr.row := rfl
  rw [table, List.mem_map]
  constructor
  · rintro ⟨i, -, rfl⟩
    exact ⟨i, rfl⟩
  · rintro ⟨i, rfl⟩
    cases i with
    | nop => exact ⟨.nop, by simp, rfl⟩
    | iq c => exact ⟨.iq 0, by simp, rfl⟩
    | ms a b => exact ⟨.ms 0 0, by simp, rfl⟩
    | is a b => exact ⟨.is 0 0, by simp, rfl⟩
    | tns c => exact ⟨.tns 0, by simp, rfl⟩
    | fb c => exact ⟨.fb 0, by simp, rfl⟩
    | fend => exact ⟨.fend, by simp, rfl⟩
    | srst => exact ⟨.srst, by simp, rfl⟩

/-- Its rows have different mnemonics. -/
theorem opcodeTable_mnemonics_nodup : (opcodeTable.map OpcodeRow.mnemonic).Nodup := by decide

/-- A word hits a command's row when its OP is the command's and the fields that hold no operand are 0. -/
theorem row_hits_iff : i.row.hits w = true ↔ opField w = i.opcode ∧ (i.channels.length ≤ 0 → caField w = 0) ∧
    (i.channels.length ≤ 1 → cbField w = 0) ∧ rsvField w = 0 := by
  obtain ⟨mop, mca, mcb, mrsv⟩ := formatMask_fields i.channels.length
  obtain ⟨pop, pca, pcb, prsv⟩ := commandWord_fields (opcode_lt i) (by decide : 0 < 16) (by decide : 0 < 16)
  rw [OpcodeRow.hits, beq_iff_eq, word_eq_iff_fields]
  simp only [Instr.row, pop, pca, pcb, prsv]
  simp only [opField, caField, cbField, rsvField, bits_and] at mop mca mcb mrsv ⊢
  rw [mop, mca, mcb, mrsv, field_and_mask (bits_lt 23 20 w), field_and_mask (bits_lt 19 16 w),
    Nat.and_two_pow_sub_one_of_lt_two_pow (bits_lt 31 24 w), Nat.and_two_pow_sub_one_of_lt_two_pow (bits_lt 15 0 w)]

theorem row_hits_of_decode (h : decode w = .ok i) : i.row.hits w = true := by
  obtain ⟨hop, hca, hcb, hrsv⟩ := decode_eq_ok.mp h
  exact row_hits_iff.mpr ⟨hop, fun hn => hca.trans (List.getD_eq_default _ _ hn),
    fun hn => hcb.trans (List.getD_eq_default _ _ hn), hrsv⟩

/-- A word that hits a command's row is legal, of that mnemonic. -/
theorem decode_of_row_hits (h : i.row.hits w = true) : ∃ j, decode w = .ok j ∧ j.mnemonic = i.mnemonic := by
  obtain ⟨hop, hca, hcb, hrsv⟩ := row_hits_iff.mp h
  cases i with
  | nop => exact ⟨.nop, decode_eq_ok.mpr ⟨hop, hca le_rfl, hcb zero_le_one, hrsv⟩, rfl⟩
  | iq c => exact ⟨.iq (caField w), decode_eq_ok.mpr ⟨hop, rfl, hcb le_rfl, hrsv⟩, rfl⟩
  | ms a b => exact ⟨.ms (caField w) (cbField w), decode_eq_ok.mpr ⟨hop, rfl, rfl, hrsv⟩, rfl⟩
  | is a b => exact ⟨.is (caField w) (cbField w), decode_eq_ok.mpr ⟨hop, rfl, rfl, hrsv⟩, rfl⟩
  | tns c => exact ⟨.tns (caField w), decode_eq_ok.mpr ⟨hop, rfl, hcb le_rfl, hrsv⟩, rfl⟩
  | fb c => exact ⟨.fb (caField w), decode_eq_ok.mpr ⟨hop, rfl, hcb le_rfl, hrsv⟩, rfl⟩
  | fend => exact ⟨.fend, decode_eq_ok.mpr ⟨hop, hca le_rfl, hcb zero_le_one, hrsv⟩, rfl⟩
  | srst => exact ⟨.srst, decode_eq_ok.mpr ⟨hop, hca le_rfl, hcb zero_le_one, hrsv⟩, rfl⟩

/-- A legal word hits its command's row only. -/
theorem hits_iff_mnemonic (h : decode w = .ok i) (hr : r ∈ opcodeTable) : r.hits w = true ↔ r.mnemonic = i.mnemonic := by
  constructor
  · intro hh
    obtain ⟨k, rfl⟩ := mem_opcodeTable.mp hr
    obtain ⟨j, hj, hm⟩ := decode_of_row_hits hh
    obtain rfl := Except.ok.inj (hj.symm.trans h)
    exact hm.symm
  · intro hm
    obtain rfl : r = i.row :=
      List.inj_on_of_nodup_map opcodeTable_mnemonics_nodup hr (mem_opcodeTable.mpr ⟨i, rfl⟩) hm
    exact row_hits_of_decode h

/-- An illegal word hits no row (R84). -/
theorem decode_error_iff_no_row : (∃ e, decode w = .error e) ↔ ∀ r ∈ opcodeTable, r.hits w = false := by
  constructor
  · rintro ⟨e, he⟩ r hr
    obtain ⟨i, rfl⟩ := mem_opcodeTable.mp hr
    by_contra hh
    obtain ⟨j, hj, -⟩ := decode_of_row_hits (Bool.eq_true_of_not_eq_false hh)
    cases he.symm.trans hj
  · intro hno
    cases hd : decode w with
    | error e => exact ⟨e, rfl⟩
    | ok i => cases (row_hits_of_decode hd).symm.trans (hno _ (mem_opcodeTable.mpr ⟨i, rfl⟩))

end

/-- Settles O2: the rows are the commands', and their mnemonics differ. -/
theorem opcodeTableDecides : Obligations.OpcodeTableDecides := by
  unfold Obligations.OpcodeTableDecides
  exact fun w => ⟨fun i h r hr => hits_iff_mnemonic h hr, decode_error_iff_no_row⟩

/-- Settles O3: every word is a literal, so the decoder decides it. -/
theorem decodedWords : Obligations.DecodedWords := by
  unfold Obligations.DecodedWords
  decide

end Sys2Proof
end

section
/-! What a step on the latched word does: a legal word runs its command, an illegal one raises ILLEGAL_CMD, and a bad channel
operand raises BAD_CHANNEL (30_encoding.md R84 to R86; 60_exceptions.md R203): O4, O5 and O16. -/

namespace Sys2Proof.Machine

/-! ## The sequencer's turn (R84, R85) -/

section
variable {s : State} {i : Instr}

theorem step_eq_sequencerStep (hb : s.status.busy = true) (ht : sequencerTurn s = true) : step s = sequencerStep s := by
  unfold step
  rw [hb, ht]
  rfl

theorem Executes.step_eq (h : Executes s i) : step s = exec i s := by
  obtain ⟨hb, ht, hd⟩ := h
  rw [step_eq_sequencerStep hb ht, sequencerStep, hd]

theorem step_illegal {e : DecodeError} (hb : s.status.busy = true) (ht : sequencerTurn s = true)
    (hd : decode s.latch = .error e) : step s = raised .illegalCmd 0 (opField s.latch) s := by
  rw [step_eq_sequencerStep hb ht, sequencerStep, hd]
  rfl

theorem decodeTableWord_eq_some {nbits w : Nat} : decodeTableWord nbits w = some i ↔ decode (tableWord nbits w) = .ok i := by
  unfold decodeTableWord
  cases decode (tableWord nbits w) with
  | ok j => simp
  | error e => simp

/-- The host that wrote a legal word waits for it, so the next step executes it (log 3). -/
theorem withFetchWord_executes {nbits w : Nat} (h : decodeTableWord nbits w = some i) :
    Executes (s.withFetchWord nbits w) i :=
  ⟨rfl, sequencerTurn_wait rfl, decodeTableWord_eq_some.mp h⟩

end

/-- Settles O4: both are steps that execute the decoded command (`Executes.step_eq`). -/
theorem stepRunsDecoded : Obligations.StepRunsDecoded := by
  unfold Obligations.StepRunsDecoded
  exact ⟨fun s i hb ht hd => Executes.step_eq ⟨hb, ht, hd⟩, fun s nbits w i h => (withFetchWord_executes h).step_eq⟩

/-- Settles O5. -/
theorem illegalWordRaises : Obligations.IllegalWordRaises := by
  unfold Obligations.IllegalWordRaises
  exact ⟨fun w => decode_error_iff_no_row, fun s e => step_illegal⟩

/-! ## Channel operands (R86, R203) -/

section
variable {s : State} {a b c : Nat}

theorem runCommand_badChannel {i : Instr} {fe : Bool} {x : Nat} {body : Except Stop State} (hf : s.status.fatal = false) :
    runCommand i fe (some x) body s = raised .badChannel x 0 s := by
  unfold runCommand
  rw [if_neg (by simp [hf])]
  rfl

theorem badChannelC_eq_some (hc : s.params.nch ≤ c) : badChannelC c s = some c := if_pos hc

theorem badChannelP_left (ha : s.params.nch ≤ a) : badChannelP a b s = some a := if_pos ha

theorem badChannelP_right (ha : a < s.params.nch) (hb : s.params.nch ≤ b) : badChannelP a b s = some b := by
  rw [badChannelP, if_neg (not_le.mpr ha), if_pos hb]

theorem badChannelP_equal (ha : a < s.params.nch) : badChannelP a a s = some a := by
  rw [badChannelP, if_neg (not_le.mpr ha), if_neg (not_le.mpr ha), if_pos rfl]

/-- The operand of a format C command is its channel, which is checked before its body runs (R81, R203). -/
theorem formatC_shape {f : Nat → Instr} (hf : f ∈ [Instr.iq, Instr.tns, Instr.fb]) (c : Nat) :
    (f c).channels = [c] ∧ ∀ s, ∃ body, exec (f c) s = runCommand (f c) false (badChannelC c s) body s := by
  simp only [List.mem_cons, List.not_mem_nil, or_false] at hf
  rcases hf with rfl | rfl | rfl
  · exact ⟨rfl, fun s => ⟨iqBody c s, rfl⟩⟩
  · exact ⟨rfl, fun s => ⟨tnsBody c s, rfl⟩⟩
  · exact ⟨rfl, fun s => ⟨fbBody c s, rfl⟩⟩

/-- The operands of a format P command are its pair, which is checked before its body runs (R81, R203). -/
theorem formatP_shape {f : Nat → Nat → Instr} (hf : f ∈ [Instr.ms, Instr.is]) (a b : Nat) :
    (f a b).channels = [a, b] ∧ ∀ s, ∃ body, exec (f a b) s = runCommand (f a b) false (badChannelP a b s) body s := by
  simp only [List.mem_cons, List.not_mem_nil, or_false] at hf
  rcases hf with rfl | rfl
  · exact ⟨rfl, fun s => ⟨msBody a b s, rfl⟩⟩
  · exact ⟨rfl, fun s => ⟨isBody a b s, rfl⟩⟩

theorem exec_badChannelC {f : Nat → Instr} (hf : f ∈ [Instr.iq, Instr.tns, Instr.fb]) (hs : s.status.fatal = false) {x : Nat}
    (hx : badChannelC c s = some x) : exec (f c) s = raised .badChannel x 0 s := by
  obtain ⟨body, h⟩ := (formatC_shape hf c).2 s
  rw [h, hx, runCommand_badChannel hs]

theorem exec_badChannelP {f : Nat → Nat → Instr} (hf : f ∈ [Instr.ms, Instr.is]) (hs : s.status.fatal = false) {x : Nat}
    (hx : badChannelP a b s = some x) : exec (f a b) s = raised .badChannel x 0 s := by
  obtain ⟨body, h⟩ := (formatP_shape hf a b).2 s
  rw [h, hx, runCommand_badChannel hs]

end

/-- Settles O16: a command whose operands fit is well-formed, so it decodes back; `badChannelC` and `badChannelP` name the
operand that is raised. -/
theorem badChannelRaised : Obligations.BadChannelRaised := by
  unfold Obligations.BadChannelRaised
  refine ⟨fun c hc f hf => decode_encode ?_, fun a b ha hb f hf => decode_encode ?_,
    fun s c hs hc f hf => exec_badChannelC hf hs (badChannelC_eq_some hc),
    fun s a b hs f hf => ⟨fun ha => ?_, fun ha hb => ?_, ?_⟩⟩
  · rw [wellFormed_iff, (formatC_shape hf c).1]
    simpa using hc
  · rw [wellFormed_iff, (formatP_shape hf a b).1]
    simpa using ⟨ha, hb⟩
  · exact exec_badChannelP hf hs (badChannelP_left ha)
  · exact exec_badChannelP hf hs (badChannelP_right ha hb)
  · rintro ha rfl
    exact exec_badChannelP hf hs (badChannelP_equal ha)

end Sys2Proof.Machine
end

section
/-! What IQ raises on types, scalefactors and quantized values, and what it stores in every bin (41_inverse_quant.md R101, R103,
R105, R106): O39 and O40. -/

namespace Sys2Proof.Machine

section
variable {c : Nat} {s s' : State} {ics : Ics} {win : Windows} {swb types : List Nat} {sfs : List (Option Int)} {g sfb t : Nat}

/-! ## The checks that raise (R105) -/

/-- A band type with an error raises it. -/
theorem iqTypeCheck_raise {e : ErrCode} (h : readBandType c g sfb s = .ok t) (he : typeError t = some e) :
    iqTypeCheck c s (g, sfb) = .error (.raise e c (bandDetail g sfb)) := by
  unfold typeError at he
  rw [iqTypeCheck, h, except_ok_bind]
  by_cases hi : t = 12 ∨ 15 < t
  · rw [if_pos hi] at he
    cases he
    exact if_pos (by simpa [isIllegalType] using hi)
  · rw [if_neg hi] at he
    split at he
    · rename_i hn
      cases he
      rw [if_neg (by simpa [isIllegalType] using hi)]
      exact if_pos (by simpa [isNoise] using hn)
    · cases he

/-- A spectral band's scalefactor out of range raises BAD_SF. -/
theorem iqSfCheck_raise {sf : Int} (ht : isSpectral t = true) (h : readSf c g sfb s = .ok sf) (hr : ¬(0 ≤ sf ∧ sf ≤ 255)) :
    iqSfCheck c s ((g, sfb), t) = .error (.raise .badSf c (bandDetail g sfb)) := by
  rw [iqSfCheck, if_pos ht, h, except_ok_bind]
  exact if_neg hr

/-- A bin of a spectral band out of range raises Q_RANGE. -/
theorem iqBinCheck_raise (hside : SideInfo c s ics win swb)
    (htypes : checkAll (iqTypeCheck c s) (bandList win.groups ics.maxSfb) = .ok types)
    (hsfs : checkAll (iqSfCheck c s) ((bandList win.groups ics.maxSfb).zip types) = .ok sfs) {i : Nat} (hi : i < s.frameLen)
    (hb : BinBand win swb ics.maxSfb i g sfb) (ht : readBandType c g sfb s = .ok t) (hs : isSpectral t = true) {w : Word}
    (hw : s.item? c .qspec i = some w) (hq : 8191 < w.toInt.natAbs) :
    iqBinCheck c s win swb ics.maxSfb sfs i = .error (.raise .qRange c i) := by
  obtain ⟨hg, hsfb⟩ := hb.bounds (readWindows_good hside.windows) (readBands_good hside.bands) hi
  obtain ⟨sf, hsf⟩ := (iqScales_legal htypes).mpr ⟨sfs, hsfs⟩ g hg sfb hsfb t ht hs
  rw [iqBinCheck, (iqBinSf_some hside htypes hsfs hi).mpr ⟨g, sfb, t, hb, ht, hs, hsf⟩, hw]
  exact if_pos hq

/-! ## What IQ stores (R101, R105) -/

/-- What a completed IQ stores in an element, from its checks. -/
theorem iqBody_word (hside : SideInfo c s ics win swb) (h : iqBody c s = .ok s') :
    ∃ types sfs, checkAll (iqTypeCheck c s) (bandList win.groups ics.maxSfb) = .ok types ∧
      checkAll (iqSfCheck c s) ((bandList win.groups ics.maxSfb).zip types) = .ok sfs ∧
      ∀ i < s.frameLen, ∃ o, iqBinCheck c s win swb ics.maxSfb sfs i = .ok o ∧
        s'.item? c .spec i = some (iqWord s c i o) := by
  rw [iqBody_eq hside] at h
  obtain ⟨types, htypes, h⟩ := except_bind_ok.mp h
  obtain ⟨sfs, hsfs, h⟩ := except_bind_ok.mp h
  obtain ⟨bins, hbins, h⟩ := except_bind_ok.mp h
  cases except_pure_ok.mp h
  have hlen : bins.length = s.frameLen := by simpa using checkAll_length hbins
  refine ⟨types, sfs, htypes, hsfs, fun i hi => ?_⟩
  obtain ⟨o, ho, hcheck⟩ := checkAll_get hbins (List.getElem?_range hi)
  refine ⟨o, hcheck, ?_⟩
  rw [item_setItems_whole rfl (Nat.zero_le i) (by simp; omega), Nat.sub_zero, getD_map_zipIdx (by omega) _ none,
    List.getD_eq_getElem?_getD, ho]
  rfl

/-- A completed IQ stores +0.0 in every bin that lies in no spectral band. -/
theorem iqBody_zero (hside : SideInfo c s ics win swb) (h : iqBody c s = .ok s') {i : Nat} (hi : i < s.frameLen)
    (hn : ∀ g sfb t, BinBand win swb ics.maxSfb i g sfb → readBandType c g sfb s = .ok t → isSpectral t = false) :
    s'.item? c .spec i = some 0x00000000#32 := by
  obtain ⟨types, sfs, htypes, hsfs, hwords⟩ := iqBody_word hside h
  obtain ⟨o, hcheck, hword⟩ := hwords i hi
  have hsf : iqBinSf win swb ics.maxSfb sfs i = none := by
    by_contra hc
    obtain ⟨sf, hsf⟩ := Option.ne_none_iff_exists'.mp hc
    obtain ⟨g, sfb, t, hb, ht, hs, -⟩ := (iqBinSf_some hside htypes hsfs hi).mp hsf
    exact absurd hs (by simp [hn g sfb t hb ht])
  rw [iqBinCheck, hsf] at hcheck
  cases hcheck
  exact hword

theorem BinBand.unique {maxSfb i g' sfb' : Nat} (h : BinBand win swb maxSfb i g sfb) (h' : BinBand win swb maxSfb i g' sfb') :
    g' = g ∧ sfb' = sfb :=
  ⟨h'.2.trans h.2.symm, Option.some.inj (h'.1.symm.trans h.1)⟩

end

/-- Settles O39: on legal data the body completes (`iqBody_legal`), stores to SPEC alone (`iqBody_ok`) and leaves +0.0 wherever no
spectral band is (`iqBody_zero`). -/
theorem iqCompletes : Obligations.IqCompletes := by
  unfold Obligations.IqCompletes
  intro c s ics win swb hf hc legal
  obtain ⟨s', hbody, hspectral⟩ := iqBody_legal legal
  have stores := iqBody_ok hbody
  refine ⟨s'.mem, stores.eq ▸ exec_iq_ok ⟨hf, hc⟩ hbody, fun x hx => stores.byte (by simpa using hx), fun i hi hn => ?_,
    fun i hi g sfb t hb ht hs => ?_, hspectral⟩
  · refine iqBody_zero legal.side hbody hi fun g sfb t hb _ => ?_
    cases hb.1.symm.trans hn
  · refine iqBody_zero legal.side hbody hi fun g' sfb' t' hb' ht' => ?_
    obtain ⟨rfl, rfl⟩ := hb.unique hb'
    cases ht.symm.trans ht'
    exact hs

/-- Settles O40: each of IQ's loops stops at the first element that its check refuses (`checkAll_stops`), the loops before it having
passed. -/
theorem iqErrors : Obligations.IqErrors := by
  unfold Obligations.IqErrors
  intro c s ics win swb hf hc side
  have raises : ∀ {e d}, iqBody c s = .error (.raise e c d) → exec (.iq c) s = raised e c d s :=
    fun h => exec_raised (i := .iq c) ⟨hf, hc⟩ h
  refine ⟨fun g sfb t e hg hb ht he before => raises ?_, fun legal => ?_⟩
  · have hstop : checkAll (iqTypeCheck c s) (bandList win.groups ics.maxSfb) = .error (.raise e c (bandDetail g sfb)) := by
      refine checkAll_stops (bandList_pairwise _ _) (mem_bandList.mpr ⟨hg, hb⟩) (fun y hy hlt => ?_) (iqTypeCheck_raise ht he)
      obtain ⟨hg', hb'⟩ := mem_bandList.mp hy
      obtain ⟨t', ht'⟩ := before _ _ hg' hb' hlt
      exact ⟨t', iqTypeCheck_iff.mpr ht'⟩
    rw [iqBody_eq side, hstop]
    rfl
  obtain ⟨types, htypes⟩ := iqTypes_legal.mp legal
  refine ⟨fun g sfb t sf hg hb ht hs hsf hr before => raises ?_, fun scales i g sfb t w hi hb ht hs hw hq before => raises ?_⟩
  · have hstop : checkAll (iqSfCheck c s) ((bandList win.groups ics.maxSfb).zip types) =
        .error (.raise .badSf c (bandDetail g sfb)) := by
      refine checkAll_stops (pairwise_zip (bandList_pairwise _ _) (checkAll_length htypes).ge)
        ((mem_zip_types htypes).mpr ⟨hg, hb, ht⟩) (fun y hy hlt => ?_) (iqSfCheck_raise hs hsf hr)
      obtain ⟨hg', hb', ht'⟩ := (mem_zip_types htypes).mp hy
      exact iqSfCheck_total (before _ _ _ hg' hb' hlt ht')
    rw [iqBody_eq side, htypes, except_ok_bind, hstop]
    rfl
  · obtain ⟨sfs, hsfs⟩ := (iqScales_legal htypes).mp scales
    refine iqBody_of_bins side htypes hsfs ?_
    refine checkAll_stops List.pairwise_lt_range (List.mem_range.mpr hi) (fun j hj hlt => ?_)
      (iqBinCheck_raise side htypes hsfs hi hb ht hs hw hq)
    exact (iqBinCheck_total side htypes hsfs (List.mem_range.mp hj)).mpr (before j hlt)

end Sys2Proof.Machine
end

section
/-! The first enclosure of `dq` always decides how to round it (00_scope.md R12; 41_inverse_quant.md R102, R103; log 22): a twelfth
root that is no rounding boundary lies farther from one than the enclosure is wide. O41 and O42. -/

namespace Sys2Proof.Machine

/-! ## The boundary an undecided enclosure holds -/

/-- The default ROUND does not tell where the enclosure holds zero beside other reals, or its ends round to different magnitudes that
are not both too large. -/
theorem roundBetween_eq_undecided {p : Nat} {lo hi : Int} : roundBetween p lo hi = .undecided ↔ ¬(lo = 0 ∧ hi = 0) ∧
    (0 < lo ∨ hi < 0 → ¬(infMag ≤ roundMag p lo.natAbs ∧ infMag ≤ roundMag p hi.natAbs) ∧
      roundMag p lo.natAbs ≠ roundMag p hi.natAbs) := by
  unfold roundBetween
  split_ifs <;> simp_all

/-- The boundary between two neighbouring magnitudes has 25 significant bits. -/
theorem exists_midpoint (m : Nat) : ∃ σ e, σ < 2 ^ 25 ∧ magUnits m + magUnits (m + 1) = σ * 2 ^ e := by
  obtain ⟨e, s, rfl, hs, h⟩ := exists_scaled m
  refine ⟨2 * s + 1, e, by omega, ?_⟩
  rw [Nat.add_assoc, magUnits_scaled h (by omega), magUnits_scaled (by omega) (by omega)]
  ring

/-- A positive enclosure that does not tell how to round holds a boundary, a number of 25 significant bits. -/
theorem exists_boundary_of_undecided {p : Nat} {lo hi : Nat} (hp : 150 ≤ p) (hlo : 0 < lo) (hle : lo ≤ hi)
    (hu : roundBetween p lo hi = .undecided) : ∃ σ k, σ < 2 ^ 25 ∧ lo ≤ σ * 2 ^ k ∧ σ * 2 ^ k ≤ hi := by
  have hne : roundMag p lo ≠ roundMag p hi := ((roundBetween_eq_undecided.mp hu).2 (by omega)).2
  have half : ∀ v : Nat, 2 * ((v : ℝ) / 2 ^ (p - 149)) = v / 2 ^ (p - 150) := fun v => by
    rw [show p - 149 = p - 150 + 1 by omega, pow_succ']
    field_simp
  have rounded : ∀ v : Nat, IsRoundedMag ((v : ℝ) / 2 ^ (p - 149)) (roundMag p v) := fun v =>
    isRoundedMag_roundMag (div_mul_cancel₀ _ (pow_two_pos _).ne')
  have hmn : roundMag p lo < roundMag p hi := lt_of_le_of_ne ((rounded lo).mono (rounded hi) (by gcongr)) hne
  obtain ⟨n, hn⟩ : ∃ n, roundMag p hi = n + 1 := ⟨roundMag p hi - 1, by omega⟩
  obtain ⟨σ, e, hσ, hmid⟩ := exists_midpoint (roundMag p lo)
  have lower := (rounded lo).upper
  have upper := (rounded hi).lower n hn
  have h1 : (magUnits (roundMag p lo) : ℝ) ≤ magUnits n := by exact_mod_cast magUnits_strictMono.monotone (by omega)
  have h2 : (magUnits (roundMag p lo + 1) : ℝ) ≤ magUnits (roundMag p hi) := by
    exact_mod_cast magUnits_strictMono.monotone hmn
  have hmid' : (magUnits (roundMag p lo) : ℝ) + magUnits (roundMag p lo + 1) = σ * 2 ^ e := by exact_mod_cast hmid
  rw [half, hmid', div_le_iff₀ (pow_two_pos _)] at lower
  have upper' : (σ : ℝ) * 2 ^ e ≤ hi / 2 ^ (p - 150) := by rw [← half, ← hmid']; linarith
  rw [le_div_iff₀ (pow_two_pos _)] at upper'
  refine ⟨σ, e + (p - 150), hσ, ?_, ?_⟩
  · rw [pow_add, ← mul_assoc]; exact_mod_cast lower
  · rw [pow_add, ← mul_assoc]; exact_mod_cast upper'

/-- Where the default ROUND does not tell of a negated enclosure, it does not tell of the enclosure. -/
theorem roundBetween_neg_undecided {p : Nat} {lo hi : Int} (h : roundBetween p (-hi) (-lo) = .undecided) :
    roundBetween p lo hi = .undecided := by
  rw [roundBetween_eq_undecided, Int.natAbs_neg, Int.natAbs_neg] at h
  obtain ⟨h0, h1⟩ := h
  refine roundBetween_eq_undecided.mpr ⟨by omega, fun hs => ?_⟩
  obtain ⟨ho, hne⟩ := h1 (by omega)
  exact ⟨fun h => ho h.symm, hne.symm⟩

/-! ## How far a twelfth root is from a boundary -/

/-- Neighbours have near powers. -/
theorem succ_pow_le {r : Nat} (hr : 0 < r) (n : Nat) : (r + 1) ^ (n + 1) ≤ r ^ (n + 1) + 2 ^ (n + 1) * r ^ n := by
  rw [add_pow, Finset.sum_range_succ, Nat.add_comm]
  simp only [one_pow, mul_one, Nat.choose_self, Nat.cast_one]
  gcongr
  calc ∑ m ∈ Finset.range (n + 1), r ^ m * ((n + 1).choose m : Nat)
      ≤ ∑ m ∈ Finset.range (n + 1), (n + 1).choose m * r ^ n := by
        refine Finset.sum_le_sum fun m hm => ?_
        rw [Nat.mul_comm]
        exact Nat.mul_le_mul_left _ (Nat.pow_le_pow_right hr (by have := Finset.mem_range.mp hm; omega))
    _ = (∑ m ∈ Finset.range (n + 1), (n + 1).choose m) * r ^ n := (Finset.sum_mul ..).symm
    _ ≤ _ := by
        rw [← Nat.sum_range_choose, Finset.sum_range_succ _ (n + 1)]
        exact Nat.mul_le_mul_right _ (Nat.le_add_right _ _)

/-- Two different multiples of a number differ by at least it. -/
theorem add_le_of_dvd {d a b : Nat} (ha : d ∣ a) (hb : d ∣ b) (h : a < b) : a + d ≤ b := by
  have := Nat.le_of_dvd (Nat.sub_pos_of_lt h) (Nat.dvd_sub hb ha)
  omega

/-- A twelfth root of `Q 2^a`, for a `Q` of at most 300 bits, that is no integer has a number of 25 significant bits as one of the
two integers around it only if it is small. -/
theorem root_lt_of_boundary {Q a σ k r : Nat} (hQ : Q < 2 ^ 300) (hσ : σ < 2 ^ 25) (hr : 0 < r) (hlo : r ^ 12 < Q * 2 ^ a)
    (hhi : Q * 2 ^ a < (r + 1) ^ 12) (hb : r ≤ σ * 2 ^ k ∧ σ * 2 ^ k ≤ r + 1) : r < 2 ^ 312 := by
  have hpow : (σ * 2 ^ k) ^ 12 = σ ^ 12 * 2 ^ (12 * k) := by rw [mul_pow, ← pow_mul, Nat.mul_comm k]
  have hσ12 : σ ^ 12 < 2 ^ 300 := by
    calc σ ^ 12 < (2 ^ 25) ^ 12 := Nat.pow_lt_pow_left hσ (by decide)
      _ = 2 ^ 300 := by rw [← pow_mul]
  -- both twelfth powers are multiples of `2^m`, and one is a small multiple
  obtain ⟨m, hd1, hd2, hm⟩ : ∃ m, 2 ^ m ∣ Q * 2 ^ a ∧ 2 ^ m ∣ (σ * 2 ^ k) ^ 12 ∧ r ^ 12 < 2 ^ 300 * 2 ^ m := by
    rw [hpow]
    rcases Nat.le_total a (12 * k) with h | h
    · refine ⟨a, Nat.dvd_mul_left _ _, (pow_dvd_pow 2 h).mul_left _, hlo.trans ?_⟩
      exact Nat.mul_lt_mul_of_pos_right hQ (Nat.two_pow_pos a)
    · refine ⟨12 * k, (pow_dvd_pow 2 h).mul_left _, Nat.dvd_mul_left _ _, ?_⟩
      calc r ^ 12 ≤ (σ * 2 ^ k) ^ 12 := Nat.pow_le_pow_left hb.1 12
        _ = σ ^ 12 * 2 ^ (12 * k) := hpow
        _ < _ := Nat.mul_lt_mul_of_pos_right hσ12 (Nat.two_pow_pos _)
  -- so they differ by at least `2^m`, though both lie between `r^12` and `(r + 1)^12`
  have hgap : r ^ 12 + 2 ^ m ≤ (r + 1) ^ 12 := by
    obtain h | h : σ * 2 ^ k = r ∨ σ * 2 ^ k = r + 1 := by omega
    · rw [h] at hd2
      exact (add_le_of_dvd hd2 hd1 hlo).trans hhi.le
    · rw [h] at hd2
      exact (Nat.add_le_add_right hlo.le _).trans (add_le_of_dvd hd1 hd2 hhi)
  have hm' : 2 ^ m ≤ 2 ^ 12 * r ^ 11 := Nat.le_of_add_le_add_left (hgap.trans (succ_pow_le hr 11))
  have : r * r ^ 11 < 2 ^ 312 * r ^ 11 := by
    calc r * r ^ 11 = r ^ 12 := (pow_succ' r 11).symm
      _ < 2 ^ 300 * 2 ^ m := hm
      _ ≤ 2 ^ 300 * (2 ^ 12 * r ^ 11) := Nat.mul_le_mul_left _ hm'
      _ = 2 ^ 312 * r ^ 11 := by rw [← mul_assoc, ← pow_add]
  exact Nat.lt_of_mul_lt_mul_right this

/-- The enclosure of a large twelfth root of `Q 2^a` decides how to round it. -/
theorem rootEncl_decided {p Q a : Nat} (hp : 150 ≤ p) (hQ : Q < 2 ^ 300) (hlarge : Q ≠ 0 → (2 ^ 312) ^ 12 ≤ Q * 2 ^ a) :
    roundBetween p (rootEncl 12 (Q * 2 ^ a)).lo (rootEncl 12 (Q * 2 ^ a)).hi ≠ .undecided := by
  obtain ⟨h1, h2⟩ := rootFloor_spec (by decide : 0 < 12) (Q * 2 ^ a)
  unfold rootEncl
  simp only
  split
  · exact roundBetween_self p _
  rename_i hne
  intro hu
  have hQ0 : Q ≠ 0 := by
    rintro rfl
    simp only [Nat.zero_mul] at h1 hne
    omega
  have hr : 2 ^ 312 ≤ rootFloor 12 (Q * 2 ^ a) :=
    Nat.lt_succ_iff.mp (lt_of_pow_lt_pow_left₀ 12 (Nat.zero_le _) ((hlarge hQ0).trans_lt h2))
  have hr0 : 0 < rootFloor 12 (Q * 2 ^ a) := lt_of_lt_of_le (by positivity) hr
  obtain ⟨σ, k, hσ, hb⟩ := exists_boundary_of_undecided hp hr0 (Nat.le_succ _) hu
  exact absurd (root_lt_of_boundary hQ hσ hr0 (lt_of_le_of_ne h1 hne) h2 hb) (not_lt.mpr hr)

/-! ## `dq` is decided, and does not overflow (R103) -/

/-- The sixteenth power of a legal quantized value. -/
theorem natAbs_pow_sixteen_le {q : Int} (hq : q.natAbs ≤ 8191) : q.natAbs ^ 16 ≤ 2 ^ 208 := by
  calc q.natAbs ^ 16 ≤ (2 ^ 13) ^ 16 := Nat.pow_le_pow_left (by omega) 16
    _ = 2 ^ 208 := by rw [← pow_mul]

/-- The first enclosure of `dq` decides how to round it (log 22). -/
theorem dqEncl_decided {q sf : Int} (hq : q.natAbs ≤ 8191) (hsf : 0 ≤ sf) :
    roundBetween prec (dqEncl prec q sf).lo (dqEncl prec q sf).hi ≠ .undecided := by
  have hQ : q.natAbs ^ 16 < 2 ^ 300 := (natAbs_pow_sixteen_le hq).trans_lt (by gcongr <;> norm_num)
  have hroot := rootEncl_decided (p := prec) (a := (12 * prec + 3 * (sf - Config.sfOffset)).toNat) (by decide) hQ fun hne => by
    calc (2 ^ 312) ^ 12 = 1 * 2 ^ 3744 := by rw [one_mul, ← pow_mul]
      _ ≤ _ := Nat.mul_le_mul (Nat.one_le_iff_ne_zero.mpr hne)
        (pow_le_pow_right₀ (by decide) (by unfold prec Config.sfOffset; omega))
  unfold dqEncl
  simp only
  split
  · exact fun h => hroot (roundBetween_neg_undecided h)
  · exact hroot

/-- Every `dq` of legal inputs is below 2^57 in magnitude (R103). -/
theorem IsDq.abs_lt {q sf : Int} {r : ℝ} (h : IsDq q sf r) (hq : q.natAbs ≤ 8191) (h0 : 0 ≤ sf) (h255 : sf ≤ 255) :
    |r| < 2 ^ 57 := by
  set A := (q.natAbs : ℝ) ^ ((4 : ℝ) / 3) * (2 : ℝ) ^ (((sf : ℝ) - 100) / 4) with hA
  have hA0 : 0 ≤ A := by positivity
  have hpow := dq_pow_twelve (p := 25) (q := q) le_rfl h0
  have hA57 : A * 2 ^ 25 < 2 ^ 57 * 2 ^ 25 := by
    refine lt_of_pow_lt_pow_left₀ 12 (by positivity) ?_
    rw [hpow]
    have hnat : q.natAbs ^ 16 * 2 ^ (12 * (25 : Nat) + 3 * (sf - Config.sfOffset)).toNat < 2 ^ 984 := by
      calc _ ≤ 2 ^ 208 * 2 ^ 765 := Nat.mul_le_mul (natAbs_pow_sixteen_le hq)
            (pow_le_pow_right₀ (by decide) (by unfold Config.sfOffset; omega))
        _ = 2 ^ 973 := by rw [← pow_add]
        _ < 2 ^ 984 := by gcongr <;> norm_num
    calc _ < ((2 ^ 984 : Nat) : ℝ) := Nat.cast_lt.mpr hnat
      _ = (2 ^ 57 * 2 ^ 25) ^ 12 := by rw [← pow_add, ← pow_mul, Nat.cast_pow, Nat.cast_ofNat]
  have hsign : |(q.sign : ℝ)| ≤ 1 := by
    rcases lt_trichotomy q 0 with hq | rfl | hq
    · simp [Int.sign_eq_neg_one_of_neg hq]
    · simp
    · simp [Int.sign_eq_one_of_pos hq]
  calc |r| = |(q.sign : ℝ)| * A := by rw [h, abs_mul, abs_of_nonneg hA0]
    _ ≤ 1 * A := by gcongr
    _ < 2 ^ 57 := by rw [one_mul]; exact lt_of_mul_lt_mul_right hA57 (by positivity)

/-! ## What IQ stores (R12) -/

/-- The word stored for a decided answer is the nearest one, where the real does not overflow. -/
theorem Rounded.Of.nearest {R : Rounded} {r : ℝ} (h : R.Of r) (hd : R ≠ .undecided) (hr : |r| < 2 ^ 128 - 2 ^ 103) (s : State)
    (i : Instr) (idx : Nat) : IsNearestEven r (roundedWord s i idx R) := by
  cases R with
  | word w => exact h.1.nearest
  | smallZero =>
    obtain ⟨z1, z2⟩ := roundsTo_zeros h.2
    unfold roundedWord
    simp only
    split
    · exact z2.nearest
    · exact z1.nearest
  | overflow => exact absurd hr (not_lt.mpr h)
  | undecided => exact absurd rfl hd

/-- Settles O41: the first enclosure of `dq` decides (`dqEncl_decided`), and its answer is true of `dq` (`roundBetween_of`). -/
theorem iqStoresNearest : Obligations.IqStoresNearest := by
  unfold Obligations.IqStoresNearest
  intro s c i q sf r hn hq h0 h255 hr
  have hround : roundReal prec (dqEncl prec q sf) (fun p => dqEncl p q sf) (fun _ => false) =
      roundBetween prec (dqEncl prec q sf).lo (dqEncl prec q sf).hi := by
    unfold roundReal
    split
    · rename_i hu; exact absurd hu (dqEncl_decided hq h0)
    · rfl
  have hof := roundBetween_of (p := prec) (by decide) (dqEncl_near (by decide) h0 hr).1
  have hlt : |r| < 2 ^ 128 - 2 ^ 103 := (hr.abs_lt hq h0 h255).trans (by norm_num)
  unfold storedWord dqElem
  rw [hn]
  simp only [nearestWord, hround]
  exact hof.nearest (dqEncl_decided hq h0) hlt s (.iq c) i

/-! ## Perfect cubes (R107) -/

/-- A number of 24 significant bits is a magnitude. -/
theorem exists_magUnits (e a : Nat) (ha : a < 2 ^ 24) : ∃ m, m < (e + 2) * 2 ^ 23 ∧ magUnits m = a * 2 ^ e := by
  induction e generalizing a with
  | zero => exact ⟨a, by omega, by simpa using magUnits_scaled (e := 0) (.inl rfl) ha.le⟩
  | succ e ih =>
    rcases Nat.lt_or_ge a (2 ^ 23) with h | h
    · obtain ⟨m, hm, hv⟩ := ih (2 * a) (by omega)
      exact ⟨m, hm.trans_le (Nat.mul_le_mul_right _ (Nat.le_succ _)), by rw [hv]; ring⟩
    · exact ⟨(e + 1) * 2 ^ 23 + a, by omega, magUnits_scaled (.inr h) ha.le⟩

/-- A number of 24 significant bits in range is a binary32 value, with either sign. -/
theorem exists_f32Units {a e : Nat} (ha : a < 2 ^ 24) (he : e ≤ 253) (q : Int) :
    ∃ w, f32Units w = some (q.sign * (a * 2 ^ e)) := by
  obtain ⟨m, hm, hv⟩ := exists_magUnits e a ha
  have hfin : m < infMag := by unfold infMag; omega
  have hv' : ((magUnits m : Nat) : Int) = a * 2 ^ e := by exact_mod_cast hv
  rcases lt_trichotomy q 0 with hq | rfl | hq
  · exact ⟨_, by rw [f32Units_signedWord (neg := true) hfin, Int.sign_eq_neg_one_of_neg hq, hv']; simp⟩
  · exact ⟨0#32, by rw [Int.sign_zero, zero_mul]; decide⟩
  · exact ⟨_, by rw [f32Units_signedWord (neg := false) hfin, Int.sign_eq_one_of_pos hq, hv']; simp⟩

/-- The value nearest to a binary32 value is that value. -/
theorem IsNearestEven.isF32 {r : ℝ} {w w' : Word} (h : IsNearestEven r w) (hr : IsF32 w' r) : IsF32 w r := by
  obtain ⟨v, hv, hnear⟩ := h
  obtain ⟨v', hv', hr⟩ := hr
  have h0 := (hnear w' v' hv').1
  rw [hr, sub_self, abs_zero] at h0
  exact ⟨v, hv, by rw [hr]; linarith [abs_nonpos_iff.mp h0]⟩

/-- `dq` of a perfect cube (R107). -/
theorem isDq_cube {m : Nat} {q sf k : Int} (hm : q.natAbs = m ^ 3) (hk : sf - 100 = 4 * k) :
    IsDq q sf ((q.sign : ℝ) * (m : ℝ) ^ 4 * (2 : ℝ) ^ k) := by
  have e1 : ((q.natAbs : ℝ)) ^ ((4 : ℝ) / 3) = (m : ℝ) ^ 4 := by
    rw [hm, Nat.cast_pow, ← Real.rpow_natCast, ← Real.rpow_mul (by positivity), ← Real.rpow_natCast]
    norm_num
  have e2 : (2 : ℝ) ^ (((sf : ℝ) - 100) / 4) = (2 : ℝ) ^ k := by
    have : (sf : ℝ) - 100 = 4 * k := by exact_mod_cast hk
    rw [this, mul_div_cancel_left₀ _ (by norm_num), Real.rpow_intCast]
  rw [IsDq, e1, e2, mul_assoc]

/-- Settles O42: `dq` of a perfect cube is a binary32 value (`exists_f32Units`), and IQ stores the nearest one (O41). -/
theorem perfectCubesExact : Obligations.PerfectCubesExact := by
  unfold Obligations.PerfectCubesExact
  intro s c i m q sf k hn hm hq h0 h255 hk
  have hm20 : m ≤ 20 := by
    by_contra hc
    have := Nat.pow_le_pow_left (show 21 ≤ m by omega) 3
    omega
  have hm4 : m ^ 4 < 2 ^ 24 := (Nat.pow_le_pow_left hm20 4).trans_lt (by norm_num)
  obtain ⟨w, hw⟩ := exists_f32Units hm4 (show (k + 149).toNat ≤ 253 by omega) q
  refine (iqStoresNearest s c i q sf _ hn hq h0 h255 (isDq_cube hm hk)).isF32 ⟨_, hw, ?_⟩
  have e : (2 : ℝ) ^ k * 2 ^ 149 = 2 ^ (k + 149).toNat := by
    rw [← zpow_natCast (2 : ℝ) (k + 149).toNat, Int.toNat_of_nonneg (by omega), zpow_add₀ (by norm_num)]
    norm_num
  rw [mul_assoc, e]
  push_cast
  ring

end Sys2Proof.Machine
end

section
/-! What MS and IS raise on MMP, band types and intensity positions, and what they store and leave as it was (42_stereo.md R122, R123,
R126, R127): O43, O44, O46 and O47. -/

namespace Sys2Proof.Machine

/-! ## The checks that raise (R122, R126) -/

section
variable {a b : Nat} {s : State} {x : PairInfo} {g sfb : Nat}

/-- A pair of band types with an error raises it. -/
theorem pairTypeCheck_raise {tl tr y : Nat} {e : ErrCode} (hl : readBandType a g sfb s = .ok tl)
    (hr : readBandType b g sfb s = .ok tr) (he : pairTypeError a b tl tr = some (e, y)) :
    pairTypeCheck a b s (g, sfb) = .error (.raise e y (bandDetail g sfb)) := by
  have left : (isIllegalType tl || isIntensity tl) = true ↔ tl = 12 ∨ 15 < tl ∨ tl = 14 ∨ tl = 15 := by
    simp [isIllegalType, isIntensity, or_assoc]
  have right : isIllegalType tr = true ↔ tr = 12 ∨ 15 < tr := by simp [isIllegalType]
  have noise : ∀ t, isNoise t = true ↔ t = 13 := fun t => beq_iff_eq
  rw [pairTypeCheck, hl, except_ok_bind, hr, except_ok_bind]
  simp only [left, right, noise]
  unfold pairTypeError at he
  split_ifs at he ⊢ <;> cases he <;> rfl

/-- An intensity position out of range raises BAD_SF. -/
theorem isSfCheck_raise {p : Int} (ht : isIntensity (x.rightType g sfb) = true) (hp : readSf b g sfb s = .ok p)
    (hr : ¬(-255 ≤ p ∧ p ≤ 255)) : isSfCheck b x s (g, sfb) = .error (.raise .badSf b (bandDetail g sfb)) := by
  rw [isSfCheck, if_pos ht, hp, except_ok_bind]
  exact if_neg hr

/-- What the pair checks raise, MS and IS raise. -/
theorem raised_of_pairChecks {e : ErrCode} {y d : Nat} (hf : s.status.fatal = false) (ha : a < s.params.nch)
    (hb : b < s.params.nch) (hab : a ≠ b) (h : pairChecks a b s = .error (.raise e y d)) :
    ∀ f ∈ [Instr.ms, Instr.is], exec (f a b) s = raised e y d s := by
  intro f hmem
  rcases List.mem_pair.mp hmem with rfl | rfl
  · exact exec_raised (i := .ms a b) ⟨hf, ha, hb, hab⟩ (msBody_of_pairChecks h)
  · exact exec_raised (i := .is a b) ⟨hf, ha, hb, hab⟩ (isBody_of_pairChecks h)

end

/-- Settles O43: past the windows and bands (`pairChecks_eq`) the pair checks stop at MMP = 3, and else at the first band whose types
they refuse (`checkAll_stops`). -/
theorem pairErrors : Obligations.PairErrors := by
  unfold Obligations.PairErrors
  intro a b s ia ib win swb v hf ha hb hab side hib hpair hv f hmem
  have checks := pairChecks_eq side hib hpair
  rw [readItem_ok.mpr hv, except_ok_bind] at checks
  refine ⟨fun h3 => ?_, fun h3 g sfb tl tr e y hg hsfb hl hr he before => ?_⟩
  · exact raised_of_pairChecks hf ha hb hab (checks.trans (if_pos h3)) f hmem
  have hstop : checkAll (pairTypeCheck a b s) (bandList win.groups ia.maxSfb) = .error (.raise e y (bandDetail g sfb)) := by
    refine checkAll_stops (bandList_pairwise _ _) (mem_bandList.mpr ⟨hg, hsfb⟩) (fun gb hgb hlt => ?_)
      (pairTypeCheck_raise hl hr he)
    obtain ⟨hg', hsfb'⟩ := mem_bandList.mp hgb
    obtain ⟨tl', tr', ht'⟩ := before _ _ hg' hsfb' hlt
    exact ⟨tr', pairTypeCheck_iff.mpr ⟨tl', ht'⟩⟩
  rw [if_neg h3, hstop] at checks
  exact raised_of_pairChecks hf ha hb hab checks f hmem

/-- Settles O47: the pair checks pass (`pairChecks_legal`), and the loop over the positions stops at the first that is out of range
(`checkAll_stops`). -/
theorem isPositionError : Obligations.IsPositionError := by
  unfold Obligations.IsPositionError
  intro a b s ics win swb mmp g sfb t p hf ha hb hab legal hg hsfb ht hint hp hr before
  obtain ⟨x, hx, rfl, -, hmax, -, htypes⟩ := pairChecks_legal legal
  cases ht.symm.trans (htypes g hg sfb hsfb)
  have hstop : checkAll (isSfCheck b x s) (bandList x.win.groups x.maxSfb) = .error (.raise .badSf b (bandDetail g sfb)) := by
    rw [hmax]
    refine checkAll_stops (bandList_pairwise _ _) (mem_bandList.mpr ⟨hg, hsfb⟩) (fun gb hgb hlt => ?_)
      (isSfCheck_raise hint hp hr)
    obtain ⟨hg', hsfb'⟩ := mem_bandList.mp hgb
    exact isSfCheck_total.mpr (before _ _ _ hg' hsfb' hlt (htypes _ hg' _ hsfb'))
  refine exec_raised (i := .is a b) ⟨hf, ha, hb, hab⟩ ?_
  rw [commandBody, isBody, hx, except_ok_bind, hstop]
  rfl

/-! ## The bytes a run leaves as they were -/

/-- A byte of none of the stored words reads as before. -/
theorem byte_setItems_outsideWords {s : State} {c first y : Nat} {it : Item} {ws : List Word}
    (h : ∀ i, first ≤ i → i < first + ws.length → OutsideWord (itemAddr c it i) y) :
    (s.setItems c it first ws).mem.byte? y = s.mem.byte? y := by
  rw [setItems_mem, byte_store_outside]
  rw [List.length_map]
  by_contra hc
  have := h (first + (y - itemAddr c it first) / 4)
  unfold OutsideWord itemAddr at *
  omega

section
variable {a b : Nat} {s s' t t' : State} {ics : Ics} {win : Windows} {swb : List Nat} {mmp y : Nat}

/-- A run of MS leaves every byte as it was that is none of the words it rewrites. -/
theorem msRun_byte {x : PairInfo} {r : Run} (hg : r.g < 8) (hsfb : r.sfb < 64) (ht : SpecStores [a, b] s t)
    (h : msRun a b s x r t = .ok t') (hy : MsRuns a s x r → ∀ i, r.first ≤ i → i < r.first + r.len →
      OutsideWord (itemAddr a .spec i) y ∧ OutsideWord (itemAddr b .spec i) y) :
    t'.mem.byte? y = t.mem.byte? y := by
  unfold msRun at h
  obtain ⟨used, hused, h⟩ := except_bind_ok.mp h
  split at h
  swap
  · cases except_pure_ok.mp h; rfl
  rename_i hact
  obtain ⟨was, hwas, h⟩ := except_bind_ok.mp h
  obtain ⟨wbs, hwbs, h⟩ := except_bind_ok.mp h
  cases except_pure_ok.mp h
  have hlen : min was.length wbs.length = r.len := by rw [readSpecRun_length hwas, readSpecRun_length hwbs, min_self]
  rw [ht.msUsed hg hsfb] at hused
  have hy := hy ⟨(msActive_iff hused).mpr hact.1, hact.2⟩
  rw [byte_setItems_outsideWords fun i h1 h2 => (hy i h1 (by simpa [hlen] using h2)).2,
    byte_setItems_outsideWords fun i h1 h2 => (hy i h1 (by simpa [hlen] using h2)).1]

/-- MS leaves every byte as it was that is none of the words it rewrites. -/
theorem msBody_frame (legal : PairLegal a b s ics win swb mmp) (h : msBody a b s = .ok s') :
    SameBytes s.mem s'.mem fun y => ∀ i, MsTouches a b s ics win swb mmp i →
      OutsideWord (itemAddr a .spec i) y ∧ OutsideWord (itemAddr b .spec i) y := by
  intro y hy
  have hW := readWindows_good legal.side.windows
  have hB := readBands_good legal.side.bands
  have hM := (readIcs_bounds legal.side.header).2.2.1
  obtain ⟨x, hx, rfl, rfl, hmax, rfl, htypes⟩ := pairChecks_legal legal
  rw [msBody, hx, except_ok_bind, hmax] at h
  refine (applyAll_inv (P := fun t => SpecStores [a, b] s t ∧ t.mem.byte? y = s.mem.byte? y)
    (fun r hr t t' ⟨ht, hsame⟩ hrun => ?_) ⟨.refl, rfl⟩ h).2
  obtain ⟨hg8, hg, hsfb, hin⟩ := bandRuns_in hW hB hr
  refine ⟨msRun_ok hin ht hrun, (msRun_byte hg8 (by omega) ht hrun fun ⟨hact, hint⟩ i h1 h2 => ?_).trans hsame⟩
  exact hy i ⟨by omega, r.g, r.sfb, _, bandRuns_binBand hB hr h1 h2, hact, htypes _ hg _ hsfb, hint⟩

/-- A run of IS leaves every byte as it was that is none of the words it rewrites. -/
theorem isRun_byte {x : PairInfo} {sfs : List (Option Int)} {r : Run} (hg : r.g < 8) (hsfb : r.sfb < 64)
    (ht : SpecStores [b] s t) (h : isRun a b s x sfs r t = .ok t')
    (hy : ∀ p used, sfs.getD (r.g * x.maxSfb + r.sfb) none = some p → msUsedIfPerBand a x.mmp r.g r.sfb s = .ok used →
      ∀ i, r.first ≤ i → i < r.first + r.len → OutsideWord (itemAddr b .spec i) y) :
    t'.mem.byte? y = t.mem.byte? y := by
  unfold isRun at h
  split at h
  · cases h; rfl
  rename_i p hp
  obtain ⟨used, hused, h⟩ := except_bind_ok.mp h
  obtain ⟨was, hwas, h⟩ := except_bind_ok.mp h
  cases except_pure_ok.mp h
  rw [ht.msUsed hg hsfb] at hused
  exact byte_setItems_outsideWords fun i h1 h2 => hy p used hp hused i h1 (by simpa [readSpecRun_length hwas] using h2)

/-- The position IS has for a run is that of its band in the right slot. -/
theorem isSfs_getD_eq_some {x : PairInfo} {sfs : List (Option Int)} {g sfb : Nat} {p : Int}
    (hsfs : checkAll (isSfCheck b x s) (bandList win.groups ics.maxSfb) = .ok sfs) (hmax : x.maxSfb = ics.maxSfb)
    (hg : g < win.groups) (hb : sfb < ics.maxSfb) (hp : sfs.getD (g * x.maxSfb + sfb) none = some p) :
    isIntensity (x.rightType g sfb) = true ∧ readSf b g sfb s = .ok p := by
  have hint := (isSfs_getD hsfs hmax hg hb).mp ⟨p, hp⟩
  obtain ⟨o, ho, hcheck⟩ := checkAll_get hsfs (getElem?_bandList hg hb)
  rw [hmax, List.getD_eq_getElem?_getD, ho, Option.getD_some] at hp
  subst hp
  obtain ⟨p', hp', hrange⟩ := isSfCheck_total.mp ⟨_, hcheck⟩ hint
  cases hcheck.symm.trans (isSfCheck_some (gb := (g, sfb)) hint hp' hrange)
  exact ⟨hint, hp'⟩

/-- IS leaves every byte as it was that is none of the words it rewrites. -/
theorem isBody_frame (legal : PairLegal a b s ics win swb mmp) (h : isBody a b s = .ok s') :
    SameBytes s.mem s'.mem fun y => ∀ i t p u, IsTouches a b s ics win swb mmp i t p u → OutsideWord (itemAddr b .spec i) y := by
  intro y hy
  have hW := readWindows_good legal.side.windows
  have hB := readBands_good legal.side.bands
  have hM := (readIcs_bounds legal.side.header).2.2.1
  obtain ⟨x, hx, rfl, rfl, hmax, rfl, htypes⟩ := pairChecks_legal legal
  rw [isBody, hx, except_ok_bind, hmax] at h
  obtain ⟨sfs, hsfs, h⟩ := except_bind_ok.mp h
  refine (applyAll_inv (P := fun t => SpecStores [b] s t ∧ t.mem.byte? y = s.mem.byte? y)
    (fun r hr t t' ⟨ht, hsame⟩ hrun => ?_) ⟨.refl, rfl⟩ h).2
  obtain ⟨hg8, hg, hsfb, hin⟩ := bandRuns_in hW hB hr
  refine ⟨isRun_ok hin ht hrun, (isRun_byte hg8 (by omega) ht hrun fun p used hp hused i h1 h2 => ?_).trans hsame⟩
  obtain ⟨hint, hsf⟩ := isSfs_getD_eq_some hsfs hmax hg hsfb hp
  exact hy i _ p used ⟨by omega, r.g, r.sfb, bandRuns_binBand hB hr h1 h2, htypes _ hg _ hsfb, hint, hsf, hused⟩

end

/-! ## Completion (R123, R127) -/

/-- Settles O44: on a legal pair the body completes with the sum and the difference in the bins it rewrites (`msBody_legal`), and
leaves every other byte as it was (`msBody_frame`). -/
theorem msCompletes : Obligations.MsCompletes := by
  unfold Obligations.MsCompletes
  intro a b s ics win swb mmp hf ha hb hab legal
  obtain ⟨s', hbody, hout⟩ := msBody_legal hab legal
  refine ⟨s'.mem, (msBody_ok hbody).eq ▸ exec_ms_ok ⟨hf, ha, hb, hab⟩ hbody, fun i wa wb hi hwa hwb => ?_,
    msBody_frame legal.pair hbody⟩
  have left := hout i hi a (.inl rfl)
  have right := hout i hi b (.inr rfl)
  simp only [msWord, hwa, hwb, Option.getD_some, if_true, if_neg hab.symm] at left right
  exact ⟨left, right⟩

/-- Settles O46: on a legal pair the body completes with the scaled left bin in the bins it rewrites (`isBody_legal`), and leaves every
other byte as it was (`isBody_frame`). -/
theorem isCompletes : Obligations.IsCompletes := by
  unfold Obligations.IsCompletes
  intro a b s ics win swb mmp hf ha hb hab legal
  obtain ⟨s', hbody, hout⟩ := isBody_legal hab legal
  exact ⟨s'.mem, (isBody_ok hbody).eq ▸ exec_is_ok ⟨hf, ha, hb, hab⟩ hbody,
    fun i t p u wa hi hwa => hout i t p u wa hi hwa, isBody_frame legal.pair hbody⟩

end Sys2Proof.Machine
end

section
/-! What MS and IS store under the default ROUND (00_scope.md R12; 42_stereo.md R121 to R126): sums and differences are exact, and the
first enclosure of a scaled left bin always decides how to round it (log 22). O45 and O48. -/

namespace Sys2Proof.Machine

/-! ## Elements that the first enclosure decides -/

/-- The default ROUND of an element whose enclosure decides is the word nearest to its real, where that does not overflow. -/
theorem storedWord_nearest {s : State} {i : Instr} {idx p : Nat} {x : Encl} {finer : Nat → Encl} {isGrid : Int → Bool} {r : ℝ}
    (hn : s.params.num = .nearestEven) (hp : 149 ≤ p) (hx : x.Holds p r) (hd : roundBetween p x.lo x.hi ≠ .undecided)
    (hr : |r| < 2 ^ 128 - 2 ^ 103) : IsNearestEven r (storedWord s i idx (.real p x finer isGrid)) := by
  have hround : roundReal p x finer isGrid = roundBetween p x.lo x.hi := by
    unfold roundReal
    split
    · rename_i hu; exact absurd hu hd
    · rfl
  unfold storedWord
  rw [hn]
  simp only [nearestWord, hround]
  exact (roundBetween_of hp hx).nearest hd hr s i idx

/-! ## MS (R123, R124) -/

/-- The default ROUND of an exact multiple of 2^-149. -/
theorem storedWord_ofUnits_nearest {s : State} {i : Instr} {idx : Nat} {v : Int} {r : ℝ} (hn : s.params.num = .nearestEven)
    (hv : r * 2 ^ 149 = (v : ℝ)) (hr : |r| < 2 ^ 128 - 2 ^ 103) : IsNearestEven r (storedWord s i idx (.ofUnits v)) :=
  storedWord_nearest hn le_rfl (holds_exact 149 hv) (roundBetween_self 149 v) hr

/-- No finite word is beyond the largest one, 2^128 - 2^104. -/
theorem IsF32.abs_le {w : Word} {x : ℝ} (h : IsF32 w x) : |x| ≤ 2 ^ 128 - 2 ^ 104 := by
  have hlt := h.abs_lt
  obtain ⟨v, hv, hx⟩ := h
  have hmag : |x| * 2 ^ 149 = magUnits (w.toNat % 2 ^ 31) := by
    rw [← abs_of_pos (pow_two_pos 149), ← abs_mul, hx]
    exact_mod_cast abs_f32Units hv
  obtain ⟨hinf, hlast⟩ := magUnits_infMag
  have hfin : w.toNat % 2 ^ 31 < infMag := by
    rw [← magUnits_strictMono.lt_iff_lt, hinf]
    have : (magUnits (w.toNat % 2 ^ 31) : ℝ) < ((2 ^ 24 * 2 ^ 253 : Nat) : ℝ) := by
      rw [← hmag]
      push_cast
      linarith
    exact_mod_cast this
  have hle : (magUnits (w.toNat % 2 ^ 31) : ℝ) ≤ (((2 ^ 24 - 1) * 2 ^ 253 : Nat) : ℝ) := by
    rw [← hlast]
    exact_mod_cast magUnits_strictMono.monotone (Nat.le_sub_one_of_lt hfin)
  rw [← hmag] at hle
  push_cast at hle
  norm_num at hle ⊢
  linarith

/-- What MS stores of a bin of finite words are its exact sum and difference, as multiples of 2^-149. -/
theorem msElems_ofUnits {wa wb : Word} {x y : ℝ} (hx : IsF32 wa x) (hy : IsF32 wb y) :
    ∃ u v : Int, msElems wa wb = (.ofUnits u, .ofUnits v) ∧ (x + y) * 2 ^ 149 = (u : ℝ) ∧ (x - y) * 2 ^ 149 = (v : ℝ) := by
  obtain ⟨m, hm, ex⟩ := hx
  obtain ⟨n, hn, ey⟩ := hy
  refine ⟨m + n, m - n, by rw [msElems, hm, hn], ?_, ?_⟩
  · push_cast; linarith
  · push_cast; linarith

/-- Settles O45: the sum and the difference are known exactly (`msElems_ofUnits`), and one that is a binary32 value does not
overflow (`IsF32.abs_le`) and is the nearest to itself. -/
theorem msStoresNearest : Obligations.MsStoresNearest := by
  unfold Obligations.MsStoresNearest
  intro s a b i wa wb x y hn hx hy
  obtain ⟨u, v, helems, hu, hv⟩ := msElems_ofUnits hx hy
  rw [helems]
  have finite : ∀ {r : ℝ} {w : Word}, IsF32 w r → |r| < 2 ^ 128 - 2 ^ 103 := fun h => h.abs_le.trans_lt (by norm_num)
  refine ⟨storedWord_ofUnits_nearest hn hu, storedWord_ofUnits_nearest hn hv, fun ⟨w, hw⟩ => ?_, fun ⟨w, hw⟩ => ?_⟩
  · exact (storedWord_ofUnits_nearest hn hu (finite hw)).isF32 hw
  · exact (storedWord_ofUnits_nearest hn hv (finite hw)).isF32 hw

/-! ## How far a fourth root is from a boundary -/

/-- Two different numbers of `N` significant bits are apart by more than the `2^N`th part of the smaller. -/
theorem lt_mul_sub_of_bits {N P Q a b : Nat} (hP : P < 2 ^ N) (hQ : Q < 2 ^ N) (h : P * 2 ^ a < Q * 2 ^ b) :
    P * 2 ^ a < 2 ^ N * (Q * 2 ^ b - P * 2 ^ a) := by
  rcases Nat.le_total a b with hab | hab
  · have hgap : 2 ^ a ≤ Q * 2 ^ b - P * 2 ^ a :=
      Nat.le_sub_of_add_le' (add_le_of_dvd (Nat.dvd_mul_left _ _) ((pow_dvd_pow 2 hab).mul_left _) h)
    calc P * 2 ^ a < 2 ^ N * 2 ^ a := Nat.mul_lt_mul_of_pos_right hP (Nat.two_pow_pos a)
      _ ≤ _ := Nat.mul_le_mul_left _ hgap
  · have hgap : 2 ^ b ≤ Q * 2 ^ b - P * 2 ^ a :=
      Nat.le_sub_of_add_le' (add_le_of_dvd ((pow_dvd_pow 2 hab).mul_left _) (Nat.dvd_mul_left _ _) h)
    calc P * 2 ^ a < Q * 2 ^ b := h
      _ < 2 ^ N * 2 ^ b := Nat.mul_lt_mul_of_pos_right hQ (Nat.two_pow_pos b)
      _ ≤ _ := Nat.mul_le_mul_left _ hgap

/-- A fourth root of `Q 2^a`, for a `Q` of at most 100 bits, that is no integer has a number of 25 significant bits as one of the two
integers around it only if it is small. -/
theorem fourthRoot_lt_of_boundary {Q a σ k r : Nat} (hQ : Q < 2 ^ 100) (hσ : σ < 2 ^ 25) (hr : 0 < r) (hlo : r ^ 4 < Q * 2 ^ a)
    (hhi : Q * 2 ^ a < (r + 1) ^ 4) (hb : r ≤ σ * 2 ^ k ∧ σ * 2 ^ k ≤ r + 1) : r < 2 ^ 104 := by
  have hpow : (σ * 2 ^ k) ^ 4 = σ ^ 4 * 2 ^ (k * 4) := by rw [mul_pow, ← pow_mul]
  have hσ4 : σ ^ 4 < 2 ^ 100 := (Nat.pow_lt_pow_left hσ (by decide)).trans_eq (by rw [← pow_mul])
  -- the boundary's fourth power and `Q 2^a` both lie between `r^4` and `(r + 1)^4`, yet far apart
  have hgap : r ^ 4 < 2 ^ 100 * ((r + 1) ^ 4 - r ^ 4) := by
    obtain h | h : σ * 2 ^ k = r ∨ σ * 2 ^ k = r + 1 := by omega
    · rw [h] at hpow
      rw [hpow] at hlo ⊢
      exact (lt_mul_sub_of_bits hσ4 hQ hlo).trans_le (Nat.mul_le_mul_left _ (Nat.sub_le_sub_right hhi.le _))
    · rw [h] at hpow
      rw [hpow] at hhi ⊢
      exact hlo.trans ((lt_mul_sub_of_bits hQ hσ4 hhi).trans_le (Nat.mul_le_mul_left _ (Nat.sub_le_sub_left hlo.le _)))
  have : r * r ^ 3 < 2 ^ 104 * r ^ 3 := by
    calc r * r ^ 3 = r ^ 4 := (pow_succ' r 3).symm
      _ < 2 ^ 100 * ((r + 1) ^ 4 - r ^ 4) := hgap
      _ ≤ 2 ^ 100 * (2 ^ 4 * r ^ 3) := Nat.mul_le_mul_left _ (Nat.sub_le_iff_le_add'.mpr (succ_pow_le hr 3))
      _ = 2 ^ 104 * r ^ 3 := by rw [← mul_assoc, ← pow_add]
  exact Nat.lt_of_mul_lt_mul_right this

/-- The enclosure of a fourth root of `Q 2^a`, zero or large, decides how to round it. -/
theorem fourthRoot_decided {p Q a : Nat} (hp : 150 ≤ p) (hQ : Q < 2 ^ 100) (ha : 416 ≤ a) :
    roundBetween p (rootEncl 4 (Q * 2 ^ a)).lo (rootEncl 4 (Q * 2 ^ a)).hi ≠ .undecided := by
  obtain ⟨h1, h2⟩ := rootFloor_spec (by decide : 0 < 4) (Q * 2 ^ a)
  unfold rootEncl
  simp only
  split
  · exact roundBetween_self p _
  rename_i hne
  intro hu
  have hQ0 : Q ≠ 0 := by
    rintro rfl
    simp only [Nat.zero_mul] at h1 hne
    omega
  have hlarge : (2 ^ 104) ^ 4 ≤ Q * 2 ^ a := by
    calc (2 ^ 104) ^ 4 = 1 * 2 ^ 416 := by rw [one_mul, ← pow_mul]
      _ ≤ _ := Nat.mul_le_mul (Nat.one_le_iff_ne_zero.mpr hQ0) (pow_le_pow_right₀ (by decide) ha)
  have hr : 2 ^ 104 ≤ rootFloor 4 (Q * 2 ^ a) :=
    Nat.lt_succ_iff.mp (lt_of_pow_lt_pow_left₀ 4 (Nat.zero_le _) (hlarge.trans_lt h2))
  have hr0 : 0 < rootFloor 4 (Q * 2 ^ a) := lt_of_lt_of_le (by positivity) hr
  obtain ⟨σ, k, hσ, hb⟩ := exists_boundary_of_undecided hp hr0 (Nat.le_succ _) hu
  exact absurd (fourthRoot_lt_of_boundary hQ hσ hr0 (lt_of_le_of_ne h1 hne) h2 hb) (not_lt.mpr hr)

/-! ## IS (R125, R126) -/

/-- A finite value has 24 significant bits. -/
theorem exists_significand {w : Word} {v : Int} (h : f32Units w = some v) : ∃ m e, m < 2 ^ 24 ∧ v.natAbs = m * 2 ^ e := by
  obtain ⟨e, m, hmag, hm, hs⟩ := exists_scaled (w.toNat % 2 ^ 31)
  refine ⟨m, e, hm, ?_⟩
  have habs := abs_f32Units h
  rw [hmag, magUnits_scaled hs hm.le, Int.abs_eq_natAbs] at habs
  exact_mod_cast habs

/-- The first enclosure of a scaled left bin decides how to round it (log 22). -/
theorem isEncl_decided {negative : Bool} {pos v : Int} {w : Word} (hv : f32Units w = some v) (hpos : pos ≤ 255) :
    roundBetween prec (isEncl prec negative pos v).lo (isEncl prec negative pos v).hi ≠ .undecided := by
  obtain ⟨m, e, hm, hve⟩ := exists_significand hv
  have hexp : 685 ≤ (4 * ((prec : Int) - 149) - pos).toNat := by unfold prec; omega
  have hX : v.natAbs ^ 4 * 2 ^ (4 * ((prec : Int) - 149) - pos).toNat =
      m ^ 4 * 2 ^ (e * 4 + (4 * ((prec : Int) - 149) - pos).toNat) := by
    rw [hve, mul_pow, ← pow_mul, mul_assoc, ← pow_add]
  have hm4 : m ^ 4 < 2 ^ 100 := (Nat.pow_lt_pow_left hm (by decide)).trans (by rw [← pow_mul]; gcongr <;> norm_num)
  have hroot := fourthRoot_decided (p := prec) (by decide) hm4
    (show 416 ≤ e * 4 + (4 * ((prec : Int) - 149) - pos).toNat by omega)
  rw [← hX] at hroot
  unfold isEncl
  simp only
  split
  · exact fun h => hroot (roundBetween_neg_undecided h)
  · exact hroot

/-- Settles O48: the first enclosure of a scaled left bin decides (`isEncl_decided`), and it holds the exact one (`isEncl_near`). -/
theorem isStoresNearest : Obligations.IsStoresNearest := by
  unfold Obligations.IsStoresNearest
  refine ⟨fun s a b i neg p w x r hn _ hp hw hr hlt => ?_, by decide, fun s a g sfb mmp hm => if_neg hm⟩
  obtain ⟨v, hv, hx⟩ := hw
  rw [isElem, hv]
  exact storedWord_nearest hn (by decide) (isEncl_near (by decide) hp hx hr).1 (isEncl_decided hv hp) hlt

end Sys2Proof.Machine
end

section
/-! What TNS raises on MAX_ORDER, NFILT, a short window's filter and a coefficient, and what it leaves as it was (43_tns.md R142, R143,
R146, R148): O49 and O50. -/

namespace Sys2Proof.Machine

section
variable {c : Nat} {s s' t t' : State} {ctrl : TnsCtrl} {ics : Ics} {win : Windows} {swb : List Nat} {tw : Nat → TnsWindow}
  {filt : Nat → Nat → TnsFilter} {coef : Nat → Nat → Nat → Int} {w f : Nat} {e : Stop}

/-! ## The bytes TNS leaves as they were (R146) -/

/-- Without TNS data the body completes at once (R148). -/
theorem tnsBody_absent {v : Word} (hv : s.item? c .tnsCtrl 0 = some v) (hp : bit 0 v = false) : tnsBody c s = .ok s := by
  rw [tnsBody, readItem_ok.mpr hv, except_ok_bind]
  exact if_neg (by simp [tnsCtrlOfWord, hp])

/-- A pass that runs leaves every byte outside the words of its range as it was. -/
theorem tnsPass_byte {x : FilterPass} {s0 : State} {y : Nat} (h : tnsPass c s0 x t = .ok t')
    (hy : x.coefs ≠ [] → ∀ i, x.first ≤ i → i < x.first + x.len → OutsideWord (itemAddr c .spec i) y) :
    t'.mem.byte? y = t.mem.byte? y := by
  unfold tnsPass at h
  split at h
  · cases h; rfl
  rename_i hruns
  obtain ⟨words, hwords, h⟩ := except_bind_ok.mp h
  cases except_pure_ok.mp h
  exact byte_setItems_outsideWords fun i h1 h2 =>
    hy (fun h0 => hruns (.inl h0)) i h1 (by simpa [filterElems_length, readSpecRun_length hwords] using h2)

/-- TNS leaves every byte as it was that lies in no word of the range of a filter that runs. -/
theorem tnsBody_frame (legal : TnsLegal c s ctrl ics win swb tw filt coef) (h : tnsBody c s = .ok s') :
    SameBytes s.mem s'.mem fun y => ∀ w f k, TnsRuns ctrl ics win swb tw filt w f → tnsLo ctrl ics swb (filt w) f ≤ k →
      k < tnsHi ctrl ics swb (filt w) f → OutsideWord (itemAddr c .spec (w * win.len + k)) y := by
  intro y hy
  rw [(tnsBody_passes legal.present legal.order legal.windows).1] at h
  refine applyAll_inv (P := fun t => t.mem.byte? y = s.mem.byte? y) (fun x hx t t' hsame hpass => ?_) rfl h
  obtain ⟨w, hw, f, hf, rfl⟩ := mem_tnsPassesOf.mp hx
  refine (tnsPass_byte hpass fun hcoefs i h1 h2 => ?_).trans hsame
  obtain ⟨horder, hrange⟩ := tnsPassOf_coefs.mp hcoefs
  simp only [tnsPassOf] at h1 h2
  obtain ⟨k, rfl⟩ : ∃ k, i = w * win.len + k := ⟨i - w * win.len, by omega⟩
  exact hy w f k ⟨hw, hf, horder, hrange⟩ (by omega) (by omega)

/-! ## The checks that raise (R143, R148) -/

/-- A used coefficient out of range raises BAD_TNS. -/
theorem tnsCoefCheck_raise {nbits i : Nat} {ci : Int} (hread : readCoef c w f i s = .ok ci)
    (hrange : coefInRange nbits ci = false) : tnsCoefCheck c w f nbits s i = .error (.raise .badTns c (bandDetail w f)) := by
  rw [tnsCoefCheck, hread, except_ok_bind]
  exact if_neg (by simp [hrange])

/-- A filter of a short window past its limits raises BAD_TNS. -/
theorem tnsFilterRead_limits (hfilt : TnsFilterIs c s filt w f) (hlim : ¬TnsLimits ics (filt w f)) :
    tnsFilterRead c s ctrl ics swb tw filt w f = .error (.raise .badTns c (bandDetail w f)) := by
  obtain ⟨v, hv, hfields⟩ := hfilt
  rw [tnsLimits_iff, not_not, ← hfields] at hlim
  rw [tnsFilterRead, tnsFilterCheck, readItem_ok.mpr hv, except_ok_bind]
  exact if_pos hlim

/-- The first coefficient out of range of a filter with a nonempty range raises BAD_TNS. -/
theorem tnsFilterRead_coef {i : Nat} (hfilt : TnsFilterIs c s filt w f) (hlim : TnsLimits ics (filt w f))
    (hrange : tnsLo ctrl ics swb (filt w) f < tnsHi ctrl ics swb (filt w) f) (hi : i < tnsOrder ctrl (filt w f))
    (hbefore : ∀ i' < i, TnsCoefLegal c s tw filt coef w f i') (hread : readCoef c w f i s = .ok (coef w f i))
    (hout : coefInRange (coefWidth (tw w).coefRes (filt w f).compress) (coef w f i) = false) :
    tnsFilterRead c s ctrl ics swb tw filt w f = .error (.raise .badTns c (bandDetail w f)) := by
  rw [tnsFilterRead_eq hfilt hlim, if_pos hrange,
    checkAll_stops List.pairwise_lt_range (List.mem_range.mpr hi)
      (fun j _ hj => ⟨_, tnsCoefCheck_ok.mpr (hbefore j hj)⟩) (tnsCoefCheck_raise hread hout)]
  rfl

/-- The filters of a window stop where filter `f` does if those before it are legal. -/
theorem tnsFiltersRead_first {n f0 : Nat} (h0 : f0 ≤ f) (hn : f < f0 + n)
    (hbefore : ∀ f' < f, TnsFilterLegal c s ctrl ics swb tw filt coef w f')
    (hf : tnsFilterRead c s ctrl ics swb tw filt w f = .error e) :
    tnsFiltersRead c s ctrl ics win swb tw filt w n f0 = .error e := by
  induction n generalizing f0 with
  | zero => omega
  | succ n ih =>
    rcases Nat.eq_or_lt_of_le h0 with rfl | hlt
    · exact tnsFiltersRead_stops hf
    · obtain ⟨coefs, hcoefs⟩ := tnsFilterRead_legal (hbefore f0 hlt)
      obtain ⟨x, hx⟩ := tnsFiltersRead_succ (win := win) (n := n) hcoefs
      rw [hx, ih hlt (by omega)]
      rfl

/-- A window with too many filters raises BAD_TNS. -/
theorem tnsWindowCheck_many (hwin : TnsWindowIs c s tw w) (hmany : tnsFilterCap ics < (tw w).nfilt) :
    tnsWindowCheck c ctrl ics win swb s w = .error (.raise .badTns c (bandDetail w 0xFF)) := by
  obtain ⟨v, hv, hfields⟩ := hwin
  rw [← hfields] at hmany
  rw [tnsWindowCheck, readItem_ok.mpr hv, except_ok_bind]
  exact if_pos hmany

/-- TNS stops where a window's checks do if the windows before it are legal. -/
theorem tnsBody_of_window (present : TnsPresent c s ctrl ics win swb) (order : ctrl.maxOrder ≤ tnsOrderCap ics)
    (hw : w < win.count) (before : ∀ w' < w, TnsWindowLegal c s ctrl ics swb tw filt coef w')
    (h : tnsWindowCheck c ctrl ics win swb s w = .error e) : tnsBody c s = .error e := by
  rw [tnsBody_eq present order, checkAll_stops List.pairwise_lt_range (List.mem_range.mpr hw)
    (fun w' _ hlt => ⟨_, tnsWindowCheck_legal (before w' hlt)⟩) h]
  rfl

/-- MAX_ORDER past its limit raises BAD_TNS. -/
theorem tnsBody_order (present : TnsPresent c s ctrl ics win swb) (order : tnsOrderCap ics < ctrl.maxOrder) :
    tnsBody c s = .error (.raise .badTns c 0xFFFF) := by
  obtain ⟨⟨v, hv, rfl, hp⟩, side⟩ := present
  rw [tnsBody_present hv hp, tnsFilterBody, side.header, except_ok_bind, side.windows, except_ok_bind, side.bands, except_ok_bind]
  exact if_pos order

end

/-- Settles O49: without TNS data the body completes at once (`tnsBody_absent`); on legal data it completes with the outputs of every
filter that runs (`tnsBody_legal`) and leaves every other byte as it was (`tnsBody_frame`). -/
theorem tnsCompletes : Obligations.TnsCompletes := by
  unfold Obligations.TnsCompletes
  refine ⟨fun c s v hf hc hv hp => exec_tns_ok ⟨hf, hc⟩ (tnsBody_absent hv hp),
    fun c s ctrl ics win swb tw filt coef hf hc legal => ?_⟩
  obtain ⟨s', hbody, hout⟩ := tnsBody_legal legal
  exact ⟨s'.mem, (tnsBody_ok hbody).eq ▸ exec_tns_ok ⟨hf, hc⟩ hbody,
    fun w f words hruns hreads j hj => hout w f words j hruns hreads hj, tnsBody_frame legal hbody⟩

/-- Settles O50: the checks stop at the first window (`tnsBody_of_window`), in it at the first filter (`tnsFiltersRead_first`), and in
that at its fields (`tnsFilterRead_limits`) or its first coefficient out of range (`tnsFilterRead_coef`). -/
theorem tnsErrors : Obligations.TnsErrors := by
  unfold Obligations.TnsErrors
  intro c s ctrl ics win swb tw filt coef hf hc present
  have raises : ∀ {d}, tnsBody c s = .error (.raise .badTns c d) → exec (.tns c) s = raised .badTns c d s :=
    fun h => exec_raised (i := .tns c) ⟨hf, hc⟩ h
  refine ⟨fun horder => raises (tnsBody_order present horder), fun horder w hw windows hwin =>
    ⟨fun hmany => raises (tnsBody_of_window present horder hw windows (tnsWindowCheck_many hwin hmany)),
      fun hfew f hf filters hfilt => ?_⟩⟩
  have filterRaises : tnsFilterRead c s ctrl ics swb tw filt w f = .error (.raise .badTns c (bandDetail w f)) →
      exec (.tns c) s = raised .badTns c (bandDetail w f) s := fun h =>
    raises (tnsBody_of_window present horder hw windows
      ((tnsWindowCheck_eq hwin hfew).trans (tnsFiltersRead_first (Nat.zero_le f) (by omega) filters h)))
  exact ⟨fun hlim => filterRaises (tnsFilterRead_limits hfilt hlim), fun hlim hrange i hi coefs hread hout =>
    filterRaises (tnsFilterRead_coef hfilt hlim hrange hi coefs hread hout)⟩

end Sys2Proof.Machine
end

section
/-! The enclosures of TNS's reflection coefficients at every precision (43_tns.md R144; log 6): O51. -/

namespace Sys2Proof.Machine

/-! ## The cosine at every precision (log 6) -/

section
variable {p n d : Nat} {x t acc term : Encl} {r : ℝ}

/-- An enclosure that holds a real does so within its own width. -/
theorem Encl.Holds.exists_within (h : x.Holds p r) : ∃ ε, x.Within p r ε := by
  have hw : ((x.hi : ℝ) - x.lo) / 2 ^ p * 2 ^ p = x.hi - x.lo := div_mul_cancel₀ _ (pow_two_pos p).ne'
  exact ⟨(x.hi - x.lo) / 2 ^ p, h, by linarith [sub_mul r (((x.hi : ℝ) - x.lo) / 2 ^ p) (2 ^ p), h.2],
    by linarith [add_mul r (((x.hi : ℝ) - x.lo) / 2 ^ p) (2 ^ p), h.1]⟩

/-- The cosine's series from its term `j` on, with at least one term before the first left out. -/
theorem cosTerms_holds {θ : ℝ} (ht : t.Holds p (θ ^ 2)) (hθ : θ ^ 2 ≤ 5 / 2) (n j : Nat) (hj : 1 ≤ j + n)
    (hterm : term.Holds p (cosTerm θ j)) (hacc : acc.Holds p (∑ i ∈ Finset.range j, (-1 : ℝ) ^ i * cosTerm θ i)) :
    (cosTerms p t n j term acc).Holds p (Real.cos θ) := by
  induction n generalizing j term acc with
  | zero =>
    obtain ⟨_, wterm⟩ := hterm.exists_within
    obtain ⟨_, wacc⟩ := hacc.exists_within
    exact (within_remainder wacc wterm
      (alternating_remainder (hasSum_cosTerm θ) j fun n hn => cosTerm_succ_le hθ (by omega))).holds
  | succ n ih =>
    obtain ⟨_, wterm⟩ := hterm.exists_within
    obtain ⟨_, wacc⟩ := hacc.exists_within
    have hterm' : ((term.mul p t).scale 1 ((2 * j + 1) * (2 * j + 2))).Holds p (cosTerm θ (j + 1)) := by
      rw [cosTerm_succ]
      exact (hterm.mul ht).scale 1 (by positivity)
    exact ih (j + 1) (by omega) hterm' (within_alternate wacc wterm).holds

theorem cosOfSquare_holds {θ : ℝ} (ht : t.Holds p (θ ^ 2)) (hθ : θ ^ 2 ≤ 5 / 2) : (cosOfSquare p t).Holds p (Real.cos θ) :=
  cosTerms_holds ht hθ _ 0 (by omega) (by simpa [cosTerm_zero] using holds_ofInt p 1) (by simpa using holds_zero p)

/-- An angle up to the right angle. -/
theorem cosOfSquare_scale_holds (hd : 0 < d) (h : 2 * n ≤ d) :
    (cosOfSquare p (((piEncl p).scale n d).mul p ((piEncl p).scale n d))).Holds p (Real.cos (Real.pi * (n / d))) := by
  have hx := (piEncl_within p).holds.scale n hd
  exact cosOfSquare_holds (by rw [sq]; exact hx.mul hx) (square_within (p := 384) le_rfl hd h).2

theorem cosPiUpper_holds (hd : 0 < d) (hn : n ≤ d) : (cosPiUpper p (piEncl p) n d).Holds p (Real.cos (Real.pi * (n / d))) := by
  have hd' : (d : ℝ) ≠ 0 := by exact_mod_cast hd.ne'
  unfold cosPiUpper
  split
  · exact cosOfSquare_scale_holds hd ‹_›
  · have h := (cosOfSquare_scale_holds (p := p) hd (n := d - n) (by omega)).neg
    have e : Real.pi * (((d - n : ℕ) : ℝ) / d) = Real.pi - Real.pi * (n / d) := by
      rw [Nat.cast_sub hn]; field_simp
    rwa [e, Real.cos_pi_sub, neg_neg] at h

theorem cosPi_holds (hd : 0 < d) (n : Nat) : (cosPi p (piEncl p) n d).Holds p (Real.cos (Real.pi * (n / d))) := by
  have hd' : (d : ℝ) ≠ 0 := by exact_mod_cast hd.ne'
  have hr := Nat.mod_lt n (show 0 < 2 * d by omega)
  have hmod : (n : ℝ) = (n % (2 * d) : ℕ) + 2 * d * (n / (2 * d) : ℕ) := by exact_mod_cast (Nat.mod_add_div n (2 * d)).symm
  have e : Real.pi * (n / d) = Real.pi * ((n % (2 * d) : ℕ) / d) + (n / (2 * d) : ℕ) * (2 * Real.pi) := by
    field_simp
    linear_combination hmod
  unfold cosPi
  rw [e, Real.cos_add_nat_mul_two_pi]
  dsimp only
  split
  · exact cosPiUpper_holds hd ‹_›
  · have h := cosPiUpper_holds (p := p) hd (n := 2 * d - n % (2 * d)) (by omega)
    have e2 : Real.pi * (((2 * d - n % (2 * d) : ℕ) : ℝ) / d) = 2 * Real.pi - Real.pi * ((n % (2 * d) : ℕ) / d) := by
      rw [Nat.cast_sub hr.le]; push_cast; field_simp
    rwa [e2, Real.cos_two_pi_sub] at h

theorem sinPi_holds (hd : 0 < d) (n : Nat) : ((enclArith p).sinPi n d).Holds p (Real.sin (Real.pi * (n / d))) := by
  have hd' : (d : ℝ) ≠ 0 := by exact_mod_cast hd.ne'
  have h := cosPi_holds (p := p) (d := 2 * d) (by omega) (2 * n + 3 * d)
  have e : Real.pi * (((2 * n + 3 * d : ℕ) : ℝ) / (2 * d : ℕ)) = Real.pi * (n / d) - Real.pi / 2 + 2 * Real.pi := by
    push_cast; field_simp; ring
  rwa [e, Real.cos_add_two_pi, Real.cos_sub_pi_div_two] at h

end

/-! ## Reflection coefficients (R144) -/

section
variable {coefRes : Nat} {ci : Int} {k : ℝ}

/-- The divisor of the angle `pi ci / (2^b - 1)` of a coefficient index `ci >= 0`, `pi ci / (2^b + 1)` of a negative one (R144). -/
noncomputable def coefDivisor (coefRes : Nat) (ci : Int) : ℝ := 2 ^ coefResBits coefRes + if 0 ≤ ci then -1 else 1

theorem two_pow_coefResBits (coefRes : Nat) : (2 : ℝ) ^ coefResBits coefRes = 2 ^ (coefResBits coefRes - 1) * 2 := by
  rw [← pow_succ, Nat.sub_add_cancel (by unfold coefResBits; omega)]

theorem IsReflection.eq_sin (h : IsReflection coefRes ci k) : k = Real.sin (Real.pi * (ci / coefDivisor coefRes ci)) := by
  rw [h]
  congr 1
  unfold coefDivisor
  rw [two_pow_coefResBits]
  split <;> field_simp

/-- An index in range is below half the divisor. -/
theorem abs_div_coefDivisor_lt (h : coefInRange (coefResBits coefRes) ci = true) : |(ci : ℝ) / coefDivisor coefRes ci| < 1 / 2 := by
  unfold coefInRange at h
  rw [Bool.and_eq_true, decide_eq_true_eq, decide_eq_true_eq] at h
  have hlo : -(2 : ℝ) ^ (coefResBits coefRes - 1) ≤ ci := by exact_mod_cast h.1
  have hhi : (ci : ℝ) ≤ 2 ^ (coefResBits coefRes - 1) - 1 := by exact_mod_cast h.2
  have h1 : (1 : ℝ) ≤ 2 ^ (coefResBits coefRes - 1) := one_le_pow₀ (by norm_num)
  have hD : 0 < coefDivisor coefRes ci := by
    unfold coefDivisor
    rw [two_pow_coefResBits]
    split <;> linarith
  rw [abs_div, abs_of_pos hD, div_lt_iff₀ hD, coefDivisor, two_pow_coefResBits]
  split
  · rw [abs_of_nonneg (by exact_mod_cast ‹0 ≤ ci›)]
    linarith
  · rw [abs_of_neg (by exact_mod_cast not_le.mp ‹¬0 ≤ ci›)]
    linarith

/-- The angle of an index in range is below the right angle. -/
theorem IsReflection.abs_lt_one (h : IsReflection coefRes ci k) (hrange : coefInRange (coefResBits coefRes) ci = true) :
    |k| < 1 := by
  obtain ⟨h1, h2⟩ := abs_lt.mp (abs_div_coefDivisor_lt hrange)
  have hcos : 0 < Real.cos (Real.pi * (ci / coefDivisor coefRes ci)) :=
    Real.cos_pos_of_mem_Ioo ⟨by nlinarith [Real.pi_pos], by nlinarith [Real.pi_pos]⟩
  rw [h.eq_sin, ← sq_lt_one_iff_abs_lt_one, Real.sin_sq]
  linarith [pow_pos hcos 2]

theorem reflection_holds (p : Nat) (h : IsReflection coefRes ci k) : (reflection (enclArith p) coefRes ci).Holds p k := by
  have h2 : 2 ≤ 2 ^ coefResBits coefRes := Nat.le_self_pow (by unfold coefResBits; omega) 2
  rw [h.eq_sin, coefDivisor]
  unfold reflection
  rcases lt_trichotomy ci 0 with hc | rfl | hc
  · rw [if_neg hc.ne, if_neg hc.not_gt, if_neg hc.not_ge]
    have hs := (holds_zero p).sub (sinPi_holds (p := p) (d := 2 ^ coefResBits coefRes + 1) (by omega) ci.natAbs)
    rw [zero_sub, ← Real.sin_neg, ← mul_neg, ← neg_div, Nat.cast_natAbs, abs_of_neg hc] at hs
    push_cast at hs
    rwa [neg_neg] at hs
  · rw [if_pos rfl, Int.cast_zero, zero_div, mul_zero, Real.sin_zero]
    exact holds_zero p
  · rw [if_neg hc.ne', if_pos hc, if_pos hc.le]
    have hs := sinPi_holds (p := p) (d := 2 ^ coefResBits coefRes - 1) (by omega) ci.natAbs
    rw [Nat.cast_natAbs, abs_of_pos hc, Nat.cast_sub (by omega)] at hs
    simpa [sub_eq_add_neg] using hs

end

/-- Settles O51: the enclosure holds the sine at every precision (`reflection_holds`), the angle is below the right angle
(`IsReflection.abs_lt_one`), and from 384 bits on the radius is small (`reflection_within`). -/
theorem tnsCoefficient : Obligations.TnsCoefficient := by
  unfold Obligations.TnsCoefficient
  refine fun p coefRes ci k _ hrange h => ⟨h.abs_lt_one hrange, reflection_holds p h, fun hp => ?_⟩
  refine (reflection_within hp h).near (by omega) ?_
  calc 18 * (p : ℝ) ^ 2 * ulp p = 18 * (p ^ 2 * ulp p) := by ring
    _ ≤ 18 * (1 / (2 ^ 200 * 2 ^ 149)) := by gcongr; exact pow_mul_ulp hp (by decide)
    _ ≤ 1 / 2 ^ 201 := by norm_num

end Sys2Proof.Machine
end

section
/-! The recursions of the direct form and of the all-pole filter, what encloses their results, and inputs that are not finite
(43_tns.md R145, R147; 00_scope.md R13; log 6): O52 and O53. -/

namespace Sys2Proof.Machine

/-! ## The direct form (R145) -/

/-- Related lists combined element by element. -/
theorem forall₂_zipWith {α β : Type} {R : α → β → Prop} {f : α → α → α} {g : β → β → β}
    (hfg : ∀ {u v u' v'}, R u u' → R v v' → R (f u v) (g u' v')) {us vs : List α} {us' vs' : List β}
    (hu : List.Forall₂ R us us') (hv : List.Forall₂ R vs vs') :
    List.Forall₂ R (List.zipWith f us vs) (List.zipWith g us' vs') := by
  induction hu generalizing vs vs' with
  | nil => exact .nil
  | cons h1 _ ih =>
    cases hv with
    | nil => exact .nil
    | cons h2 hv => exact .cons (hfg h1 h2) (ih hv)

section
variable {p : Nat} {xs : List Encl} {ks : List ℝ}

/-- One pass of the step-up recursion on enclosures. -/
theorem stepUp_forall₂ {as : List Encl} {bs : List ℝ} {x : Encl} {k : ℝ}
    (h : List.Forall₂ (Encl.Holds p) as bs) (hx : x.Holds p k) :
    List.Forall₂ (Encl.Holds p) (stepUp (enclArith p) as x) (stepUpOver bs k) := by
  have inner := forall₂_zipWith (f := fun u v => u.add (x.mul p v)) (g := fun u v => u + k * v)
    (fun hu hv => hu.add (hx.mul hv)) h (List.forall₂_reverse_iff.mpr h)
  exact List.rel_append inner (.cons hx .nil)

theorem directForm_forall₂ (h : List.Forall₂ (Encl.Holds p) xs ks) :
    List.Forall₂ (Encl.Holds p) (directForm (enclArith p) xs) (directFormOver ks) :=
  List.rel_foldl (R := Encl.Holds p) (P := List.Forall₂ (Encl.Holds p)) (fun _ _ ha _ _ hk => stepUp_forall₂ ha hk) .nil h

end

/-- One more coefficient is one more pass. -/
theorem directFormOver_append (ks : List ℝ) (k : ℝ) : directFormOver (ks ++ [k]) = stepUpOver (directFormOver ks) k :=
  List.foldl_append

theorem length_directFormOver (ks : List ℝ) : (directFormOver ks).length = ks.length := by
  induction ks using List.reverseRecOn with
  | nil => rfl
  | append_singleton ks k ih => simp [directFormOver_append, stepUpOver, ih]

/-- Settles O52: every pass on enclosures holds the pass on their reals (`directForm_forall₂`), and one more coefficient adds one pass
(`directFormOver_append`). -/
theorem stepUpRecursion : Obligations.StepUpRecursion := by
  unfold Obligations.StepUpRecursion
  refine ⟨fun p xs ks h => directForm_forall₂ h, rfl, fun ks k => ?_⟩
  obtain ⟨inner, last⟩ := getD_zipWith_reverse (fun u v => u + k * v) (directFormOver ks) k 0
  rw [length_directFormOver] at inner last
  refine ⟨by rw [length_directFormOver, List.length_append, List.length_singleton], ?_, fun i h1 h2 => ?_⟩
  · rw [directFormOver_append]
    exact last
  · rw [directFormOver_append, show ks.length - i = ks.length - 1 - (i - 1) by omega]
    exact inner (i - 1) (by omega)

/-! ## The filter (R147) -/

/-- The inner product of two lists, term by term. -/
theorem sum_zipWith_mul (a b : List ℝ) :
    (List.zipWith (· * ·) a b).sum = ∑ i ∈ Finset.range (min a.length b.length), a.getD i 0 * b.getD i 0 := by
  induction a generalizing b with
  | nil => simp
  | cons x a ih =>
    cases b with
    | nil => simp
    | cons y b => simp [ih, Nat.succ_min_succ, Finset.sum_range_succ', add_comm]

/-- Output `j` takes the outputs before it, latest first, and then the history. -/
theorem allPoleOver_getD (a : List ℝ) {xs hist : List ℝ} {j : Nat} (hj : j < xs.length) :
    (allPoleOver a xs hist).getD j 0 =
      xs.getD j 0 - (List.zipWith (· * ·) a (((allPoleOver a xs hist).take j).reverse ++ hist)).sum := by
  induction j generalizing xs hist with
  | zero =>
    obtain ⟨x, xs, rfl⟩ := List.exists_cons_of_length_pos hj
    simp [allPoleOver]
  | succ j ih =>
    obtain ⟨x, xs, rfl⟩ := List.exists_cons_of_length_pos (Nat.zero_lt_of_lt hj)
    simp only [allPoleOver, List.getD_cons_succ, List.take_succ_cons, List.reverse_cons, List.append_assoc, List.singleton_append]
    exact ih (by simpa using hj)

theorem length_allPoleOver (a xs hist : List ℝ) : (allPoleOver a xs hist).length = xs.length := by
  induction xs generalizing hist with
  | nil => rfl
  | cons x xs ih => simp [allPoleOver, ih]

/-- The first `j` elements, latest first. -/
theorem getD_reverse_take {xs : List ℝ} {i j : Nat} (hi : i < j) (hj : j ≤ xs.length) :
    (xs.take j).reverse.getD i 0 = xs.getD (j - (i + 1)) 0 := by
  have hlen : (xs.take j).length = j := by rw [List.length_take, min_eq_left hj]
  simp only [List.getD_eq_getElem?_getD]
  rw [List.getElem?_reverse (by omega), hlen, List.getElem?_take_of_lt (by omega), Nat.sub_sub, Nat.add_comm 1]

/-- The filter's recursion on its own outputs. -/
theorem allPoleOver_recursion (a xs : List ℝ) {j : Nat} (hj : j < xs.length) :
    (allPoleOver a xs []).getD j 0 =
      xs.getD j 0 - ∑ i ∈ Finset.Icc 1 (min a.length j), a.getD (i - 1) 0 * (allPoleOver a xs []).getD (j - i) 0 := by
  have shift := Finset.sum_Ico_add' (fun i => a.getD (i - 1) 0 * (allPoleOver a xs []).getD (j - i) 0) 0 (min a.length j) 1
  rw [zero_add, Finset.Ico_add_one_right_eq_Icc] at shift
  rw [← shift, ← Finset.range_eq_Ico]
  conv_lhs => rw [allPoleOver_getD a hj, List.append_nil, sum_zipWith_mul]
  rw [List.length_reverse, List.length_take, length_allPoleOver, min_eq_left hj.le]
  congr 1
  refine Finset.sum_congr rfl fun i hi => ?_
  have hi := Finset.mem_range.mp hi
  rw [getD_reverse_take (by omega) (by rw [length_allPoleOver]; omega), Nat.add_sub_cancel]

/-- Output `k` of a filter, in the order it runs, is its output at position `k` from the end it starts at. -/
theorem filterOutputs_at {p coefRes k : Nat} {coefs : List Int} {down : Bool} {words : List Word} {xs ks : List ℝ}
    (hp : tnsPrec words.length ≤ p) (hc : coefs.length ≤ 20) (hk : k < words.length)
    (hxs : List.Forall₂ IsF32 ((filterOrder down words).take (k + 1)) xs)
    (hks : List.Forall₂ (IsReflection coefRes) coefs ks) :
    ∃ y, (filterOutputs (enclArith p) coefRes coefs down words).getD (if down then words.length - 1 - k else k) none = some y ∧
      y.Near p ((allPoleOver (directFormOver ks) xs []).getD k 0) := by
  obtain ⟨y, hy, hw⟩ := filterOutputs_within hp hc hk hxs hks
  rw [filterOrder_getD down (by rwa [filterOutputs_length]), filterOutputs_length] at hy
  exact ⟨y, hy, hw.near (by unfold tnsPrec at hp; omega) le_rfl⟩

/-! ## Inputs that are not finite (R13, R148) -/

/-- From an input that is not finite on, the recursion has no outputs. -/
theorem allPole_none {R : Type} (o : Arith R) (a : List R) {xs : List (Option R)} {k k' : Nat} (hk : xs.getD k none = none)
    (h : k ≤ k') (hist : List R) : (allPole o a xs hist).getD k' none = none := by
  induction xs generalizing k k' hist with
  | nil => rfl
  | cons x xs ih =>
    cases x with
    | none =>
      cases k' with
      | zero => rfl
      | succ k' => simp [allPole, List.getD_eq_getElem?_getD]
    | some x =>
      cases k with
      | zero => simp at hk
      | succ k =>
        obtain ⟨k', rfl⟩ : ∃ m, k' = m + 1 := ⟨k' - 1, by omega⟩
        exact ih hk (by omega) _

/-- A filter has no outputs, in the order it runs, from an input on that is not finite. -/
theorem filterOutputs_none {R : Type} (o : Arith R) (coefRes : Nat) (coefs : List Int) {down : Bool} {words : List Word}
    {k k' : Nat} (hk : f32Units ((filterOrder down words).getD k 0#32) = none) (h : k ≤ k') :
    (filterOrder down (filterOutputs o coefRes coefs down words)).getD k' none = none := by
  rw [filterOrder_filterOutputs]
  refine allPole_none o _ ?_ h []
  rw [List.getD_eq_getElem?_getD] at hk ⊢
  rw [List.getElem?_map]
  cases he : (filterOrder down words)[k]? with
  | none => rfl
  | some w =>
    rw [he, Option.getD_some] at hk
    simp [hk]

/-- Where a filter has no output its element is any value. -/
theorem filterElems_any {coefRes j : Nat} {coefs : List Int} {down : Bool} {words : List Word}
    (h : (filterOutputs (enclArith (tnsPrec words.length)) coefRes coefs down words).getD j none = none) :
    (filterElems coefRes coefs down words).getD j .any = .any := by
  unfold filterElems
  rw [List.getD_eq_getElem?_getD] at h ⊢
  dsimp only
  rw [List.getElem?_map, List.getElem?_zipIdx]
  cases he : (filterOutputs (enclArith (tnsPrec words.length)) coefRes coefs down words)[j]? with
  | none => rfl
  | some o =>
    rw [he, Option.getD_some] at h
    subst h
    rfl

/-- Settles O53: the outputs up to which the inputs are finite are enclosed at every precision (`filterOutputs_at`), the recursion is
R147's (`allPoleOver_recursion`), and it has no output from an input on that is not finite (`allPole_none`). -/
theorem allPoleFilter : Obligations.AllPoleFilter := by
  unfold Obligations.AllPoleFilter
  refine ⟨fun coefRes coefs down words k xs ks _ hc _ hk hxs hks => ?_, fun a xs j hj => allPoleOver_recursion a xs hj,
    fun coefRes coefs down words k k' hkk' hk' hinf => ?_⟩
  · have enclosed := fun p hp => filterOutputs_at (p := p) hp hc hk hxs hks
    obtain ⟨y, hy, hnear⟩ := enclosed _ le_rfl
    obtain ⟨isGrid, he⟩ := filterElems_getD hy
    rw [filterOrder_getD down (by rwa [filterElems_length]), filterElems_length]
    refine ⟨y, _, isGrid, he, hnear, fun p hp => ?_⟩
    obtain ⟨z, hz, hnear⟩ := enclosed p hp
    rw [hz]
    exact hnear
  · have hnone := filterOutputs_none (enclArith (tnsPrec words.length)) coefRes coefs hinf hkk'
    rw [filterOrder_getD down (by rwa [filterOutputs_length]), filterOutputs_length] at hnone
    rw [filterOrder_getD down (by rwa [filterElems_length]), filterElems_length]
    exact filterElems_any hnone

end Sys2Proof.Machine
end

section
/-! FB completes on a written header and spectrum, its window tables and windowed frame enclose the exact ones, and on a silent
spectrum it stores the old overlap (44_filterbank.md R161 to R171; log 6): O54, O55, O56 and O57. -/

namespace Sys2Proof.Machine

/-! ## Completion (R169, R170, R171) -/

section
variable {c : Nat} {s : State} {ics : Ics} {spec ovl : List Word} {prev : Word}

/-- CHSTATE always holds a value (R31, R230). -/
theorem item_chstate_total (c : Nat) (s : State) : ∃ prev, s.item? c .chstate 0 = some prev :=
  item_channelState s c (by decide) rfl

/-- The fields CHSTATE holds after a store of `chstateWord`, and its reserved bits (R30, R37). -/
theorem chstateWord_fields {seq shape : Nat} (hseq : seq < 4) (hshape : shape < 2) :
    bits 1 0 (chstateWord seq shape &&& Item.chstate.mask) = seq ∧ bits 4 4 (chstateWord seq shape &&& Item.chstate.mask) = shape ∧
      chstateWord seq shape &&& Item.chstate.mask &&& 0xFFFFFFEC#32 = 0#32 := by
  interval_cases seq <;> interval_cases shape <;> decide

/-- The transitions FB flags in WT (R171). -/
theorem not_legalTransition (pseq seq : Nat) :
    (!legalTransition pseq seq) = decide (¬((pseq = 0 ∨ pseq = 3) ↔ (seq = 0 ∨ seq = 1))) := by
  rw [Bool.eq_iff_iff, decide_eq_true_eq, legalTransition, Bool.not_eq_true', beq_eq_false_iff_ne, ne_eq, Bool.eq_iff_iff]
  simp only [Bool.or_eq_true, beq_iff_eq]

/-- What FB leaves in CHSTATE (R37, R170). -/
theorem fbItems_chstate (x : Frame) (ovl : List Word) :
    (fbItems c s ics x ovl).item? c .chstate 0 = some (chstateWord ics.seq ics.shape &&& Item.chstate.mask) :=
  item_setItems_same le_rfl (by simp)

/-- FB leaves every byte outside its three items as it was (R170). -/
theorem fbItems_frame (x : Frame) (hovl : readFrame c .ovl s = .ok ovl) :
    SameBytes s.mem (fbItems c s ics x ovl).mem fun y => OutsideItem c .pcm s.frameLen y ∧ OutsideItem c .ovl s.frameLen y ∧
      OutsideItem c .chstate 1 y := by
  rintro y ⟨hpcm, hov, hch⟩
  unfold fbItems
  rw [byte_setItems_outside hch, byte_setItems_outside (by simpa [ovlWords] using hov),
    byte_setItems_outside (by simpa [pcmWords, readFrame_length hovl] using hpcm)]

end

/-- Settles O54: on written data the body completes (`fbBody_written`); what it stores in its three items is `fbItems_item` and
`fbItems_chstate`, and every other byte is as it was (`fbItems_frame`). -/
theorem fbCompletes : Obligations.FbCompletes := by
  unfold Obligations.FbCompletes
  intro c s ics spec hf hc hics hspec
  obtain ⟨prev, hprev⟩ := item_chstate_total c s
  obtain ⟨ovl, hovl⟩ := readFrame_ovl_total c s
  set x := frameOf s.frameLen ics.seq spec (bits 4 4 prev) ics.shape
  have stored := fun n (hn : n < s.frameLen) => fbItems_item (ics := ics) x hovl hn
  obtain ⟨hseq, hshape, -⟩ := readIcs_bounds hics
  refine ⟨prev, ovl, (fbItems c s ics x ovl).mem, hprev, hovl, ?_, fun n hn => (stored n hn).1, fun n hn => (stored n hn).2,
    ⟨_, fbItems_chstate x ovl, chstateWord_fields hseq hshape⟩, fbItems_frame x hovl⟩
  rw [exec_fb_ok ⟨hf, hc⟩ (fbBody_written hics hprev hspec hovl), ← not_legalTransition]
  rfl

/-! ## The window tables (R161, R162) -/

/-- Settles O55: the tables' radius (`windowTable_within`) is far below 2^-201. -/
theorem windowTables : Obligations.WindowTables := by
  unfold Obligations.WindowTables
  intro p shape N n r hp _ hN hn h
  have hp : 384 ≤ p := hp
  refine (windowTable_within hp hN hn h).1.near (by omega) ?_
  calc 10 * (p : ℝ) ^ 4 * ulp p = 10 * (p ^ 4 * ulp p) := by ring
    _ ≤ 10 * (1 / (2 ^ 200 * 2 ^ 149)) := by gcongr; exact pow_four_mul_ulp hp
    _ ≤ 1 / 2 ^ 201 := by norm_num

/-! ## Spectra that are not finite (R13) -/

section
variable {R : Type} (o : Arith R)

/-- A list with a value that is any value is not known. -/
theorem allKnown_of_none_mem {xs : List (Option R)} (h : none ∈ xs) : allKnown xs = none := by
  induction xs with
  | nil => simp at h
  | cons x xs ih =>
    cases x with
    | none => rfl
    | some x => simp [allKnown, ih (by simpa using h)]

/-- A sum with a value that is any value is not known. -/
theorem sumKnown_of_none_mem {xs : List (Option R)} (h : none ∈ xs) : sumKnown o xs = none := by
  induction xs with
  | nil => simp at h
  | cons x xs ih =>
    cases x with
    | none => rfl
    | some x => simp [sumKnown, ih (by simpa using h)]

theorem imdctAt_of_none_mem {xs : List (Option R)} (h : none ∈ xs) (N n : Nat) : imdctAt o N xs n = none := by
  rw [imdctAt, allKnown_of_none_mem h, Option.map_none]

@[simp] theorem windowed_none (w : List R) (n : Nat) : windowed o none w n = none := rfl

section
variable {x : FrameInput R}

/-- The long transform reads every bin. -/
theorem longAt_of_none_mem (h : none ∈ x.spec) (n : Nat) : x.longAt o n = none := imdctAt_of_none_mem o h _ _

theorem zOnlyLong_of_none_mem (h : none ∈ x.spec) (n : Nat) : zOnlyLong o x n = none := by
  simp [zOnlyLong, longAt_of_none_mem o h]

/-- LONG_START reads every bin up to the end of its short slope (R166). -/
theorem zLongStart_of_none_mem (h : none ∈ x.spec) {n : Nat} (hn : n < 3 * x.L / 2 + x.S / 2) : zLongStart o x n = none := by
  simp [zLongStart, longAt_of_none_mem o h, hn]

/-- LONG_STOP reads every bin from the start of its short slope (R168). -/
theorem zLongStop_of_none_mem (h : none ∈ x.spec) {n : Nat} (hn : x.L / 2 - x.S / 2 ≤ n) : zLongStop o x n = none := by
  simp [zLongStop, longAt_of_none_mem o h, hn]

/-- EIGHT_SHORT reads the bins of every short window that overlaps (R167). -/
theorem zEightShort_of_none {j k n : Nat} (hj : j < 8) (hk : k < x.S) (h : x.spec[j * x.S + k]? = some none)
    (hn : x.L / 2 - x.S / 2 + j * x.S ≤ n ∧ n < x.L / 2 - x.S / 2 + j * x.S + 2 * x.S) : zEightShort o x n = none := by
  have hmem : none ∈ (x.spec.drop (j * x.S)).take x.S :=
    List.mem_of_getElem? (i := k) (by rw [List.getElem?_take_of_lt hk, List.getElem?_drop, h])
  refine sumKnown_of_none_mem o (List.mem_map.mpr ⟨j, ?_, ?_⟩)
  · simpa [hj] using hn
  · rw [imdctAt_of_none_mem o hmem, windowed_none]

end

/-- A windowed frame is any value where its formula reads a word that is not finite, whatever represents the reals. -/
theorem frameAt_of_not_finite {kbd : Nat → List R} {L seq sp shape n k : Nat} {spec : List Word} (hL : L % 8 = 0)
    (hs : spec.length = L) (hk : k < L) (hread : FrameReads L seq n k) (hinf : f32Units (spec.getD k 0#32) = none) :
    frameAt o seq (frameInput o kbd L spec sp shape) n = none := by
  have hget : (frameInput o kbd L spec sp shape).spec[k]? = some none := by
    have hk : k < spec.length := by omega
    simpa [frameInput, List.getD_eq_getElem?_getD, hk] using hinf
  have hmem := List.mem_of_getElem? hget
  match seq with
  | 0 => exact zOnlyLong_of_none_mem o hmem n
  | 1 => exact zLongStart_of_none_mem o hmem hread
  | 2 =>
    have hj : k / (L / 8) < 8 := Nat.div_lt_of_lt_mul (by omega)
    exact zEightShort_of_none o hj (Nat.mod_lt k (by omega : 0 < L / 8))
      ((congrArg _ (Nat.div_add_mod' k (L / 8))).trans hget) hread
  | _ + 3 => exact zLongStop_of_none_mem o hmem hread

end

/-- Settles O56: where the formula reads finite words only, the frame's radius (`frame_within`) is far below 2^-201; where it reads
another one, the frame has no value (`frameAt_of_not_finite`). -/
theorem frameEnclosed : Obligations.FrameEnclosed := by
  unfold Obligations.FrameEnclosed
  intro p L spec seq sp shape n hp hL hs _ _ _ hn
  have hp : 384 ≤ p := hp
  refine ⟨fun X z hX hz => ?_, fun ⟨k, hk, hread, hinf⟩ => frameAt_of_not_finite _ (by omega) hs hk hread hinf⟩
  obtain ⟨y, hy, hw⟩ := frame_within hp hL hs hn hX hz
  exact ⟨y, hy, hw.near (by omega) (frameRadius_le hp)⟩

/-! ## Silence (R170) -/

/-- Every window value exists. -/
theorem exists_isWindow (shape N n : Nat) : ∃ w, IsWindow shape N n w := by
  have kernels : ∀ q, ∃ r, IsKbdKernel N q r := fun q => ⟨_, _, _, rfl, rfl, rfl⟩
  choose W hW using kernels
  unfold IsWindow
  split
  · exact ⟨_, rfl⟩
  · exact ⟨_, W, fun q _ => hW q, rfl⟩

theorem isImdct_zero (N n : Nat) : IsImdct N (fun _ => 0) n 0 := by simp [IsImdct]

/-- The transform of a silent spectrum times a window value. -/
theorem isImdct_mul_isWindow_zero (N n shape N' m : Nat) :
    ∃ x w : ℝ, IsImdct N (fun _ => 0) n x ∧ IsWindow shape N' m w ∧ 0 = x * w := by
  obtain ⟨w, hw⟩ := exists_isWindow shape N' m
  exact ⟨0, w, isImdct_zero N n, hw, (zero_mul w).symm⟩

theorem isShortTerm_zero (L sp shape n j : Nat) : IsShortTerm L sp shape (fun _ => 0) n j 0 := by
  unfold IsShortTerm
  dsimp only
  split
  · exact isImdct_mul_isWindow_zero ..
  · rfl

/-- The windowed frame of a silent spectrum is silent, whatever the header (R165 to R168). -/
theorem isFrame_zero (seq L sp shape n : Nat) : IsFrame seq L sp shape (fun _ => 0) n 0 := by
  match seq with
  | 0 => exact isImdct_mul_isWindow_zero ..
  | 1 =>
    show IsLongStart L sp shape (fun _ => 0) n 0
    unfold IsLongStart
    split_ifs
    · exact isImdct_mul_isWindow_zero ..
    · exact isImdct_zero ..
    · exact isImdct_mul_isWindow_zero ..
    · rfl
  | 2 => exact ⟨fun _ => 0, fun j _ => isShortTerm_zero L sp shape n j, by simp⟩
  | _ + 3 =>
    show IsLongStop L sp shape (fun _ => 0) n 0
    unfold IsLongStop
    split_ifs
    · rfl
    · exact isImdct_mul_isWindow_zero ..
    · exact isImdct_zero ..
    · exact isImdct_mul_isWindow_zero ..

/-- Two words of one real differ at most in the sign of a zero. -/
theorem IsF32.units_eq {w w' : Word} {r : ℝ} (h : IsF32 w r) (h' : IsF32 w' r) : f32Units w = f32Units w' := by
  obtain ⟨v, hv, hr⟩ := h
  obtain ⟨v', hv', hr'⟩ := h'
  rw [hv, hv', Int.cast_inj.mp (hr.symm.trans hr')]

/-- Both zeros read as 0, and no other word does (R13). -/
theorem isF32_zero_iff {w : Word} : IsF32 w 0 ↔ f32Units w = some 0 := by simp [IsF32, eq_comm]

/-- An accepted command stores an exact result that is a binary32 value exactly under the default ROUND, and a zero as +0.0 (R12). -/
theorem exec_stores_f32 {i : Instr} {s t : State} {idx : Nat} {r : ℝ} {w : Word} (ha : Accepted i s)
    (hn : s.params.num = .nearestEven) (hexec : exec i s = .next t) (hr : IsResult s i idx r) (hw : IsF32 w r) :
    ∃ w', t.mem.word? (resultAddr i idx) = some w' ∧ IsF32 w' r ∧ (r = 0 → w' = 0x00000000#32) := by
  have hgrid : ∃ v : Int, r * 2 ^ 150 = (v : ℝ) := by
    obtain ⟨v, -, hv⟩ := hw
    exact ⟨2 * v, by push_cast; linarith⟩
  obtain ⟨t', w', ht, hword, hnear, hzero⟩ := exactTies i s idx r ha hn hr hgrid (hw.abs_le.trans_lt (by norm_num))
  cases hexec.symm.trans ht
  exact ⟨w', hword, hnear.isF32 hw, hzero⟩

section
variable {c n : Nat} {s t : State} {ics : Ics} {spec ovl : List Word}

/-- The address of an output element and of a new overlap element (R169). -/
theorem resultAddr_fb (hn : n < 1024) :
    resultAddr (.fb c) n = itemAddr c .pcm n ∧ resultAddr (.fb c) (1024 + n) = itemAddr c .ovl n :=
  ⟨if_pos hn, (if_neg (by omega)).trans (by rw [Nat.add_sub_cancel_left])⟩

/-- The results of FB on a silent spectrum: the old overlap and zeros (R169, R170). -/
theorem isResult_silence (hics : readIcs c s = .ok ics) (hspec : readFrame c .spec s = .ok spec)
    (hovl : readFrame c .ovl s = .ok ovl) (silent : ∀ w ∈ spec, f32Units w = some 0) (hn : n < s.frameLen) {v : ℝ}
    (hv : IsF32 (ovl.getD n 0#32) v) : IsResult s (.fb c) n v ∧ IsResult s (.fb c) (1024 + n) 0 := by
  obtain ⟨prev, hprev⟩ := item_chstate_total c s
  have finite : ∀ k < s.frameLen, IsF32 (spec.getD k 0#32) 0 := fun k hk => by
    have hk : k < spec.length := by rwa [readFrame_length hspec]
    rw [isF32_zero_iff, List.getD_eq_getElem _ _ hk]
    exact silent _ (List.getElem_mem hk)
  have pcm := IsResult.pcm hics hspec hprev hovl hn (fun k hk _ => finite k hk) hv (isFrame_zero ..)
  rw [zero_add] at pcm
  exact ⟨pcm, .ovl hics hspec hprev hn (fun k hk _ => finite k hk) (isFrame_zero ..)⟩

end

/-- Settles O57: the results on a silent spectrum are the old overlap and zeros (`isResult_silence`), all binary32 values, and FB stores
such results exactly (`exec_stores_f32`). -/
theorem fbSilence : Obligations.FbSilence := by
  unfold Obligations.FbSilence
  intro c s ics spec ovl hnum hf hc hics hspec hovl silent finite
  obtain ⟨prev, hprev⟩ := item_chstate_total c s
  have ha : Accepted (.fb c) s := ⟨hf, hc⟩
  have hexec := exec_fb_ok ha (fbBody_written hics hprev hspec hovl)
  refine ⟨_, hexec, fun n hn => ?_⟩
  have hlen : n < ovl.length := by rwa [readFrame_length hovl]
  obtain ⟨u, hu⟩ := Option.ne_none_iff_exists'.mp (finite _ (List.getElem_mem hlen))
  rw [← List.getD_eq_getElem _ 0#32 hlen] at hu
  have hv : IsF32 (ovl.getD n 0#32) (u / 2 ^ 149) := ⟨u, hu, div_mul_cancel₀ _ (pow_two_pos 149).ne'⟩
  obtain ⟨hpcm, hnew⟩ := isResult_silence hics hspec hovl silent hn hv
  obtain ⟨apcm, aovl⟩ := resultAddr_fb (c := c) (hn.trans_le (frameLen_le s))
  obtain ⟨w, hw, hwv, hw0⟩ := exec_stores_f32 ha hnum hexec hpcm hv
  obtain ⟨w', hw', -, hzero⟩ := exec_stores_f32 ha hnum hexec hnew (isF32_zero_iff (w := 0#32).mpr (by decide))
  rw [apcm] at hw
  rw [aovl, hzero rfl] at hw'
  have hunits := hwv.units_eq hv
  refine ⟨⟨w, hw, hunits, fun h0 => hw0 ?_⟩, hw'⟩
  obtain rfl : u = 0 := Option.some.inj ((hunits.trans hu).symm.trans h0)
  rw [Int.cast_zero, zero_div]

end Sys2Proof.Machine
end

section
/-! The control commands: NOP and FEND complete with their one effect, and SRST resets the registers and ChannelState and no other
byte (45_control.md R190 to R192; 70_reset_and_hazards.md R230): O32, O33 and O34. -/

namespace Sys2Proof.Machine

/-! ## Completion and FATAL (R190 to R192, R205) -/

section
variable {s : State}

theorem exec_fend (s : State) : exec .fend s = .next (complete { s with framecnt := s.framecnt + 1#32 }) :=
  runCommand_ok (i := .fend) (by simp)

theorem exec_srst (s : State) : exec .srst s = .next (complete (softReset s)) := runCommand_ok (i := .srst) (by simp)

/-- A command that FATAL blocks raises it before any check of its own (R203, R205). -/
theorem runCommand_fatal {i : Instr} {bad : Option Nat} {body : Except Stop State} (hf : s.status.fatal = true) :
    runCommand i false bad body s = raised .fatal 0 0 s := by
  unfold runCommand
  rw [if_pos (by simp [hf])]
  rfl

theorem exec_nop_eq (s : State) : exec .nop s = runCommand .nop false none (.ok s) s := rfl

theorem exec_nop (hf : s.status.fatal = false) : exec .nop s = .next (complete s) :=
  (exec_nop_eq s).trans (runCommand_ok (by simp [hf]))

theorem exec_nop_fatal (hf : s.status.fatal = true) : exec .nop s = raised .fatal 0 0 s :=
  (exec_nop_eq s).trans (runCommand_fatal hf)

end

/-! ## The word of NOP (R82, R84) -/

theorem opcode_eq_nop {i : Instr} (h : i.opcode = 0x00) : i = .nop := by
  cases i with
  | nop => rfl
  | iq | ms | is | tns | fb | fend | srst => simp [Instr.opcode] at h

/-- Of the words with NOP's code only its own is legal. -/
theorem decode_error_of_op_nop {w : Word} (hop : opField w = 0x00) (hw : w ≠ 0x00000000#32) : ∃ e, decode w = .error e := by
  cases hd : decode w with
  | error e => exact ⟨e, rfl⟩
  | ok i =>
    obtain rfl : i = .nop := opcode_eq_nop ((decode_eq_ok.mp hd).1.symm.trans hop)
    exact absurd ((decode_eq_ok_iff_eq_encode (by decide)).mp hd) hw

/-! ## The memory SRST leaves (R192, R230) -/

/-- A word of four zero bytes is 0 (R63). -/
theorem word_zero {m : Mem} {a : Nat} (h : ∀ k < 4, m.byte? (a + k) = some 0#8) : m.word? a = some 0x00000000#32 := by
  have h0 : m.byte? a = some 0#8 := h 0 (by decide)
  unfold Mem.word?
  rw [h0, h 1 (by decide), h 2 (by decide), h 3 (by decide)]
  rfl

/-- Every word of ChannelState is 0 after the soft reset (R230). -/
theorem softReset_channelState (s : State) (c : Nat) {it : Item} {i : Nat} (hi : i < it.count) (hit : it.isChannelState = true) :
    (softReset s).mem.word? (itemAddr c it i) = some 0x00000000#32 := by
  refine word_zero fun k hk => ?_
  have element : itemAddr c it i + k = itemAddr c it 0 + (4 * i + k) := by unfold itemAddr; omega
  rw [byte_softReset, element, inChannelState_itemAddr c it (by omega), hit, if_pos rfl]

/-- Every byte of ChannelState is one of OVL or CHSTATE of some slot (R30, R31). -/
theorem inChannelState_eq_false {x : Nat} (h : ∀ c, OutsideItem c .ovl 1024 x ∧ OutsideItem c .chstate 1 x) :
    inChannelState x = false := by
  obtain ⟨hovl, hchstate⟩ := h (x / 0x10000 - 1)
  by_contra hx
  simp only [inChannelState, Bool.not_eq_false, Bool.and_eq_true, Bool.or_eq_true, decide_eq_true_eq] at hx
  simp only [OutsideItem, itemAddr, slotBase, Item.offset] at hovl hchstate
  omega

/-- The soft reset leaves every byte outside ChannelState as it was (R192). -/
theorem softReset_sameBytes (s : State) :
    SameBytes s.mem (softReset s).mem fun x => ∀ c, OutsideItem c .ovl 1024 x ∧ OutsideItem c .chstate 1 x := by
  intro x hx
  rw [byte_softReset, inChannelState_eq_false hx, if_neg Bool.false_ne_true]

/-! ## The obligations -/

/-- Settles O34: SRST completes with the soft reset (`exec_srst`), which zeroes ChannelState (`softReset_channelState`) and leaves the
other bytes as they were (`softReset_sameBytes`). -/
theorem srstCompletes : Obligations.SrstCompletes := by
  unfold Obligations.SrstCompletes
  exact fun s => ⟨(softReset s).mem, exec_srst s, fun c i hi => softReset_channelState s c hi rfl,
    fun c => softReset_channelState s c (by decide) rfl, softReset_sameBytes s⟩

/-- Settles O32: NOP's body writes nothing, so it completes (`exec_nop`) unless FATAL is raised first (`exec_nop_fatal`). -/
theorem nopCompletes : Obligations.NopCompletes := by
  unfold Obligations.NopCompletes
  exact ⟨⟨decode_encode (i := .nop) (by decide), fun w => decode_error_of_op_nop⟩, fun s => exec_nop, fun s => exec_nop_fatal⟩

/-- Settles O33: FRAMECNT is a 32-bit word, whose sum with 1 wraps at 2^32. -/
theorem fendCompletes : Obligations.FendCompletes := by
  unfold Obligations.FendCompletes
  exact ⟨decode_encode (i := .fend) (by decide), fun s => ⟨_, exec_fend s, BitVec.toNat_add .., rfl⟩⟩

end Sys2Proof.Machine
end

section
/-! Errors, FATAL and the interrupt line: what a step does to the sticky fields of STATUS, and that a command writes its own write set
or nothing but the error (60_exceptions.md R200 to R206, R209): O11, O12, O15, O23 and O31. -/

namespace Sys2Proof.Machine

/-! ## All or nothing (R200, R201) -/

section
variable {i : Instr} {s t : State} {x : Nat}

/-- A byte outside the write set lies outside every run of elements that is in it. -/
theorem outsideItem_of_not_writesByte {c n : Nat} {it : Item} (hn : n ≤ it.count)
    (hset : ∀ k < n, inWriteSet i s (.item c it k) = true) (hx : ¬WritesByte i s x) : OutsideItem c it n x := by
  by_contra hin
  obtain ⟨hlo, hhi⟩ : itemAddr c it 0 ≤ x ∧ x < itemAddr c it 0 + 4 * n := by unfold OutsideItem at hin; omega
  have helement : x - x % 4 = itemAddr c it ((x - itemAddr c it 0) / 4) := by
    have := item_aligned it
    unfold itemAddr slotBase at *
    omega
  exact hx ⟨_, by rw [helement]; exact locOfOffset_item c (by omega), hset _ (by omega)⟩

/-- A command's writes keep to its write set (R48). -/
def WritesOnlyItsSet (i : Instr) (s t : State) : Prop :=
  KeepsRegisters i s t ∧ SameBytes s.mem t.mem fun x => ¬WritesByte i s x

theorem keepsRegisters_of_mem (h : t = { s with mem := t.mem }) : KeepsRegisters i s t := by
  rw [h]
  exact ⟨rfl, rfl, rfl, rfl, fun _ => ⟨rfl, rfl, rfl, fun _ => rfl, fun _ => rfl, rfl⟩⟩

/-- Stores to the spectrum of slots whose spectrum is in the write set keep to it. -/
theorem SpecStores.writesOnlyItsSet {cs : List Nat} (h : SpecStores cs s t)
    (hset : ∀ c ∈ cs, ∀ k < s.frameLen, inWriteSet i s (.item c .spec k) = true) : WritesOnlyItsSet i s t :=
  ⟨keepsRegisters_of_mem h.eq, fun _ hx => h.byte fun c hc =>
    outsideItem_of_not_writesByte (frameLen_le s) (hset c hc) hx⟩

/-- FB's writes keep to its write set: PCM, OVL and CHSTATE of its slot, STARTED and WT (R170). -/
theorem fbBody_writesOnlyItsSet {c : Nat} (h : fbBody c s = .ok t) : WritesOnlyItsSet (.fb c) s t := by
  obtain ⟨pcm, ovl, chstate, wt, hpcm, hovl, hchstate, rfl⟩ := fbBody_ok h
  refine ⟨⟨rfl, rfl, rfl, rfl, fun _ => ⟨rfl, rfl, rfl, fun _ => rfl, fun hfb => absurd rfl (hfb c), rfl⟩⟩, fun x hx => ?_⟩
  have outside : ∀ {it : Item} {ws : List Word}, ws.length ≤ it.count →
      (∀ k < ws.length, inWriteSet (.fb c) s (.item c it k) = true) → OutsideItem c it (0 + ws.length) x :=
    fun hn hset => (Nat.zero_add _).symm ▸ outsideItem_of_not_writesByte hn hset hx
  have hL := frameLen_le s
  calc (((s.setItems c .pcm 0 pcm).setItems c .ovl 0 ovl).setItems c .chstate 0 chstate).mem.byte? x
      = ((s.setItems c .pcm 0 pcm).setItems c .ovl 0 ovl).mem.byte? x :=
        byte_setItems_outside (outside hchstate.le fun k hk => by
          obtain rfl : k = 0 := by omega
          simp [inWriteSet])
    _ = (s.setItems c .pcm 0 pcm).mem.byte? x :=
        byte_setItems_outside (outside (hovl.trans_le hL) fun k hk => by simp [inWriteSet, isFrameOf, ← hovl, hk])
    _ = s.mem.byte? x :=
        byte_setItems_outside (outside (hpcm.trans_le hL) fun k hk => by simp [inWriteSet, isFrameOf, ← hpcm, hk])

/-- SRST's writes keep to its write set: the registers, and ChannelState of every slot (R192). -/
theorem softReset_writesOnlyItsSet (s : State) : WritesOnlyItsSet .srst s (softReset s) :=
  ⟨⟨rfl, rfl, rfl, rfl, fun h => absurd rfl h⟩, fun x hx => softReset_sameBytes s x fun c =>
    ⟨outsideItem_of_not_writesByte (by decide) (fun _ _ => rfl) hx,
      outsideItem_of_not_writesByte (by decide) (fun _ _ => rfl) hx⟩⟩

/-- What a command stores when it meets no stop keeps to its write set. -/
theorem commandBody_writesOnlyItsSet (h : commandBody i s = .ok t) : WritesOnlyItsSet i s t := by
  have frame : ∀ {c k : Nat}, k < s.frameLen → isFrameOf c .spec s (.item c .spec k) = true :=
    fun hk => isFrameOf_iff.mpr ⟨_, hk, rfl⟩
  cases i with
  | nop =>
    cases h
    exact ⟨keepsRegisters_of_mem rfl, fun _ _ => rfl⟩
  | iq c => exact (iqBody_ok h).writesOnlyItsSet (by simpa [inWriteSet] using fun k => frame)
  | ms a b =>
    refine (msBody_ok h).writesOnlyItsSet fun c hc k hk => Bool.or_eq_true_iff.mpr ?_
    obtain rfl | rfl : c = a ∨ c = b := by simpa using hc
    · exact .inl (frame hk)
    · exact .inr (frame hk)
  | is a b => exact (isBody_ok h).writesOnlyItsSet (by simpa [inWriteSet] using fun k => frame)
  | tns c => exact (tnsBody_ok h).writesOnlyItsSet (by simpa [inWriteSet] using fun k => frame)
  | fb c => exact fbBody_writesOnlyItsSet h
  | fend =>
    cases h
    exact ⟨⟨rfl, rfl, rfl, rfl, fun _ => ⟨rfl, rfl, rfl, fun hi => absurd rfl hi, fun _ => rfl, rfl⟩⟩, fun _ _ => rfl⟩
  | srst =>
    cases h
    exact softReset_writesOnlyItsSet s

end

/-- Settles O12, by what the common shape makes of a command's body (`runCommand_cases`): a check or a stop of the body raises its error
(`commandBody_stop`), and a body that meets none keeps to the write set (`commandBody_writesOnlyItsSet`). -/
theorem allOrNothing : Obligations.AllOrNothing := by
  unfold Obligations.AllOrNothing
  intro i s t h
  obtain ⟨fe, bad, hshape, -, -⟩ := exec_eq_runCommand i s
  rcases runCommand_cases (i := i) (fe := fe) (bad := bad) (body := commandBody i s) (s := s) with
    ⟨-, -, hr⟩ | ⟨-, ⟨x, -, hr⟩ | ⟨-, ⟨t', hb, hr⟩ | ⟨e, ch, d, hb, hr⟩ | ⟨a, -, hr⟩⟩⟩ <;>
    cases hr.symm.trans (hshape.symm.trans h)
  · exact .inl ⟨.fatal, 0, 0, by decide, rfl⟩
  · exact .inl ⟨.badChannel, x, 0, by decide, rfl⟩
  · exact .inr ⟨t', rfl, commandBody_writesOnlyItsSet hb⟩
  · exact .inl ⟨e, ch, d, commandBody_stop hb, rfl⟩

/-! ## What a step does to DONE, ERR, FATAL and CFG -/

/-- What a step that is no reset leaves of the sticky fields: FATAL stays (R205); DONE and ERR stay but for a host write of 1 to their
bit, and with ERR its record (R202, R209); CFG stays but for a host write to it (R23). -/
structure StickyKept (s t : State) : Prop where
  fatal : s.status.fatal = true → t.status.fatal = true
  done : s.status.done = true → t.status.done = true ∨ ∃ v, WritesReg s .status v ∧ bit 1 v = true
  err : s.status.err = true →
    (t.status.err = true ∧ t.status.errcode = s.status.errcode ∧ t.errinfo = s.errinfo) ∨
      (t.status.err = false ∧ ∃ v, WritesReg s .status v ∧ bit 2 v = true)
  cfg : t.cfg = s.cfg ∨ ∃ v, WritesReg s .cfg v

section
variable {s t : State}

/-- A step that at most sets flags, and leaves a record and CFG alone, keeps the sticky fields. -/
theorem stickyKept_of_grows (fatal : s.status.fatal = true → t.status.fatal = true)
    (done : s.status.done = true → t.status.done = true)
    (err : s.status.err = true → t.status.err = true ∧ t.status.errcode = s.status.errcode ∧ t.errinfo = s.errinfo)
    (cfg : t.cfg = s.cfg) : StickyKept s t :=
  ⟨fatal, fun h => .inl (done h), fun h => .inl (err h), .inl cfg⟩

/-- Completion with an error keeps an earlier record (R202). -/
theorem stickyKept_raised {e : ErrCode} {ch d : Nat} : StickyKept s (complete (recordError e ch d s)) :=
  stickyKept_of_grows (by simp) (by simp) (fun h => by rw [recordError_of_err h]; exact ⟨h, rfl, rfl⟩) (by simp)

/-- Only SRST's writes take a sticky field back (R200). -/
theorem CommandWrites.stickyKept {i : Instr} (h : CommandWrites s i t) (hi : i ≠ .srst) : StickyKept s (complete t) := by
  cases h with
  | spectrum _ _ _ stores =>
    rw [stores.eq]
    exact stickyKept_of_grows id (fun _ => rfl) (fun h => ⟨h, rfl, rfl⟩) rfl
  | fb => exact stickyKept_of_grows id (fun _ => rfl) (fun h => ⟨h, rfl, rfl⟩) rfl
  | fend => exact stickyKept_of_grows id (fun _ => rfl) (fun h => ⟨h, rfl, rfl⟩) rfl
  | srst => exact absurd rfl hi

/-- A STATUS write takes DONE and ERR back exactly where its bit is 1 (R24). -/
theorem writeStatus_stickyKept {rest : List HostOp} {v : Word} (writes : WritesReg s .status v) :
    StickyKept s (writeStatus v (s.popped rest)) := by
  rw [writeStatus_eq]
  refine ⟨id, fun h => ?_, fun h => ?_, .inl rfl⟩
  · cases hv : bit 1 v with
    | false => exact .inl (by simp [h])
    | true => exact .inr ⟨v, writes, hv⟩
  · cases hv : bit 2 v with
    | false => exact .inl (by simp [h])
    | true => exact .inr ⟨by simp, v, writes, hv⟩

/-- What a CFG write that would change FL960 of a started stream leaves: the enables, FATAL, and the record of CONFIG unless there is
one already (R204). -/
theorem writeCfg_error {v : Word} (hs : s.status.started = true) (hv : bit 0 v ≠ s.cfg.fl960) : writeCfg v s =
    { s with
      cfg := { s.cfg with ieDone := bit 8 v, ieErr := bit 9 v }
      status := { s.status with
        err := true
        fatal := true
        errcode := if s.status.err then s.status.errcode else .config }
      errinfo := if s.status.err then s.errinfo else { ch := 0#4, detail := 0#16 } } := by
  rcases writeCfg_cases v s with ⟨hc, -⟩ | ⟨-, -, u, rfl, hw⟩
  · exact absurd ⟨hs, hv⟩ hc
  · rw [hw]
    cases he : s.status.err <;> simp [recordError, he]

/-- A CFG write, with the error of R204 or without, takes none of them back. -/
theorem writeCfg_stickyKept {rest : List HostOp} {v : Word} (writes : WritesReg s .cfg v) :
    StickyKept s (writeCfg v (s.popped rest)) := by
  rcases writeCfg_cases v (s.popped rest) with ⟨-, hw⟩ | ⟨hs, hv, -⟩
  · rw [hw]
    exact ⟨id, .inl, fun h => .inl ⟨h, rfl, rfl⟩, .inr ⟨v, writes⟩⟩
  · rw [writeCfg_error hs hv]
    exact ⟨fun _ => rfl, .inl, fun h => .inl ⟨rfl, if_pos h, if_pos h⟩, .inr ⟨v, writes⟩⟩

/-- A step is a reset, which clears ERR, or keeps the sticky fields. -/
theorem step_stickyKept (h : step s = .next t) : (Resets s ∧ t.status.err = false) ∨ StickyKept s t := by
  have unchanged : ∀ {u : State}, u.status = s.status → u.errinfo = s.errinfo → u.cfg = s.cfg → StickyKept s u :=
    fun hs he hc => stickyKept_of_grows (by simp [hs]) (by simp [hs]) (by simp [hs, he]) hc
  cases step_cases h with
  | @ran i _ run ends =>
    cases ends with
    | completed writes =>
      by_cases hi : i = .srst
      · subst hi
        cases writes with
        | spectrum _ srst _ _ => exact absurd rfl srst
        | srst => exact .inl ⟨.inl run, rfl⟩
      · exact .inr (writes.stickyKept hi)
    | raised _ _ _ => exact .inr stickyKept_raised
  | illegal _ _ => exact .inr stickyKept_raised
  | idle _ => exact .inr (unchanged rfl rfl rfl)
  | listened _ => exact .inr (unchanged rfl rfl rfl)
  | poweredOn power => exact .inl ⟨.inr power, rfl⟩
  | dropped _ => exact .inr (stickyKept_of_grows id id (fun h => ⟨h, rfl, rfl⟩) rfl)
  | wroteStatus _ writes => exact .inr (writeStatus_stickyKept writes)
  | wroteCfg _ writes => exact .inr (writeCfg_stickyKept writes)
  | issued _ _ => exact .inr (stickyKept_of_grows id id (fun h => ⟨h, rfl, rfl⟩) rfl)
  | wroteItem _ _ _ _ => exact .inr (unchanged rfl rfl rfl)

/-- The line falls only when a source of it does, or its enable (R206). -/
theorem StickyKept.irq (h : StickyKept s t) (hs : s.irq = true) (ht : t.irq = false) :
    ∃ v, WritesReg s .status v ∨ WritesReg s .cfg v := by
  rcases h.cfg with hcfg | ⟨v, hv⟩
  · unfold State.irq at hs ht
    rw [hcfg] at ht
    rcases Bool.or_eq_true_iff.mp hs with hsource | hsource <;> obtain ⟨hpending, henabled⟩ := Bool.and_eq_true_iff.mp hsource
    · rcases h.done hpending with hkept | ⟨v, hv, -⟩
      · simp [hkept, henabled] at ht
      · exact ⟨v, .inl hv⟩
    · rcases h.err hpending with ⟨hkept, -⟩ | ⟨-, v, hv, -⟩
      · simp [hkept, henabled] at ht
      · exact ⟨v, .inl hv⟩
  · exact ⟨v, .inr hv⟩

end

/-! ## FATAL (R205) -/

/-- Every command but FEND and SRST takes FATAL's check first (R203, R205). -/
theorem exec_fatal {i : Instr} {s : State} (hf : s.status.fatal = true) (fend : i ≠ .fend) (srst : i ≠ .srst) :
    exec i s = raised .fatal 0 0 s := by
  cases i with
  | nop => exact exec_nop_fatal hf
  | iq c => exact runCommand_fatal hf
  | ms a b => exact runCommand_fatal hf
  | is a b => exact runCommand_fatal hf
  | tns c => exact runCommand_fatal hf
  | fb c => exact runCommand_fatal hf
  | fend => exact absurd rfl fend
  | srst => exact absurd rfl srst

/-! ## The obligations -/

/-- Settles O11: a step that keeps ERR keeps its record (`step_stickyKept`). -/
theorem errorRecord : Obligations.ErrorRecord := by
  unfold Obligations.ErrorRecord
  refine ⟨fun e ch d s h => recordError_of_noErr h e ch d, fun e ch d s h => recordError_of_err h e ch d, by decide,
    fun s t hstep hs ht => ?_⟩
  rcases step_stickyKept hstep with ⟨-, hcleared⟩ | kept
  · exact absurd ht (by simp [hcleared])
  · rcases kept.err hs with ⟨-, hrecord⟩ | ⟨hcleared, -⟩
    · exact hrecord
    · exact absurd ht (by simp [hcleared])

/-- Settles O15: FATAL's check comes first (`exec_fatal`) except for FEND and SRST, and no step but a reset takes FATAL back
(`step_stickyKept`). -/
theorem fatalBlocks : Obligations.FatalBlocks := by
  unfold Obligations.FatalBlocks
  refine ⟨fun i s => exec_fatal, fun s => ⟨_, exec_fend s, rfl⟩, fun s => ⟨_, exec_srst s, rfl⟩, fun s t hstep hs ht => ?_⟩
  rcases step_stickyKept hstep with ⟨hreset, -⟩ | kept
  · exact hreset
  · exact absurd (kept.fatal hs) (by simp [ht])

/-- Settles O23: the write of `writeCfg_error`, whose record is CONFIG's or the earlier one. -/
theorem configError : Obligations.ConfigError := by
  unfold Obligations.ConfigError
  intro s v hp hb hs hv
  refine ⟨writeCfg v s, (hostWrite_reg hp .cfg).trans (by rw [writeLoc_idle hb]; rfl), ?_⟩
  rw [writeCfg_error hs hv]
  exact ⟨rfl, rfl, fun he => by simp [he], fun he => by simp [he], rfl⟩

/-- Settles O31: what a step that is no reset leaves of DONE, ERR and CFG (`step_stickyKept`), and of the line (`StickyKept.irq`). -/
theorem interruptLine : Obligations.InterruptLine := by
  unfold Obligations.InterruptLine
  refine ⟨fun s => rfl, fun s t hstep => ?_⟩
  rcases step_stickyKept hstep with ⟨hreset, -⟩ | kept
  · exact ⟨fun _ _ => .inl hreset, fun _ _ => .inl hreset, fun _ _ => .inl hreset⟩
  · refine ⟨fun hs ht => .inr ?_, fun hs ht => .inr ?_, fun hs ht => .inr (kept.irq hs ht)⟩
    · exact (kept.done hs).resolve_left (by simp [ht])
    · rcases kept.err hs with ⟨hkept, -⟩ | ⟨-, hwritten⟩
      · exact absurd hkept (by simp [ht])
      · exact hwritten

end Sys2Proof.Machine
end

section
/-! Reset: the state the power-on reset leaves, and that the reset state meets the invariant (70_reset_and_hazards.md R230, R231;
10_state.md R30, R31, R51): O30 and O10. -/

namespace Sys2Proof.Machine

/-! ## Empty memory (R51, R230) -/

/-- With nothing listed a byte of ChannelState is 0 and a byte of any other item holds no value (R31, R51). -/
theorem byte_nil_itemAddr (c : Nat) {it : Item} {i k : Nat} (hi : i < it.count) (hk : k < 4) :
    Mem.byte? [] (itemAddr c it i + k) = if it.isChannelState then some 0#8 else none := by
  have element : itemAddr c it i + k = itemAddr c it 0 + (4 * i + k) := by unfold itemAddr; omega
  have slot := inChannelState_itemAddr c it (k := 4 * i + k) (by omega)
  rw [element, ← slot]
  rfl

/-- A word whose first byte holds no value holds none (R63). -/
theorem word_none {m : Mem} {a : Nat} (h : m.byte? a = none) : m.word? a = none := by
  unfold Mem.word?
  rw [h]

theorem isChannelState_iff (it : Item) : it.isChannelState = true ↔ it = .ovl ∨ it = .chstate := by
  cases it <;> decide

/-- With nothing listed OVL and CHSTATE read 0 and every other item holds no value (R30, R230). -/
theorem word_nil_itemAddr (c : Nat) {it : Item} {i : Nat} (hi : i < it.count) :
    Mem.word? [] (itemAddr c it i) = if it = .ovl ∨ it = .chstate then some 0x00000000#32 else none := by
  by_cases hit : it.isChannelState = true
  · rw [if_pos ((isChannelState_iff it).mp hit)]
    exact word_zero fun k hk => (byte_nil_itemAddr c hi hk).trans (if_pos hit)
  · rw [if_neg fun h => hit ((isChannelState_iff it).mpr h)]
    exact word_none ((byte_nil_itemAddr c hi (k := 0) (by decide)).trans (if_neg hit))

/-! ## Power-on (R231) -/

/-- The power-on reset is the host's next event. -/
theorem PowersOn.step_eq {s : State} (h : PowersOn s) : ∃ rest, step s = .next (powerOnReset (s.popped rest)) := by
  obtain ⟨host, rest, hp⟩ := h
  exact ⟨rest, host.step_cons hp⟩

/-! ## The obligations -/

/-- Settles O30: the registers are `powerOnReset`'s, and the items are those of a memory that lists nothing (`word_nil_itemAddr`). -/
theorem resetState : Obligations.ResetState := by
  unfold Obligations.ResetState
  refine ⟨fun s power => ?_, rfl, rfl, rfl, rfl, rfl⟩
  obtain ⟨rest, hstep⟩ := power.step_eq
  exact ⟨_, hstep, rfl, rfl, rfl, rfl, rfl, rfl, fun c it i hi => word_nil_itemAddr c hi⟩

/-- Settles O10: NCH 8 and BASE 0 are legal, memory lists nothing (`nil_good`), and neither ERR nor FATAL is 1. -/
theorem resetInv : Obligations.ResetInv := by
  unfold Obligations.ResetInv
  have noErr : State.reset.status.err = false := rfl
  have noFatal : State.reset.status.fatal = false := rfl
  exact ⟨by decide, nil_good _, ⟨fun _ => ⟨rfl, rfl⟩, by simp [noErr]⟩, by simp [State.FatalGood, noFatal]⟩

end Sys2Proof.Machine
end
